-- ==== Sys2Proof/Word.lean ====
section
/-!
DEFINITION. The word types of the KD-2 (R14): bytes, halves, words and dwords, and the register, window and
mask numbers that instruction fields name (R65, R67).
-/
namespace Sys2Proof

/-- A byte is 8 bits (R14). -/
abbrev Byte := BitVec 8

/-- A general register, control register or window descriptor: 64 bits (R91, R100, R164). -/
abbrev Word := BitVec 64

/-- The number of a general register g0–g31 (R65). -/
abbrev Reg := BitVec 5

/-- The number of a window-table entry w0–w31 (R65). -/
abbrev Win := BitVec 5

/-- A mask register: 2048 bits (R91). -/
abbrev Mask := BitVec 2048

end Sys2Proof
end

