-- ==== Sys2Proof/Syntax.lean ====
section
/-!
DEFINITION. The syntax of the machine's steps: one constructor of `Instr` per row of spec/opcode_table.json. The first
235 rows are the instruction words of R69–R75, a field per operand and modifier of the row, with the names of the
operand templates; the last 55 are the steps of the device, of its headframe and of the parties outside it, which
have no word. Their arguments name what takes part in the step and every choice the manual leaves to it.
-/
namespace Sys2Proof

/-- Where LAUNCH_PLACE puts one strand (R95, R367): physical core, strand slot, pad offset of its allotment, and
whether it is made parked without its allotments (R367, pipe = 1). -/
structure Place where
  core   : Nat
  slot   : Nat
  padOff : Nat
  parked : Bool
  deriving DecidableEq, Repr

/-- A message that arrives from another device of the fabric (R389, R390): its peer address, its sender's domain
(R391), and the bytes written, `half` where only the low nibble of the last one is part of it (R15), or the number of bytes
read. -/
inductive PeerMsg where
  | put (addr : Word) (domain : BitVec 16) (data : List Byte) (half : Bool)
  | get (addr : Word) (domain : BitVec 16) (len : Nat)
  deriving DecidableEq, Repr

/-- Which message MESSAGE_APPLY applies: the `n`-th message of this device still unapplied, or a peer's. -/
inductive MsgOrigin where
  | own  (n : Nat)
  | peer (m : PeerMsg)
  deriving DecidableEq, Repr

/-- A request of SPDM on the physical function (R410): a certificate chain, a challenge, the measurements, signed or not, a
key exchange under a chain, the end of the session, or IDE_KM keys for the stream of a function and link. -/
inductive Spdm where
  | certificate (alg : Nat)
  | challenge
  | measurements (signed : Bool)
  | keyExchange (alg : Nat)
  | endSession
  | ideKey (fn link : Nat)
  deriving DecidableEq, Repr

/-- One step of the machine, by its row of the opcode table. -/
inductive Instr where
  | add (gd ga gb : Reg)
  | sub (gd ga gb : Reg)
  | and (gd ga gb : Reg)
  | or (gd ga gb : Reg)
  | xor (gd ga gb : Reg)
  | andn (gd ga gb : Reg)
  | sll (gd ga gb : Reg)
  | srl (gd ga gb : Reg)
  | sra (gd ga gb : Reg)
  | rol (gd ga gb : Reg)
  | slt (gd ga gb : Reg)
  | sltn (gd ga gb : Reg)
  | min (gd ga gb : Reg)
  | max (gd ga gb : Reg)
  | minn (gd ga gb : Reg)
  | maxn (gd ga gb : Reg)
  | addw (gd ga gb : Reg)
  | subw (gd ga gb : Reg)
  | mul (gd ga gb : Reg)
  | mulh (gd ga gb : Reg)
  | mulhn (gd ga gb : Reg)
  | div (gd ga gb : Reg)
  | divn (gd ga gb : Reg)
  | rem (gd ga gb : Reg)
  | remn (gd ga gb : Reg)
  | clz (gd ga : Reg)
  | ctz (gd ga : Reg)
  | popc (gd ga : Reg)
  | sextb (gd ga : Reg)
  | sexth (gd ga : Reg)
  | sextw (gd ga : Reg)
  | zextb (gd ga : Reg)
  | zexth (gd ga : Reg)
  | zextw (gd ga : Reg)
  | bswap (gd ga : Reg)
  | addi (gd ga : Reg) (imm : BitVec 15)
  | andi (gd ga : Reg) (imm : BitVec 15)
  | ori (gd ga : Reg) (imm : BitVec 15)
  | xori (gd ga : Reg) (imm : BitVec 15)
  | slti (gd ga : Reg) (imm : BitVec 15)
  | sltni (gd ga : Reg) (imm : BitVec 15)
  | slli (gd ga : Reg) (sh : BitVec 6)
  | srli (gd ga : Reg) (sh : BitVec 6)
  | srai (gd ga : Reg) (sh : BitVec 6)
  | roli (gd ga : Reg) (sh : BitVec 6)
  | lih (gd : Reg) (imm : BitVec 20)
  | pcadd (gd : Reg) (imm : BitVec 20)
  | ldB (gd ga : Reg) (off : BitVec 12)
  | ldBn (gd ga : Reg) (off : BitVec 12)
  | ldH (gd ga : Reg) (off : BitVec 12)
  | ldHn (gd ga : Reg) (off : BitVec 12)
  | ldW (gd ga : Reg) (off : BitVec 12)
  | ldWn (gd ga : Reg) (off : BitVec 12)
  | ldD (gd ga : Reg) (off : BitVec 12)
  | stB (gs ga : Reg) (off : BitVec 12)
  | stH (gs ga : Reg) (off : BitVec 12)
  | stW (gs ga : Reg) (off : BitVec 12)
  | stD (gs ga : Reg) (off : BitVec 12)
  | lda (gd ga : Reg) (sz scope : BitVec 3) (off : BitVec 9)
  | stl (gs ga : Reg) (sz scope : BitVec 3) (off : BitVec 9)
  | amo (gd ga gb : Reg) (op : BitVec 4) (order : BitVec 2) (scope : BitVec 3) (sz : BitVec 1)
  | brEq (ga gb : Reg) (off : BitVec 12)
  | brNe (ga gb : Reg) (off : BitVec 12)
  | brLt (ga gb : Reg) (off : BitVec 12)
  | brGe (ga gb : Reg) (off : BitVec 12)
  | brLtn (ga gb : Reg) (off : BitVec 12)
  | brGen (ga gb : Reg) (off : BitVec 12)
  | jal (gd : Reg) (off : BitVec 20)
  | jalr (gd ga : Reg) (imm : BitVec 15)
  | fadd (gd ga gb : Reg)
  | fsub (gd ga gb : Reg)
  | fmul (gd ga gb : Reg)
  | fdiv (gd ga gb : Reg)
  | fsqrt (gd ga : Reg)
  | fmin (gd ga gb : Reg)
  | fmax (gd ga gb : Reg)
  | fsgnj (gd ga gb : Reg)
  | fsgnjn (gd ga gb : Reg)
  | fsgnjx (gd ga gb : Reg)
  | fmadd (gd ga gb gc : Reg)
  | fmsub (gd ga gb gc : Reg)
  | fnmadd (gd ga gb gc : Reg)
  | fnmsub (gd ga gb gc : Reg)
  | fcvtF32I32 (gd ga : Reg)
  | fcvtF32N32 (gd ga : Reg)
  | fcvtF32I64 (gd ga : Reg)
  | fcvtF32N64 (gd ga : Reg)
  | fcvtI32F32 (gd ga : Reg)
  | fcvtN32F32 (gd ga : Reg)
  | fcvtI64F32 (gd ga : Reg)
  | fcvtN64F32 (gd ga : Reg)
  | fcvtBf16F32 (gd ga : Reg)
  | fcvtF32Bf16 (gd ga : Reg)
  | feq (gd ga gb : Reg)
  | flt (gd ga gb : Reg)
  | fle (gd ga gb : Reg)
  | fclass (gd ga : Reg)
  | crr (gd : Reg) (cr : BitVec 12)
  | crw (gd ga : Reg) (cr : BitVec 12)
  | movk (gd ga : Reg) (kn : BitVec 3) (imm : BitVec 5)
  | kmov (ga gb : Reg) (kn : BitVec 3) (imm : BitVec 5)
  | strip (gd ga : Reg)
  | wdef (c : BitVec 1) (w : Win) (ga : Reg)
  | wget (c : BitVec 1) (w : Win) (gd : Reg)
  | wcopy (c : BitVec 1) (w wsrc : Win)
  | worg (c : BitVec 1) (w : Win) (ga gb : Reg)
  | wtype (c : BitVec 1) (w : Win) (ty : BitVec 5)
  | vcfg (c : BitVec 1) (ga gb : Reg) (fields : BitVec 7)
  | vadd (c x : BitVec 1) (wd wa wb : Win) (kn ke : BitVec 3)
  | vsub (c x : BitVec 1) (wd wa wb : Win) (kn ke : BitVec 3)
  | vmin (c x : BitVec 1) (wd wa wb : Win) (kn ke : BitVec 3)
  | vmax (c x : BitVec 1) (wd wa wb : Win) (kn ke : BitVec 3)
  | vand (c : BitVec 1) (wd wa wb : Win) (kn : BitVec 3)
  | vor (c : BitVec 1) (wd wa wb : Win) (kn : BitVec 3)
  | vxor (c : BitVec 1) (wd wa wb : Win) (kn : BitVec 3)
  | vandn (c : BitVec 1) (wd wa wb : Win) (kn : BitVec 3)
  | vshl (c : BitVec 1) (wd wa wb : Win) (kn : BitVec 3)
  | vshr (c : BitVec 1) (wd wa wb : Win) (kn : BitVec 3)
  | vsra (c : BitVec 1) (wd wa wb : Win) (kn : BitVec 3)
  | vrol (c : BitVec 1) (wd wa wb : Win) (kn : BitVec 3)
  | vmul (c x : BitVec 1) (wd wa wb : Win) (kn ke : BitVec 3)
  | vmulh (c x : BitVec 1) (wd wa wb : Win) (kn ke : BitVec 3)
  | vfma (c x : BitVec 1) (wd wa wb : Win) (kn ke : BitVec 3)
  | vfms (c x : BitVec 1) (wd wa wb : Win) (kn ke : BitVec 3)
  | vdiv (c x : BitVec 1) (wd wa wb : Win) (kn ke : BitVec 3)
  | vsqrt (c x : BitVec 1) (wd wa : Win) (kn ke : BitVec 3)
  | vrcp (c x : BitVec 1) (wd wa : Win) (kn ke : BitVec 3)
  | vrsq (c x : BitVec 1) (wd wa : Win) (kn ke : BitVec 3)
  | vexp2 (c x : BitVec 1) (wd wa : Win) (kn ke : BitVec 3)
  | vlog2 (c x : BitVec 1) (wd wa : Win) (kn ke : BitVec 3)
  | vabs (c x : BitVec 1) (wd wa : Win) (kn ke : BitVec 3)
  | vneg (c x : BitVec 1) (wd wa : Win) (kn ke : BitVec 3)
  | vceq (c : BitVec 1) (kd : BitVec 3) (wa wb : Win) (kn : BitVec 3)
  | vcne (c : BitVec 1) (kd : BitVec 3) (wa wb : Win) (kn : BitVec 3)
  | vclt (c : BitVec 1) (kd : BitVec 3) (wa wb : Win) (kn : BitVec 3)
  | vcle (c : BitVec 1) (kd : BitVec 3) (wa wb : Win) (kn : BitVec 3)
  | vsel (c : BitVec 1) (wd wa wb : Win) (kn : BitVec 3)
  | vmov (c : BitVec 1) (wd wa : Win) (kn : BitVec 3)
  | vmerge (c : BitVec 1) (wd wa : Win) (kn ke : BitVec 3)
  | viota (c : BitVec 1) (wd : Win) (kn : BitVec 3)
  | vadds (c x : BitVec 1) (wd wa : Win) (ga : Reg) (kn ke : BitVec 3)
  | vmuls (c x : BitVec 1) (wd wa : Win) (ga : Reg) (kn ke : BitVec 3)
  | vbcast (c : BitVec 1) (wd : Win) (ga : Reg) (kn : BitVec 3)
  | vextr (c : BitVec 1) (gd : Reg) (wa : Win) (ga : Reg)
  | vredsum (c : BitVec 1) (wd wa : Win) (kn : BitVec 3)
  | vredmax (c : BitVec 1) (wd wa : Win) (kn : BitVec 3)
  | vredmin (c : BitVec 1) (wd wa : Win) (kn : BitVec 3)
  | vscan (c : BitVec 1) (wd wa : Win) (kn : BitVec 3)
  | vcvt (c x : BitVec 1) (wd wa : Win) (kn ke : BitVec 3)
  | vperm (c : BitVec 1) (wd wa wb : Win) (kn : BitVec 3)
  | vslide (c : BitVec 1) (wd wa : Win) (ga : Reg) (kn : BitVec 3)
  | vcompress (c : BitVec 1) (wd wa : Win) (kn : BitVec 3)
  | kfun (c : BitVec 1) (kd ka kb : BitVec 3) (tt : BitVec 4)
  | kpop (c : BitVec 1) (gd : Reg) (ka : BitVec 3)
  | kfirst (c : BitVec 1) (gd : Reg) (ka : BitVec 3)
  | kset (c : BitVec 1) (kd : BitVec 3) (ga : Reg)
  | kclr (c : BitVec 1) (kd : BitVec 3) (ga : Reg)
  | kbit (c : BitVec 1) (gd : Reg) (ka : BitVec 3) (ga : Reg)
  | vld (c x : BitVec 1) (wd : Win) (ga : Reg) (kn ke : BitVec 3)
  | vlds (c x : BitVec 1) (wd : Win) (ga : Reg) (kn ke : BitVec 3)
  | vldff (c x : BitVec 1) (wd : Win) (ga : Reg) (kn ke : BitVec 3)
  | vldb (c x : BitVec 1) (wd : Win) (ga : Reg) (kn ke : BitVec 3)
  | vst (c : BitVec 1) (ws : Win) (ga : Reg) (kn : BitVec 3)
  | vsts (c : BitVec 1) (ws : Win) (ga : Reg) (kn : BitVec 3)
  | vstduo (c : BitVec 1) (ws : Win) (ga : Reg) (kn : BitVec 3)
  | vldx (c x : BitVec 1) (wd wi : Win) (ga : Reg) (kn ke : BitVec 3)
  | vstx (c : BitVec 1) (ws wi : Win) (ga : Reg) (kn : BitVec 3)
  | vamo (c : BitVec 1) (wd wa : Win) (ga : Reg) (kn op : BitVec 3) (order : BitVec 2)
  | vamoX (c : BitVec 1) (wd wa : Win) (ga : Reg) (kn op : BitVec 3) (order : BitVec 2)
  | tagset (c : BitVec 1) (wa : Win) (ga : Reg) (kn : BitVec 3)
  | satt (c : BitVec 1) (ga : Reg)
  | sdet (c : BitVec 1)
  | sguard (c : BitVec 1) (gw : BitVec 2)
  | szero (c slot : BitVec 1)
  | sstat (c : BitVec 1) (ga : Reg)
  | sldb (c : BitVec 1) (w : Win) (ga : Reg)
  | smul (c : BitVec 1) (w : Win) (ga : Reg) (slot : BitVec 1) (ca cb : BitVec 2) (mode : BitVec 1)
  | smula (c : BitVec 1) (w : Win) (ga : Reg) (slot : BitVec 1) (ca cb : BitVec 2) (mode : BitVec 1)
  | sxtr (c : BitVec 1) (w : Win) (ga : Reg) (slot : BitVec 1)
  | sxtw (c : BitVec 1) (w : Win) (ga : Reg) (slot : BitVec 1)
  | sfin (c : BitVec 1) (w : Win) (ga : Reg)
  | vpack (c : BitVec 1) (wd wa : Win) (kn : BitVec 3)
  | vpackr (c : BitVec 1) (wd wa : Win) (kn : BitVec 3)
  | vunpk (c : BitVec 1) (wd wa : Win) (kn : BitVec 3)
  | vqnt (c x : BitVec 1) (wd wa wb : Win) (kn ke : BitVec 3)
  | vscalc (c x : BitVec 1) (wd wa wb : Win) (kn ke : BitVec 3)
  | drift (c : BitVec 1) (ch : BitVec 2) (ga gb gc : Reg)
  | drift2 (c : BitVec 1) (ch : BitVec 2) (ga gb gc : Reg)
  | driftx (c : BitVec 1) (ch : BitVec 2) (ga gb gc : Reg)
  | driftm (c : BitVec 1) (ch : BitVec 2) (ga gb gc : Reg)
  | dwp (c : BitVec 1) (ch : BitVec 2) (gd : Reg) (acq : BitVec 1)
  | dlen (c : BitVec 1) (ch : BitVec 2) (gd : Reg)
  | dstop (c : BitVec 1) (ch : BitVec 2)
  | dbell (c : BitVec 1) (ch : BitVec 2) (ga gb : Reg)
  | msgput (c : BitVec 1) (wa : Win) (ga : Reg)
  | msgget (c : BitVec 1) (wd : Win) (ga : Reg)
  | nred (c : BitVec 1) (wd wa : Win) (ga : Reg)
  | sax (c : BitVec 1) (gs : Reg) (wa : Win) (ga : Reg) (kn : BitVec 3)
  | sred (c : BitVec 1) (wa : Win) (ga : Reg) (kn op : BitVec 3)
  | sqpush (c : BitVec 1) (wa : Win) (ga : Reg) (kn : BitVec 3)
  | sqpop (c : BitVec 1) (wd : Win) (ga : Reg) (kn : BitVec 3)
  | seqopen (c : BitVec 1) (gd gb gc : Reg)
  | claim (c : BitVec 1) (gd gb : Reg)
  | claimn (c : BitVec 1) (gd gb gc : Reg)
  | seqfork (c : BitVec 1) (gd gb gc : Reg)
  | seqtrim (c : BitVec 1) (gd gb gc : Reg)
  | seqclose (c : BitVec 1) (gd gb : Reg)
  | arrive (c : BitVec 1) (bell : BitVec 11) (gc : Reg) (scope : BitVec 3)
  | wait (c : BitVec 1) (bell : BitVec 11) (gc : Reg) (scope : BitVec 3) (ph : BitVec 1)
  | arrwait (c : BitVec 1) (bell : BitVec 11) (gc : Reg) (scope : BitVec 3) (ph : BitVec 1)
  | bellset (c : BitVec 1) (bell : BitVec 11) (ga : Reg)
  | belltst (c : BitVec 1) (bell : BitVec 11) (gd : Reg)
  | bellrst (c : BitVec 1) (bell : BitVec 11)
  | fence (c : BitVec 1) (scope : BitVec 3)
  | drain (c : BitVec 1) (queues : BitVec 9)
  | trap (ga : Reg)
  | brk
  | trapret
  | retire
  | yield
  | launch (gd ga : Reg)
  | cancel (ga : Reg)
  | cwait (ga gb : Reg)
  | cread (gd ga : Reg)
  | frqpop (gd : Reg)
  | pgmap (ga gb : Reg)
  | pgunmap (ga : Reg)
  | resume (ga : Reg)
  | kill (ga : Reg)
  | pgreq (ga : Reg)
  | tlbinv (ga : Reg)
  | shmap (ga gb : Reg)
  | icinv (ga gb : Reg)
  | dcinv
  | dcwb (ga gb : Reg)
  | convoyBegin
  | issueAging (core slot : Nat)
  | memoryElementPerform (store : Bool) (w : Win) (e : Nat) (addr : Word)
  | homeReturn (n : Nat)
  | trapEntry (cause : BitVec 8) (aux : BitVec 16) (key : BitVec 4) (addr : BitVec 48) (ev : Bool) (elem : BitVec 11)
  | waitRelease (core slot : Nat)
  | cwaitRelease (core slot : Nat)
  | drainComplete (core slot : Nat)
  | seamRowPerform (slot mode : BitVec 1) (row : Nat) (a : BitVec 512)
  | seamStartAdmit (die : Nat)
  | adapterFill (n : Nat)
  | driftBegin (core slot chan : Nat)
  | driftDeliver (core slot chan : Nat)
  | driftEnd (core slot chan : Nat)
  | faultRecordEnqueue (die : Nat)
  | copyOnWrite (va : Word)
  | sampleRecord
  | jobPortWrite (part off : Nat) (desc : List Word)
  | jobStart (part : Nat)
  | launchPlace (part serial : Nat) (plan : List Place)
  | replacementStrandPlace (part serial index : Nat) (place : Place)
  | nodeStatusWrite (node : Word)
  | statusRecordWrite (part : Nat)
  | pipelineSample
  | parkedStrandResume (core slot padOff : Nat)
  | preempt (core slot : Nat)
  | preemptReturn (core slot padOff : Nat)
  | pswapSwapOut (part : Nat)
  | pswapSwapIn (part : Nat)
  | swapOutComplete (part : Nat)
  | crosscutSeverance
  | pageRequestSuccess (part idx : Nat)
  | pageRequestInvalid (part idx : Nat)
  | pageRequestResponseFailure (part : Nat)
  | priResetEnable (part : Nat)
  | messageApply (origin : MsgOrigin)
  | messageAck (n : Nat) (reply : Option (List Byte))
  | nredResult (group round : Nat) (peers : List (List (BitVec 32))) (orders : List (List Nat))
  | hostBarRead (fn bar addr len : Nat)
  | hostBarWrite (fn addr : Nat) (data : List Byte)
  | claimPoolWrite (eng : Nat) (count : Bool) (v : Word)
  | firmwareGo
  | firmwareVerifyDone
  | didtWrite (die : Nat) (v : Word)
  | telemetryEnable (v : Word)
  | telemetrySample (die : Nat)
  | registerWrite (off : Nat) (v : Word)
  | thermalThrottle (die : Nat) (hot : Bool)
  | thermalTrip
  | deviceReset
  | functionLevelReset (part : Nat)
  | ideIntegrityFail (fn link : Nat)
  | spdmRequest (req : Spdm)
  | softError (tier : BitVec 2) (cell core slot : Nat) (uncorrectable : Bool)
  | crosscutRestore
  deriving DecidableEq, Repr

end Sys2Proof
end

