-- ==== Sys2Proof/WellFormed.lean ====
section
/-!
DEFINITION. Which instruction terms are instructions: the values of operand fields that R77 makes ILLEGAL (unassigned
size, operation, scope and control register codes, a zero drain mask, a register pair at g31), and the reserved fields of
R68 that hang on another field (e when X is 0). A step without a word is always well formed.
-/
namespace Sys2Proof

/-- The control register numbers of R100 and R396. -/
def crAssigned (n : Nat) : Bool :=
  n ≤ 1 || (8 ≤ n && n ≤ 0x14) || (0x18 ≤ n && n ≤ 0x1C) || (0x20 ≤ n && n ≤ 0x24) || n == 0x28 ||
  (0x30 ≤ n && n ≤ 0x37) || n == 0x40 || (0x50 ≤ n && n ≤ 0x57) || n == 0x60 || (0x70 ≤ n && n ≤ 0x73) ||
  (0x78 ≤ n && n ≤ 0x7F)

/-- R77, R68: no field of the instruction holds a value that makes its word ILLEGAL. -/
def Instr.wf : Instr → Bool
  | .add _ _ _ => true
  | .sub _ _ _ => true
  | .and _ _ _ => true
  | .or _ _ _ => true
  | .xor _ _ _ => true
  | .andn _ _ _ => true
  | .sll _ _ _ => true
  | .srl _ _ _ => true
  | .sra _ _ _ => true
  | .rol _ _ _ => true
  | .slt _ _ _ => true
  | .sltn _ _ _ => true
  | .min _ _ _ => true
  | .max _ _ _ => true
  | .minn _ _ _ => true
  | .maxn _ _ _ => true
  | .addw _ _ _ => true
  | .subw _ _ _ => true
  | .mul _ _ _ => true
  | .mulh _ _ _ => true
  | .mulhn _ _ _ => true
  | .div _ _ _ => true
  | .divn _ _ _ => true
  | .rem _ _ _ => true
  | .remn _ _ _ => true
  | .clz _ _ => true
  | .ctz _ _ => true
  | .popc _ _ => true
  | .sextb _ _ => true
  | .sexth _ _ => true
  | .sextw _ _ => true
  | .zextb _ _ => true
  | .zexth _ _ => true
  | .zextw _ _ => true
  | .bswap _ _ => true
  | .addi _ _ _ => true
  | .andi _ _ _ => true
  | .ori _ _ _ => true
  | .xori _ _ _ => true
  | .slti _ _ _ => true
  | .sltni _ _ _ => true
  | .slli _ _ _ => true
  | .srli _ _ _ => true
  | .srai _ _ _ => true
  | .roli _ _ _ => true
  | .lih _ _ => true
  | .pcadd _ _ => true
  | .ldB _ _ _ => true
  | .ldBn _ _ _ => true
  | .ldH _ _ _ => true
  | .ldHn _ _ _ => true
  | .ldW _ _ _ => true
  | .ldWn _ _ _ => true
  | .ldD _ _ _ => true
  | .stB _ _ _ => true
  | .stH _ _ _ => true
  | .stW _ _ _ => true
  | .stD _ _ _ => true
  | .lda _ _ sz scope _ => decide (sz.toNat ≤ 6) && decide (scope.toNat ≤ 4)
  | .stl _ _ sz scope _ => decide (sz.toNat % 2 = 0) && decide (scope.toNat ≤ 4)
  | .amo _ _ _ op _ scope sz => decide (op.toNat ≤ 10) && decide (scope.toNat ≤ 4) && !(op == 10 && sz == 1)
  | .brEq _ _ _ => true
  | .brNe _ _ _ => true
  | .brLt _ _ _ => true
  | .brGe _ _ _ => true
  | .brLtn _ _ _ => true
  | .brGen _ _ _ => true
  | .jal _ _ => true
  | .jalr _ _ _ => true
  | .fadd _ _ _ => true
  | .fsub _ _ _ => true
  | .fmul _ _ _ => true
  | .fdiv _ _ _ => true
  | .fsqrt _ _ => true
  | .fmin _ _ _ => true
  | .fmax _ _ _ => true
  | .fsgnj _ _ _ => true
  | .fsgnjn _ _ _ => true
  | .fsgnjx _ _ _ => true
  | .fmadd _ _ _ _ => true
  | .fmsub _ _ _ _ => true
  | .fnmadd _ _ _ _ => true
  | .fnmsub _ _ _ _ => true
  | .fcvtF32I32 _ _ => true
  | .fcvtF32N32 _ _ => true
  | .fcvtF32I64 _ _ => true
  | .fcvtF32N64 _ _ => true
  | .fcvtI32F32 _ _ => true
  | .fcvtN32F32 _ _ => true
  | .fcvtI64F32 _ _ => true
  | .fcvtN64F32 _ _ => true
  | .fcvtBf16F32 _ _ => true
  | .fcvtF32Bf16 _ _ => true
  | .feq _ _ _ => true
  | .flt _ _ _ => true
  | .fle _ _ _ => true
  | .fclass _ _ => true
  | .crr _ cr => crAssigned cr.toNat
  | .crw _ _ cr => crAssigned cr.toNat
  | .movk _ _ _ _ => true
  | .kmov _ _ _ _ => true
  | .strip _ _ => true
  | .wdef _ _ _ => true
  | .wget _ _ _ => true
  | .wcopy _ _ _ => true
  | .worg _ _ _ _ => true
  | .wtype _ _ ty => decide (ty.toNat < 15)
  | .vcfg _ _ _ _ => true
  | .vadd _ x _ _ _ _ ke => (x == 1 || ke == 0)
  | .vsub _ x _ _ _ _ ke => (x == 1 || ke == 0)
  | .vmin _ x _ _ _ _ ke => (x == 1 || ke == 0)
  | .vmax _ x _ _ _ _ ke => (x == 1 || ke == 0)
  | .vand _ _ _ _ _ => true
  | .vor _ _ _ _ _ => true
  | .vxor _ _ _ _ _ => true
  | .vandn _ _ _ _ _ => true
  | .vshl _ _ _ _ _ => true
  | .vshr _ _ _ _ _ => true
  | .vsra _ _ _ _ _ => true
  | .vrol _ _ _ _ _ => true
  | .vmul _ x _ _ _ _ ke => (x == 1 || ke == 0)
  | .vmulh _ x _ _ _ _ ke => (x == 1 || ke == 0)
  | .vfma _ x _ _ _ _ ke => (x == 1 || ke == 0)
  | .vfms _ x _ _ _ _ ke => (x == 1 || ke == 0)
  | .vdiv _ x _ _ _ _ ke => (x == 1 || ke == 0)
  | .vsqrt _ x _ _ _ ke => (x == 1 || ke == 0)
  | .vrcp _ x _ _ _ ke => (x == 1 || ke == 0)
  | .vrsq _ x _ _ _ ke => (x == 1 || ke == 0)
  | .vexp2 _ x _ _ _ ke => (x == 1 || ke == 0)
  | .vlog2 _ x _ _ _ ke => (x == 1 || ke == 0)
  | .vabs _ x _ _ _ ke => (x == 1 || ke == 0)
  | .vneg _ x _ _ _ ke => (x == 1 || ke == 0)
  | .vceq _ _ _ _ _ => true
  | .vcne _ _ _ _ _ => true
  | .vclt _ _ _ _ _ => true
  | .vcle _ _ _ _ _ => true
  | .vsel _ _ _ _ _ => true
  | .vmov _ _ _ _ => true
  | .vmerge _ _ _ _ _ => true
  | .viota _ _ _ => true
  | .vadds _ x _ _ _ _ ke => (x == 1 || ke == 0)
  | .vmuls _ x _ _ _ _ ke => (x == 1 || ke == 0)
  | .vbcast _ _ _ _ => true
  | .vextr _ _ _ _ => true
  | .vredsum _ _ _ _ => true
  | .vredmax _ _ _ _ => true
  | .vredmin _ _ _ _ => true
  | .vscan _ _ _ _ => true
  | .vcvt _ x _ _ _ ke => (x == 1 || ke == 0)
  | .vperm _ _ _ _ _ => true
  | .vslide _ _ _ _ _ => true
  | .vcompress _ _ _ _ => true
  | .kfun _ _ _ _ _ => true
  | .kpop _ _ _ => true
  | .kfirst _ _ _ => true
  | .kset _ _ _ => true
  | .kclr _ _ _ => true
  | .kbit _ _ _ _ => true
  | .vld _ x _ _ _ ke => (x == 1 || ke == 0)
  | .vlds _ x _ ga _ ke => (x == 1 || ke == 0) && !(ga == 31)
  | .vldff _ x _ _ _ ke => (x == 1 || ke == 0)
  | .vldb _ x _ _ _ ke => (x == 1 || ke == 0)
  | .vst _ _ _ _ => true
  | .vsts _ _ ga _ => !(ga == 31)
  | .vstduo _ _ ga _ => !(ga == 31)
  | .vldx _ x _ _ _ _ ke => (x == 1 || ke == 0)
  | .vstx _ _ _ _ _ => true
  | .vamo _ _ _ _ _ _ _ => true
  | .vamoX _ _ _ _ _ op _ => !(op == 7)
  | .tagset _ _ _ _ => true
  | .satt _ _ => true
  | .sdet _ => true
  | .sguard _ gw => !(gw == 3)
  | .szero _ _ => true
  | .sstat _ _ => true
  | .sldb _ _ _ => true
  | .smul _ _ _ slot _ _ mode => !(mode == 1 && slot == 1)
  | .smula _ _ _ slot _ _ mode => !(mode == 1 && slot == 1)
  | .sxtr _ _ _ _ => true
  | .sxtw _ _ _ _ => true
  | .sfin _ _ _ => true
  | .vpack _ _ _ _ => true
  | .vpackr _ _ _ _ => true
  | .vunpk _ _ _ _ => true
  | .vqnt _ x _ _ _ _ ke => (x == 1 || ke == 0)
  | .vscalc _ x _ _ _ _ ke => (x == 1 || ke == 0)
  | .drift _ _ _ _ _ => true
  | .drift2 _ _ _ _ _ => true
  | .driftx _ _ _ _ _ => true
  | .driftm _ _ _ _ _ => true
  | .dwp _ _ _ _ => true
  | .dlen _ _ _ => true
  | .dstop _ _ => true
  | .dbell _ _ _ _ => true
  | .msgput _ _ _ => true
  | .msgget _ _ _ => true
  | .nred _ _ _ _ => true
  | .sax _ _ _ _ _ => true
  | .sred _ _ _ _ op => decide (op.toNat ≤ 5)
  | .sqpush _ _ _ _ => true
  | .sqpop _ _ _ _ => true
  | .seqopen _ _ _ _ => true
  | .claim _ _ _ => true
  | .claimn _ _ _ _ => true
  | .seqfork _ _ _ _ => true
  | .seqtrim _ _ _ _ => true
  | .seqclose _ _ _ => true
  | .arrive _ _ _ scope => decide (scope.toNat ≤ 4)
  | .wait _ _ _ scope _ => decide (scope.toNat ≤ 4)
  | .arrwait _ _ _ scope _ => decide (scope.toNat ≤ 4)
  | .bellset _ _ _ => true
  | .belltst _ _ _ => true
  | .bellrst _ _ => true
  | .fence _ scope => decide (scope.toNat ≤ 4)
  | .drain _ queues => !(queues == 0)
  | .trap _ => true
  | .brk => true
  | .trapret => true
  | .retire => true
  | .yield => true
  | .launch _ _ => true
  | .cancel _ => true
  | .cwait _ _ => true
  | .cread _ _ => true
  | .frqpop _ => true
  | .pgmap _ _ => true
  | .pgunmap _ => true
  | .resume _ => true
  | .kill _ => true
  | .pgreq _ => true
  | .tlbinv _ => true
  | .shmap _ _ => true
  | .icinv _ _ => true
  | .dcinv => true
  | .dcwb _ _ => true
  | .convoyBegin => true
  | .issueAging _ _ => true
  | .memoryElementPerform _ _ _ _ => true
  | .homeReturn _ => true
  | .trapEntry _ _ _ _ _ _ => true
  | .waitRelease _ _ => true
  | .cwaitRelease _ _ => true
  | .drainComplete _ _ => true
  | .seamRowPerform _ _ _ _ => true
  | .seamStartAdmit _ => true
  | .adapterFill _ => true
  | .driftBegin _ _ _ => true
  | .driftDeliver _ _ _ => true
  | .driftEnd _ _ _ => true
  | .faultRecordEnqueue _ => true
  | .copyOnWrite _ => true
  | .sampleRecord => true
  | .jobPortWrite _ _ _ => true
  | .jobStart _ => true
  | .launchPlace _ _ _ => true
  | .replacementStrandPlace _ _ _ _ => true
  | .nodeStatusWrite _ => true
  | .statusRecordWrite _ => true
  | .pipelineSample => true
  | .parkedStrandResume _ _ _ => true
  | .preempt _ _ => true
  | .preemptReturn _ _ _ => true
  | .pswapSwapOut _ => true
  | .pswapSwapIn _ => true
  | .swapOutComplete _ => true
  | .crosscutSeverance => true
  | .pageRequestSuccess _ _ => true
  | .pageRequestInvalid _ _ => true
  | .pageRequestResponseFailure _ => true
  | .priResetEnable _ => true
  | .messageApply _ => true
  | .messageAck _ _ => true
  | .nredResult _ _ _ _ => true
  | .hostBarRead _ _ _ _ => true
  | .hostBarWrite _ _ _ => true
  | .claimPoolWrite _ _ _ => true
  | .firmwareGo => true
  | .firmwareVerifyDone => true
  | .didtWrite _ _ => true
  | .telemetryEnable _ => true
  | .telemetrySample _ => true
  | .registerWrite _ _ => true
  | .thermalThrottle _ _ => true
  | .thermalTrip => true
  | .deviceReset => true
  | .functionLevelReset _ => true
  | .ideIntegrityFail _ _ => true
  | .spdmRequest _ => true
  | .softError _ _ _ _ _ => true
  | .crosscutRestore => true

end Sys2Proof
end

