-- ==== Sys2Proof/Decode.lean ====
section
/-!
DEFINITION. Decoding (R64–R78) and encoding. A word is a natural number below 2^32. `pick` reads the major opcode, the
function code and the operand fields and names the one instruction that the word can be; `decodeWord` accepts it only
when its encoding is the word itself, so that every reserved bit is zero (R68, R77), and when it is well formed.
-/
namespace Sys2Proof

/-- Bits `[lo+n-1 : lo]` of a word. -/
def bitsAt (w lo n : Nat) : Nat := w / 2 ^ lo % 2 ^ n

/-- An operand field of `n` bits at bit `lo`. -/
def fld (w lo n : Nat) : BitVec n := BitVec.ofNat n (w / 2 ^ lo)

/-- Why bytes are no instruction: fewer than four bytes, or a word that traps ILLEGAL (R77). -/
inductive Reject where
  | short
  | illegal
  deriving DecidableEq, Repr

/-- The forms of major 0x01, by bits [9:0] (R69–R75). -/
def pickOPR (w : Nat) : Option Instr :=
  match bitsAt w 0 10 with
  | 0 => some (.add (fld w 20 5) (fld w 15 5) (fld w 10 5))
  | 1 => some (.sub (fld w 20 5) (fld w 15 5) (fld w 10 5))
  | 2 => some (.and (fld w 20 5) (fld w 15 5) (fld w 10 5))
  | 3 => some (.or (fld w 20 5) (fld w 15 5) (fld w 10 5))
  | 4 => some (.xor (fld w 20 5) (fld w 15 5) (fld w 10 5))
  | 5 => some (.andn (fld w 20 5) (fld w 15 5) (fld w 10 5))
  | 6 => some (.sll (fld w 20 5) (fld w 15 5) (fld w 10 5))
  | 7 => some (.srl (fld w 20 5) (fld w 15 5) (fld w 10 5))
  | 8 => some (.sra (fld w 20 5) (fld w 15 5) (fld w 10 5))
  | 9 => some (.rol (fld w 20 5) (fld w 15 5) (fld w 10 5))
  | 10 => some (.slt (fld w 20 5) (fld w 15 5) (fld w 10 5))
  | 11 => some (.sltn (fld w 20 5) (fld w 15 5) (fld w 10 5))
  | 12 => some (.min (fld w 20 5) (fld w 15 5) (fld w 10 5))
  | 13 => some (.max (fld w 20 5) (fld w 15 5) (fld w 10 5))
  | 14 => some (.minn (fld w 20 5) (fld w 15 5) (fld w 10 5))
  | 15 => some (.maxn (fld w 20 5) (fld w 15 5) (fld w 10 5))
  | 16 => some (.addw (fld w 20 5) (fld w 15 5) (fld w 10 5))
  | 17 => some (.subw (fld w 20 5) (fld w 15 5) (fld w 10 5))
  | _ => none

/-- The forms of major 0x02, by bits [9:0] (R69–R75). -/
def pickOPM (w : Nat) : Option Instr :=
  match bitsAt w 0 10 with
  | 0 => some (.mul (fld w 20 5) (fld w 15 5) (fld w 10 5))
  | 1 => some (.mulh (fld w 20 5) (fld w 15 5) (fld w 10 5))
  | 2 => some (.mulhn (fld w 20 5) (fld w 15 5) (fld w 10 5))
  | 3 => some (.div (fld w 20 5) (fld w 15 5) (fld w 10 5))
  | 4 => some (.divn (fld w 20 5) (fld w 15 5) (fld w 10 5))
  | 5 => some (.rem (fld w 20 5) (fld w 15 5) (fld w 10 5))
  | 6 => some (.remn (fld w 20 5) (fld w 15 5) (fld w 10 5))
  | _ => none

/-- The forms of major 0x03, by bits [9:0] (R69–R75). -/
def pickOPB (w : Nat) : Option Instr :=
  match bitsAt w 0 10 with
  | 0 => some (.clz (fld w 20 5) (fld w 15 5))
  | 1 => some (.ctz (fld w 20 5) (fld w 15 5))
  | 2 => some (.popc (fld w 20 5) (fld w 15 5))
  | 3 => some (.sextb (fld w 20 5) (fld w 15 5))
  | 4 => some (.sexth (fld w 20 5) (fld w 15 5))
  | 5 => some (.sextw (fld w 20 5) (fld w 15 5))
  | 6 => some (.zextb (fld w 20 5) (fld w 15 5))
  | 7 => some (.zexth (fld w 20 5) (fld w 15 5))
  | 8 => some (.zextw (fld w 20 5) (fld w 15 5))
  | 9 => some (.bswap (fld w 20 5) (fld w 15 5))
  | _ => none

/-- The forms of major 0x0A, by bits [14:13] (R69–R75). -/
def pickSHI (w : Nat) : Option Instr :=
  match bitsAt w 13 2 with
  | 0 => some (.slli (fld w 20 5) (fld w 15 5) (fld w 0 6))
  | 1 => some (.srli (fld w 20 5) (fld w 15 5) (fld w 0 6))
  | 2 => some (.srai (fld w 20 5) (fld w 15 5) (fld w 0 6))
  | _ => some (.roli (fld w 20 5) (fld w 15 5) (fld w 0 6))

/-- The forms of major 0x0D, by bits [14:12] (R69–R75). -/
def pickLD (w : Nat) : Option Instr :=
  match bitsAt w 12 3 with
  | 0 => some (.ldB (fld w 20 5) (fld w 15 5) (fld w 0 12))
  | 1 => some (.ldBn (fld w 20 5) (fld w 15 5) (fld w 0 12))
  | 2 => some (.ldH (fld w 20 5) (fld w 15 5) (fld w 0 12))
  | 3 => some (.ldHn (fld w 20 5) (fld w 15 5) (fld w 0 12))
  | 4 => some (.ldW (fld w 20 5) (fld w 15 5) (fld w 0 12))
  | 5 => some (.ldWn (fld w 20 5) (fld w 15 5) (fld w 0 12))
  | 6 => some (.ldD (fld w 20 5) (fld w 15 5) (fld w 0 12))
  | _ => none

/-- The forms of major 0x0E, by bits [14:12] (R69–R75). -/
def pickST (w : Nat) : Option Instr :=
  match bitsAt w 12 3 with
  | 0 => some (.stB (fld w 20 5) (fld w 15 5) (fld w 0 12))
  | 2 => some (.stH (fld w 20 5) (fld w 15 5) (fld w 0 12))
  | 4 => some (.stW (fld w 20 5) (fld w 15 5) (fld w 0 12))
  | 6 => some (.stD (fld w 20 5) (fld w 15 5) (fld w 0 12))
  | _ => none

/-- The forms of major 0x12, by bits [14:12] (R69–R75). -/
def pickBR (w : Nat) : Option Instr :=
  match bitsAt w 12 3 with
  | 0 => some (.brEq (fld w 20 5) (fld w 15 5) (fld w 0 12))
  | 1 => some (.brNe (fld w 20 5) (fld w 15 5) (fld w 0 12))
  | 2 => some (.brLt (fld w 20 5) (fld w 15 5) (fld w 0 12))
  | 3 => some (.brGe (fld w 20 5) (fld w 15 5) (fld w 0 12))
  | 4 => some (.brLtn (fld w 20 5) (fld w 15 5) (fld w 0 12))
  | 5 => some (.brGen (fld w 20 5) (fld w 15 5) (fld w 0 12))
  | _ => none

/-- The forms of major 0x15, by bits [9:0] (R69–R75). -/
def pickFOP (w : Nat) : Option Instr :=
  match bitsAt w 0 10 with
  | 0 => some (.fadd (fld w 20 5) (fld w 15 5) (fld w 10 5))
  | 1 => some (.fsub (fld w 20 5) (fld w 15 5) (fld w 10 5))
  | 2 => some (.fmul (fld w 20 5) (fld w 15 5) (fld w 10 5))
  | 3 => some (.fdiv (fld w 20 5) (fld w 15 5) (fld w 10 5))
  | 4 => some (.fsqrt (fld w 20 5) (fld w 15 5))
  | 5 => some (.fmin (fld w 20 5) (fld w 15 5) (fld w 10 5))
  | 6 => some (.fmax (fld w 20 5) (fld w 15 5) (fld w 10 5))
  | 7 => some (.fsgnj (fld w 20 5) (fld w 15 5) (fld w 10 5))
  | 8 => some (.fsgnjn (fld w 20 5) (fld w 15 5) (fld w 10 5))
  | 9 => some (.fsgnjx (fld w 20 5) (fld w 15 5) (fld w 10 5))
  | _ => none

/-- The forms of major 0x16, by bits [4:0] (R69–R75). -/
def pickFMA (w : Nat) : Option Instr :=
  match bitsAt w 0 5 with
  | 0 => some (.fmadd (fld w 20 5) (fld w 15 5) (fld w 10 5) (fld w 5 5))
  | 1 => some (.fmsub (fld w 20 5) (fld w 15 5) (fld w 10 5) (fld w 5 5))
  | 2 => some (.fnmadd (fld w 20 5) (fld w 15 5) (fld w 10 5) (fld w 5 5))
  | 3 => some (.fnmsub (fld w 20 5) (fld w 15 5) (fld w 10 5) (fld w 5 5))
  | _ => none

/-- The forms of major 0x17, by bits [9:0] (R69–R75). -/
def pickFCVT (w : Nat) : Option Instr :=
  match bitsAt w 0 10 with
  | 0 => some (.fcvtF32I32 (fld w 20 5) (fld w 15 5))
  | 1 => some (.fcvtF32N32 (fld w 20 5) (fld w 15 5))
  | 2 => some (.fcvtF32I64 (fld w 20 5) (fld w 15 5))
  | 3 => some (.fcvtF32N64 (fld w 20 5) (fld w 15 5))
  | 4 => some (.fcvtI32F32 (fld w 20 5) (fld w 15 5))
  | 5 => some (.fcvtN32F32 (fld w 20 5) (fld w 15 5))
  | 6 => some (.fcvtI64F32 (fld w 20 5) (fld w 15 5))
  | 7 => some (.fcvtN64F32 (fld w 20 5) (fld w 15 5))
  | 8 => some (.fcvtBf16F32 (fld w 20 5) (fld w 15 5))
  | 9 => some (.fcvtF32Bf16 (fld w 20 5) (fld w 15 5))
  | _ => none

/-- The forms of major 0x18, by bits [9:0] (R69–R75). -/
def pickFCMP (w : Nat) : Option Instr :=
  match bitsAt w 0 10 with
  | 0 => some (.feq (fld w 20 5) (fld w 15 5) (fld w 10 5))
  | 1 => some (.flt (fld w 20 5) (fld w 15 5) (fld w 10 5))
  | 2 => some (.fle (fld w 20 5) (fld w 15 5) (fld w 10 5))
  | 3 => some (.fclass (fld w 20 5) (fld w 15 5))
  | _ => none

/-- The forms of major 0x30, by bits [8:0] (R69–R75). -/
def pickWTAB (w : Nat) : Option Instr :=
  match bitsAt w 0 9 with
  | 0 => some (.wdef (fld w 24 1) (fld w 19 5) (fld w 14 5))
  | 1 => some (.wget (fld w 24 1) (fld w 19 5) (fld w 14 5))
  | 2 => some (.wcopy (fld w 24 1) (fld w 19 5) (fld w 9 5))
  | 3 => some (.worg (fld w 24 1) (fld w 19 5) (fld w 14 5) (fld w 9 5))
  | 4 => some (.wtype (fld w 24 1) (fld w 19 5) (fld w 9 5))
  | _ => none

/-- The forms of major 0x32, by bits [1:0] (R69–R75). -/
def pick32 (w : Nat) : Option Instr :=
  match bitsAt w 0 2 with
  | 0 => some (.vadd (fld w 24 1) (fld w 23 1) (fld w 18 5) (fld w 13 5) (fld w 8 5) (fld w 5 3) (fld w 2 3))
  | 1 => some (.vsub (fld w 24 1) (fld w 23 1) (fld w 18 5) (fld w 13 5) (fld w 8 5) (fld w 5 3) (fld w 2 3))
  | 2 => some (.vmin (fld w 24 1) (fld w 23 1) (fld w 18 5) (fld w 13 5) (fld w 8 5) (fld w 5 3) (fld w 2 3))
  | _ => some (.vmax (fld w 24 1) (fld w 23 1) (fld w 18 5) (fld w 13 5) (fld w 8 5) (fld w 5 3) (fld w 2 3))

/-- The forms of major 0x33, by bits [1:0] (R69–R75). -/
def pick33 (w : Nat) : Option Instr :=
  match bitsAt w 0 2 with
  | 0 => some (.vand (fld w 24 1) (fld w 18 5) (fld w 13 5) (fld w 8 5) (fld w 5 3))
  | 1 => some (.vor (fld w 24 1) (fld w 18 5) (fld w 13 5) (fld w 8 5) (fld w 5 3))
  | 2 => some (.vxor (fld w 24 1) (fld w 18 5) (fld w 13 5) (fld w 8 5) (fld w 5 3))
  | _ => some (.vandn (fld w 24 1) (fld w 18 5) (fld w 13 5) (fld w 8 5) (fld w 5 3))

/-- The forms of major 0x34, by bits [1:0] (R69–R75). -/
def pick34 (w : Nat) : Option Instr :=
  match bitsAt w 0 2 with
  | 0 => some (.vshl (fld w 24 1) (fld w 18 5) (fld w 13 5) (fld w 8 5) (fld w 5 3))
  | 1 => some (.vshr (fld w 24 1) (fld w 18 5) (fld w 13 5) (fld w 8 5) (fld w 5 3))
  | 2 => some (.vsra (fld w 24 1) (fld w 18 5) (fld w 13 5) (fld w 8 5) (fld w 5 3))
  | _ => some (.vrol (fld w 24 1) (fld w 18 5) (fld w 13 5) (fld w 8 5) (fld w 5 3))

/-- The forms of major 0x35, by bits [1:0] (R69–R75). -/
def pick35 (w : Nat) : Option Instr :=
  match bitsAt w 0 2 with
  | 0 => some (.vmul (fld w 24 1) (fld w 23 1) (fld w 18 5) (fld w 13 5) (fld w 8 5) (fld w 5 3) (fld w 2 3))
  | 1 => some (.vmulh (fld w 24 1) (fld w 23 1) (fld w 18 5) (fld w 13 5) (fld w 8 5) (fld w 5 3) (fld w 2 3))
  | 2 => some (.vfma (fld w 24 1) (fld w 23 1) (fld w 18 5) (fld w 13 5) (fld w 8 5) (fld w 5 3) (fld w 2 3))
  | _ => some (.vfms (fld w 24 1) (fld w 23 1) (fld w 18 5) (fld w 13 5) (fld w 8 5) (fld w 5 3) (fld w 2 3))

/-- The forms of major 0x36, by bits [1:0] (R69–R75). -/
def pick36 (w : Nat) : Option Instr :=
  match bitsAt w 0 2 with
  | 0 => some (.vdiv (fld w 24 1) (fld w 23 1) (fld w 18 5) (fld w 13 5) (fld w 8 5) (fld w 5 3) (fld w 2 3))
  | 1 => some (.vsqrt (fld w 24 1) (fld w 23 1) (fld w 18 5) (fld w 13 5) (fld w 5 3) (fld w 2 3))
  | 2 => some (.vrcp (fld w 24 1) (fld w 23 1) (fld w 18 5) (fld w 13 5) (fld w 5 3) (fld w 2 3))
  | _ => some (.vrsq (fld w 24 1) (fld w 23 1) (fld w 18 5) (fld w 13 5) (fld w 5 3) (fld w 2 3))

/-- The forms of major 0x37, by bits [1:0] (R69–R75). -/
def pick37 (w : Nat) : Option Instr :=
  match bitsAt w 0 2 with
  | 0 => some (.vexp2 (fld w 24 1) (fld w 23 1) (fld w 18 5) (fld w 13 5) (fld w 5 3) (fld w 2 3))
  | 1 => some (.vlog2 (fld w 24 1) (fld w 23 1) (fld w 18 5) (fld w 13 5) (fld w 5 3) (fld w 2 3))
  | 2 => some (.vabs (fld w 24 1) (fld w 23 1) (fld w 18 5) (fld w 13 5) (fld w 5 3) (fld w 2 3))
  | _ => some (.vneg (fld w 24 1) (fld w 23 1) (fld w 18 5) (fld w 13 5) (fld w 5 3) (fld w 2 3))

/-- The forms of major 0x38, by bits [1:0] (R69–R75). -/
def pick38 (w : Nat) : Option Instr :=
  match bitsAt w 0 2 with
  | 0 => some (.vceq (fld w 24 1) (fld w 18 3) (fld w 13 5) (fld w 8 5) (fld w 5 3))
  | 1 => some (.vcne (fld w 24 1) (fld w 18 3) (fld w 13 5) (fld w 8 5) (fld w 5 3))
  | 2 => some (.vclt (fld w 24 1) (fld w 18 3) (fld w 13 5) (fld w 8 5) (fld w 5 3))
  | _ => some (.vcle (fld w 24 1) (fld w 18 3) (fld w 13 5) (fld w 8 5) (fld w 5 3))

/-- The forms of major 0x39, by bits [1:0] (R69–R75). -/
def pick39 (w : Nat) : Option Instr :=
  match bitsAt w 0 2 with
  | 0 => some (.vsel (fld w 24 1) (fld w 18 5) (fld w 13 5) (fld w 8 5) (fld w 5 3))
  | 1 => some (.vmov (fld w 24 1) (fld w 18 5) (fld w 13 5) (fld w 5 3))
  | 2 => some (.vmerge (fld w 24 1) (fld w 18 5) (fld w 13 5) (fld w 5 3) (fld w 2 3))
  | _ => some (.viota (fld w 24 1) (fld w 18 5) (fld w 5 3))

/-- The forms of major 0x3A, by bits [1:0] (R69–R75). -/
def pick3A (w : Nat) : Option Instr :=
  match bitsAt w 0 2 with
  | 0 => some (.vadds (fld w 24 1) (fld w 23 1) (fld w 18 5) (fld w 13 5) (fld w 8 5) (fld w 5 3) (fld w 2 3))
  | 1 => some (.vmuls (fld w 24 1) (fld w 23 1) (fld w 18 5) (fld w 13 5) (fld w 8 5) (fld w 5 3) (fld w 2 3))
  | 2 => some (.vbcast (fld w 24 1) (fld w 18 5) (fld w 8 5) (fld w 5 3))
  | _ => some (.vextr (fld w 24 1) (fld w 18 5) (fld w 13 5) (fld w 8 5))

/-- The forms of major 0x3B, by bits [1:0] (R69–R75). -/
def pick3B (w : Nat) : Option Instr :=
  match bitsAt w 0 2 with
  | 0 => some (.vredsum (fld w 24 1) (fld w 18 5) (fld w 13 5) (fld w 5 3))
  | 1 => some (.vredmax (fld w 24 1) (fld w 18 5) (fld w 13 5) (fld w 5 3))
  | 2 => some (.vredmin (fld w 24 1) (fld w 18 5) (fld w 13 5) (fld w 5 3))
  | _ => some (.vscan (fld w 24 1) (fld w 18 5) (fld w 13 5) (fld w 5 3))

/-- The forms of major 0x3C, by bits [1:0] (R69–R75). -/
def pick3C (w : Nat) : Option Instr :=
  match bitsAt w 0 2 with
  | 0 => some (.vcvt (fld w 24 1) (fld w 23 1) (fld w 18 5) (fld w 13 5) (fld w 5 3) (fld w 2 3))
  | 1 => some (.vperm (fld w 24 1) (fld w 18 5) (fld w 13 5) (fld w 8 5) (fld w 5 3))
  | 2 => some (.vslide (fld w 24 1) (fld w 18 5) (fld w 13 5) (fld w 8 5) (fld w 5 3))
  | _ => some (.vcompress (fld w 24 1) (fld w 18 5) (fld w 13 5) (fld w 5 3))

/-- The forms of major 0x3D, by bits [1:0] (R69–R75). -/
def pick3D (w : Nat) : Option Instr :=
  match bitsAt w 0 2 with
  | 0 => some (.kfun (fld w 24 1) (fld w 18 3) (fld w 13 3) (fld w 8 3) (fld w 4 4))
  | 1 => some (.kpop (fld w 24 1) (fld w 18 5) (fld w 13 3))
  | 2 => some (.kfirst (fld w 24 1) (fld w 18 5) (fld w 13 3))
  | _ => none

/-- The forms of major 0x3E, by bits [1:0] (R69–R75). -/
def pick3E (w : Nat) : Option Instr :=
  match bitsAt w 0 2 with
  | 0 => some (.kset (fld w 24 1) (fld w 18 3) (fld w 8 5))
  | 1 => some (.kclr (fld w 24 1) (fld w 18 3) (fld w 8 5))
  | 2 => some (.kbit (fld w 24 1) (fld w 18 5) (fld w 13 3) (fld w 8 5))
  | _ => none

/-- The forms of major 0x40, by bits [1:0] (R69–R75). -/
def pick40 (w : Nat) : Option Instr :=
  match bitsAt w 0 2 with
  | 0 => some (.vld (fld w 24 1) (fld w 23 1) (fld w 18 5) (fld w 8 5) (fld w 5 3) (fld w 2 3))
  | 1 => some (.vlds (fld w 24 1) (fld w 23 1) (fld w 18 5) (fld w 8 5) (fld w 5 3) (fld w 2 3))
  | 2 => some (.vldff (fld w 24 1) (fld w 23 1) (fld w 18 5) (fld w 8 5) (fld w 5 3) (fld w 2 3))
  | _ => some (.vldb (fld w 24 1) (fld w 23 1) (fld w 18 5) (fld w 8 5) (fld w 5 3) (fld w 2 3))

/-- The forms of major 0x41, by bits [1:0] (R69–R75). -/
def pick41 (w : Nat) : Option Instr :=
  match bitsAt w 0 2 with
  | 0 => some (.vst (fld w 24 1) (fld w 18 5) (fld w 8 5) (fld w 5 3))
  | 1 => some (.vsts (fld w 24 1) (fld w 18 5) (fld w 8 5) (fld w 5 3))
  | 2 => some (.vstduo (fld w 24 1) (fld w 18 5) (fld w 8 5) (fld w 5 3))
  | _ => none

/-- The forms of major 0x42, by bits [1:0] (R69–R75). -/
def pick42 (w : Nat) : Option Instr :=
  match bitsAt w 0 2 with
  | 0 => some (.vldx (fld w 24 1) (fld w 23 1) (fld w 18 5) (fld w 13 5) (fld w 8 5) (fld w 5 3) (fld w 2 3))
  | 1 => some (.vstx (fld w 24 1) (fld w 18 5) (fld w 13 5) (fld w 8 5) (fld w 5 3))
  | _ => none

/-- The forms of major 0x43, by bits [23:23] (R69–R75). -/
def pick43 (w : Nat) : Option Instr :=
  match bitsAt w 23 1 with
  | 0 => some (.vamo (fld w 24 1) (fld w 18 5) (fld w 13 5) (fld w 8 5) (fld w 5 3) (fld w 2 3) (fld w 0 2))
  | _ => some (.vamoX (fld w 24 1) (fld w 18 5) (fld w 13 5) (fld w 8 5) (fld w 5 3) (fld w 2 3) (fld w 0 2))

/-- The forms of major 0x44, by bits [1:0] (R69–R75). -/
def pick44 (w : Nat) : Option Instr :=
  match bitsAt w 0 2 with
  | 0 => some (.tagset (fld w 24 1) (fld w 13 5) (fld w 8 5) (fld w 5 3))
  | _ => none

/-- The forms of major 0x48, by bits [7:0] (R69–R75). -/
def pick48 (w : Nat) : Option Instr :=
  match bitsAt w 0 8 with
  | 0 => some (.satt (fld w 24 1) (fld w 14 5))
  | 1 => some (.sdet (fld w 24 1))
  | 2 => some (.sguard (fld w 24 1) (fld w 11 2))
  | 3 => some (.szero (fld w 24 1) (fld w 13 1))
  | 4 => some (.sstat (fld w 24 1) (fld w 14 5))
  | _ => none

/-- The forms of major 0x49, by bits [7:0] (R69–R75). -/
def pick49 (w : Nat) : Option Instr :=
  match bitsAt w 0 8 with
  | 0 => some (.sldb (fld w 24 1) (fld w 19 5) (fld w 14 5))
  | _ => none

/-- The forms of major 0x4A, by bits [7:0] (R69–R75). -/
def pick4A (w : Nat) : Option Instr :=
  match bitsAt w 0 8 with
  | 0 => some (.smul (fld w 24 1) (fld w 19 5) (fld w 14 5) (fld w 13 1) (fld w 11 2) (fld w 9 2) (fld w 8 1))
  | _ => none

/-- The forms of major 0x4B, by bits [7:0] (R69–R75). -/
def pick4B (w : Nat) : Option Instr :=
  match bitsAt w 0 8 with
  | 0 => some (.smula (fld w 24 1) (fld w 19 5) (fld w 14 5) (fld w 13 1) (fld w 11 2) (fld w 9 2) (fld w 8 1))
  | _ => none

/-- The forms of major 0x4C, by bits [7:0] (R69–R75). -/
def pick4C (w : Nat) : Option Instr :=
  match bitsAt w 0 8 with
  | 0 => some (.sxtr (fld w 24 1) (fld w 19 5) (fld w 14 5) (fld w 13 1))
  | 1 => some (.sxtw (fld w 24 1) (fld w 19 5) (fld w 14 5) (fld w 13 1))
  | 2 => some (.sfin (fld w 24 1) (fld w 19 5) (fld w 14 5))
  | _ => none

/-- The forms of major 0x4D, by bits [1:0] (R69–R75). -/
def pick4D (w : Nat) : Option Instr :=
  match bitsAt w 0 2 with
  | 0 => some (.vpack (fld w 24 1) (fld w 18 5) (fld w 13 5) (fld w 5 3))
  | 1 => some (.vpackr (fld w 24 1) (fld w 18 5) (fld w 13 5) (fld w 5 3))
  | 2 => some (.vunpk (fld w 24 1) (fld w 18 5) (fld w 13 5) (fld w 5 3))
  | _ => some (.vqnt (fld w 24 1) (fld w 23 1) (fld w 18 5) (fld w 13 5) (fld w 8 5) (fld w 5 3) (fld w 2 3))

/-- The forms of major 0x4E, by bits [1:0] (R69–R75). -/
def pick4E (w : Nat) : Option Instr :=
  match bitsAt w 0 2 with
  | 0 => some (.vscalc (fld w 24 1) (fld w 23 1) (fld w 18 5) (fld w 13 5) (fld w 8 5) (fld w 5 3) (fld w 2 3))
  | _ => none

/-- The forms of major 0x50, by bits [6:0] (R69–R75). -/
def pick50 (w : Nat) : Option Instr :=
  match bitsAt w 0 7 with
  | 0 => some (.drift (fld w 24 1) (fld w 22 2) (fld w 17 5) (fld w 12 5) (fld w 7 5))
  | 1 => some (.drift2 (fld w 24 1) (fld w 22 2) (fld w 17 5) (fld w 12 5) (fld w 7 5))
  | 2 => some (.driftx (fld w 24 1) (fld w 22 2) (fld w 17 5) (fld w 12 5) (fld w 7 5))
  | 3 => some (.driftm (fld w 24 1) (fld w 22 2) (fld w 17 5) (fld w 12 5) (fld w 7 5))
  | _ => none

/-- The forms of major 0x51, by bits [6:0] (R69–R75). -/
def pick51 (w : Nat) : Option Instr :=
  match bitsAt w 0 7 with
  | 0 => some (.dwp (fld w 24 1) (fld w 22 2) (fld w 17 5) (fld w 12 1))
  | 1 => some (.dlen (fld w 24 1) (fld w 22 2) (fld w 17 5))
  | 2 => some (.dstop (fld w 24 1) (fld w 22 2))
  | 3 => some (.dbell (fld w 24 1) (fld w 22 2) (fld w 17 5) (fld w 12 5))
  | _ => none

/-- The forms of major 0x52, by bits [1:0] (R69–R75). -/
def pick52 (w : Nat) : Option Instr :=
  match bitsAt w 0 2 with
  | 0 => some (.msgput (fld w 24 1) (fld w 13 5) (fld w 8 5))
  | 1 => some (.msgget (fld w 24 1) (fld w 18 5) (fld w 8 5))
  | 2 => some (.nred (fld w 24 1) (fld w 18 5) (fld w 13 5) (fld w 8 5))
  | _ => none

/-- The forms of major 0x53, by bits [1:0] (R69–R75). -/
def pick53 (w : Nat) : Option Instr :=
  match bitsAt w 0 2 with
  | 0 => some (.sax (fld w 24 1) (fld w 18 5) (fld w 13 5) (fld w 8 5) (fld w 5 3))
  | 1 => some (.sred (fld w 24 1) (fld w 13 5) (fld w 8 5) (fld w 5 3) (fld w 2 3))
  | 2 => some (.sqpush (fld w 24 1) (fld w 13 5) (fld w 8 5) (fld w 5 3))
  | _ => some (.sqpop (fld w 24 1) (fld w 18 5) (fld w 8 5) (fld w 5 3))

/-- The forms of major 0x54, by bits [6:0] (R69–R75). -/
def pick54 (w : Nat) : Option Instr :=
  match bitsAt w 0 7 with
  | 0 => some (.seqopen (fld w 24 1) (fld w 17 5) (fld w 12 5) (fld w 7 5))
  | 1 => some (.claim (fld w 24 1) (fld w 17 5) (fld w 12 5))
  | 2 => some (.claimn (fld w 24 1) (fld w 17 5) (fld w 12 5) (fld w 7 5))
  | 3 => some (.seqfork (fld w 24 1) (fld w 17 5) (fld w 12 5) (fld w 7 5))
  | 4 => some (.seqtrim (fld w 24 1) (fld w 17 5) (fld w 12 5) (fld w 7 5))
  | 5 => some (.seqclose (fld w 24 1) (fld w 17 5) (fld w 12 5))
  | _ => none

/-- The forms of major 0x58, by bits [2:0] (R69–R75). -/
def pick58 (w : Nat) : Option Instr :=
  match bitsAt w 0 3 with
  | 0 => some (.arrive (fld w 24 1) (fld w 13 11) (fld w 8 5) (fld w 5 3))
  | 1 => some (.wait (fld w 24 1) (fld w 13 11) (fld w 8 5) (fld w 5 3) (fld w 3 1))
  | 2 => some (.arrwait (fld w 24 1) (fld w 13 11) (fld w 8 5) (fld w 5 3) (fld w 3 1))
  | 3 => some (.bellset (fld w 24 1) (fld w 13 11) (fld w 8 5))
  | 4 => some (.belltst (fld w 24 1) (fld w 13 11) (fld w 8 5))
  | 5 => some (.bellrst (fld w 24 1) (fld w 13 11))
  | _ => none

/-- The forms of major 0x59, by bits [4:0] (R69–R75). -/
def pick59 (w : Nat) : Option Instr :=
  match bitsAt w 0 5 with
  | 0 => some (.fence (fld w 24 1) (fld w 5 3))
  | 1 => some (.drain (fld w 24 1) (fld w 13 9))
  | _ => none

/-- The forms of major 0x60, by bits [9:0] (R69–R75). -/
def pick60 (w : Nat) : Option Instr :=
  match bitsAt w 0 10 with
  | 0 => some (.trap (fld w 15 5))
  | 1 => some (.brk)
  | 2 => some (.trapret)
  | 3 => some (.retire)
  | 4 => some (.yield)
  | _ => none

/-- The forms of major 0x61, by bits [9:0] (R69–R75). -/
def pick61 (w : Nat) : Option Instr :=
  match bitsAt w 0 10 with
  | 0 => some (.launch (fld w 20 5) (fld w 15 5))
  | 1 => some (.cancel (fld w 15 5))
  | 2 => some (.cwait (fld w 15 5) (fld w 10 5))
  | 3 => some (.cread (fld w 20 5) (fld w 15 5))
  | _ => none

/-- The forms of major 0x62, by bits [9:0] (R69–R75). -/
def pick62 (w : Nat) : Option Instr :=
  match bitsAt w 0 10 with
  | 0 => some (.frqpop (fld w 20 5))
  | 1 => some (.pgmap (fld w 15 5) (fld w 10 5))
  | 2 => some (.pgunmap (fld w 15 5))
  | 3 => some (.resume (fld w 15 5))
  | 4 => some (.kill (fld w 15 5))
  | 5 => some (.pgreq (fld w 15 5))
  | 6 => some (.tlbinv (fld w 15 5))
  | 7 => some (.shmap (fld w 15 5) (fld w 10 5))
  | _ => none

/-- The forms of major 0x63, by bits [9:0] (R69–R75). -/
def pick63 (w : Nat) : Option Instr :=
  match bitsAt w 0 10 with
  | 0 => some (.icinv (fld w 15 5) (fld w 10 5))
  | 1 => some (.dcinv)
  | 2 => some (.dcwb (fld w 15 5) (fld w 10 5))
  | _ => none

/-- The one instruction whose major and function code the word carries (R69–R75). -/
def pick (w : Nat) : Option Instr :=
  match bitsAt w 25 7 with
  | 0x01 => pickOPR w
  | 0x02 => pickOPM w
  | 0x03 => pickOPB w
  | 0x04 => some (.addi (fld w 20 5) (fld w 15 5) (fld w 0 15))
  | 0x05 => some (.andi (fld w 20 5) (fld w 15 5) (fld w 0 15))
  | 0x06 => some (.ori (fld w 20 5) (fld w 15 5) (fld w 0 15))
  | 0x07 => some (.xori (fld w 20 5) (fld w 15 5) (fld w 0 15))
  | 0x08 => some (.slti (fld w 20 5) (fld w 15 5) (fld w 0 15))
  | 0x09 => some (.sltni (fld w 20 5) (fld w 15 5) (fld w 0 15))
  | 0x0A => pickSHI w
  | 0x0B => some (.lih (fld w 20 5) (fld w 0 20))
  | 0x0C => some (.pcadd (fld w 20 5) (fld w 0 20))
  | 0x0D => pickLD w
  | 0x0E => pickST w
  | 0x0F => some (.lda (fld w 20 5) (fld w 15 5) (fld w 12 3) (fld w 9 3) (fld w 0 9))
  | 0x10 => some (.stl (fld w 20 5) (fld w 15 5) (fld w 12 3) (fld w 9 3) (fld w 0 9))
  | 0x11 => some (.amo (fld w 20 5) (fld w 15 5) (fld w 10 5) (fld w 6 4) (fld w 4 2) (fld w 1 3) (fld w 0 1))
  | 0x12 => pickBR w
  | 0x13 => some (.jal (fld w 20 5) (fld w 0 20))
  | 0x14 => some (.jalr (fld w 20 5) (fld w 15 5) (fld w 0 15))
  | 0x15 => pickFOP w
  | 0x16 => pickFMA w
  | 0x17 => pickFCVT w
  | 0x18 => pickFCMP w
  | 0x19 => some (.crr (fld w 20 5) (fld w 0 12))
  | 0x1A => some (.crw (fld w 20 5) (fld w 15 5) (fld w 0 12))
  | 0x1B => some (.movk (fld w 20 5) (fld w 15 5) (fld w 5 3) (fld w 0 5))
  | 0x1C => some (.kmov (fld w 15 5) (fld w 10 5) (fld w 5 3) (fld w 0 5))
  | 0x1D => some (.strip (fld w 20 5) (fld w 15 5))
  | 0x30 => pickWTAB w
  | 0x31 => some (.vcfg (fld w 24 1) (fld w 14 5) (fld w 9 5) (fld w 0 7))
  | 0x32 => pick32 w
  | 0x33 => pick33 w
  | 0x34 => pick34 w
  | 0x35 => pick35 w
  | 0x36 => pick36 w
  | 0x37 => pick37 w
  | 0x38 => pick38 w
  | 0x39 => pick39 w
  | 0x3A => pick3A w
  | 0x3B => pick3B w
  | 0x3C => pick3C w
  | 0x3D => pick3D w
  | 0x3E => pick3E w
  | 0x40 => pick40 w
  | 0x41 => pick41 w
  | 0x42 => pick42 w
  | 0x43 => pick43 w
  | 0x44 => pick44 w
  | 0x48 => pick48 w
  | 0x49 => pick49 w
  | 0x4A => pick4A w
  | 0x4B => pick4B w
  | 0x4C => pick4C w
  | 0x4D => pick4D w
  | 0x4E => pick4E w
  | 0x50 => pick50 w
  | 0x51 => pick51 w
  | 0x52 => pick52 w
  | 0x53 => pick53 w
  | 0x54 => pick54 w
  | 0x58 => pick58 w
  | 0x59 => pick59 w
  | 0x60 => pick60 w
  | 0x61 => pick61 w
  | 0x62 => pick62 w
  | 0x63 => pick63 w
  | _ => none

/-- Operand fields at bits 20, 15, 10 beside the fixed bits `m` (R65). -/
def lay_20_15_10 (m : Nat) (x0 : BitVec 5) (x1 : BitVec 5) (x2 : BitVec 5) : Nat :=
  m + x0.toNat * 1048576 + x1.toNat * 32768 + x2.toNat * 1024

/-- Operand fields at bits 20, 15 beside the fixed bits `m` (R65). -/
def lay_20_15 (m : Nat) (x0 : BitVec 5) (x1 : BitVec 5) : Nat :=
  m + x0.toNat * 1048576 + x1.toNat * 32768

/-- Operand fields at bits 20, 15, 0 beside the fixed bits `m` (R65). -/
def lay_20_15_0 (m : Nat) (x0 : BitVec 5) (x1 : BitVec 5) (x2 : BitVec 15) : Nat :=
  m + x0.toNat * 1048576 + x1.toNat * 32768 + x2.toNat

/-- Operand fields at bits 20, 15, 0 beside the fixed bits `m` (R65). -/
def lay_20_15_0_w5_5_6 (m : Nat) (x0 : BitVec 5) (x1 : BitVec 5) (x2 : BitVec 6) : Nat :=
  m + x0.toNat * 1048576 + x1.toNat * 32768 + x2.toNat

/-- Operand fields at bits 20, 0 beside the fixed bits `m` (R65). -/
def lay_20_0 (m : Nat) (x0 : BitVec 5) (x1 : BitVec 20) : Nat :=
  m + x0.toNat * 1048576 + x1.toNat

/-- Operand fields at bits 20, 15, 0 beside the fixed bits `m` (R65). -/
def lay_20_15_0_w5_5_12 (m : Nat) (x0 : BitVec 5) (x1 : BitVec 5) (x2 : BitVec 12) : Nat :=
  m + x0.toNat * 1048576 + x1.toNat * 32768 + x2.toNat

/-- Operand fields at bits 20, 15, 12, 9, 0 beside the fixed bits `m` (R65). -/
def lay_20_15_12_9_0 (m : Nat) (x0 : BitVec 5) (x1 : BitVec 5) (x2 : BitVec 3) (x3 : BitVec 3) (x4 : BitVec 9) : Nat :=
  m + x0.toNat * 1048576 + x1.toNat * 32768 + x2.toNat * 4096 + x3.toNat * 512 + x4.toNat

/-- Operand fields at bits 20, 15, 10, 6, 4, 1, 0 beside the fixed bits `m` (R65). -/
def lay_20_15_10_6_4_1_0 (m : Nat) (x0 : BitVec 5) (x1 : BitVec 5) (x2 : BitVec 5) (x3 : BitVec 4) (x4 : BitVec 2) (x5 : BitVec 3) (x6 : BitVec 1) : Nat :=
  m + x0.toNat * 1048576 + x1.toNat * 32768 + x2.toNat * 1024 + x3.toNat * 64 + x4.toNat * 16 + x5.toNat * 2 + x6.toNat

/-- Operand fields at bits 20, 15, 10, 5 beside the fixed bits `m` (R65). -/
def lay_20_15_10_5 (m : Nat) (x0 : BitVec 5) (x1 : BitVec 5) (x2 : BitVec 5) (x3 : BitVec 5) : Nat :=
  m + x0.toNat * 1048576 + x1.toNat * 32768 + x2.toNat * 1024 + x3.toNat * 32

/-- Operand fields at bits 20, 0 beside the fixed bits `m` (R65). -/
def lay_20_0_w5_12 (m : Nat) (x0 : BitVec 5) (x1 : BitVec 12) : Nat :=
  m + x0.toNat * 1048576 + x1.toNat

/-- Operand fields at bits 20, 15, 5, 0 beside the fixed bits `m` (R65). -/
def lay_20_15_5_0 (m : Nat) (x0 : BitVec 5) (x1 : BitVec 5) (x2 : BitVec 3) (x3 : BitVec 5) : Nat :=
  m + x0.toNat * 1048576 + x1.toNat * 32768 + x2.toNat * 32 + x3.toNat

/-- Operand fields at bits 15, 10, 5, 0 beside the fixed bits `m` (R65). -/
def lay_15_10_5_0 (m : Nat) (x0 : BitVec 5) (x1 : BitVec 5) (x2 : BitVec 3) (x3 : BitVec 5) : Nat :=
  m + x0.toNat * 32768 + x1.toNat * 1024 + x2.toNat * 32 + x3.toNat

/-- Operand fields at bits 24, 19, 14 beside the fixed bits `m` (R65). -/
def lay_24_19_14 (m : Nat) (x0 : BitVec 1) (x1 : BitVec 5) (x2 : BitVec 5) : Nat :=
  m + x0.toNat * 16777216 + x1.toNat * 524288 + x2.toNat * 16384

/-- Operand fields at bits 24, 19, 9 beside the fixed bits `m` (R65). -/
def lay_24_19_9 (m : Nat) (x0 : BitVec 1) (x1 : BitVec 5) (x2 : BitVec 5) : Nat :=
  m + x0.toNat * 16777216 + x1.toNat * 524288 + x2.toNat * 512

/-- Operand fields at bits 24, 19, 14, 9 beside the fixed bits `m` (R65). -/
def lay_24_19_14_9 (m : Nat) (x0 : BitVec 1) (x1 : BitVec 5) (x2 : BitVec 5) (x3 : BitVec 5) : Nat :=
  m + x0.toNat * 16777216 + x1.toNat * 524288 + x2.toNat * 16384 + x3.toNat * 512

/-- Operand fields at bits 24, 14, 9, 0 beside the fixed bits `m` (R65). -/
def lay_24_14_9_0 (m : Nat) (x0 : BitVec 1) (x1 : BitVec 5) (x2 : BitVec 5) (x3 : BitVec 7) : Nat :=
  m + x0.toNat * 16777216 + x1.toNat * 16384 + x2.toNat * 512 + x3.toNat

/-- Operand fields at bits 24, 23, 18, 13, 8, 5, 2 beside the fixed bits `m` (R65). -/
def lay_24_23_18_13_8_5_2 (m : Nat) (x0 : BitVec 1) (x1 : BitVec 1) (x2 : BitVec 5) (x3 : BitVec 5) (x4 : BitVec 5) (x5 : BitVec 3) (x6 : BitVec 3) : Nat :=
  m + x0.toNat * 16777216 + x1.toNat * 8388608 + x2.toNat * 262144 + x3.toNat * 8192 + x4.toNat * 256 + x5.toNat * 32 + x6.toNat * 4

/-- Operand fields at bits 24, 18, 13, 8, 5 beside the fixed bits `m` (R65). -/
def lay_24_18_13_8_5 (m : Nat) (x0 : BitVec 1) (x1 : BitVec 5) (x2 : BitVec 5) (x3 : BitVec 5) (x4 : BitVec 3) : Nat :=
  m + x0.toNat * 16777216 + x1.toNat * 262144 + x2.toNat * 8192 + x3.toNat * 256 + x4.toNat * 32

/-- Operand fields at bits 24, 23, 18, 13, 5, 2 beside the fixed bits `m` (R65). -/
def lay_24_23_18_13_5_2 (m : Nat) (x0 : BitVec 1) (x1 : BitVec 1) (x2 : BitVec 5) (x3 : BitVec 5) (x4 : BitVec 3) (x5 : BitVec 3) : Nat :=
  m + x0.toNat * 16777216 + x1.toNat * 8388608 + x2.toNat * 262144 + x3.toNat * 8192 + x4.toNat * 32 + x5.toNat * 4

/-- Operand fields at bits 24, 18, 13, 8, 5 beside the fixed bits `m` (R65). -/
def lay_24_18_13_8_5_w1_3_5_5_3 (m : Nat) (x0 : BitVec 1) (x1 : BitVec 3) (x2 : BitVec 5) (x3 : BitVec 5) (x4 : BitVec 3) : Nat :=
  m + x0.toNat * 16777216 + x1.toNat * 262144 + x2.toNat * 8192 + x3.toNat * 256 + x4.toNat * 32

/-- Operand fields at bits 24, 18, 13, 5 beside the fixed bits `m` (R65). -/
def lay_24_18_13_5 (m : Nat) (x0 : BitVec 1) (x1 : BitVec 5) (x2 : BitVec 5) (x3 : BitVec 3) : Nat :=
  m + x0.toNat * 16777216 + x1.toNat * 262144 + x2.toNat * 8192 + x3.toNat * 32

/-- Operand fields at bits 24, 18, 13, 5, 2 beside the fixed bits `m` (R65). -/
def lay_24_18_13_5_2 (m : Nat) (x0 : BitVec 1) (x1 : BitVec 5) (x2 : BitVec 5) (x3 : BitVec 3) (x4 : BitVec 3) : Nat :=
  m + x0.toNat * 16777216 + x1.toNat * 262144 + x2.toNat * 8192 + x3.toNat * 32 + x4.toNat * 4

/-- Operand fields at bits 24, 18, 5 beside the fixed bits `m` (R65). -/
def lay_24_18_5 (m : Nat) (x0 : BitVec 1) (x1 : BitVec 5) (x2 : BitVec 3) : Nat :=
  m + x0.toNat * 16777216 + x1.toNat * 262144 + x2.toNat * 32

/-- Operand fields at bits 24, 18, 8, 5 beside the fixed bits `m` (R65). -/
def lay_24_18_8_5 (m : Nat) (x0 : BitVec 1) (x1 : BitVec 5) (x2 : BitVec 5) (x3 : BitVec 3) : Nat :=
  m + x0.toNat * 16777216 + x1.toNat * 262144 + x2.toNat * 256 + x3.toNat * 32

/-- Operand fields at bits 24, 18, 13, 8 beside the fixed bits `m` (R65). -/
def lay_24_18_13_8 (m : Nat) (x0 : BitVec 1) (x1 : BitVec 5) (x2 : BitVec 5) (x3 : BitVec 5) : Nat :=
  m + x0.toNat * 16777216 + x1.toNat * 262144 + x2.toNat * 8192 + x3.toNat * 256

/-- Operand fields at bits 24, 18, 13, 8, 4 beside the fixed bits `m` (R65). -/
def lay_24_18_13_8_4 (m : Nat) (x0 : BitVec 1) (x1 : BitVec 3) (x2 : BitVec 3) (x3 : BitVec 3) (x4 : BitVec 4) : Nat :=
  m + x0.toNat * 16777216 + x1.toNat * 262144 + x2.toNat * 8192 + x3.toNat * 256 + x4.toNat * 16

/-- Operand fields at bits 24, 18, 13 beside the fixed bits `m` (R65). -/
def lay_24_18_13 (m : Nat) (x0 : BitVec 1) (x1 : BitVec 5) (x2 : BitVec 3) : Nat :=
  m + x0.toNat * 16777216 + x1.toNat * 262144 + x2.toNat * 8192

/-- Operand fields at bits 24, 18, 8 beside the fixed bits `m` (R65). -/
def lay_24_18_8 (m : Nat) (x0 : BitVec 1) (x1 : BitVec 3) (x2 : BitVec 5) : Nat :=
  m + x0.toNat * 16777216 + x1.toNat * 262144 + x2.toNat * 256

/-- Operand fields at bits 24, 18, 13, 8 beside the fixed bits `m` (R65). -/
def lay_24_18_13_8_w1_5_3_5 (m : Nat) (x0 : BitVec 1) (x1 : BitVec 5) (x2 : BitVec 3) (x3 : BitVec 5) : Nat :=
  m + x0.toNat * 16777216 + x1.toNat * 262144 + x2.toNat * 8192 + x3.toNat * 256

/-- Operand fields at bits 24, 23, 18, 8, 5, 2 beside the fixed bits `m` (R65). -/
def lay_24_23_18_8_5_2 (m : Nat) (x0 : BitVec 1) (x1 : BitVec 1) (x2 : BitVec 5) (x3 : BitVec 5) (x4 : BitVec 3) (x5 : BitVec 3) : Nat :=
  m + x0.toNat * 16777216 + x1.toNat * 8388608 + x2.toNat * 262144 + x3.toNat * 256 + x4.toNat * 32 + x5.toNat * 4

/-- Operand fields at bits 24, 18, 13, 8, 5, 2, 0 beside the fixed bits `m` (R65). -/
def lay_24_18_13_8_5_2_0 (m : Nat) (x0 : BitVec 1) (x1 : BitVec 5) (x2 : BitVec 5) (x3 : BitVec 5) (x4 : BitVec 3) (x5 : BitVec 3) (x6 : BitVec 2) : Nat :=
  m + x0.toNat * 16777216 + x1.toNat * 262144 + x2.toNat * 8192 + x3.toNat * 256 + x4.toNat * 32 + x5.toNat * 4 + x6.toNat

/-- Operand fields at bits 24, 13, 8, 5 beside the fixed bits `m` (R65). -/
def lay_24_13_8_5 (m : Nat) (x0 : BitVec 1) (x1 : BitVec 5) (x2 : BitVec 5) (x3 : BitVec 3) : Nat :=
  m + x0.toNat * 16777216 + x1.toNat * 8192 + x2.toNat * 256 + x3.toNat * 32

/-- Operand fields at bits 24, 14 beside the fixed bits `m` (R65). -/
def lay_24_14 (m : Nat) (x0 : BitVec 1) (x1 : BitVec 5) : Nat :=
  m + x0.toNat * 16777216 + x1.toNat * 16384

/-- Operand fields at bits 24 beside the fixed bits `m` (R65). -/
def lay_24 (m : Nat) (x0 : BitVec 1) : Nat :=
  m + x0.toNat * 16777216

/-- Operand fields at bits 24, 11 beside the fixed bits `m` (R65). -/
def lay_24_11 (m : Nat) (x0 : BitVec 1) (x1 : BitVec 2) : Nat :=
  m + x0.toNat * 16777216 + x1.toNat * 2048

/-- Operand fields at bits 24, 13 beside the fixed bits `m` (R65). -/
def lay_24_13 (m : Nat) (x0 : BitVec 1) (x1 : BitVec 1) : Nat :=
  m + x0.toNat * 16777216 + x1.toNat * 8192

/-- Operand fields at bits 24, 19, 14, 13, 11, 9, 8 beside the fixed bits `m` (R65). -/
def lay_24_19_14_13_11_9_8 (m : Nat) (x0 : BitVec 1) (x1 : BitVec 5) (x2 : BitVec 5) (x3 : BitVec 1) (x4 : BitVec 2) (x5 : BitVec 2) (x6 : BitVec 1) : Nat :=
  m + x0.toNat * 16777216 + x1.toNat * 524288 + x2.toNat * 16384 + x3.toNat * 8192 + x4.toNat * 2048 + x5.toNat * 512 + x6.toNat * 256

/-- Operand fields at bits 24, 19, 14, 13 beside the fixed bits `m` (R65). -/
def lay_24_19_14_13 (m : Nat) (x0 : BitVec 1) (x1 : BitVec 5) (x2 : BitVec 5) (x3 : BitVec 1) : Nat :=
  m + x0.toNat * 16777216 + x1.toNat * 524288 + x2.toNat * 16384 + x3.toNat * 8192

/-- Operand fields at bits 24, 22, 17, 12, 7 beside the fixed bits `m` (R65). -/
def lay_24_22_17_12_7 (m : Nat) (x0 : BitVec 1) (x1 : BitVec 2) (x2 : BitVec 5) (x3 : BitVec 5) (x4 : BitVec 5) : Nat :=
  m + x0.toNat * 16777216 + x1.toNat * 4194304 + x2.toNat * 131072 + x3.toNat * 4096 + x4.toNat * 128

/-- Operand fields at bits 24, 22, 17, 12 beside the fixed bits `m` (R65). -/
def lay_24_22_17_12 (m : Nat) (x0 : BitVec 1) (x1 : BitVec 2) (x2 : BitVec 5) (x3 : BitVec 1) : Nat :=
  m + x0.toNat * 16777216 + x1.toNat * 4194304 + x2.toNat * 131072 + x3.toNat * 4096

/-- Operand fields at bits 24, 22, 17 beside the fixed bits `m` (R65). -/
def lay_24_22_17 (m : Nat) (x0 : BitVec 1) (x1 : BitVec 2) (x2 : BitVec 5) : Nat :=
  m + x0.toNat * 16777216 + x1.toNat * 4194304 + x2.toNat * 131072

/-- Operand fields at bits 24, 22 beside the fixed bits `m` (R65). -/
def lay_24_22 (m : Nat) (x0 : BitVec 1) (x1 : BitVec 2) : Nat :=
  m + x0.toNat * 16777216 + x1.toNat * 4194304

/-- Operand fields at bits 24, 22, 17, 12 beside the fixed bits `m` (R65). -/
def lay_24_22_17_12_w1_2_5_5 (m : Nat) (x0 : BitVec 1) (x1 : BitVec 2) (x2 : BitVec 5) (x3 : BitVec 5) : Nat :=
  m + x0.toNat * 16777216 + x1.toNat * 4194304 + x2.toNat * 131072 + x3.toNat * 4096

/-- Operand fields at bits 24, 13, 8 beside the fixed bits `m` (R65). -/
def lay_24_13_8 (m : Nat) (x0 : BitVec 1) (x1 : BitVec 5) (x2 : BitVec 5) : Nat :=
  m + x0.toNat * 16777216 + x1.toNat * 8192 + x2.toNat * 256

/-- Operand fields at bits 24, 18, 8 beside the fixed bits `m` (R65). -/
def lay_24_18_8_w1_5_5 (m : Nat) (x0 : BitVec 1) (x1 : BitVec 5) (x2 : BitVec 5) : Nat :=
  m + x0.toNat * 16777216 + x1.toNat * 262144 + x2.toNat * 256

/-- Operand fields at bits 24, 13, 8, 5, 2 beside the fixed bits `m` (R65). -/
def lay_24_13_8_5_2 (m : Nat) (x0 : BitVec 1) (x1 : BitVec 5) (x2 : BitVec 5) (x3 : BitVec 3) (x4 : BitVec 3) : Nat :=
  m + x0.toNat * 16777216 + x1.toNat * 8192 + x2.toNat * 256 + x3.toNat * 32 + x4.toNat * 4

/-- Operand fields at bits 24, 17, 12, 7 beside the fixed bits `m` (R65). -/
def lay_24_17_12_7 (m : Nat) (x0 : BitVec 1) (x1 : BitVec 5) (x2 : BitVec 5) (x3 : BitVec 5) : Nat :=
  m + x0.toNat * 16777216 + x1.toNat * 131072 + x2.toNat * 4096 + x3.toNat * 128

/-- Operand fields at bits 24, 17, 12 beside the fixed bits `m` (R65). -/
def lay_24_17_12 (m : Nat) (x0 : BitVec 1) (x1 : BitVec 5) (x2 : BitVec 5) : Nat :=
  m + x0.toNat * 16777216 + x1.toNat * 131072 + x2.toNat * 4096

/-- Operand fields at bits 24, 13, 8, 5 beside the fixed bits `m` (R65). -/
def lay_24_13_8_5_w1_11_5_3 (m : Nat) (x0 : BitVec 1) (x1 : BitVec 11) (x2 : BitVec 5) (x3 : BitVec 3) : Nat :=
  m + x0.toNat * 16777216 + x1.toNat * 8192 + x2.toNat * 256 + x3.toNat * 32

/-- Operand fields at bits 24, 13, 8, 5, 3 beside the fixed bits `m` (R65). -/
def lay_24_13_8_5_3 (m : Nat) (x0 : BitVec 1) (x1 : BitVec 11) (x2 : BitVec 5) (x3 : BitVec 3) (x4 : BitVec 1) : Nat :=
  m + x0.toNat * 16777216 + x1.toNat * 8192 + x2.toNat * 256 + x3.toNat * 32 + x4.toNat * 8

/-- Operand fields at bits 24, 13, 8 beside the fixed bits `m` (R65). -/
def lay_24_13_8_w1_11_5 (m : Nat) (x0 : BitVec 1) (x1 : BitVec 11) (x2 : BitVec 5) : Nat :=
  m + x0.toNat * 16777216 + x1.toNat * 8192 + x2.toNat * 256

/-- Operand fields at bits 24, 13 beside the fixed bits `m` (R65). -/
def lay_24_13_w1_11 (m : Nat) (x0 : BitVec 1) (x1 : BitVec 11) : Nat :=
  m + x0.toNat * 16777216 + x1.toNat * 8192

/-- Operand fields at bits 24, 5 beside the fixed bits `m` (R65). -/
def lay_24_5 (m : Nat) (x0 : BitVec 1) (x1 : BitVec 3) : Nat :=
  m + x0.toNat * 16777216 + x1.toNat * 32

/-- Operand fields at bits 24, 13 beside the fixed bits `m` (R65). -/
def lay_24_13_w1_9 (m : Nat) (x0 : BitVec 1) (x1 : BitVec 9) : Nat :=
  m + x0.toNat * 16777216 + x1.toNat * 8192

/-- Operand fields at bits 15 beside the fixed bits `m` (R65). -/
def lay_15 (m : Nat) (x0 : BitVec 5) : Nat :=
  m + x0.toNat * 32768

/-- Operand fields at bits none beside the fixed bits `m` (R65). -/
def layNone (m : Nat) : Nat :=
  m

/-- Operand fields at bits 15, 10 beside the fixed bits `m` (R65). -/
def lay_15_10 (m : Nat) (x0 : BitVec 5) (x1 : BitVec 5) : Nat :=
  m + x0.toNat * 32768 + x1.toNat * 1024

/-- Operand fields at bits 20 beside the fixed bits `m` (R65). -/
def lay_20 (m : Nat) (x0 : BitVec 5) : Nat :=
  m + x0.toNat * 1048576

/-- The word of an instruction (R65): its fixed bits and its operand fields in their places. A step without a word has none. -/
def encodeWord : Instr → Option Nat
  | .add gd ga gb => some (lay_20_15_10 0x02000000 gd ga gb)
  | .sub gd ga gb => some (lay_20_15_10 0x02000001 gd ga gb)
  | .and gd ga gb => some (lay_20_15_10 0x02000002 gd ga gb)
  | .or gd ga gb => some (lay_20_15_10 0x02000003 gd ga gb)
  | .xor gd ga gb => some (lay_20_15_10 0x02000004 gd ga gb)
  | .andn gd ga gb => some (lay_20_15_10 0x02000005 gd ga gb)
  | .sll gd ga gb => some (lay_20_15_10 0x02000006 gd ga gb)
  | .srl gd ga gb => some (lay_20_15_10 0x02000007 gd ga gb)
  | .sra gd ga gb => some (lay_20_15_10 0x02000008 gd ga gb)
  | .rol gd ga gb => some (lay_20_15_10 0x02000009 gd ga gb)
  | .slt gd ga gb => some (lay_20_15_10 0x0200000A gd ga gb)
  | .sltn gd ga gb => some (lay_20_15_10 0x0200000B gd ga gb)
  | .min gd ga gb => some (lay_20_15_10 0x0200000C gd ga gb)
  | .max gd ga gb => some (lay_20_15_10 0x0200000D gd ga gb)
  | .minn gd ga gb => some (lay_20_15_10 0x0200000E gd ga gb)
  | .maxn gd ga gb => some (lay_20_15_10 0x0200000F gd ga gb)
  | .addw gd ga gb => some (lay_20_15_10 0x02000010 gd ga gb)
  | .subw gd ga gb => some (lay_20_15_10 0x02000011 gd ga gb)
  | .mul gd ga gb => some (lay_20_15_10 0x04000000 gd ga gb)
  | .mulh gd ga gb => some (lay_20_15_10 0x04000001 gd ga gb)
  | .mulhn gd ga gb => some (lay_20_15_10 0x04000002 gd ga gb)
  | .div gd ga gb => some (lay_20_15_10 0x04000003 gd ga gb)
  | .divn gd ga gb => some (lay_20_15_10 0x04000004 gd ga gb)
  | .rem gd ga gb => some (lay_20_15_10 0x04000005 gd ga gb)
  | .remn gd ga gb => some (lay_20_15_10 0x04000006 gd ga gb)
  | .clz gd ga => some (lay_20_15 0x06000000 gd ga)
  | .ctz gd ga => some (lay_20_15 0x06000001 gd ga)
  | .popc gd ga => some (lay_20_15 0x06000002 gd ga)
  | .sextb gd ga => some (lay_20_15 0x06000003 gd ga)
  | .sexth gd ga => some (lay_20_15 0x06000004 gd ga)
  | .sextw gd ga => some (lay_20_15 0x06000005 gd ga)
  | .zextb gd ga => some (lay_20_15 0x06000006 gd ga)
  | .zexth gd ga => some (lay_20_15 0x06000007 gd ga)
  | .zextw gd ga => some (lay_20_15 0x06000008 gd ga)
  | .bswap gd ga => some (lay_20_15 0x06000009 gd ga)
  | .addi gd ga imm => some (lay_20_15_0 0x08000000 gd ga imm)
  | .andi gd ga imm => some (lay_20_15_0 0x0A000000 gd ga imm)
  | .ori gd ga imm => some (lay_20_15_0 0x0C000000 gd ga imm)
  | .xori gd ga imm => some (lay_20_15_0 0x0E000000 gd ga imm)
  | .slti gd ga imm => some (lay_20_15_0 0x10000000 gd ga imm)
  | .sltni gd ga imm => some (lay_20_15_0 0x12000000 gd ga imm)
  | .slli gd ga sh => some (lay_20_15_0_w5_5_6 0x14000000 gd ga sh)
  | .srli gd ga sh => some (lay_20_15_0_w5_5_6 0x14002000 gd ga sh)
  | .srai gd ga sh => some (lay_20_15_0_w5_5_6 0x14004000 gd ga sh)
  | .roli gd ga sh => some (lay_20_15_0_w5_5_6 0x14006000 gd ga sh)
  | .lih gd imm => some (lay_20_0 0x16000000 gd imm)
  | .pcadd gd imm => some (lay_20_0 0x18000000 gd imm)
  | .ldB gd ga off => some (lay_20_15_0_w5_5_12 0x1A000000 gd ga off)
  | .ldBn gd ga off => some (lay_20_15_0_w5_5_12 0x1A001000 gd ga off)
  | .ldH gd ga off => some (lay_20_15_0_w5_5_12 0x1A002000 gd ga off)
  | .ldHn gd ga off => some (lay_20_15_0_w5_5_12 0x1A003000 gd ga off)
  | .ldW gd ga off => some (lay_20_15_0_w5_5_12 0x1A004000 gd ga off)
  | .ldWn gd ga off => some (lay_20_15_0_w5_5_12 0x1A005000 gd ga off)
  | .ldD gd ga off => some (lay_20_15_0_w5_5_12 0x1A006000 gd ga off)
  | .stB gs ga off => some (lay_20_15_0_w5_5_12 0x1C000000 gs ga off)
  | .stH gs ga off => some (lay_20_15_0_w5_5_12 0x1C002000 gs ga off)
  | .stW gs ga off => some (lay_20_15_0_w5_5_12 0x1C004000 gs ga off)
  | .stD gs ga off => some (lay_20_15_0_w5_5_12 0x1C006000 gs ga off)
  | .lda gd ga sz scope off => some (lay_20_15_12_9_0 0x1E000000 gd ga sz scope off)
  | .stl gs ga sz scope off => some (lay_20_15_12_9_0 0x20000000 gs ga sz scope off)
  | .amo gd ga gb op order scope sz => some (lay_20_15_10_6_4_1_0 0x22000000 gd ga gb op order scope sz)
  | .brEq ga gb off => some (lay_20_15_0_w5_5_12 0x24000000 ga gb off)
  | .brNe ga gb off => some (lay_20_15_0_w5_5_12 0x24001000 ga gb off)
  | .brLt ga gb off => some (lay_20_15_0_w5_5_12 0x24002000 ga gb off)
  | .brGe ga gb off => some (lay_20_15_0_w5_5_12 0x24003000 ga gb off)
  | .brLtn ga gb off => some (lay_20_15_0_w5_5_12 0x24004000 ga gb off)
  | .brGen ga gb off => some (lay_20_15_0_w5_5_12 0x24005000 ga gb off)
  | .jal gd off => some (lay_20_0 0x26000000 gd off)
  | .jalr gd ga imm => some (lay_20_15_0 0x28000000 gd ga imm)
  | .fadd gd ga gb => some (lay_20_15_10 0x2A000000 gd ga gb)
  | .fsub gd ga gb => some (lay_20_15_10 0x2A000001 gd ga gb)
  | .fmul gd ga gb => some (lay_20_15_10 0x2A000002 gd ga gb)
  | .fdiv gd ga gb => some (lay_20_15_10 0x2A000003 gd ga gb)
  | .fsqrt gd ga => some (lay_20_15 0x2A000004 gd ga)
  | .fmin gd ga gb => some (lay_20_15_10 0x2A000005 gd ga gb)
  | .fmax gd ga gb => some (lay_20_15_10 0x2A000006 gd ga gb)
  | .fsgnj gd ga gb => some (lay_20_15_10 0x2A000007 gd ga gb)
  | .fsgnjn gd ga gb => some (lay_20_15_10 0x2A000008 gd ga gb)
  | .fsgnjx gd ga gb => some (lay_20_15_10 0x2A000009 gd ga gb)
  | .fmadd gd ga gb gc => some (lay_20_15_10_5 0x2C000000 gd ga gb gc)
  | .fmsub gd ga gb gc => some (lay_20_15_10_5 0x2C000001 gd ga gb gc)
  | .fnmadd gd ga gb gc => some (lay_20_15_10_5 0x2C000002 gd ga gb gc)
  | .fnmsub gd ga gb gc => some (lay_20_15_10_5 0x2C000003 gd ga gb gc)
  | .fcvtF32I32 gd ga => some (lay_20_15 0x2E000000 gd ga)
  | .fcvtF32N32 gd ga => some (lay_20_15 0x2E000001 gd ga)
  | .fcvtF32I64 gd ga => some (lay_20_15 0x2E000002 gd ga)
  | .fcvtF32N64 gd ga => some (lay_20_15 0x2E000003 gd ga)
  | .fcvtI32F32 gd ga => some (lay_20_15 0x2E000004 gd ga)
  | .fcvtN32F32 gd ga => some (lay_20_15 0x2E000005 gd ga)
  | .fcvtI64F32 gd ga => some (lay_20_15 0x2E000006 gd ga)
  | .fcvtN64F32 gd ga => some (lay_20_15 0x2E000007 gd ga)
  | .fcvtBf16F32 gd ga => some (lay_20_15 0x2E000008 gd ga)
  | .fcvtF32Bf16 gd ga => some (lay_20_15 0x2E000009 gd ga)
  | .feq gd ga gb => some (lay_20_15_10 0x30000000 gd ga gb)
  | .flt gd ga gb => some (lay_20_15_10 0x30000001 gd ga gb)
  | .fle gd ga gb => some (lay_20_15_10 0x30000002 gd ga gb)
  | .fclass gd ga => some (lay_20_15 0x30000003 gd ga)
  | .crr gd cr => some (lay_20_0_w5_12 0x32000000 gd cr)
  | .crw gd ga cr => some (lay_20_15_0_w5_5_12 0x34000000 gd ga cr)
  | .movk gd ga kn imm => some (lay_20_15_5_0 0x36000000 gd ga kn imm)
  | .kmov ga gb kn imm => some (lay_15_10_5_0 0x38000000 ga gb kn imm)
  | .strip gd ga => some (lay_20_15 0x3A000000 gd ga)
  | .wdef c w ga => some (lay_24_19_14 0x60000000 c w ga)
  | .wget c w gd => some (lay_24_19_14 0x60000001 c w gd)
  | .wcopy c w wsrc => some (lay_24_19_9 0x60000002 c w wsrc)
  | .worg c w ga gb => some (lay_24_19_14_9 0x60000003 c w ga gb)
  | .wtype c w ty => some (lay_24_19_9 0x60000004 c w ty)
  | .vcfg c ga gb fields => some (lay_24_14_9_0 0x62000000 c ga gb fields)
  | .vadd c x wd wa wb kn ke => some (lay_24_23_18_13_8_5_2 0x64000000 c x wd wa wb kn ke)
  | .vsub c x wd wa wb kn ke => some (lay_24_23_18_13_8_5_2 0x64000001 c x wd wa wb kn ke)
  | .vmin c x wd wa wb kn ke => some (lay_24_23_18_13_8_5_2 0x64000002 c x wd wa wb kn ke)
  | .vmax c x wd wa wb kn ke => some (lay_24_23_18_13_8_5_2 0x64000003 c x wd wa wb kn ke)
  | .vand c wd wa wb kn => some (lay_24_18_13_8_5 0x66000000 c wd wa wb kn)
  | .vor c wd wa wb kn => some (lay_24_18_13_8_5 0x66000001 c wd wa wb kn)
  | .vxor c wd wa wb kn => some (lay_24_18_13_8_5 0x66000002 c wd wa wb kn)
  | .vandn c wd wa wb kn => some (lay_24_18_13_8_5 0x66000003 c wd wa wb kn)
  | .vshl c wd wa wb kn => some (lay_24_18_13_8_5 0x68000000 c wd wa wb kn)
  | .vshr c wd wa wb kn => some (lay_24_18_13_8_5 0x68000001 c wd wa wb kn)
  | .vsra c wd wa wb kn => some (lay_24_18_13_8_5 0x68000002 c wd wa wb kn)
  | .vrol c wd wa wb kn => some (lay_24_18_13_8_5 0x68000003 c wd wa wb kn)
  | .vmul c x wd wa wb kn ke => some (lay_24_23_18_13_8_5_2 0x6A000000 c x wd wa wb kn ke)
  | .vmulh c x wd wa wb kn ke => some (lay_24_23_18_13_8_5_2 0x6A000001 c x wd wa wb kn ke)
  | .vfma c x wd wa wb kn ke => some (lay_24_23_18_13_8_5_2 0x6A000002 c x wd wa wb kn ke)
  | .vfms c x wd wa wb kn ke => some (lay_24_23_18_13_8_5_2 0x6A000003 c x wd wa wb kn ke)
  | .vdiv c x wd wa wb kn ke => some (lay_24_23_18_13_8_5_2 0x6C000000 c x wd wa wb kn ke)
  | .vsqrt c x wd wa kn ke => some (lay_24_23_18_13_5_2 0x6C000001 c x wd wa kn ke)
  | .vrcp c x wd wa kn ke => some (lay_24_23_18_13_5_2 0x6C000002 c x wd wa kn ke)
  | .vrsq c x wd wa kn ke => some (lay_24_23_18_13_5_2 0x6C000003 c x wd wa kn ke)
  | .vexp2 c x wd wa kn ke => some (lay_24_23_18_13_5_2 0x6E000000 c x wd wa kn ke)
  | .vlog2 c x wd wa kn ke => some (lay_24_23_18_13_5_2 0x6E000001 c x wd wa kn ke)
  | .vabs c x wd wa kn ke => some (lay_24_23_18_13_5_2 0x6E000002 c x wd wa kn ke)
  | .vneg c x wd wa kn ke => some (lay_24_23_18_13_5_2 0x6E000003 c x wd wa kn ke)
  | .vceq c kd wa wb kn => some (lay_24_18_13_8_5_w1_3_5_5_3 0x70000000 c kd wa wb kn)
  | .vcne c kd wa wb kn => some (lay_24_18_13_8_5_w1_3_5_5_3 0x70000001 c kd wa wb kn)
  | .vclt c kd wa wb kn => some (lay_24_18_13_8_5_w1_3_5_5_3 0x70000002 c kd wa wb kn)
  | .vcle c kd wa wb kn => some (lay_24_18_13_8_5_w1_3_5_5_3 0x70000003 c kd wa wb kn)
  | .vsel c wd wa wb kn => some (lay_24_18_13_8_5 0x72000000 c wd wa wb kn)
  | .vmov c wd wa kn => some (lay_24_18_13_5 0x72000001 c wd wa kn)
  | .vmerge c wd wa kn ke => some (lay_24_18_13_5_2 0x72000002 c wd wa kn ke)
  | .viota c wd kn => some (lay_24_18_5 0x72000003 c wd kn)
  | .vadds c x wd wa ga kn ke => some (lay_24_23_18_13_8_5_2 0x74000000 c x wd wa ga kn ke)
  | .vmuls c x wd wa ga kn ke => some (lay_24_23_18_13_8_5_2 0x74000001 c x wd wa ga kn ke)
  | .vbcast c wd ga kn => some (lay_24_18_8_5 0x74000002 c wd ga kn)
  | .vextr c gd wa ga => some (lay_24_18_13_8 0x74000003 c gd wa ga)
  | .vredsum c wd wa kn => some (lay_24_18_13_5 0x76000000 c wd wa kn)
  | .vredmax c wd wa kn => some (lay_24_18_13_5 0x76000001 c wd wa kn)
  | .vredmin c wd wa kn => some (lay_24_18_13_5 0x76000002 c wd wa kn)
  | .vscan c wd wa kn => some (lay_24_18_13_5 0x76000003 c wd wa kn)
  | .vcvt c x wd wa kn ke => some (lay_24_23_18_13_5_2 0x78000000 c x wd wa kn ke)
  | .vperm c wd wa wb kn => some (lay_24_18_13_8_5 0x78000001 c wd wa wb kn)
  | .vslide c wd wa ga kn => some (lay_24_18_13_8_5 0x78000002 c wd wa ga kn)
  | .vcompress c wd wa kn => some (lay_24_18_13_5 0x78000003 c wd wa kn)
  | .kfun c kd ka kb tt => some (lay_24_18_13_8_4 0x7A000000 c kd ka kb tt)
  | .kpop c gd ka => some (lay_24_18_13 0x7A000001 c gd ka)
  | .kfirst c gd ka => some (lay_24_18_13 0x7A000002 c gd ka)
  | .kset c kd ga => some (lay_24_18_8 0x7C000000 c kd ga)
  | .kclr c kd ga => some (lay_24_18_8 0x7C000001 c kd ga)
  | .kbit c gd ka ga => some (lay_24_18_13_8_w1_5_3_5 0x7C000002 c gd ka ga)
  | .vld c x wd ga kn ke => some (lay_24_23_18_8_5_2 0x80000000 c x wd ga kn ke)
  | .vlds c x wd ga kn ke => some (lay_24_23_18_8_5_2 0x80000001 c x wd ga kn ke)
  | .vldff c x wd ga kn ke => some (lay_24_23_18_8_5_2 0x80000002 c x wd ga kn ke)
  | .vldb c x wd ga kn ke => some (lay_24_23_18_8_5_2 0x80000003 c x wd ga kn ke)
  | .vst c ws ga kn => some (lay_24_18_8_5 0x82000000 c ws ga kn)
  | .vsts c ws ga kn => some (lay_24_18_8_5 0x82000001 c ws ga kn)
  | .vstduo c ws ga kn => some (lay_24_18_8_5 0x82000002 c ws ga kn)
  | .vldx c x wd wi ga kn ke => some (lay_24_23_18_13_8_5_2 0x84000000 c x wd wi ga kn ke)
  | .vstx c ws wi ga kn => some (lay_24_18_13_8_5 0x84000001 c ws wi ga kn)
  | .vamo c wd wa ga kn op order => some (lay_24_18_13_8_5_2_0 0x86000000 c wd wa ga kn op order)
  | .vamoX c wd wa ga kn op order => some (lay_24_18_13_8_5_2_0 0x86800000 c wd wa ga kn op order)
  | .tagset c wa ga kn => some (lay_24_13_8_5 0x88000000 c wa ga kn)
  | .satt c ga => some (lay_24_14 0x90000000 c ga)
  | .sdet c => some (lay_24 0x90000001 c)
  | .sguard c gw => some (lay_24_11 0x90000002 c gw)
  | .szero c slot => some (lay_24_13 0x90000003 c slot)
  | .sstat c ga => some (lay_24_14 0x90000004 c ga)
  | .sldb c w ga => some (lay_24_19_14 0x92000000 c w ga)
  | .smul c w ga slot ca cb mode => some (lay_24_19_14_13_11_9_8 0x94000000 c w ga slot ca cb mode)
  | .smula c w ga slot ca cb mode => some (lay_24_19_14_13_11_9_8 0x96000000 c w ga slot ca cb mode)
  | .sxtr c w ga slot => some (lay_24_19_14_13 0x98000000 c w ga slot)
  | .sxtw c w ga slot => some (lay_24_19_14_13 0x98000001 c w ga slot)
  | .sfin c w ga => some (lay_24_19_14 0x98000002 c w ga)
  | .vpack c wd wa kn => some (lay_24_18_13_5 0x9A000000 c wd wa kn)
  | .vpackr c wd wa kn => some (lay_24_18_13_5 0x9A000001 c wd wa kn)
  | .vunpk c wd wa kn => some (lay_24_18_13_5 0x9A000002 c wd wa kn)
  | .vqnt c x wd wa wb kn ke => some (lay_24_23_18_13_8_5_2 0x9A000003 c x wd wa wb kn ke)
  | .vscalc c x wd wa wb kn ke => some (lay_24_23_18_13_8_5_2 0x9C000000 c x wd wa wb kn ke)
  | .drift c ch ga gb gc => some (lay_24_22_17_12_7 0xA0000000 c ch ga gb gc)
  | .drift2 c ch ga gb gc => some (lay_24_22_17_12_7 0xA0000001 c ch ga gb gc)
  | .driftx c ch ga gb gc => some (lay_24_22_17_12_7 0xA0000002 c ch ga gb gc)
  | .driftm c ch ga gb gc => some (lay_24_22_17_12_7 0xA0000003 c ch ga gb gc)
  | .dwp c ch gd acq => some (lay_24_22_17_12 0xA2000000 c ch gd acq)
  | .dlen c ch gd => some (lay_24_22_17 0xA2000001 c ch gd)
  | .dstop c ch => some (lay_24_22 0xA2000002 c ch)
  | .dbell c ch ga gb => some (lay_24_22_17_12_w1_2_5_5 0xA2000003 c ch ga gb)
  | .msgput c wa ga => some (lay_24_13_8 0xA4000000 c wa ga)
  | .msgget c wd ga => some (lay_24_18_8_w1_5_5 0xA4000001 c wd ga)
  | .nred c wd wa ga => some (lay_24_18_13_8 0xA4000002 c wd wa ga)
  | .sax c gs wa ga kn => some (lay_24_18_13_8_5 0xA6000000 c gs wa ga kn)
  | .sred c wa ga kn op => some (lay_24_13_8_5_2 0xA6000001 c wa ga kn op)
  | .sqpush c wa ga kn => some (lay_24_13_8_5 0xA6000002 c wa ga kn)
  | .sqpop c wd ga kn => some (lay_24_18_8_5 0xA6000003 c wd ga kn)
  | .seqopen c gd gb gc => some (lay_24_17_12_7 0xA8000000 c gd gb gc)
  | .claim c gd gb => some (lay_24_17_12 0xA8000001 c gd gb)
  | .claimn c gd gb gc => some (lay_24_17_12_7 0xA8000002 c gd gb gc)
  | .seqfork c gd gb gc => some (lay_24_17_12_7 0xA8000003 c gd gb gc)
  | .seqtrim c gd gb gc => some (lay_24_17_12_7 0xA8000004 c gd gb gc)
  | .seqclose c gd gb => some (lay_24_17_12 0xA8000005 c gd gb)
  | .arrive c bell gc scope => some (lay_24_13_8_5_w1_11_5_3 0xB0000000 c bell gc scope)
  | .wait c bell gc scope ph => some (lay_24_13_8_5_3 0xB0000001 c bell gc scope ph)
  | .arrwait c bell gc scope ph => some (lay_24_13_8_5_3 0xB0000002 c bell gc scope ph)
  | .bellset c bell ga => some (lay_24_13_8_w1_11_5 0xB0000003 c bell ga)
  | .belltst c bell gd => some (lay_24_13_8_w1_11_5 0xB0000004 c bell gd)
  | .bellrst c bell => some (lay_24_13_w1_11 0xB0000005 c bell)
  | .fence c scope => some (lay_24_5 0xB2000000 c scope)
  | .drain c queues => some (lay_24_13_w1_9 0xB2000001 c queues)
  | .trap ga => some (lay_15 0xC0000000 ga)
  | .brk => some (layNone 0xC0000001)
  | .trapret => some (layNone 0xC0000002)
  | .retire => some (layNone 0xC0000003)
  | .yield => some (layNone 0xC0000004)
  | .launch gd ga => some (lay_20_15 0xC2000000 gd ga)
  | .cancel ga => some (lay_15 0xC2000001 ga)
  | .cwait ga gb => some (lay_15_10 0xC2000002 ga gb)
  | .cread gd ga => some (lay_20_15 0xC2000003 gd ga)
  | .frqpop gd => some (lay_20 0xC4000000 gd)
  | .pgmap ga gb => some (lay_15_10 0xC4000001 ga gb)
  | .pgunmap ga => some (lay_15 0xC4000002 ga)
  | .resume ga => some (lay_15 0xC4000003 ga)
  | .kill ga => some (lay_15 0xC4000004 ga)
  | .pgreq ga => some (lay_15 0xC4000005 ga)
  | .tlbinv ga => some (lay_15 0xC4000006 ga)
  | .shmap ga gb => some (lay_15_10 0xC4000007 ga gb)
  | .icinv ga gb => some (lay_15_10 0xC6000000 ga gb)
  | .dcinv => some (layNone 0xC6000001)
  | .dcwb ga gb => some (lay_15_10 0xC6000002 ga gb)
  | .convoyBegin => none
  | .issueAging _ _ => none
  | .memoryElementPerform _ _ _ _ => none
  | .homeReturn _ => none
  | .trapEntry _ _ _ _ _ _ => none
  | .waitRelease _ _ => none
  | .cwaitRelease _ _ => none
  | .drainComplete _ _ => none
  | .seamRowPerform _ _ _ _ => none
  | .seamStartAdmit _ => none
  | .adapterFill _ => none
  | .driftBegin _ _ _ => none
  | .driftDeliver _ _ _ => none
  | .driftEnd _ _ _ => none
  | .faultRecordEnqueue _ => none
  | .copyOnWrite _ => none
  | .sampleRecord => none
  | .jobPortWrite _ _ _ => none
  | .jobStart _ => none
  | .launchPlace _ _ _ => none
  | .replacementStrandPlace _ _ _ _ => none
  | .nodeStatusWrite _ => none
  | .statusRecordWrite _ => none
  | .pipelineSample => none
  | .parkedStrandResume _ _ _ => none
  | .preempt _ _ => none
  | .preemptReturn _ _ _ => none
  | .pswapSwapOut _ => none
  | .pswapSwapIn _ => none
  | .swapOutComplete _ => none
  | .crosscutSeverance => none
  | .pageRequestSuccess _ _ => none
  | .pageRequestInvalid _ _ => none
  | .pageRequestResponseFailure _ => none
  | .priResetEnable _ => none
  | .messageApply _ => none
  | .messageAck _ _ => none
  | .nredResult _ _ _ _ => none
  | .hostBarRead _ _ _ _ => none
  | .hostBarWrite _ _ _ => none
  | .claimPoolWrite _ _ _ => none
  | .firmwareGo => none
  | .firmwareVerifyDone => none
  | .didtWrite _ _ => none
  | .telemetryEnable _ => none
  | .telemetrySample _ => none
  | .registerWrite _ _ => none
  | .thermalThrottle _ _ => none
  | .thermalTrip => none
  | .deviceReset => none
  | .functionLevelReset _ => none
  | .ideIntegrityFail _ _ => none
  | .spdmRequest _ => none
  | .softError _ _ _ _ _ => none
  | .crosscutRestore => none

/-- R64, R68, R77: the instruction of a 32-bit word, or none where the word traps ILLEGAL. -/
def decodeWord (w : Nat) : Option Instr :=
  match pick w with
  | some i => if encodeWord i = some w && i.wf then some i else none
  | none => none

/-- The little-endian number of a list of bytes (R15). -/
def leNat : List Byte → Nat
  | [] => 0
  | b :: bs => b.toNat + 256 * leNat bs

/-- The `n` bytes of a number, lowest first (R15). -/
def leBytes : Nat → Nat → List Byte
  | 0, _ => []
  | n + 1, v => BitVec.ofNat 8 v :: leBytes n (v / 256)

/-- Decoding is total on bytes: four bytes, little-endian (R64), give an instruction and the rest. -/
def decode : List Byte → Except Reject (Instr × List Byte)
  | b0 :: b1 :: b2 :: b3 :: rest =>
    match decodeWord (leNat [b0, b1, b2, b3]) with
    | some i => .ok (i, rest)
    | none => .error .illegal
  | _ => .error .short

/-- The bytes of an instruction, as memory holds them (R64). -/
def encode (i : Instr) : List Byte :=
  match encodeWord i with
  | some w => leBytes 4 w
  | none => []

/-- The instruction the decoder reads from the word `w` of the opcode table, bits above `nbits` zero. -/
def decodeTableWord (nbits w : Nat) : Option Instr :=
  match decode (leBytes 4 (w % 2 ^ Nat.min nbits 32)) with
  | .ok (i, _) => some i
  | .error _ => none

end Sys2Proof
end

