-- ==== Sys2Proof/Config.lean ====
section
/-!
DEFINITION. What the manual fixes for every KD-2 (sizes and ranges of R2–R6, R37, R244, R251) and the free values: the
constants without a body, about which nothing can be proved, stand for values that the manual leaves open. Each names the
log entry of notes/assumptions that declares it.
-/
namespace Sys2Proof

/-- Free value (log 5): clock cycles that pass in the `n`-th step beyond the one every step takes (R103, R414). -/
opaque Config.elapsed : Nat → Nat

/-- Free value (log 5): how far die 1's cycle count runs ahead of die 0's; only its remainder by 65 is used (R103). -/
opaque Config.skew : Nat → Nat

/-- Free value (log 6): busy cycles of unit `u` over a strip that closes at step `n`; the model bounds it (R401). -/
opaque Config.busy : Nat → Nat → BitVec 32

/-- Free value (log 6): cycles of event code `ev` that PMC counts in step `n` (R405). -/
opaque Config.eventCycles : Nat → Nat → Nat

/-- Free value (log 6): cycles that the word sampled at step `n` was ready but held (R402). -/
opaque Config.heldCycles : Nat → BitVec 16

/-- Free value (log 7): dword `i` of a telemetry sample written at step `n` (R412). -/
opaque Config.telemetry : Nat → Nat → BitVec 64

/-- Free value (log 8): whether an unordered form that stops at step `n` commits element `e` above the stop (R224). -/
opaque Config.lateCommit : Nat → Nat → Bool

/-- Free value (log 9): which of the free descriptor slots `seqopen` or `seqfork` takes at step `n` (R327, R329). -/
opaque Config.freeSlot : Nat → Nat

/-- Free value (log 67): whether the access `k` to the far die has been answered when the crosscut is lost at step `n` (R317). -/
opaque Config.answered : Nat → Nat → Bool

/-- Free value (log 67): whether the access `k` to the far die that is not answered when the crosscut is lost at step `n` has
been performed there (R317). -/
opaque Config.crossed : Nat → Nat → Bool

/-- Free value (log 10): whether byte `i` of an overlapping copy takes the source's old value (R341). -/
opaque Config.overlapOld : Nat → Nat → Bool

/-- Free value (log 23): bytes that the registers of a saved strand take in the shadow store (R372). -/
opaque Config.stateBytes : BitVec 16

/-- Free value (log 63): which unit a full cache gives up to the fill of step `n` (R3). -/
opaque Config.victim : Nat → Nat

/-- Free values (log 16): what the device finds in a staged image (R408): its form, its two signatures (0 RSA-3072, 1
SLH-DSA), its version; and the fused minimum. -/
opaque Config.imageFormed : List Byte → Bool
@[inherit_doc Config.imageFormed] opaque Config.imageSigned : Nat → List Byte → Bool
@[inherit_doc Config.imageFormed] opaque Config.imageVersion : List Byte → Nat
@[inherit_doc Config.imageFormed] opaque Config.minVersion : Nat

/-- Free values (log 16): where the deputies of an image begin, and the bytes of its code by physical address (R409). -/
opaque Config.imageEntry : List Byte → BitVec 48
@[inherit_doc Config.imageEntry] opaque Config.imageCode : List Byte → List (Nat × Byte)

/-- Free value (log 26): the device's own number on the fabric (R389). -/
opaque Config.deviceId : BitVec 12

/-- Free value (log 27): which of the status records that may enter the ring at step `n` enters it (R376). -/
opaque Config.reportPick : Nat → Nat

/-- Free value (log 28): whether the sample of step `n` makes the move numbered by core and recipient (R369). -/
opaque Config.pipeMoves : Nat → Nat → Bool

/-- Physical bytes of one HBM stack (R244). -/
def Config.stackBytes : Nat := 80000000000

/-- Bytes of one sump (R36). -/
def Config.sumpBytes : Nat := 0x600_0000

/-- Bytes of one pad (R36). -/
def Config.padBytes : Nat := 0x8_0000

/-- Offset in a sump of the fault record queue, its top 8 KiB (R251). -/
def Config.frqOffset : Nat := 0x5FF_E000

/-- Units of eight bytes in a core's 32 KiB scalar data cache (R3). -/
def Config.dataUnits : Nat := 4096

/-- Words in a core's 32 KiB instruction cache (R3). -/
def Config.codeWords : Nat := 8192

/-- Lines in the 128 KiB that a gang's adapter cache gives to lines (R269). -/
def Config.adapterLines : Nat := 1024

/-- Bytes of a die's shadow store (R5). -/
def Config.shadowBytes : Nat := 56 * 2 ^ 20

/-- Bells of a core (R3). -/
def Config.coreBells : Nat := 2048

/-- Stope rows of a core (R161). -/
def Config.coreRows : Nat := 1024

/-- Filter entries of one home (R58). -/
def Config.filterDepth : Nat := 4096

end Sys2Proof
end

