-- ==== Sys2Proof/Machine/Sparse.lean ====
section
/-!
DEFINITION. Sparse contents by number: a list of (key, value) pairs in one canonical form, keys strictly rising and no
entry equal to what an unlisted key reads as. Memory, tags, stope rows, bells and every other large store have this form.
-/
namespace Sys2Proof.Machine

/-- The value at a key; `d` is what an unlisted key reads as. -/
def smGet {α : Type} (d : α) : List (Nat × α) → Nat → α
  | [], _ => d
  | (k', v) :: t, k => if k = k' then v else if k < k' then d else smGet d t k

/-- Writes one key, keeping the canonical form. -/
def smSet {α : Type} [DecidableEq α] (d : α) : List (Nat × α) → Nat → α → List (Nat × α)
  | [], k, v => if v = d then [] else [(k, v)]
  | (k', v') :: t, k, v =>
    if k < k' then if v = d then (k', v') :: t else (k, v) :: (k', v') :: t
    else if k = k' then if v = d then t else (k, v) :: t
    else (k', v') :: smSet d t k v

/-- Keys strictly rising from `lo`, no value equal to `d`. -/
def smWfFrom {α : Type} [DecidableEq α] (d : α) : Nat → List (Nat × α) → Bool
  | _, [] => true
  | lo, (k, v) :: t => decide (lo ≤ k) && decide (v ≠ d) && smWfFrom d (k + 1) t

/-- The canonical form. -/
def smWf {α : Type} [DecidableEq α] (d : α) (m : List (Nat × α)) : Bool := smWfFrom d 0 m

/-- Drops every key of `[lo, lo + n)`. -/
def smDrop {α : Type} (lo n : Nat) : List (Nat × α) → List (Nat × α)
  | [] => []
  | (k, v) :: t => if lo ≤ k ∧ k < lo + n then smDrop lo n t else (k, v) :: smDrop lo n t

/-- The entries with keys of `[lo, lo + n)`, keys counted from `lo`. -/
def smSlice {α : Type} (lo n : Nat) : List (Nat × α) → List (Nat × α)
  | [] => []
  | (k, v) :: t => if lo ≤ k ∧ k < lo + n then (k - lo, v) :: smSlice lo n t else smSlice lo n t

/-- Writes the entries of a list, keys counted from `lo`. -/
def smPut {α : Type} [DecidableEq α] (d : α) (lo : Nat) : List (Nat × α) → List (Nat × α) → List (Nat × α)
  | [], m => m
  | (k, v) :: t, m => smPut d lo t (smSet d m (lo + k) v)

/-- The `n` values from a key on. -/
def smRead {α : Type} (d : α) (m : List (Nat × α)) (k : Nat) : Nat → List α
  | 0 => []
  | n + 1 => smGet d m k :: smRead d m (k + 1) n

/-- Writes a list of values from a key on. -/
def smWrite {α : Type} [DecidableEq α] (d : α) : List (Nat × α) → Nat → List α → List (Nat × α)
  | m, _, [] => m
  | m, k, v :: vs => smWrite d (smSet d m k v) (k + 1) vs

end Sys2Proof.Machine
end

