-- ==== Sys2Proof/Machine/State.lean ====
section
/-!
DEFINITION. The state of the device: the strand in focus (`hart`), every other strand, memory, and everything the manual
gives the dies, partitions, claim engines, headframe and links. Plain data throughout; every large store is a sparse list
(Machine/Sparse.lean). INVENTORY.md lists each piece with the rule that names it and its reset value.
-/
namespace Sys2Proof.Machine

open Sys2Proof

/-- Why the machine stops with a fault. No rule of the manual stops the device for good: a trap is a next state (R142), an
access to an address that does not exist traps PROT (R244), and a reset leaves a running device. The one constructor is
raised by nothing, so no claim can rest on it (safe). -/
inductive Fault where
  /-- Raised by no step (safe). -/
  | none
  deriving DecidableEq, Repr

/-- Why a step is refused. -/
inductive Refusal where
  /-- The instruction has no meaning in the model yet; raised only by an arm of `exec` that names it. Safe. -/
  | notModelled (mnemonic : String)
  deriving DecidableEq, Repr

/-- A strand's convoy (R31, R32): none, open with the first member's address, the classes taken (a bit each) and the
number of positioned members, or ended by a scalar or system word. `alone` marks a member that stands alone. -/
inductive Convoy where
  | none
  | open (first : BitVec 48) (classes : BitVec 8) (pos : Nat) (alone : Bool)
  | ended
  deriving DecidableEq, Repr

/-- Why a strand does not issue. -/
inductive Run where
  /-- The slot holds no strand. -/
  | vacant
  /-- The strand may issue. -/
  | ready
  /-- Blocked in `wait` or `arrwait` on bell `n` of physical core `core` with operand `p`, acquiring at `scope`; `flipped`
  once a flip has released it (R134). -/
  | waiting (core n : Nat) (p flipped : Bool) (scope : BitVec 3)
  /-- Blocked in `cwait` on a node, with the count of g[gb] (R379). -/
  | cwaiting (node : Word) (count : Nat)
  /-- Blocked in `drain` of the queues of the mask (R141). -/
  | draining (queues : BitVec 9)
  /-- In `retire`, draining every queue (R159). -/
  | retiring
  /-- A `smul` or `smula` start held by the governor (R373). -/
  | held
  /-- The acknowledgement of a message, or a round's result, is awaited (R27, R390), for the convoy that begins at `first`. -/
  | messaging (first : BitVec 48)
  /-- Suspended by a page fault (R247). -/
  | suspended
  /-- A deputy that has halted (R416). -/
  | halted
  deriving DecidableEq, Repr

/-- What an awaited message brought (R390): bytes, a refusal, or an uncorrectable error `off` bytes on (R219). -/
inductive Reply where
  | ok (data : List Byte)
  | prot
  | bad (off : Nat)
  deriving DecidableEq, Repr

/-- What stands of a convoy that has stopped or waits, until it completes: its first word's address, whether its release
has taken effect (R235), the words at its head that are complete (R349), the element at which its `vldff` met a condition
(R228), what its message brought (R27, R390), how many of its words were members when it stopped (R35), whether it has come
back from a stop that was no trap and must commit element STIDX before the next one (R152), whether it has begun, and how many
words at its head have been counted, since (R402), and whether the seam has accepted its member within a handler, where
STIDX.sa is ignored (R295). -/
structure Stand where
  first : BitVec 48
  released : Bool
  ahead : Nat
  cut : Option Nat
  reply : Option Reply
  words : Nat
  owed : Bool
  begun : Bool
  tallied : Nat
  seam : Bool
  deriving DecidableEq, Repr

/-- Nothing stands of a convoy that begins at a word. -/
def Stand.fresh (first : BitVec 48) : Stand :=
  { first := first, released := false, ahead := 0, cut := none, reply := none, words := 0, owed := false, begun := false,
    tallied := 0, seam := false }

/-- The control registers of R100 and R396 that hold their own bits. LAUNCHID, STRANDID, COREID, SGRANT, SGW, SBOUND,
DWP, DLEN and CYCLE live with what they describe. -/
structure Ctrl where
  vcfg : Word
  vstat : Word
  flix : Vector Word 8
  stidx : Word
  epc : Word
  ecause : Word
  einfo : Word
  tvec : Word
  stripBase : Word
  stripLen : Word
  sadp : Word
  vloss : Word
  obs : Word
  watch : Vector Word 8
  recctl : Word
  recbase : Word
  rechead : Word
  reclost : Word
  pmsel : Vector Word 4
  pmc : Vector Word 4
  deriving DecidableEq, Repr

/-- Control registers at strand entry (R100, R101, R396). -/
def Ctrl.entry : Ctrl where
  vcfg := 0x16_0000
  vstat := 0
  flix := Vector.replicate 8 0
  stidx := 0
  epc := 0
  ecause := 0
  einfo := 0
  tvec := 0
  stripBase := 0
  stripLen := 0
  sadp := 0
  vloss := 0x3F80_0000
  obs := 0
  watch := Vector.replicate 8 0
  recctl := 0
  recbase := 0
  rechead := 0
  reclost := 0
  pmsel := Vector.replicate 4 0
  pmc := Vector.replicate 4 0

/-- The four drift copies (R342). -/
inductive DriftForm where
  | drift
  | drift2
  | driftx
  | driftm
  deriving DecidableEq, Repr

/-- An accepted drift operation (R338): operands, the binding it takes (core of the gang and bell), and once begun its
serial, the bytes delivered, the bytes asked for, and its shape (drift2: the four descriptor dwords). -/
structure DriftOp where
  form : DriftForm
  dst : Word
  src : Word
  arg : Word
  bell : Option (Nat × Nat)
  begun : Bool
  serial : BitVec 16
  count : Nat
  total : Nat
  shape : List Word
  ended : Option Nat
  /-- First word and position of the convoy that accepted it (R339). -/
  epc : BitVec 48
  member : Nat
  /-- `driftx`: the pages of its sequence that none has trimmed away since it began (R344). -/
  pages : Nat
  /-- The bytes that the operation has overwritten, by home, with their old values (R341). -/
  undo : List (Nat × Option Byte)
  deriving DecidableEq, Repr

/-- A drift channel (R335–R337): accepted operations in order, the `dbell` words in its queue by the number of copies
ahead of each that have not begun (R28, R348), the youngest copy instruction's operation for STREAM windows (R349), the
binding in program order, DWP, DLEN, stream position and operation serial. -/
structure Chan where
  ops : List DriftOp
  binds : List Nat
  region : Option DriftOp
  bell : Option (Nat × Nat)
  spos : Nat
  serial : BitVec 16
  dwp : Word
  dlen : Word
  deriving DecidableEq, Repr

/-- A channel at strand entry (R335–R337). -/
def Chan.entry : Chan := { ops := [], binds := [], region := none, bell := none, spos := 0, serial := 0, dwp := 0, dlen := 0 }

/-- A seam row of a holding (R269): B word, two slots, their chaining bits, and the adapter delta. -/
structure SeamRow where
  b : BitVec 512
  s0 : BitVec 512
  s1 : BitVec 512
  chain0 : Bool
  chain1 : Bool
  delta : BitVec 32
  deriving DecidableEq, Repr

/-- A row of a fresh grant (R270). -/
def SeamRow.zero : SeamRow := { b := 0, s0 := 0, s1 := 0, chain0 := false, chain1 := false, delta := 0 }

/-- A strand's seam holding (R270, R271): reserved macros, SGRANT, SGW, SBOUND0–1 and the held rows; and of a convoy that stopped
after its `sguard` was accepted, its first word with the SGW that its older members have captured (R294). -/
structure Seam where
  macros : Nat
  grant : Nat
  gw : BitVec 2
  bound0 : Word
  bound1 : Word
  rows : List (Nat × SeamRow)
  older : Option (BitVec 48 × BitVec 2) := none
  deriving DecidableEq, Repr

/-- A page of a suspension: VA[47:16], whether its record was resumed, and whether with fail (R250, R253). -/
structure SuspRec where
  page : Nat
  resumed : Bool
  failed : Bool
  deriving DecidableEq, Repr

/-- One strand: what R91 saves, and what the rules keep of it beside that. -/
structure Strand where
  /-- Physical core, `die << 8 | gang << 2 | core`; a deputy is `0x200 | die << 8 | deputy`. -/
  core : Nat
  slot : Nat
  part : Nat
  serial : Nat
  index : Nat
  /-- Launch attributes of R360: class, NODETECT, REPLAY, privilege, pipeline stage, bells. -/
  cls : Nat
  nodetect : Bool
  replay : Bool
  priv : Bool
  pipe : Bool
  bells : Nat
  padOff : Nat
  padLen : Nat
  run : Run
  /-- Made or moved without its resources (R367, R369), and the launch for a strand of which it is to be parked at its next `strip`,
  or has been; `unbegun` until it first begins at entry. -/
  parked : Bool
  yieldsTo : Option Nat
  unbegun : Bool
  preempted : Bool
  swapped : Bool
  /-- The bytes of its saved state that lie in the spill area (R372). -/
  spilled : Nat
  /-- The step of its placement (R370), that of its last issue, and whether it has aged past 64 cycles (R368). -/
  born : Nat
  stamp : Nat
  aged : Bool
  pc : BitVec 48
  gpr : Vector Word 32
  win : Vector Word 32
  masks : Vector Mask 8
  kd : Mask
  convoy : Convoy
  /-- The next word is the first after a return, a suspension or a pre-emption (R150). -/
  resuming : Bool
  /-- What stands of convoys that have stopped or wait, by their first words. -/
  stands : List Stand
  /-- The governor has admitted the start that this strand waits to issue (R373). -/
  admitted : Bool
  /-- The words that the strand has sent to lq, sq, aq, sm and mq (R28), and those that took claims (R172), 0 to 5: what its later
  words may have to wait behind (R405). -/
  sent : Vector Nat 6
  ctrl : Ctrl
  /-- Stope allotment: the first row of the core's stope and the rows held (R162), their contents, and the bits with an
  uncorrectable error (R146). -/
  rowBase : Nat
  height : Nat
  stope : List (Nat × BitVec 2048)
  badBits : List (Nat × BitVec 2048)
  chans : Vector Chan 4
  seam : Seam
  /-- Suspension serial, its records, and the pages whose fail mark still holds (R250, R253). -/
  susp : BitVec 16
  recs : List SuspRec
  failPages : List Nat
  /-- Issued words, and their number at the last sample (R402); clock, suspensions and stops since the open strip's grant (R400). -/
  issued : Nat
  sampled : Nat
  stripStart : Word
  nsusp : BitVec 32
  nstop : BitVec 32
  /-- Cycles of the open strip that the strand has spent stopped, and the work done for it by lane, load, store and seam: groups,
  elements, elements and rows (R401). -/
  stripIdle : Nat
  stripWork : Vector Nat 4
  deriving DecidableEq, Repr

/-- An empty strand slot, its registers as at strand entry with all entry values zero (R91, R94, R100; log 4). -/
def Strand.vacant : Strand where
  core := 0
  slot := 0
  part := 0
  serial := 0
  index := 0
  cls := 0
  nodetect := false
  replay := false
  priv := false
  pipe := false
  bells := 0
  padOff := 0
  padLen := 0
  run := .vacant
  parked := false
  yieldsTo := none
  unbegun := false
  preempted := false
  swapped := false
  spilled := 0
  born := 0
  stamp := 0
  aged := false
  pc := 0
  gpr := Vector.replicate 32 0
  win := Vector.replicate 32 0
  masks := Vector.replicate 8 0
  kd := 0
  convoy := .none
  resuming := false
  stands := []
  admitted := false
  sent := #v[0, 0, 0, 0, 0, 0]
  ctrl := Ctrl.entry
  rowBase := 0
  height := 0
  stope := []
  badBits := []
  chans := Vector.replicate 4 Chan.entry
  seam := { macros := 0, grant := 0, gw := 0, bound0 := 0, bound1 := 0, rows := [] }
  susp := 0
  recs := []
  failPages := []
  issued := 0
  sampled := 0
  stripStart := 0
  nsusp := 0
  nstop := 0
  stripIdle := 0
  stripWork := #v[0, 0, 0, 0]

/-- A bell (R130). -/
structure Bell where
  count : BitVec 16
  expect : BitVec 16
  phase : Bool
  short : Bool
  overrun : Bool
  deriving DecidableEq, Repr

/-- A bell as allotted (R130, R131). -/
def Bell.zero : Bell := { count := 0, expect := 0, phase := false, short := false, overrun := false }

/-- Who owns a filter entry or a message: partition, launch serial, strand index; a deputy is its core. -/
structure Who where
  part : Nat
  serial : Nat
  index : Nat
  deputy : Nat
  deriving DecidableEq, Repr

/-- A live filter entry (R58): its home, owner, kind, and the bytes it covers. -/
structure FilterEntry where
  home : Nat
  who : Who
  write : Bool
  addr : Nat
  len : Nat
  deriving DecidableEq, Repr

/-- A message's content (R390); `half`: only the low nibble of the last byte is part of a `msgput` (R15). -/
inductive MsgKind where
  | put (data : List Byte) (half : Bool)
  | get (len : Nat)
  | nred (data : List (BitVec 32))
  deriving DecidableEq, Repr

/-- How far a message has come (R390): sent, applied with the bytes it returns, refused at its destination, or stopped there
by an uncorrectable error `off` bytes on (R219). -/
inductive MsgStage where
  | sent
  | applied (reply : List Byte)
  | refused
  | failed (off : Nat)
  deriving DecidableEq, Repr

/-- A message in flight (R390): its strand, g[ga], content and stage. -/
structure Msg where
  who : Who
  core : Nat
  addr : Word
  kind : MsgKind
  stage : MsgStage
  deriving DecidableEq, Repr

/-- A contribution of `smula` to a row (R287, R288): its strand and core, the row, the element of its instruction, SADP and
the guard width as captured, the identifier, the chunk and the A word; the lines that its fills have brought, by address,
and whether one of them failed (R290). -/
structure Contrib where
  who : Who
  core : Nat
  row : Nat
  elem : Nat
  sadp : Word
  guard : Nat
  ident : Nat
  chunk : Nat
  a : BitVec 512
  lines : List (Nat × List Byte)
  failed : Bool
  deriving DecidableEq, Repr

/-- A fault record that waits for its die's queue (R251): its dwords, whether it takes the time and the generation as it
enters (R249, R250), the strand that the arrival of a record is credited to (R45), and the channel of a strand that stays
stopped until then. -/
structure FaultRec where
  words : List Word
  fresh : Bool
  who : Option Who
  chan : Option (Who × Nat)
  deriving DecidableEq, Repr

/-- A claim sequence's descriptor slot (R321), with the level-2 tables of its claim map, one for each 2 MiB of its range
(R322). -/
structure Seq where
  live : Bool
  gen : Nat
  part : Nat
  base : Nat
  cap : Nat
  len : Nat
  wr : Bool
  tagged : Bool
  tables : List Nat
  deriving DecidableEq, Repr

/-- A slot after reset: closed, its first generation 1 (R321; log 4). -/
def Seq.free : Seq :=
  { live := false, gen := 1, part := 0, base := 0, cap := 0, len := 0, wr := false, tagged := false, tables := [] }

/-- A claim engine (R318, R319, R324): pool registers, tag counter, reference counts by block, blocks held by each
partition (its use of the quota), descriptor slots. -/
structure Engine where
  poolB : Word
  poolN : Word
  tag : Nat
  counts : List (Nat × BitVec 16)
  used : List (Nat × Nat)
  seqs : List (Nat × Seq)
  deriving DecidableEq, Repr

/-- A claim engine after reset (R319, R324). -/
def Engine.reset : Engine := { poolB := 0, poolN := 0, tag := 1, counts := [], used := [], seqs := [] }

/-- An outstanding page request (R252): its group index, the record asked for, and the generation kept with it. -/
structure PageReq where
  idx : Nat
  die : Nat
  record : List Word
  gen : BitVec 11
  deriving DecidableEq, Repr

/-- A partition's registers (R359, R383, R391), maps (R240–R242), generation (R259) and device-side bookkeeping. -/
structure Part where
  pgang : Word
  psump0 : Word
  psump1 : Word
  quota : Vector Word 12
  pring : Word
  prhead : Word
  prtail : Word
  swapReq : Bool
  swapOut : Bool
  /-- By die: the bytes that the save of a swap holds, and how many of them lie in the spill area (R372). -/
  swapBytes : Vector Nat 2
  swapSpilled : Vector Nat 2
  ppriv : Word
  ppeer : Word
  vwin : Word
  gen : BitVec 11
  nextSerial : Nat
  shaft : List (Nat × Word)
  subs : List (Nat × Word)
  pgreqs : List PageReq
  stale : Nat
  priFailed : Bool
  /-- Its virtual function is disabled (R357). -/
  disabled : Bool
  dropped : Nat
  deriving DecidableEq, Repr

/-- A partition after reset (R359). -/
def Part.reset : Part where
  pgang := 0xFFFF_FFFF
  psump0 := 0
  psump1 := 0
  quota := Vector.replicate 12 0
  pring := 0
  prhead := 0
  prtail := 0
  swapReq := false
  swapOut := false
  swapBytes := Vector.replicate 2 0
  swapSpilled := Vector.replicate 2 0
  ppriv := 0
  ppeer := 0
  vwin := 0
  gen := 0
  nextSerial := 1
  shaft := []
  subs := []
  pgreqs := []
  stale := 0
  priFailed := false
  disabled := false
  dropped := 0

/-- How a launch or node ended (R364, R365, R376): status 1 to 4, and for a report EINFO or counts, key, cause and EPC as
`where`, and ECAUSE.aux. -/
structure Verdict where
  status : Nat
  info : Word
  place : Word
  aux : BitVec 16
  deriving DecidableEq, Repr

/-- A job (R356–R358): its place in acceptance order, port, descriptor, root launch, class (R376), phases made, verdict,
and whether it has reported. -/
structure Job where
  id : Nat
  part : Nat
  die : Nat
  desc : List Word
  started : Bool
  root : Nat
  cls : Nat
  phases : Nat
  /-- Statuses of its nodes above the launch, written once each (R364): (level, phase, graph, status). -/
  written : List (Nat × Nat × Nat × Nat)
  verdict : Option Verdict
  reported : Bool
  deriving DecidableEq, Repr

/-- A node of a job (R362, R363): its level, partition and job, and by level its phase, graph and launch serial. -/
structure Node where
  level : Nat
  part : Nat
  job : Nat
  phase : Nat
  graph : Nat
  serial : Nat
  deriving DecidableEq, Repr

/-- A launch (R360–R367): identity, job, phase and graph, the packet as captured, its address, its home die (R375), its
place in acceptance order, the gangs its strands were placed in (R131), strands placed and ended, strip pool (R96), the
nodes its wait entries name, severance (R375), verdict and reporting. -/
structure Launch where
  part : Nat
  serial : Nat
  job : Nat
  phase : Nat
  graph : Nat
  order : Nat
  pkt : List Word
  addr : Word
  home : Nat
  placed : Bool
  gangs : List Nat
  /-- Its wait entries: strict, and the node that the handle names (R365). -/
  waits : List (Bool × Option Node)
  members : Nat
  ended : Nat
  next : Nat
  returned : List (Nat × Nat)
  replace : List Nat
  severed : Bool
  verdict : Option Verdict
  written : Bool
  reported : Bool
  deriving DecidableEq, Repr

/-- A die: its governor (R373, R411, R413), fault record queue (R251, R255), and telemetry and spill registers. -/
structure Die where
  didt : Word
  hot : Bool
  /-- The governor's next decisions, whether it holds a start that reaches it, consumed one each; an empty list holds
  none (R373; log 14). -/
  holds : List Bool
  /-- The starts held, by core, slot and the step in which each was held, and the cycles held so far (R412, R413). -/
  govQ : List (Nat × Nat × Nat)
  delay : Nat
  /-- Records ever queued and popped; the records lie in the top of the sump. -/
  frTail : Nat
  frHead : Nat
  /-- Slots held by deputy 0 and 1 from `frqpop`. -/
  held : Vector (Option Nat) 2
  /-- Records that wait for room, oldest first (R251). -/
  waiting : List FaultRec
  teln : Nat
  spillB : Word
  spillN : Word
  soft : Nat
  deriving DecidableEq, Repr

/-- A die after reset (R407, R372). -/
def Die.reset : Die where
  didt := 512
  hot := false
  holds := []
  govQ := []
  delay := 0
  frTail := 0
  frHead := 0
  held := Vector.replicate 2 none
  waiting := []
  teln := 0
  spillB := 0
  spillN := 0
  soft := 0

/-- The IDE stream of a function and link (R382, R388): without keys, keyed, or Insecure. -/
inductive Stream where
  | unkeyed
  | secure
  | insecure
  deriving DecidableEq, Repr

/-- A Page Request message to the host (R252): function, group index, page, and whether write access is requested; each is
the last of its group. -/
structure PageMsg where
  part : Nat
  idx : Nat
  page : Nat
  write : Bool
  deriving DecidableEq, Repr

/-- A completion to the host (R357, R382, R383, R388), an answer of SPDM (R410): an error, a certificate chain, the
measurement blocks, a response signed under a chain, or another response; or an answer to a peer whose message asked for
it (R390). -/
inductive HostReply where
  | data (bytes : List Byte)
  | unsupported
  | accepted
  | deferred
  | spdmBusy
  | spdmRefused
  | spdmChain (alg : Nat)
  | spdmMeasured (digest : List Byte) (version : Nat) (alg : Option Nat)
  | spdmSigned (alg : Nat)
  | spdmPlain
  | peerData (bytes : List Byte)
  | peerDone
  | peerProt
  | peerBad (off : Nat)
  deriving DecidableEq, Repr

/-- Which agent acts next (log 1): a core's issue, the loss of the crosscut while the next words of some strands, by core and
slot, cross it (R317), an event of the table that an agent outside the strands raises, the stop of a strand's convoy at an
element boundary for a pre-emption or swap that is due (R151), the fill of eight bytes of translated memory into a core's
scalar data cache (R38), or of a word of a partition's code into its instruction cache (R381). -/
inductive Turn where
  | core (core : Nat)
  | crossing (strands : List (Nat × Nat))
  | event (i : Instr)
  | interrupt (core slot elem : Nat)
  | cacheFill (core addr : Nat)
  | fetchFill (core part va : Nat)
  deriving DecidableEq, Repr

/-- The machine. -/
structure State where
  /-- The strand in focus, and every other strand. -/
  hart : Strand
  rest : List Strand
  /-- HBM and sumps by physical address, pads and saved pads above them (Machine/Ops.lean). -/
  mem : List Host.Cell
  /-- Tag [3:0] and the three tags before it of each 32-byte granule (R236). -/
  tags : List (Nat × BitVec 16)
  /-- Bytes of memory with an uncorrectable error (R146, R219). -/
  bad : List (Nat × Bool)
  /-- Scalar data caches: aligned units of eight bytes by core and physical address (R38). -/
  dcache : List (Nat × Option Word)
  /-- Instruction caches: words by core, partition and virtual address (R381). -/
  icache : List (Nat × Option (BitVec 32))
  /-- Adapter cache lines by gang, partition and virtual address, and the contributions that wait for one, oldest first
  (R288). -/
  adapter : List (Nat × List Byte)
  contribs : List Contrib
  bells : List (Nat × Bell)
  /-- Suspension serials by strand slot, `core * 4 + slot` (R250). -/
  slotSusp : List (Nat × BitVec 16)
  filter : List FilterEntry
  evicted : List (Nat × Word)
  /-- The partition, plus 1, that a gang (R219) or a 64 KiB piece of the sumps (R309) last passed to. -/
  gangOwner : List (Nat × Nat)
  sumpOwner : List (Nat × Nat)
  parts : List (Nat × Part)
  engines : Vector Engine 12
  dies : Vector Die 2
  jobs : List Job
  launches : List Launch
  accepted : Nat
  msgs : List Msg
  crosscut : Bool
  /-- The crosscut is being lost while the word at issue crosses it (R317), and whether the far words of the elements whose
  replies are lost are updated; none but within such a step. -/
  cutting : Option Bool
  fwaddr : Word
  fwlen : Word
  fwState : BitVec 4
  fwReason : BitVec 8
  fwHalted : BitVec 4
  /-- SHA-384 digest and version of the accepted image, and the chains under which a session's keys are exchanged (R410). -/
  measured : Option (List Byte × Nat)
  session : BitVec 2
  /-- IDE streams, by function (32 is the physical function) and link (R382). -/
  streams : List (Nat × Stream)
  telbase : Word
  telctl : Word
  hostMem : List Host.Cell
  /-- Page Request messages sent, newest first (R252). -/
  pageMsgs : List PageMsg
  /-- Interrupts raised, newest first: function (32 is the physical function) and vector (R384). -/
  interrupts : List (Nat × Nat)
  /-- Completions given to the host and to peers, newest first. -/
  replies : List HostReply
  turns : List Turn
  hits : List Bool
  fetchHits : List Bool
  /-- Whether the fills of a contribution that misses arrive later (R288), consumed one each; an empty list: at once. -/
  lateFills : List Bool
  tick : Nat
  /-- The step of the last reset of the device (R103). -/
  resetTick : Nat
  deriving DecidableEq, Repr

/-- The device right after reset (R387, R407, R408): no strand, no firmware, memory all zero. -/
def State.reset : State where
  hart := Strand.vacant
  rest := []
  mem := []
  tags := []
  bad := []
  dcache := []
  icache := []
  adapter := []
  contribs := []
  bells := []
  slotSusp := []
  filter := []
  evicted := []
  gangOwner := []
  sumpOwner := []
  parts := []
  engines := Vector.replicate 12 Engine.reset
  dies := Vector.replicate 2 Die.reset
  jobs := []
  launches := []
  accepted := 0
  msgs := []
  crosscut := true
  cutting := none
  fwaddr := 0
  fwlen := 0
  fwState := 0
  fwReason := 0
  fwHalted := 0
  measured := none
  session := 0
  streams := []
  telbase := 0
  telctl := 0
  hostMem := []
  pageMsgs := []
  interrupts := []
  replies := []
  turns := []
  hits := []
  fetchHits := []
  lateFills := []
  tick := 0
  resetTick := 0

end Sys2Proof.Machine
end

