-- ==== Sys2Proof/Machine/Ops.lean ====
section
/-!
DEFINITION. The named operations every meaning is written over: registers and masks of the strand in focus, control
register fields, memory by home, translation, bells, the firedamp filter, records, page-fault suspension, and the taking
of a trap and the return from one.
-/
namespace Sys2Proof.Machine

open Sys2Proof

/-- The outcome of a step of this machine. -/
abbrev Res := Host.Outcome State Fault Refusal

/-! ### Registers of the strand in focus -/

/-- R106: g0 reads 0. -/
def readG (s : State) (r : Reg) : Word :=
  if r = 0 then 0 else s.hart.gpr[r.toNat]'r.isLt

/-- R106: a write to g0 is discarded. -/
def writeG (s : State) (r : Reg) (v : Word) : State :=
  if r = 0 then s else { s with hart := { s.hart with gpr := s.hart.gpr.set r.toNat v r.isLt } }

/-- A strand with one general register written; g0 keeps reading 0 (R106). -/
def strandWriteG (h : Strand) (r : Reg) (v : Word) : Strand :=
  if r = 0 then h else { h with gpr := h.gpr.set r.toNat v r.isLt }

/-- The mask of all ones (R21). -/
def onesMask : Mask := BitVec.allOnes 2048

/-- R21: k0 reads all ones. -/
def readK (s : State) (k : BitVec 3) : Mask :=
  if k = 0 then onesMask else s.hart.masks[k.toNat]'k.isLt

/-- R21: a write to k0 is discarded. -/
def writeK (s : State) (k : BitVec 3) (v : Mask) : State :=
  if k = 0 then s else { s with hart := { s.hart with masks := s.hart.masks.set k.toNat v k.isLt } }

/-- A window-table entry (R164). -/
def readW (s : State) (w : Win) : Word := s.hart.win[w.toNat]'w.isLt

/-- Writes a window-table entry, unchecked (R194). -/
def writeW (s : State) (w : Win) (v : Word) : State :=
  { s with hart := { s.hart with win := s.hart.win.set w.toNat v w.isLt } }

/-- What stands of the convoy that begins at a word. -/
def standOf (h : Strand) (first : BitVec 48) : Stand :=
  (h.stands.find? (fun x => x.first == first)).getD (Stand.fresh first)

/-- A strand without what stands of one convoy. -/
def dropStand (first : BitVec 48) (h : Strand) : Strand :=
  { h with stands := h.stands.filter (fun x => x.first != first) }

/-- A strand with what stands of a convoy replaced. -/
def putStand (x : Stand) (h : Strand) : Strand := { dropStand x.first h with stands := x :: (dropStand x.first h).stands }

/-- R152: a strand comes back from a stop that was no trap: the convoy at its pc owes element STIDX. -/
def owe (h : Strand) : Strand :=
  match h.run with
  | .ready | .messaging _ => putStand { standOf h h.pc with owed := true } h
  | _ => h

/-- The state with another control register file. -/
def withCtrl (s : State) (c : Ctrl) : State := { s with hart := { s.hart with ctrl := c } }

/-- The state with the strand's pc at `t`. -/
def jumpTo (s : State) (t : BitVec 48) : State := { s with hart := { s.hart with pc := t } }

/-- R31: after a scalar or system word the strand's last convoy has been ended: it has no convoy at the points of R31 only. -/
def endConvoy (s : State) : State := { s with hart := { s.hart with convoy := .ended } }

/-- A word without a branch continues at the next word. -/
def advance (s : State) : State := jumpTo s (s.hart.pc + 4)

/-- A scalar or system word that has done its work: the convoy ends (R31) and the next word follows. -/
def finish (s : State) : Res := .next (advance (endConvoy s))

/-- A scalar word whose one result goes to a general register. -/
def finishG (gd : Reg) (v : Word) (s : State) : Res := finish (writeG s gd v)

/-! ### Fields -/

/-- Bits `[lo+n-1:lo]` of a 64-bit value as a number (R15). -/
def bitsW (w : Word) (lo n : Nat) : Nat := bitsAt w.toNat lo n

/-- One bit of a 64-bit value. -/
def bitW (w : Word) (i : Nat) : Bool := w.getLsbD i

/-- Replaces bits `[lo+n-1:lo]`. -/
def setBitsW (w : Word) (lo n : Nat) (v : Nat) : Word :=
  (w &&& ~~~(BitVec.ofNat 64 ((2 ^ n - 1) * 2 ^ lo))) ||| BitVec.ofNat 64 (v % 2 ^ n * 2 ^ lo)

/-- The low `n` bits of a word as two's complement (R19). -/
def sextN (n : Nat) (x : Nat) : Int :=
  let y := x % 2 ^ n
  if 2 * y < 2 ^ n then (y : Int) else (y : Int) - 2 ^ n

/-- An integer taken mod 2^64 (R20). -/
def ofInt (x : Int) : Word := BitVec.ofInt 64 x

/-- VCFG.VL (R101). -/
def vl (s : State) : Nat := bitsW s.hart.ctrl.vcfg 0 12

/-- VCFG.rm (R101). -/
def vcfgRm (s : State) : Nat := bitsW s.hart.ctrl.vcfg 12 3

/-- VCFG.sat (R101). -/
def vcfgSat (s : State) : Bool := bitW s.hart.ctrl.vcfg 15

/-- VCFG.ftz (R101). -/
def vcfgFtz (s : State) : Bool := bitW s.hart.ctrl.vcfg 16

/-- VCFG.scope (R101). -/
def vcfgScope (s : State) : BitVec 3 := s.hart.ctrl.vcfg.extractLsb' 17 3

/-- VCFG.det (R101). -/
def vcfgDet (s : State) : Bool := bitW s.hart.ctrl.vcfg 20

/-- VCFG.obs (R101). -/
def vcfgObs (s : State) : Bool := bitW s.hart.ctrl.vcfg 21

/-- Writes VCFG.VL (R96, R228, R314). -/
def setVl (s : State) (n : Nat) : State :=
  withCtrl s { s.hart.ctrl with vcfg := setBitsW s.hart.ctrl.vcfg 0 12 n }

/-- ECAUSE.act (R143). -/
def trapActive (s : State) : Bool := bitW s.hart.ctrl.ecause 8

/-- Whether the strand runs on a deputy core (R102). -/
def onDeputy (h : Strand) : Bool := decide (0x200 ≤ h.core)

/-- R105: privileged code. -/
def privileged (s : State) : Bool := onDeputy s.hart || s.hart.priv

/-- The die of a physical core. -/
def dieOf (core : Nat) : Nat := core / 256 % 2

/-- The physical gang of a core, `die << 6 | gang`. -/
def gangOf (core : Nat) : Nat := core / 4 % 128

/-! ### Partitions, dies, strands -/

/-- A partition's state. -/
def partOf (s : State) (p : Nat) : Part := smGet Part.reset s.parts p

/-- Writes a partition's state. -/
def setPart (s : State) (p : Nat) (v : Part) : State := { s with parts := smSet Part.reset s.parts p v }

/-- The state of die `d mod 2`. -/
def dieAt (s : State) (d : Nat) : Die := s.dies[d % 2]'(Nat.mod_lt d (by decide))

/-- Writes the state of die `d mod 2`. -/
def setDie (s : State) (d : Nat) (v : Die) : State :=
  { s with dies := s.dies.set (d % 2) v (Nat.mod_lt d (by decide)) }

/-- A claim engine's state; engine numbers are below 12. -/
def engineAt (s : State) (e : Nat) : Engine := s.engines[e % 12]'(Nat.mod_lt e (by decide))

/-- Writes a claim engine's state. -/
def setEngine (s : State) (e : Nat) (v : Engine) : State :=
  { s with engines := s.engines.set (e % 12) v (Nat.mod_lt e (by decide)) }

/-- Who a strand is, across pre-emption and swap (R58, R91). -/
def whoIs (h : Strand) : Who :=
  { part := h.part, serial := h.serial, index := h.index, deputy := if onDeputy h then h.core else 0 }

/-- A list in the order of a relation, those that neither precedes in the order of the list. -/
def insertBy {α : Type} (before : α → α → Bool) (x : α) : List α → List α
  | [] => [x]
  | y :: l => if before y x then y :: insertBy before x l else x :: y :: l

@[inherit_doc insertBy]
def sortBy {α : Type} (before : α → α → Bool) : List α → List α
  | [] => []
  | x :: l => insertBy before x (sortBy before l)

/-- Applies a change to every strand of the device. -/
def mapStrands (f : Strand → Strand) (s : State) : State :=
  { s with hart := f s.hart, rest := s.rest.map f }

/-- Every strand of the device, the one in focus first. -/
def allStrands (s : State) : List Strand := s.hart :: s.rest

/-- Finds a strand by who it is. -/
def findWho (s : State) (w : Who) : Option Strand :=
  (allStrands s).find? (fun h => h.run != .vacant && whoIs h == w)

/-- R359: byte `v` of PGANG is the physical gang of view `v`. The view number of a physical gang on its die: its place
among the die's named gangs. -/
def viewGang (pgang : Word) (gang : Nat) : Nat :=
  ([0, 1, 2, 3].filter (fun v => let g := bitsW pgang (8 * v) 8; g < 128 && g / 64 == gang / 64)).findIdx
    (fun v => bitsW pgang (8 * v) 8 == gang)

/-- R359: the physical gang that a view's `die.g` names, if any. -/
def physGang (pgang : Word) (die g : Nat) : Option Nat :=
  match ([0, 1, 2, 3].map (fun v => bitsW pgang (8 * v) 8)).filter (fun x => x < 128 && x / 64 == die) with
  | l => l[g]?

/-- R94, R102, R359: the core id a strand sees, `die << 8 | view gang << 2 | core`; a deputy's carries dep in bit 9. -/
def coreId (s : State) (h : Strand) : Nat :=
  if onDeputy h then h.core
  else dieOf h.core * 256 + viewGang (partOf s h.part).pgang (gangOf h.core) * 4 + h.core % 4

/-! ### Time -/

/-- Clock cycles from reset to step `n` (R103, R414; log 5). -/
def cycleAt : Nat → Nat
  | 0 => 0
  | n + 1 => cycleAt n + 1 + Config.elapsed n

/-- R103: CYCLE of a die. -/
def cycleOf (s : State) (die : Nat) : Word := BitVec.ofNat 64 (cycleAt s.tick - cycleAt s.resetTick + Config.skew die % 65)

/-! ### Memory by home -/

/-- Key of a pad byte: pads lie above the 42-bit physical space. -/
def padBase (core : Nat) : Nat := 2 ^ 42 + core * 2 ^ 19

/-- Key of the saved image of a pad of a swapped-out partition (R371). -/
def savedPadBase (part core : Nat) : Nat := 2 ^ 43 + (part * 512 + core) * 2 ^ 19

/-- Key of the saved allotment of a pre-empted strand (R370), by pad offset. -/
def savedAllotBase (h : Strand) : Nat := 2 ^ 44 + ((h.part * 2 ^ 32 + h.serial) * 2048 + h.index) * 2 ^ 19

/-- Physical base of the sump of a die (R244). -/
def sumpBase (die : Nat) : Nat := 0x300_0000_0000 + die * 2 ^ 27

/-- R370: the strand's pad allotment is saved away from its pad. -/
def allotSaved (h : Strand) : Bool := h.preempted || (h.parked && !h.unbegun)

/-- Where a byte of a pad is, for a strand's own access: the saved image while its partition or the strand is out. -/
def padKey (s : State) (h : Strand) (core off : Nat) : Nat :=
  if allotSaved h && core == h.core && decide (h.padOff ≤ off) && decide (off < h.padOff + h.padLen) then
    savedAllotBase h + off
  else if (partOf s h.part).swapOut then savedPadBase h.part core + off
  else padBase core + off

/-- R58, R307, R406: the home of a byte: a pad by core, a bank group of a sump from 1024, an HBM stack from 2048. -/
def homeOf (k : Nat) : Nat :=
  if 2 ^ 42 ≤ k then k / 2 ^ 19 % 512
  else if sumpBase 0 ≤ k then
    1024 + 96 * (k / 2 ^ 27 % 2) + (k % 2 ^ 27) / 256 % 768 / 8
  else 2048 + k / 2 ^ 37

/-- R146: the tier code of a byte's home. -/
def tierOf (k : Nat) : Nat := if 2 ^ 42 ≤ k then 2 else if sumpBase 0 ≤ k then 1 else 0

/-- The die of a byte's home (R244). -/
def dieOfKey (k : Nat) : Nat :=
  if 2 ^ 42 ≤ k then dieOf (k / 2 ^ 19) else if sumpBase 0 ≤ k then k / 2 ^ 27 % 2 else k / 2 ^ 37 / 6

/-- R244: the byte is populated. -/
def populated (k : Nat) : Bool :=
  (decide (k / 2 ^ 37 < 12) && decide (k % 2 ^ 37 < Config.stackBytes)) ||
  (decide (sumpBase 0 ≤ k) && decide (k < sumpBase 0 + 2 ^ 28) && decide (k % 2 ^ 27 < Config.sumpBytes))

/-- The byte at a home; a byte that nothing has written reads zero (R408; log 19). -/
def memByte (s : State) (k : Nat) : Byte := smGet 0 s.mem k

/-- `n` bytes at a home, lowest first. -/
def memBytes (s : State) (k n : Nat) : List Byte := smRead 0 s.mem k n

/-- `n` bytes at a home as a little-endian number (R15). -/
def memNat (s : State) (k n : Nat) : Nat := leNat (memBytes s k n)

/-- Writes bytes at a home; a byte written has no error left (R219; log 25). -/
def memPut (s : State) (k : Nat) (bs : List Byte) : State :=
  { s with mem := smWrite 0 s.mem k bs
           bad := if s.bad.isEmpty then s.bad else smWrite false s.bad k (bs.map (fun _ => false)) }

/-- R221: writes one nibble of a byte, whose new value is given: its other nibble stays, and with it the byte's error (R219;
log 25). -/
def nibblePut (s : State) (k : Nat) (b : Byte) : State := { s with mem := smWrite 0 s.mem k [b] }

/-- The first of `n` bytes at a home with an uncorrectable error, as an offset. -/
def badByte (s : State) (k n : Nat) : Option Nat :=
  if s.bad.isEmpty then none else (List.range n).find? (fun i => smGet false s.bad (k + i))

/-- R322, R326: no scalar data cache keeps bytes of a 64 KiB block that changes hands. -/
def uncacheBlock (b : Nat) (s : State) : State :=
  { s with dcache := s.dcache.filter (fun x => x.1 % 2 ^ 46 / 2 ^ 13 != b) }

/-- Writes zero to a 64 KiB block (R320). -/
def zeroBlock (s : State) (b : Nat) : State :=
  uncacheBlock b { s with mem := smDrop (b * 2 ^ 16) (2 ^ 16) s.mem, bad := smDrop (b * 2 ^ 16) (2 ^ 16) s.bad }

/-- Copies `n` bytes from home `src` on to home `dst` on: the image of a pad or an allotment. -/
def copyRange (src dst n : Nat) (s : State) : State :=
  { s with mem := smPut 0 dst (smSlice src n s.mem) (smDrop dst n s.mem)
           bad := smPut false dst (smSlice src n s.bad) (smDrop dst n s.bad) }

/-- Drops the bytes of a saved image. -/
def dropRange (k n : Nat) (s : State) : State := { s with mem := smDrop k n s.mem, bad := smDrop k n s.bad }

/-- R58: the live filter entries of `n` bytes go where their bytes go; they stay in the filter of the pad that holds them. -/
def moveEntries (src dst n : Nat) (s : State) : State :=
  { s with filter := s.filter.map (fun e =>
      if src ≤ e.addr ∧ e.addr < src + n then { e with addr := dst + (e.addr - src) } else e) }

/-- Moves `n` bytes and the filter entries of their accesses from home `src` on to home `dst` on. -/
def moveRange (src dst n : Nat) (s : State) : State := moveEntries src dst n (copyRange src dst n s)

/-- R219: a gang passes to a partition: its pads are zeroed where another held it last. It passes as the
partition is given it, and as it next uses it: where a strand is placed, an image or message reaches its pads, or it is
swapped in (log 45). -/
def passGang (part g : Nat) (s : State) : State :=
  if 128 ≤ g then s
  else
    let old := smGet 0 s.gangOwner g
    let s' := { s with gangOwner := smSet 0 s.gangOwner g (part + 1) }
    if old = 0 ∨ old = part + 1 then s' else dropRange (padBase (g * 4)) (4 * Config.padBytes) s'

/-- R219: gangs pass to a partition. -/
def passGangs (part : Nat) (gs : List Nat) (s : State) : State := gs.foldl (fun s g => passGang part g s) s

/-- R370: saves the pad allotment of a strand that is stopped. -/
def saveAllot (h : Strand) (s : State) : State :=
  moveRange (padBase h.core + h.padOff) (savedAllotBase h + h.padOff) h.padLen s

/-- R370: brings the saved allotment back to its pad. -/
def restoreAllot (h : Strand) (s : State) : State :=
  dropRange (savedAllotBase h + h.padOff) h.padLen
    (moveRange (savedAllotBase h + h.padOff) (padBase h.core + h.padOff) h.padLen s)

/-- The canonical form of memory. -/
abbrev Memory.wf (m : List Host.Cell) : Prop := smWf (0 : Byte) m = true

/-! ### Room for saves (R372) -/

/-- R370: bytes that the saved state of a strand takes: its registers, its rows and its pad allotment (log 23). -/
def saveSize (h : Strand) : Nat := Config.stateBytes.toNat + h.height * 256 + h.padLen

/-- The strands of a die whose state is saved. -/
def savedStrands (s : State) (die : Nat) : List Strand :=
  (allStrands s).filter (fun h => h.run != .vacant && allotSaved h && dieOf h.core == die % 2)

/-- R372: bytes of saved state in a die's spill area. -/
def spillUsed (s : State) (die : Nat) : Nat :=
  ((savedStrands s die).map (·.spilled)).foldl (· + ·) 0 +
    (s.parts.map (fun p => p.2.swapSpilled[die % 2]'(Nat.mod_lt die (by decide)))).foldl (· + ·) 0

/-- R372, R5: bytes of saved state in a die's shadow store. -/
def shadowUsed (s : State) (die : Nat) : Nat :=
  ((savedStrands s die).map saveSize).foldl (· + ·) 0 +
    (s.parts.map (fun p => p.2.swapBytes[die % 2]'(Nat.mod_lt die (by decide)))).foldl (· + ·) 0 - spillUsed s die

/-- R372: how many of `n` bytes to be saved on a die go to its spill area; none where the two stores have no room. -/
def saveRoom (s : State) (die n : Nat) : Option Nat :=
  let excess := n - (Config.shadowBytes - shadowUsed s die)
  if excess ≤ bitsW (dieAt s die).spillN 0 32 * 2 ^ 16 - spillUsed s die then some excess else none

/-- An access's kind, with its code in ECAUSE.aux (R146). -/
inductive Kind where
  | read
  | write
  | fetch
  | atomic
  deriving DecidableEq, Repr

/-- The aux code of an access (R146). -/
def Kind.aux : Kind → BitVec 16
  | .read => 0
  | .write => 1
  | .fetch => 2
  | .atomic => 3

/-! ### Translation (R240–R245, R415) -/

/-- What a walk found: no translation (R245, with the flags of R249 and the address of the entry that stopped it), a
malformed entry, or a leaf with its entry, the physical address of the byte, and the address of its own table entry. -/
inductive Walk where
  | missing (split void host : Bool)
  | malformed
  | leaf (entry : Word) (pa : Nat) (at_ : Option Nat)
  deriving DecidableEq, Repr

/-- Field pa of a map entry (R241). -/
def entryPa (e : Word) : Nat := bitsW e 8 34 * 256

/-- The kind field of a map entry (R241). -/
def entryKind (e : Word) : Nat := bitsW e 62 2

/-- The 8-byte table entry at a physical address (R243). -/
def tableEntry (s : State) (a : Nat) : Word := BitVec.ofNat 64 (memNat s a 8)

/-- R240–R245: the walk of a partition's maps for a 48-bit address. DESIGN CHOICE (log 79): it goes by the tables as they stand,
so an entry changed by a plain store acts before a `tlbinv` (R246, R261). -/
def walk (s : State) (p va : Nat) : Walk :=
  let pt := partOf s p
  let e := smGet 0 pt.shaft (va / 2 ^ 35)
  match entryKind e with
  | 0 => .missing false true false
  | 1 => .leaf e (entryPa e + va % 2 ^ 35) none
  | 2 =>
    let sub := smGet 0 pt.subs (va / 2 ^ 30)
    if entryKind sub = 1 then .leaf sub (entryPa sub + va % 2 ^ 30) none else .missing true false false
  | _ =>
    let a1 := entryPa e + 8 * (va / 2 ^ 21 % 16384)
    let e1 := tableEntry s a1
    if !bitW e1 61 then .missing false false (bitW e1 60)
    else if entryKind e1 = 1 then .leaf e1 (entryPa e1 + va % 2 ^ 21) (some a1)
    else if entryKind e1 = 2 then
      let a2 := entryPa e1 + 8 * (va / 2 ^ 16 % 32)
      let e2 := tableEntry s a2
      if !bitW e2 61 then .missing false false (bitW e2 60)
      else if entryKind e2 = 0 then .leaf e2 (entryPa e2 + va % 2 ^ 16) (some a2)
      else .malformed
    else .malformed

/-- Where an access goes: a home with whether its page is tagged and whether the write must first take the copy-on-write
step of R332, a missing translation, or PROT. -/
inductive Place where
  | home (k : Nat) (tagged translated cow : Bool)
  | missing (split void host : Bool)
  | prot
  deriving DecidableEq, Repr

/-- The permission an access needs in its leaf (R245). -/
def permits (e : Word) : Kind → Bool
  | .read => bitW e 56
  | .write => bitW e 55
  | .atomic => bitW e 56 && bitW e 55
  | .fetch => bitW e 54

/-- R308: an offset lies in the partition's sump window on a die. -/
def inWindow (pt : Part) (die off : Nat) : Bool :=
  let w := if die = 0 then pt.psump0 else pt.psump1
  decide (bitsW w 0 32 ≤ off) && decide (off < bitsW w 0 32 + bitsW w 32 32)

/-- The access of an element of the strand in focus to a byte, which the free values of a lost crosscut tell apart (log 67). -/
def crossKey (s : State) (k elem : Nat) : Nat := ((s.hart.core * 4 + s.hart.slot) * 2048 + elem) * 2 ^ 47 + k

/-- R317, R350: an access to a byte of the far die finds the crosscut severed (log 24), or its reply lost with it (log 67). A
word that crosses has been fetched before. -/
def severedFrom (s : State) (core k : Nat) (kind : Kind) (elem : Nat) : Bool :=
  dieOfKey k != dieOf core &&
  (!s.crosscut ||
   (match s.cutting with
    | some lost => kind != .fetch &&
        !(Config.answered s.tick (crossKey s k elem) || (lost && Config.crossed s.tick (crossKey s k elem)))
    | none => false))

/-- R37: the die of a sump aperture that holds an address, with the offset. -/
def sumpAperture (va : Nat) : Option (Nat × Nat) :=
  if 0x400_0000 ≤ va ∧ va < 0xA00_0000 then some (0, va - 0x400_0000)
  else if 0xA00_0000 ≤ va ∧ va < 0x1000_0000 then some (1, va - 0xA00_0000)
  else none

/-- R37: an address that is never translated. -/
def fixedRange (va : Nat) : Bool := decide (va < 0x20_0000) || (sumpAperture va).isSome

/-- Steps 3 and 4 of R108 and R223 for a strand, and the element of its access: R37, R244, R245, R308, R317, R415. -/
def locate (s : State) (h : Strand) (va : Nat) (kind : Kind) (elem : Nat := 0) : Place :=
  if va < 0x20_0000 then
    if onDeputy h || kind == .fetch then .prot
    else .home (padKey s h (h.core / 4 * 4 + va / 2 ^ 19) (va % 2 ^ 19)) false false false
  else match sumpAperture va with
  | some (d, off) =>
    if kind == .fetch then .prot
    else if onDeputy h then
      if severedFrom s h.core (sumpBase d + off) kind elem then .prot else .home (sumpBase d + off) false false false
    else if !inWindow (partOf s h.part) d off || decide (Config.frqOffset ≤ off) then .prot
    else if severedFrom s h.core (sumpBase d + off) kind elem then .prot
    else .home (sumpBase d + off) false false false
  | none =>
    if onDeputy h then
      if 2 ^ 42 ≤ va || !populated va || severedFrom s h.core va kind elem then .prot
      else .home va false true false
    else match walk s h.part va with
    | .missing a b c => .missing a b c
    | .malformed => .prot
    | .leaf e pa at_ =>
      if !permits e kind then .prot
      else if decide (sumpBase 0 ≤ pa) && decide (Config.frqOffset ≤ pa % 2 ^ 27) then .prot
      else if severedFrom s h.core pa kind elem then .prot
      else
        let wp := at_.isSome && bitW e 58 && (kind == .write || kind == .atomic)
        if wp && !bitW e 57 then .prot
        else .home pa (bitW e 59) true wp

/-- R37, R242: an access at this address is translated by a walk of tables, which may miss: it is no fixed range, and its region
is SMALL. -/
def walksTables (s : State) (h : Strand) (va : Nat) : Bool :=
  !onDeputy h && decide (0x20_0000 ≤ va) && (sumpAperture va).isNone &&
  bitsW (smGet 0 (partOf s h.part).shaft (va / 2 ^ 35)) 62 2 == 3

/-! ### Bells (R130–R134) -/

/-- Key of a bell: owning launch, physical core, number; a deputy's own bells belong to no launch (R131). -/
def bellKey (part serial core n : Nat) : Nat := ((part * 2 ^ 32 + serial) * 1024 + core) * 2048 + n

/-- R133: one arrival; answers the bell after it and whether it flipped. -/
def bellArrival (b : Bell) : Bell × Bool :=
  if b.expect = 0 then
    if b.count = 0xFFFF then ({ b with overrun := true }, false) else ({ b with count := b.count + 1 }, false)
  else if b.count + 1 = b.expect then ({ b with count := 0, phase := !b.phase }, true)
  else ({ b with count := b.count + 1 }, false)

/-- R134: a flip releases every wait blocked on the bell; a strand that is out performs its wait again on return. -/
def releaseWaiters (part serial core n : Nat) (s : State) : State :=
  mapStrands (fun h =>
    match h.run with
    | .waiting c m p _ sc =>
      if h.part = part ∧ h.serial = serial ∧ c = core ∧ m = n ∧ !h.preempted ∧ !h.swapped then
        { h with run := .waiting c m p true sc }
      else h
    | _ => h) s

/-- Writes a bell, and releases its waiters where it flipped. -/
def putBell (part serial core n : Nat) (b : Bell) (flipped : Bool) (s : State) : State :=
  let s := { s with bells := smSet Bell.zero s.bells (bellKey part serial core n) b }
  if flipped then releaseWaiters part serial core n s else s

/-- The bell of a key. -/
def bellAt (s : State) (part serial core n : Nat) : Bell := smGet Bell.zero s.bells (bellKey part serial core n)

/-- R133, R139: counts one arrival, and sets short with it for a short drift completion. -/
def arriveBell (part serial core n : Nat) (short : Bool) (s : State) : State :=
  let (b, f) := bellArrival (bellAt s part serial core n)
  putBell part serial core n { b with short := b.short || short } f s

/-- R251, R331: one arrival on bell `n` of both deputies of a die. -/
def arriveDeputies (die n : Nat) (s : State) : State :=
  arriveBell 0 0 (0x200 + die % 2 * 256 + 1) n false (arriveBell 0 0 (0x200 + die % 2 * 256) n false s)

/-- R131: the partition and launch whose bells a strand names; a deputy's own belong to no launch. -/
def bellOwner (h : Strand) : Nat × Nat := if onDeputy h then (0, 0) else (h.part, h.serial)

/-- R131, R348: the core of the bell that a drift binding names. -/
def boundCore (h : Strand) (core : Nat) : Nat := if onDeputy h then h.core else h.core / 4 * 4 + core

/-- R336, R337: DWP or DLEN of a serial, an end and a count. -/
def driftWord (serial : BitVec 16) (e n : Nat) : Word :=
  BitVec.ofNat 64 (serial.toNat * 2 ^ 48 + e % 16 * 2 ^ 40 + n % 2 ^ 40)

/-! ### Events counted by PMC (R404, R405) -/

/-- Adds `n` to every counter of a strand that selects the event. -/
def countIn (ev n : Nat) (h : Strand) : Strand :=
  { h with ctrl := { h.ctrl with
      pmc := Vector.ofFn (fun i : Fin 4 =>
        if h.ctrl.pmsel[i].toNat = ev then h.ctrl.pmc[i] + BitVec.ofNat 64 n else h.ctrl.pmc[i]) } }

/-- R401: the strand's open strip has had `n` pieces of work of each of the given kinds: lane, load, store, seam, bits 0 to 3. -/
def noteWork (kinds : BitVec 4) (n : Nat) (s : State) : State :=
  let w := s.hart.stripWork
  let more (u : Nat) : Nat := if kinds.getLsbD u then n else 0
  { s with hart := { s.hart with stripWork := #v[w[0] + more 0, w[1] + more 1, w[2] + more 2, w[3] + more 3] } }

/-- R401, R405: the kind of work that an event counts: lane, load, store, seam, bits 0 to 3. -/
def workOf (ev : Nat) : BitVec 4 :=
  match ev with
  | 5 => 1
  | 6 => 2
  | 7 => 4
  | 8 => 8
  | _ => 0

/-- Counts an event of the strand in focus; work of its open strip is noted with it. -/
def countEvent (ev n : Nat) (s : State) : State :=
  let s := { s with hart := countIn ev n s.hart }
  if n = 0 || workOf ev == 0 then s else noteWork (workOf ev) n s

/-- The number of a strand's free count of an event in this step (log 6). -/
def countKey (s : State) (h : Strand) : Nat := s.tick * 4096 + h.core * 4 + h.slot

/-! ### The firedamp filter (R58, R59) -/

/-- R59: detection is on for the strand's accesses. -/
def detecting (s : State) : Bool := !s.hart.nodetect && vcfgDet s

/-- The first byte of `[k, k+n)` that an entry covers, if any. -/
def overlap (e : FilterEntry) (k n : Nat) : Option Nat :=
  if e.addr < k + n ∧ k < e.addr + e.len then some (Nat.max k e.addr) else none

/-- R58: the live entry of another strand that an element conflicts with; of several, the oldest (log 71). -/
def conflictWith (s : State) (k n : Nat) (write : Bool) : Option FilterEntry :=
  s.filter.find? (fun e =>
    e.home == homeOf k && e.who != whoIs s.hart && (write || e.write) && (overlap e k n).isSome)

/-- Drops the first entry of a home. -/
def evictOldest (home : Nat) : List FilterEntry → List FilterEntry
  | [] => []
  | e :: t => if e.home = home then t else e :: evictOldest home t

/-- R58: an element enters the filter; a full home evicts its oldest entry and counts it (R406, event 16 of R405). -/
def enterFilter (k n : Nat) (write : Bool) (s : State) : State :=
  let home := homeOf k
  let e : FilterEntry := { home := home, who := whoIs s.hart, write := write, addr := k, len := n }
  if (s.filter.filter (fun x => x.home == home)).length < Config.filterDepth then
    { s with filter := s.filter ++ [e] }
  else
    let s := match s.filter.find? (fun x => x.home == home) with
      | some old => mapStrands (fun h => if whoIs h = old.who then countIn 16 1 h else h) s
      | none => s
    { s with filter := evictOldest home s.filter ++ [e]
             evicted := smSet 0 s.evicted home (smGet 0 s.evicted home + 1) }

/-- R58: a release of any scope ends the strand's live entries. -/
def releaseFilter (w : Who) (s : State) : State := { s with filter := s.filter.filter (fun e => e.who != w) }

/-! ### The scalar data cache (R38, R50, R109) -/

/-- Key of the cached unit that holds a byte. -/
def cacheKey (core k : Nat) : Nat := core * 2 ^ 46 + k / 8

/-- R50: drops every line of a core. -/
def dropCache (core : Nat) (s : State) : State := { s with dcache := smDrop (core * 2 ^ 46) (2 ^ 46) s.dcache }

/-- R50, R62: an acquire at `scope` invalidates at gang scope or wider, and in observer mode with OBS not 0. -/
def acquireDrops (scope : BitVec 3) (s : State) : Bool :=
  if vcfgObs s then s.hart.ctrl.obs.extractLsb' 0 5 != 0 else scope != 0

/-- R50: an acquire at `scope`. -/
def acquire (scope : BitVec 3) (s : State) : State := if acquireDrops scope s then dropCache s.hart.core s else s

/-- R47, R58: a release; every older access has been performed, so it ends the strand's filter entries. -/
def release (s : State) : State := releaseFilter (whoIs s.hart) s

/-- A unit with byte `i` replaced. -/
def putByte (w : Word) (i : Nat) (b : Byte) : Word := setBitsW w (8 * i) 8 b.toNat

/-- R109: a store of the core updates its own cached copies. -/
def cacheUpdate (core : Nat) : Nat → List Byte → List (Nat × Option Word) → List (Nat × Option Word)
  | _, [], c => c
  | k, b :: bs, c =>
    cacheUpdate core (k + 1) bs (match smGet none c (cacheKey core k) with
      | some w => smSet none c (cacheKey core k) (some (putByte w (k % 8) b))
      | none => c)

/-- Writes bytes of a plain store of the strand in focus: their home, and the core's own cached copies (R55, R109). -/
def storeBytes (k : Nat) (bs : List Byte) (s : State) : State :=
  let s := memPut s k bs
  { s with dcache := cacheUpdate s.hart.core k bs s.dcache }

/-- R109, R226: removes the 64-byte lines of the core's cache that hold any of the bytes. -/
def cacheRemove (core k n : Nat) (s : State) : State :=
  { s with dcache := smDrop (cacheKey core (k / 64 * 64)) ((k % 64 + n + 63) / 64 * 8) s.dcache }

/-- The entries of a cache whose keys lie in `[lo, lo + n)`, with one of them given up where they are `cap` or more (R3;
log 63). -/
def makeRoom {α : Type} (lo n cap pick : Nat) (c : List (Nat × α)) : List (Nat × α) :=
  let mine := c.filter (fun x => decide (lo ≤ x.1) && decide (x.1 < lo + n))
  if mine.length < cap then c
  else match mine[pick % mine.length]? with
  | some v => smDrop v.1 1 c
  | none => c

/-! ### Records of the strand (R399) -/

/-- The address of the next record, which lies past the top of the space where the ring does (R20). -/
def recordVa (s : State) : Nat :=
  let c := s.hart.ctrl
  c.recbase.toNat % 2 ^ 48 / 64 * 64 + 64 * (c.rechead.toNat % 2 ^ bitsW c.recctl 11 5)

/-- The place of a record write: translated or R37, with write permission; checks of tag, watch and filter omitted. -/
def recordPlace (s : State) : Place := if recordVa s < 2 ^ 48 then locate s s.hart (recordVa s) .write else .prot

/-- R398: a record that is not written counts in RECLOST, which stops at 2^32 - 1. -/
def loseRecord (s : State) : State :=
  let n := s.hart.ctrl.reclost.toNat
  withCtrl s { s.hart.ctrl with reclost := BitVec.ofNat 64 (if n < 2 ^ 32 - 1 then n + 1 else n) }

/-- R400: dword 1 of every record. -/
def recordHeader (s : State) : Word :=
  BitVec.ofNat 64 (s.hart.serial % 2 ^ 32 * 2 ^ 32 + s.hart.index % 2048 * 2 ^ 11 + s.hart.slot % 4 * 2 ^ 9 +
    coreId s s.hart % 512)

/-- The bytes of a list of dwords (R15). -/
def dwordBytes (ds : List Word) : List Byte := ds.flatMap (fun d => leBytes 8 d.toNat)

/-! ### Copy-on-write (R331–R333) -/

/-- The first free block of `n` from block `b` on (R318). -/
def firstFree (counts : List (Nat × BitVec 16)) : Nat → Nat → Option Nat
  | _, 0 => none
  | b, n + 1 => if smGet 0 counts b = 0 then some b else firstFree counts (b + 1) n

/-- R319: the pool of an engine: first block and number of blocks. -/
def poolOf (e : Engine) : Nat × Nat := (bitsW e.poolB 16 26, bitsW e.poolN 0 32)

/-- R318: the lowest free block of an engine's pool. -/
def freeBlock (e : Engine) : Option Nat := firstFree e.counts (poolOf e).1 (poolOf e).2

/-- R318, R359: blocks left in a partition's quota on an engine. -/
def quotaLeft (s : State) (p eng : Nat) : Nat :=
  bitsW ((partOf s p).quota[eng % 12]'(Nat.mod_lt eng (by decide))) 0 32 - smGet 0 (engineAt s eng).used p

/-- R331: exhaustion of engine `eng` arrives on b1 of both deputies of its die; the arrival is a release. -/
def notifyExhausted (eng : Nat) (s : State) : State := arriveDeputies (eng / 6) 1 (release s)

/-- R324, R236, R237: a granule's tag and the three most recent of its history. -/
def pushTag (w : BitVec 16) (t : BitVec 4) : BitVec 16 := (w <<< 4) ||| t.setWidth 16

/-- Assigns tags to `n` granules from granule `g` on. -/
def pushTags (t : Nat → BitVec 4) : Nat → Nat → List (Nat × BitVec 16) → List (Nat × BitVec 16)
  | _, 0, m => m
  | g, n + 1, m => pushTags t (g + 1) n (smSet 0 m g (pushTag (smGet 0 m g) (t g)))

/-- R332: the block engine, block and leaf address of a write that must take the step, and the partition that holds the
sequence, whose quota binds the copy. -/
structure CowSite where
  eng : Nat
  block : Nat
  leafAt : Nat
  leaf : Word
  part : Nat
  deriving DecidableEq, Repr

/-- R322: the leaf at an address is that of a page of a sequence. -/
def Seq.holdsLeaf (q : Seq) (a : Nat) : Bool :=
  q.tables.zipIdx.any (fun t =>
    let page := (q.base / 2 ^ 21 + t.2) * 32 + (a - t.1) / 8
    decide (t.1 ≤ a) && decide (a < t.1 + 256) && decide (q.base / 2 ^ 16 ≤ page) &&
      decide (page < q.base / 2 ^ 16 + q.len))

/-- R332: the partition that holds the sequence of a claimed leaf. -/
def leafHolder (s : State) (eng a : Nat) : Option Nat :=
  ((engineAt s eng).seqs.find? (fun q => q.2.live && q.2.holdsLeaf a)).map (fun q => q.2.part)

/-- R332: where the step of a held write acts, if one is due. -/
def cowSite (s : State) (p va : Nat) : Option CowSite :=
  match walk s p va with
  | .leaf e _ (some at_) =>
    if bitW e 58 && bitW e 57 then
      let eng := entryPa e / 2 ^ 37
      some { eng := eng, block := entryPa e / 2 ^ 16, leafAt := at_, leaf := e, part := (leafHolder s eng at_).getD p }
    else none
  | _ => none

/-- R332: the home of a held write at home `k` once its step has been taken: the block that the step will copy into. -/
def cowHome (s : State) (p va k : Nat) : Nat :=
  match cowSite s p va with
  | some c =>
    if 1 < (smGet 0 (engineAt s c.eng).counts c.block).toNat then
      match freeBlock (engineAt s c.eng) with
      | some b => b * 2 ^ 16 + k % 2 ^ 16
      | none => k
    else k
  | none => k

/-- R332: the step needs a block and finds none free, or none left in the quota. -/
def cowExhausted (s : State) (p va : Nat) : Bool :=
  match cowSite s p va with
  | some c =>
    decide (1 < (smGet 0 (engineAt s c.eng).counts c.block).toNat) &&
      ((freeBlock (engineAt s c.eng)).isNone || quotaLeft s c.part c.eng == 0)
  | none => false

/-- Writes one table entry in physical memory, for an instruction of the strand in focus (R55, R243). -/
def storeEntry (s : State) (a : Nat) (e : Word) : State := storeBytes a (leBytes 8 e.toNat) s

/-- Writes one table entry in physical memory, by a claim engine (R243). -/
def putEntry (s : State) (a : Nat) (e : Word) : State := memPut s a (leBytes 8 e.toNat)

/-- R322: the address of the level-2 leaf of a 64 KiB page of a SMALL region, if its level-1 entry is a valid pointer. -/
def leafAddr (s : State) (p va : Nat) : Option Nat :=
  let e := smGet 0 (partOf s p).shaft (va / 2 ^ 35)
  if entryKind e = 3 then
    let e1 := tableEntry s (entryPa e + 8 * (va / 2 ^ 21 % 16384))
    if bitW e1 61 && entryKind e1 == 2 then some (entryPa e1 + 8 * (va / 2 ^ 16 % 32)) else none
  else none

/-- R322: the address of the leaf of page `i` of a sequence, in the tables that its claim map has: those found when it was opened,
whatever `pgmap` has done since (log 77). -/
def Seq.leafAt (q : Seq) (i : Nat) : Option Nat :=
  let page := q.base / 2 ^ 16 + i
  (q.tables[page / 32 - q.base / 2 ^ 21]?).map (fun t => t + 8 * (page % 32))

/-- Sets wp of the leaf that still maps a block, among the pages of one sequence from page `i` on; `put` writes a leaf. -/
def unshareIn (put : State → Nat → Word → State) (q : Seq) (block : Nat) (wp : Bool) : Nat → Nat → State → State
  | _, 0, s => s
  | i, n + 1, s =>
    let s := match q.leafAt i with
      | some a =>
        let e := tableEntry s a
        if bitW e 61 && entryPa e == block * 2 ^ 16 then put s a (setBitsW e 58 1 wp.toNat) else s
      | none => s
    unshareIn put q block wp (i + 1) n s

/-- R332: clears wp of the leaf of a block's one remaining sharer. -/
def unshare (put : State → Nat → Word → State) (eng block : Nat) (s : State) : State :=
  (engineAt s eng).seqs.foldl
    (fun s q => if q.2.live then unshareIn put q.2 block false 0 q.2.len s else s) s

/-- R332: copies a block's bytes with their errors (log 25), and for a tagged page its tags. -/
def copyBlock (src dst : Nat) (tagged : Bool) (s : State) : State :=
  let s := uncacheBlock dst { s with
    mem := smPut 0 (dst * 2 ^ 16) (smSlice (src * 2 ^ 16) (2 ^ 16) s.mem) (smDrop (dst * 2 ^ 16) (2 ^ 16) s.mem)
    bad := smPut false (dst * 2 ^ 16) (smSlice (src * 2 ^ 16) (2 ^ 16) s.bad) (smDrop (dst * 2 ^ 16) (2 ^ 16) s.bad) }
  if tagged then
    { s with tags := pushTags (fun g => (smGet 0 s.tags (src * 2048 + (g - dst * 2048))).setWidth 4)
                       (dst * 2048) 2048 s.tags }
  else s

/-- R332: the step of the claim engine for a held write of partition `p` at `va`; nothing where none is due or possible. -/
def cowStep (p va : Nat) (s : State) : State :=
  match cowSite s p va with
  | none => s
  | some c =>
    let e := engineAt s c.eng
    let n := smGet 0 e.counts c.block
    if 1 < n.toNat then
      match freeBlock e with
      | none => s
      | some b =>
        if quotaLeft s c.part c.eng = 0 then s
        else
          let s := copyBlock c.block b (bitW c.leaf 59) s
          let s := setEngine s c.eng { e with
            counts := smSet 0 (smSet 0 e.counts c.block (n - 1)) b 1
            used := smSet 0 e.used c.part (smGet 0 e.used c.part + 1) }
          let s := putEntry s c.leafAt (setBitsW (setBitsW c.leaf 8 34 (b * 2 ^ 8)) 58 1 0)
          if n.toNat = 2 then unshare putEntry c.eng c.block s else s
    else putEntry s c.leafAt (setBitsW c.leaf 58 1 0)

/-! ### Records (R396–R403) -/

/-- R399: writes one record of kind `k` in dword 0 [63:60]; one that cannot be written is lost. -/
def writeRecord (d0 d2 d3 d4 d5 d6 d7 : Word) (s : State) : State :=
  match recordPlace s with
  | .home _ _ _ cow =>
    if cow && cowExhausted s s.hart.part (recordVa s) then
      loseRecord (match cowSite s s.hart.part (recordVa s) with | some c => notifyExhausted c.eng s | none => s)
    else
      let s := if cow then cowStep s.hart.part (recordVa s) s else s
      match recordPlace s with
      | .home k .. =>
        let s := storeBytes k (dwordBytes [d0, recordHeader s, d2, d3, d4, d5, d6, d7]) s
        withCtrl s { s.hart.ctrl with rechead := s.hart.ctrl.rechead + 1 }
      | _ => loseRecord s
  | _ => loseRecord s

/-- Bits set in a mask. -/
def popMask : Nat → Mask → Nat
  | 0, _ => 0
  | n + 1, m => popMask n m + (if m.getLsbD n then 1 else 0)

/-- R403: a trap record (kind 3) or suspension record (kind 4). -/
def stopRecord (kind : Nat) (epc : BitVec 48) (cause info : Word) (stidx : Nat) (kd : Mask) (s : State) : State :=
  writeRecord (BitVec.ofNat 64 (kind * 2 ^ 60 + epc.toNat)) cause info (BitVec.ofNat 64 (stidx % 2048))
    (kd.extractLsb' (stidx % 2048 / 64 * 64) 64) (BitVec.ofNat 64 (popMask 2048 kd))
    (cycleOf s (dieOf s.hart.core)) s

/-- R401: the busy cycles of a unit over `cycles` in which the strand was not stopped: none without work for the strip, else a
free number from 1 on, which for the lanes and the seam is no greater than the groups or rows of that work (log 6). -/
def busyCycles (u cycles : Nat) (s : State) : Nat :=
  let work := s.hart.stripWork.toList.getD u 0
  let most := Nat.min (2 ^ 32 - 1) (Nat.max 1 (if u = 0 || u = 3 then Nat.min cycles work else cycles))
  if work = 0 then 0 else 1 + (Config.busy u s.tick).toNat % most

/-- R400: the strip record (kind 1) of the open strip; `how` is 0 for `strip`, 1 for `retire`. -/
def stripRecord (how : Nat) (s : State) : State :=
  let c := s.hart.ctrl
  let now := cycleOf s (dieOf s.hart.core)
  let elapsed := now - s.hart.stripStart
  let busy (u : Nat) : Nat := busyCycles u (elapsed.toNat - s.hart.stripIdle) s
  writeRecord (BitVec.ofNat 64 (2 ^ 60 + how * 2 ^ 56 + c.stripBase.toNat % 2 ^ 48)) c.stripLen
    elapsed
    (BitVec.ofNat 64 (busy 0 * 2 ^ 32 + busy 1))
    (BitVec.ofNat 64 (busy 2 * 2 ^ 32 + busy 3))
    (BitVec.ofNat 64 (s.hart.nsusp.toNat * 2 ^ 32 + s.hart.nstop.toNat)) s.hart.stripStart s

/-- R402: the sample record (kind 2) of a word at issue, with the position it takes and the VL it finds. -/
def sampleRecord (pc : BitVec 48) (word member vl : Nat) (s : State) : State :=
  writeRecord (BitVec.ofNat 64 (2 * 2 ^ 60 + pc.toNat))
    (BitVec.ofNat 64 (word * 2 ^ 32 + (Config.heldCycles s.tick).toNat * 2 ^ 16 + Nat.min member 7 * 2 ^ 13 + vl % 2 ^ 12))
    (BitVec.ofNat 64 (s.hart.ctrl.stidx.toNat % 2048)) (cycleOf s (dieOf s.hart.core)) 0 0 0 s

/-- R402: a sample is due: the count has reached a multiple of 2^p since the last one. -/
def sampleDue (h : Strand) : Bool :=
  bitW h.ctrl.recctl 1 && h.issued != h.sampled && h.issued % 2 ^ bitsW h.ctrl.recctl 6 5 == 0

/-- R402: writes the sample record of a word, which finds VCFG.VL as `n`, if one is due. -/
def sampleWord (pc : BitVec 48) (w member n : Nat) (s : State) : State :=
  if sampleDue s.hart then
    let s := sampleRecord pc w member n s
    { s with hart := { s.hart with sampled := s.hart.issued } }
  else s

/-- R402, R405: one word issues: events 2 and 3, and while samples are on the count of issued words, and its sample. DESIGN CHOICE
(log 6): the count goes on where smp is cleared and set again. -/
def countWord (pc : BitVec 48) (w member n : Nat) (ext : Bool) (s : State) : State :=
  let s := countEvent 2 1 s
  let s := if ext then countEvent 3 1 s else s
  if bitW s.hart.ctrl.recctl 1 then
    sampleWord pc w member n { s with hart := { s.hart with issued := s.hart.issued + 1 } }
  else s

/-- R97: closes the open strip, if any, with its record. -/
def closeStrip (how : Nat) (s : State) : State :=
  if s.hart.ctrl.stripLen = 0 then s
  else if bitW s.hart.ctrl.recctl 0 then stripRecord how s else s

/-! ### Ends of strands and launches (R44, R93, R148, R364, R365) -/

/-- A launch of the device, by partition and serial. -/
def findLaunch (s : State) (p serial : Nat) : Option Launch :=
  s.launches.find? (fun l => l.part == p && l.serial == serial)

/-- Changes one launch. -/
def mapLaunch (p serial : Nat) (f : Launch → Launch) (s : State) : State :=
  { s with launches := s.launches.map (fun l => if l.part = p ∧ l.serial = serial then f l else l) }

/-- R350: every accepted operation of a channel ends with end 6: the one in progress at its write pointer, and each later
one with len 0. -/
def Chan.cancel (c : Chan) : Chan :=
  c.ops.foldl (fun c o =>
    let serial := if o.begun then o.serial else c.serial + 1
    let n := if o.begun then o.count else 0
    { c with serial := serial, dwp := driftWord serial 0 n, dlen := driftWord serial (o.ended.getD 6) n }) { c with ops := [], binds := [] }

/-- R44, R350: the accepted drift work of a strand ends with its launch; each operation arrives on its bell, short. -/
def cancelDrifts (f : Strand → Bool) (s : State) : State :=
  let s := ((allStrands s).filter f).foldl (fun s h =>
    (h.chans.toList.flatMap (fun c => c.ops)).foldl (fun s o => match o.bell with
      | some (core, n) => arriveBell (bellOwner h).1 (bellOwner h).2 (boundCore h core) n (o.ended != some 0) s
      | none => s) s) s
  mapStrands (fun h => if f h then { h with chans := h.chans.map Chan.cancel } else h) s

/-- R93, R44, R350: takes every strand that satisfies `f` off the device. Its accepted drift work ends with it, its filter
entries go (R58), it waits for no adapter line (R291), and it holds no start of the governor any more. DESIGN CHOICE (log 49): a
fault record of it that waits for room stays (R251 against R42). -/
def removeStrands (f : Strand → Bool) (s : State) : State :=
  let s := cancelDrifts f s
  let gone := (allStrands s).filter f
  { s with
    hart := if f s.hart then Strand.vacant else s.hart
    rest := s.rest.filter (fun h => !f h)
    filter := s.filter.filter (fun e => !gone.any (fun h => whoIs h == e.who))
    contribs := s.contribs.filter (fun c => !gone.any (fun h => whoIs h == c.who))
    dies := s.dies.map (fun d => { d with govQ := d.govQ.filter (fun q =>
      !gone.any (fun h => h.core == q.1 && h.slot == q.2.1)) }) }

/-- The strands of a launch that the device still holds. -/
def strandsOf (p serial : Nat) (h : Strand) : Bool :=
  h.run != .vacant && !onDeputy h && h.part == p && h.serial == serial

/-- The parked strands of a launch on a core. -/
def parkedOn (s : State) (p serial core : Nat) : Nat :=
  ((allStrands s).filter (fun h => strandsOf p serial h && h.parked && h.core == core)).length

/-- R369: the strand is to be parked, or has been, for a strand of a launch on a core. -/
def yieldsOn (p serial core : Nat) (h : Strand) : Bool :=
  h.run != .vacant && h.part == p && h.core == core && h.yieldsTo == some serial

/-- R369: the strands of a core that have been parked for strands of a launch that have not resumed yet. -/
def yieldedOn (s : State) (p serial core : Nat) : Nat :=
  ((allStrands s).filter (fun h => yieldsOn p serial core h && h.parked)).length

/-- R131: a launch's bells are released when it ends. -/
def dropBells (p serial : Nat) (s : State) : State :=
  { s with bells := smDrop (bellKey p serial 0 0) (1024 * 2048) s.bells }

/-- R365, R93: the first event to reach a launch decides its status; its strands stop and its bells are released. -/
def endLaunch (p serial : Nat) (v : Verdict) (s : State) : State :=
  match findLaunch s p serial with
  | none => s
  | some l =>
    if l.verdict.isSome then s
    else
      let live := ((allStrands s).filter (strandsOf p serial)).length
      let s := mapLaunch p serial (fun l => { l with verdict := some v, ended := l.ended + live }) s
      dropBells p serial (removeStrands (strandsOf p serial) s)

/-! ### Taking a trap and returning (R142–R153, R158) -/

/-- A trap condition: cause, detail (R146), whether it names an element, its member position (R35), and the engine whose
exhaustion it reports (R332), counted from 1. -/
structure Trap where
  cause : BitVec 8
  aux : BitVec 16 := 0
  key : BitVec 4 := 0
  addr : BitVec 48 := 0
  ev : Bool := false
  elem : BitVec 11 := 0
  member : BitVec 3 := 0
  exhausted : Nat := 0
  deriving DecidableEq, Repr

/-- ECAUSE as a trap writes it (R143). -/
def Trap.ecause (t : Trap) : Word :=
  BitVec.ofNat 64 (t.key.toNat * 2 ^ 32 + t.aux.toNat * 2 ^ 16 + 2 ^ 8 + t.cause.toNat)

/-- EINFO as a trap writes it (R144). -/
def Trap.einfo (t : Trap) : Word :=
  BitVec.ofNat 64 (t.addr.toNat * 2 ^ 16 + t.member.toNat * 2 ^ 13 + t.ev.toNat * 2 ^ 12 + t.elem.toNat)

/-- R416: a deputy halts; FWCTL.halted gets its bit and the physical function is signalled. -/
def haltDeputy (s : State) : State :=
  { s with
    hart := { s.hart with run := .halted }
    fwHalted := s.fwHalted ||| (1 <<< (2 * dieOf s.hart.core + s.hart.core % 2))
    interrupts := (32, 1) :: s.interrupts }

/-- R148, R376: the strand's launch ends FAULTED with what the trap would have written. -/
def faultLaunch (t : Trap) (epc : BitVec 48) (s : State) : State :=
  if onDeputy s.hart then haltDeputy s
  else
    let s' := endLaunch s.hart.part s.hart.serial
      { status := 3, info := t.einfo,
        place := BitVec.ofNat 64 (t.key.toNat * 2 ^ 56 + t.cause.toNat * 2 ^ 48 + epc.toNat), aux := t.aux } s
    removeStrands (fun h => strandsOf s.hart.part s.hart.serial h) s'

/-- R332, R403: what precedes a trap's entry: the claim engine's notice of an exhaustion, and the trap record. -/
def noteTrap (t : Trap) (pc : BitVec 48) (start : Nat) (kd : Mask) (s : State) : State :=
  let s := if t.exhausted = 0 then s else notifyExhausted (t.exhausted - 1) s
  if bitW s.hart.ctrl.recctl 2 then stopRecord 3 pc t.ecause t.einfo start kd s else s

/-- R253: a trap ends the marks of pages resumed with fail. -/
def clearFails (s : State) : State := { s with hart := { s.hart with failPages := [] } }

/-- R142: the handler begins: what a trap saves, and the stop state it leaves. -/
def enterHandler (t : Trap) (pc : BitVec 48) (start : Nat) (sa : Bool) (kd : Mask) (s : State) : State :=
  { s with hart := { s.hart with
      ctrl := { s.hart.ctrl with
        epc := pc.setWidth 64
        ecause := t.ecause
        einfo := t.einfo
        stidx := BitVec.ofNat 64 (sa.toNat * 2 ^ 11 + start % 2048) }
      kd := kd
      convoy := .none
      resuming := false
      pc := s.hart.ctrl.tvec.setWidth 48 &&& ~~~3 } }

/-- R142: the strand has a handler that is not running. -/
def handlerSet (s : State) : Bool := !trapActive s && s.hart.ctrl.tvec.extractLsb' 2 46 != 0

/-- R142: takes a trap with return address `epc`, leaving the stop state `start`, `sa`, `kd` of R150. A trap record comes
first (R403). With act already set or no handler the launch ends FAULTED (R148), and a deputy halts (R416). -/
def takeTrap (t : Trap) (epc : BitVec 48) (start : Nat) (sa : Bool) (kd : Mask) (s : State) : State :=
  let pc := epc &&& ~~~3
  let s := clearFails (noteTrap t pc start kd s)
  if handlerSet s then enterHandler t pc start sa kd s else faultLaunch t pc s

/-- A trap at a scalar or system word, or a word that joins no convoy: EPC is the word, STIDX 0, kd empty (R142). -/
def trapAt (t : Trap) (s : State) : State := takeTrap t s.hart.pc 0 false 0 (endConvoy s)

/-- R146: a trap whose EINFO.addr holds the instruction word. -/
def wordTrap (i : Instr) (cause : BitVec 8) (aux : BitVec 16) : Trap :=
  { cause := cause, aux := aux, addr := BitVec.ofNat 48 ((encodeWord i).getD 0) }

/-- R158: the return; without act it traps PRIV with the word. -/
def returnFromTrap (s : State) : State :=
  { s with hart := { s.hart with
      ctrl := { s.hart.ctrl with ecause := setBitsW s.hart.ctrl.ecause 8 1 0 }
      pc := s.hart.ctrl.epc.setWidth 48 &&& ~~~3
      convoy := .none
      resuming := true } }

/-! ### Page-fault suspension (R247–R251) -/

/-- A page fault found by an access: the lowest element on the page, its member, and the fields of the record (R249). -/
structure Miss where
  va : Nat
  key : Nat
  kind : Nat
  elem : Nat := 0
  member : Nat := 0
  split : Bool
  void : Bool
  host : Bool
  deriving DecidableEq, Repr

/-- R250: the handle of record `i` of `count` of the strand's suspension, without the generation. -/
def handleOf (s : State) (h : Strand) (susp : BitVec 16) (count i slot : Nat) : Word :=
  BitVec.ofNat 64 (susp.toNat * 2 ^ 48 + count * 2 ^ 32 + i * 2 ^ 27 + slot * 2 ^ 25 + coreId s h % 512 * 2 ^ 16 +
    h.part * 2 ^ 11)

/-- R249: the four dwords of a fault record, without its time. -/
def missRecord (m : Miss) (handle : Word) (epc : BitVec 48) (chan : Nat) : List Word :=
  [BitVec.ofNat 64 (m.key * 2 ^ 60 + m.kind * 2 ^ 52 + m.va), handle,
   BitVec.ofNat 64 (m.elem * 2 ^ 51 + m.member * 2 ^ 48 + epc.toNat),
   BitVec.ofNat 64 (chan * 2 ^ 8 + m.split.toNat * 4 + m.void.toNat * 2 + m.host.toNat)]

/-- R249, R250: the dwords of a record as it enters the queue of a die: CYCLE[31:0], and the partition's generation. -/
def FaultRec.entering (r : FaultRec) (s : State) (die : Nat) : List Word :=
  let w (i : Nat) : Word := r.words.getD i 0
  if r.fresh then
    [w 0, setBitsW (w 1) 0 11 (partOf s (bitsW (w 1) 11 5)).gen.toNat, w 2,
     setBitsW (w 3) 32 32 (cycleOf s die).toNat]
  else r.words

/-- R251: the key of slot `i` of a die's queue. -/
def frqKey (die i : Nat) : Nat := sumpBase die + Config.frqOffset + 32 * (i % 256)

/-- R251, R255: the queue can take a record: fewer than 256 not yet popped, and the next slot is not held by a deputy. -/
def frqRoom (d : Die) : Bool :=
  decide (d.frTail - d.frHead < 256) && d.held[0] != some (d.frTail % 256) && d.held[1] != some (d.frTail % 256)

/-- R251, R45: the oldest waiting record enters the queue and arrives on b0 of both deputies, where there is room. The arrival
is a release of the strand that the record is for (log 75). -/
def enqueueRecord (die : Nat) (s : State) : State :=
  let d := dieAt s die
  match d.waiting with
  | [] => s
  | r :: rest =>
    if frqRoom d then
      let s := memPut s (frqKey (die % 2) d.frTail) (dwordBytes (r.entering s die))
      let s := setDie s die { d with waiting := rest, frTail := d.frTail + 1 }
      let s := match r.who with | some w => releaseFilter w s | none => s
      arriveDeputies die 0 s
    else s

/-- Lets as many waiting records enter as there is room for. -/
def enqueueAll (die : Nat) : Nat → State → State
  | 0, s => s
  | n + 1, s => enqueueAll die n (enqueueRecord die s)

/-- R251: a produced record waits behind older ones and enters as there is room. -/
def queueRecords (die : Nat) (rs : List FaultRec) (s : State) : State :=
  let s := setDie s die { dieAt s die with waiting := (dieAt s die).waiting ++ rs }
  enqueueAll die (dieAt s die).waiting.length s

/-- R247, R250: suspends the strand at `pc` with the given misses (at most 32, in order: R248; log 73), and leaves its stop
state. Its records all enter the queue, or wait for room there, in this step (R251; log 68). -/
def suspend (ms : List Miss) (pc : BitVec 48) (start : Nat) (sa : Bool) (kd : Mask) (s : State) : State :=
  let ms := ms.take 32
  let key := s.hart.core * 4 + s.hart.slot
  let susp := smGet 0 s.slotSusp key + 1
  let s := { s with slotSusp := smSet 0 s.slotSusp key susp }
  let die := dieOf s.hart.core
  let rs : List FaultRec := ms.zipIdx.map (fun (m, i) =>
    { words := missRecord m (handleOf s s.hart susp ms.length i s.hart.slot) pc 0, fresh := true,
      who := some (whoIs s.hart), chan := none })
  let s := { s with hart := { s.hart with
      run := .suspended
      susp := susp
      recs := ms.map (fun m => { page := m.va / 2 ^ 16, resumed := false, failed := false })
      pc := pc
      ctrl := if trapActive s then s.hart.ctrl
              else { s.hart.ctrl with stidx := BitVec.ofNat 64 (sa.toNat * 2 ^ 11 + start % 2048) }
      kd := if trapActive s then s.hart.kd else kd
      nsusp := s.hart.nsusp + 1 } }
  let s := countEvent 12 1 s
  let s := if bitW s.hart.ctrl.recctl 3 then
      stopRecord 4 pc (BitVec.ofNat 64 (susp.toNat * 2 ^ 48 + ms.length * 2 ^ 32)) 0 start kd s else s
  queueRecords die rs s

end Sys2Proof.Machine
end

