-- ==== Sys2Proof/Machine/Access.lean ====
section
/-!
DEFINITION. One access to memory: the checks of R108 and R223 in their order, and the reading and writing of its bytes at
their home (copy-on-write, caches, firedamp filter). Scalar accesses and vector elements share it.
-/
namespace Sys2Proof.Machine

open Sys2Proof

/-- What an access asks: kind, pointer with its key, length, alignment, and which of the checks apply. -/
structure Req where
  kind : Kind
  ptr : Word
  len : Nat
  align : Nat
  /-- Steps 5 (TAG) and 8 (MEMERR) apply: not for `tagset`. -/
  tagged : Bool := true
  /-- Step 7 (CONFLICT) applies: plain accesses. -/
  plain : Bool := true
  /-- The bytes are consumed (reads and atomics), so step 8 applies. -/
  consumes : Bool := true
  /-- The element's index, for a vector access. -/
  elem : Option Nat := none
  /-- Only a sump can perform the operation (R310). -/
  sumpOnly : Bool := false
  /-- The page must be TAGGED and translated (`tagset`, R237). -/
  needTag : Bool := false

/-- What the checks decide: the home of the bytes, a trap, or a missing translation. -/
inductive Check where
  | home (k : Nat) (translated cow : Bool)
  | trap (t : Trap)
  | miss (m : Miss)
  deriving DecidableEq, Repr

/-- The virtual address of a pointer. -/
def vaOf (ptr : Word) : Nat := ptr.toNat % 2 ^ 48

/-- A trap of an access, naming its address and element (R146). -/
def Req.trap (r : Req) (cause : BitVec 8) (aux : BitVec 16) : Trap :=
  { cause := cause, aux := aux, addr := r.ptr.setWidth 48, ev := r.elem.isSome,
    elem := BitVec.ofNat 11 (r.elem.getD 0) }

/-- R254: the watchpoints that `n` bytes at `va` hit, one bit each; an atomic is both a load and a store. -/
def watchHits (s : State) (kind : Kind) (va n : Nat) : Nat :=
  ([0, 1, 2, 3, 4, 5, 6, 7].map (fun i =>
    let w := s.hart.ctrl.watch[i % 8]'(Nat.mod_lt i (by decide))
    let on := bitsW w 62 2
    let size := 2 ^ bitsW w 58 4
    let lo := bitsW w 0 48 / size * size
    let hit := decide (lo < va + n) && decide (va < lo + size)
    let sel := match kind with
      | .read => on % 2 == 1
      | .write => decide (2 ≤ on)
      | .atomic => on != 0
      | .fetch => false
    if hit && sel then 2 ^ i else 0)).foldl (· + ·) 0

/-- R236: the first granule of `n` bytes at home `k` whose tag is not the key, with its history. -/
def tagMismatch (s : State) (k n key : Nat) : Option (BitVec 16) :=
  ((List.range (n + 31)).map (fun i => (k + i) / 32)).find? (fun g =>
    decide (g * 32 < k + n) && smGet 0 s.tags g % 16 != BitVec.ofNat 16 key) |>.map (fun g => smGet 0 s.tags g)

/-- R253: the missing page was resumed with fail, so the access takes MEMFAIL. -/
def pageFailed (s : State) (va : Nat) : Bool := s.hart.failPages.contains (va / 2 ^ 16)

/-- The code of an access in a fault record (R249). -/
def Kind.record : Kind → Nat
  | .read => 0
  | .write => 1
  | .atomic => 2
  | .fetch => 3

/-- R108, R223, R227, R254: the checks of one access, in their order; the first that holds decides. MEMERR goes by the byte at
its home, also for a load that the core's cache answers (log 3). -/
def check (s : State) (r : Req) : Check :=
  let va := vaOf r.ptr
  let key := bitsW r.ptr 60 4
  if va % r.align ≠ 0 then .trap (r.trap 5 r.kind.aux)
  else if bitsW r.ptr 48 12 ≠ 0 then .trap (r.trap 6 r.kind.aux)
  else match locate s s.hart va r.kind (r.elem.getD 0) with
  | .missing a b c =>
    if pageFailed s va then .trap (r.trap 11 0)
    else .miss { va := va, key := key, kind := r.kind.record, elem := r.elem.getD 0, split := a, void := b, host := c }
  | .prot => .trap (r.trap 6 r.kind.aux)
  | .home k tagged translated cow =>
    if r.sumpOnly && tierOf k != 1 then .trap (r.trap 6 r.kind.aux)
    else if r.needTag && !(tagged && translated) then .trap (r.trap 6 r.kind.aux)
    else if cow && cowExhausted s s.hart.part va then
      .trap { r.trap 6 3 with
              addr := 0, exhausted := (match cowSite s s.hart.part va with | some c => c.eng + 1 | none => 0) }
    else
      let tag := if r.tagged && tagged then tagMismatch s k r.len key else none
      match tag with
      | some h => .trap { r.trap 7 h with key := BitVec.ofNat 4 key }
      | none =>
        let hits := watchHits s r.kind va r.len
        if hits ≠ 0 then .trap (r.trap 10 (BitVec.ofNat 16 hits))
        else
          let at_ := if cow then cowHome s s.hart.part va k else k
          match (if r.plain && detecting s then conflictWith s at_ r.len (r.kind == .write) else none) with
          | some e =>
            let (core, slot) := match findWho s e.who with
              | some h => (coreId s h, h.slot)
              | none => (0, 0)
            let off := match overlap e at_ r.len with | some x => x - at_ | none => 0
            .trap { r.trap 8 (BitVec.ofNat 16 (core + slot * 2 ^ 10 + e.write.toNat * 2 ^ 12)) with
                    addr := BitVec.ofNat 48 (va + off) }
          | none =>
            match (if r.consumes && r.tagged then badByte s k r.len else none) with
            | some i =>
              .trap { r.trap 12 (BitVec.ofNat 16 (tierOf k)) with addr := BitVec.ofNat 48 ((va + i) / 32 * 32) }
            | none => .home k translated cow

/-- Enters a checked plain access in the filter (R58). -/
def enter (r : Req) (k : Nat) (s : State) : State :=
  if r.plain && detecting s then enterFilter k r.len (r.kind == .write) s else s

/-- R332: takes the copy-on-write step of a checked write, if one is due, and answers its home afterwards. -/
def settle (s : State) (r : Req) (k : Nat) (cow : Bool) : State × Nat :=
  if cow then
    let s := cowStep s.hart.part (vaOf r.ptr) s
    match locate s s.hart (vaOf r.ptr) r.kind (r.elem.getD 0) with
    | .home k' .. => (s, k')
    | _ => (s, k)
  else (s, k)

/-- R38: the bytes of a scalar load that the cache answers: all from the core's cached unit, or where it holds none from
their home, so that a load never mixes bytes of two writes of its own size (R60). An observer's scalar load may be answered
so too (R232; log 3). -/
def cachedBytes (s : State) (k n : Nat) : List Byte :=
  match smGet none s.dcache (cacheKey s.hart.core k) with
  | some w => ((leBytes 8 w.toNat).drop (k % 8)).take n
  | none => memBytes s k n

/-- R109, log 3: whether the next scalar load answers from the cache is the state's own choice; it is consumed. -/
def takeHit (s : State) : Bool × State :=
  match s.hits with
  | [] => (false, s)
  | b :: t => (b, { s with hits := t })

/-- Performs a plain scalar load at a checked home (R109). -/
def performLoad (r : Req) (k : Nat) (translated : Bool) (s : State) : State × List Byte :=
  let (hit, s) := if translated then takeHit s else (false, s)
  let bs := if hit then cachedBytes s k r.len else memBytes s k r.len
  (enter r k s, bs)

/-- Performs a store of the strand at a checked home: the home, the core's own cached copies, and the filter. -/
def performStore (r : Req) (k : Nat) (cow : Bool) (bs : List Byte) (s : State) : State :=
  let (s, k) := settle s r k cow
  enter r k (storeBytes k bs s)

/-- Reads bytes at the home, removing cached copies (R109: `lda`, `amo`; R226: `vamo`). -/
def homeBytes (r : Req) (k : Nat) (cow : Bool) (s : State) : State × Nat × List Byte :=
  let (s, k) := settle s r k cow
  let s := cacheRemove s.hart.core k r.len s
  (s, k, memBytes s k r.len)

/-- A stop of a scalar or system word: its trap, or the suspension for its page fault (R108, R247). -/
def stopScalar (c : Check) (s : State) : State :=
  match c with
  | .trap t => trapAt t s
  | .miss m => suspend [m] s.hart.pc 0 false 0 (endConvoy s)
  | .home .. => s

end Sys2Proof.Machine
end

