-- ==== Sys2Proof/Machine/Numbers.lean ====
section
/-!
DEFINITION. Number formats, exact arithmetic and rounding (R177–R185). A value is a NaN, an infinity, or a finite number
known as `mag × 2^exp`, exactly or (when `sticky`) as lying strictly between that and the next multiple of `2^exp`. Every
operation is exact on this form; `roundF` and `fitInt` alone narrow it, once.
-/
namespace Sys2Proof.Machine

/-- A floating-point format (R179): exponent bits, mantissa bits, bias, and whether it has infinities. -/
structure Fmt where
  eb : Nat
  mb : Nat
  bias : Nat
  inf : Bool
  deriving DecidableEq, Repr

/-- R179: f32. -/
def f32 : Fmt := ⟨8, 23, 127, true⟩
/-- R179: bf16. -/
def bf16 : Fmt := ⟨8, 7, 127, true⟩
/-- R179: hf16. -/
def hf16 : Fmt := ⟨5, 10, 15, true⟩
/-- R179: e5m2. -/
def e5m2 : Fmt := ⟨5, 2, 15, true⟩
/-- R179: e4m3, without infinity. -/
def e4m3 : Fmt := ⟨4, 3, 7, false⟩

/-- A number as the operations see it. -/
inductive Num where
  | nan (signalling : Bool)
  | inf (neg : Bool)
  | fin (neg : Bool) (mag : Nat) (exp : Int) (sticky : Bool)
  deriving DecidableEq, Repr

/-- The flag classes of R186, one bit each by index. -/
abbrev Flags := BitVec 8

/-- R186: invalid. -/
def flNV : Flags := 1
/-- R186: division by zero. -/
def flDZ : Flags := 2
/-- R186: overflow. -/
def flOF : Flags := 4
/-- R186: underflow. -/
def flUF : Flags := 8
/-- R186: inexact. -/
def flNX : Flags := 16
/-- R186: saturated. -/
def flSAT : Flags := 32
/-- R186: write past a clamp window's edge. -/
def flEDGE : Flags := 64
/-- R186: guard. -/
def flGRD : Flags := 128

/-- How results are rounded: mode, saturation, flush, and the dither index k of R183. -/
structure Mode where
  rm : Nat
  sat : Bool
  ftz : Bool
  k : Nat
  deriving DecidableEq, Repr

/-- Home-performed arithmetic (R36): nearest even, subnormals kept. -/
def homeMode : Mode := { rm := 0, sat := false, ftz := false, k := 0 }

/-- Number of bits of a natural number. -/
def bitLen (n : Nat) : Nat := if n = 0 then 0 else Nat.log2 n + 1

/-- R179, R180: canonical NaN of a format. -/
def Fmt.nan (f : Fmt) : Nat := if f.inf then (2 ^ (f.eb + 1) - 1) * 2 ^ (f.mb - 1) else 2 ^ (f.eb + f.mb) - 1

/-- Encoding of +∞. -/
def Fmt.infBits (f : Fmt) : Nat := (2 ^ f.eb - 1) * 2 ^ f.mb

/-- R179: largest finite magnitude, as an encoding. -/
def Fmt.maxBits (f : Fmt) : Nat := if f.inf then f.infBits - 1 else 2 ^ (f.eb + f.mb) - 2

/-- The sign bit as a weight. -/
def Fmt.signBit (f : Fmt) (neg : Bool) : Nat := if neg then 2 ^ (f.eb + f.mb) else 0

/-- R185: formats that VCFG.ftz flushes: f32, bf16 and hf16. -/
def Fmt.flushes (f : Fmt) : Bool := decide (f = f32) || decide (f = bf16) || decide (f = hf16)

/-- Least exponent of a unit of the last place. -/
def Fmt.qmin (f : Fmt) : Int := 1 - f.bias - f.mb

/-- R179, R185: reads an encoding; with `ftz` a subnormal of a flushed format reads as zero of its sign. -/
def readF (f : Fmt) (ftz : Bool) (bits : Nat) : Num :=
  let neg := bits / 2 ^ (f.eb + f.mb) % 2 == 1
  let e := bits / 2 ^ f.mb % 2 ^ f.eb
  let m := bits % 2 ^ f.mb
  if !f.inf && e == 2 ^ f.eb - 1 && m == 2 ^ f.mb - 1 then .nan false
  else if f.inf && e == 2 ^ f.eb - 1 then
    if m = 0 then .inf neg else .nan (m / 2 ^ (f.mb - 1) == 0)
  else if e = 0 then
    if ftz && f.flushes then .fin neg 0 0 false else .fin neg m f.qmin false
  else .fin neg (2 ^ f.mb + m) ((e : Int) - f.bias - f.mb) false

/-- R183: bits 0 to `n - 1` of `k` in reverse order. -/
def bitrev : Nat → Nat → Nat
  | 0, _ => 0
  | n + 1, k => k % 2 * 2 ^ n + bitrev n (k / 2)

/-- R183: entry k of the dither table. -/
def dither (k : Nat) : Nat := bitrev 12 (k % 4096) * 16 + k % 16

/-- R181, R183: the multiple of `2^q` that the mode picks for a magnitude, and whether it is inexact. -/
def pickAt (m : Mode) (neg : Bool) (mag : Nat) (exp : Int) (sticky : Bool) (q : Int) : Nat × Bool :=
  if q ≤ exp then (mag * 2 ^ (exp - q).toNat, sticky)
  else
    let d := (q - exp).toNat
    let n := mag / 2 ^ d
    let r := mag % 2 ^ d
    let inexact := r != 0 || sticky
    let up :=
      match m.rm with
      | 0 => decide (2 ^ d < 2 * r) || (2 * r == 2 ^ d && (sticky || n % 2 == 1))
      | 1 => false
      | 2 => neg && inexact
      | 3 => !neg && inexact
      | 4 => decide (2 ^ d ≤ 2 * r)
      | _ => inexact && decide (2 ^ 16 ≤ r * 2 ^ 16 / 2 ^ d + dither m.k)
    (n + up.toNat, inexact)

/-- R184: the value and flags of an overflow. -/
def overflowF (f : Fmt) (m : Mode) (neg : Bool) : Nat × Flags :=
  if m.sat then (f.signBit neg + f.maxBits, flSAT ||| flNX)
  else if !f.inf then (f.nan, flOF ||| flNX)
  else
    let toInf := match m.rm with
      | 1 => false
      | 2 => neg
      | 3 => !neg
      | _ => true
    (f.signBit neg + (if toInf then f.infBits else f.maxBits), flOF ||| flNX)

/-- `round(x)` of R181 to a float format, with overflow (R184) and flushing (R185): the encoding and the flags raised. -/
def roundF (f : Fmt) (m : Mode) (x : Num) : Nat × Flags :=
  match x with
  | .nan _ => (f.nan, 0)
  | .inf neg => if f.inf then (f.signBit neg + f.infBits, 0) else (f.nan, flNV)
  | .fin neg mag exp sticky =>
    if mag = 0 && !sticky then (f.signBit neg, 0)
    else
      let e := exp + bitLen mag - 1
      let q := max (e - f.mb) f.qmin
      let (n, inexact) := pickAt m neg mag exp sticky q
      let raw := (q - f.qmin).toNat * 2 ^ f.mb + n
      let free := pickAt m neg mag exp sticky (e - f.mb)
      let tiny := decide (e < 1 - f.bias) &&
        !(decide (e = -(f.bias : Int)) && decide (2 ^ (f.mb + 1) ≤ free.1))
      if f.maxBits < raw then overflowF f m neg
      else if tiny && m.ftz && f.flushes then (f.signBit neg, flUF ||| flNX)
      else (f.signBit neg + raw,
            (if inexact then flNX else 0) ||| (if tiny && inexact then flUF else 0))

/-- R181 with the integers as grid: the rounded integer and whether it is inexact. -/
def roundInt (m : Mode) (x : Num) : Option (Int × Bool) :=
  match x with
  | .fin neg mag exp sticky =>
    let (n, i) := pickAt m neg mag exp sticky 0
    some ((if neg then -(n : Int) else n), i)
  | _ => none

/-- The exact value of an integer. -/
def ofIntN (z : Int) : Num := .fin (decide (z < 0)) z.natAbs 0 false

/-- Whether a number is a signalling NaN (R180). -/
def Num.snan : Num → Bool
  | .nan s => s
  | _ => false

/-- Whether a number is a NaN. -/
def Num.isNan : Num → Bool
  | .nan _ => true
  | _ => false

/-- The sign of a number that is not a NaN. -/
def Num.neg? : Num → Bool
  | .nan _ => false
  | .inf n => n
  | .fin n _ _ _ => n

/-- Whether a number is zero. -/
def Num.isZero : Num → Bool
  | .fin _ m _ s => m == 0 && !s
  | _ => false

/-- NV of a signalling operand (R180). -/
def snanFlag (xs : List Num) : Flags := if xs.any Num.snan then flNV else 0

/-- The number with its sign inverted. -/
def Num.negate : Num → Num
  | .nan s => .nan s
  | .inf n => .inf (!n)
  | .fin n m e s => .fin (!n) m e s

/-- Exact finite sum. A zero of opposite signs is +0, and -0 under rdn (R181). -/
def addFin (rm : Nat) (n1 : Bool) (m1 : Nat) (e1 : Int) (n2 : Bool) (m2 : Nat) (e2 : Int) : Num :=
  let e := min e1 e2
  let a : Int := (m1 * 2 ^ (e1 - e).toNat : Nat)
  let b : Int := (m2 * 2 ^ (e2 - e).toNat : Nat)
  let z := (if n1 then -a else a) + (if n2 then -b else b)
  if z = 0 then .fin (if m1 = 0 && m2 = 0 && n1 == n2 then n1 else rm == 2) 0 0 false
  else .fin (decide (z < 0)) z.natAbs e false

/-- The exact sum, with the flags of an invalid operation or a signalling operand. -/
def addN (rm : Nat) (x y : Num) : Num × Flags :=
  match x, y with
  | .nan _, _ => (.nan false, snanFlag [x, y])
  | _, .nan _ => (.nan false, snanFlag [x, y])
  | .inf a, .inf b => if a = b then (x, 0) else (.nan false, flNV)
  | .inf _, _ => (x, 0)
  | _, .inf _ => (y, 0)
  | .fin n1 m1 e1 _, .fin n2 m2 e2 _ => (addFin rm n1 m1 e1 n2 m2 e2, 0)

/-- The exact product. -/
def mulN (x y : Num) : Num × Flags :=
  match x, y with
  | .nan _, _ => (.nan false, snanFlag [x, y])
  | _, .nan _ => (.nan false, snanFlag [x, y])
  | .inf a, z => if z.isZero then (.nan false, flNV) else (.inf (a != z.neg?), 0)
  | z, .inf a => if z.isZero then (.nan false, flNV) else (.inf (a != z.neg?), 0)
  | .fin n1 m1 e1 _, .fin n2 m2 e2 _ => (.fin (n1 != n2) (m1 * m2) (e1 + e2) false, 0)

/-- The exact `x × y + z` (R124): 0 × ∞ raises NV even beside a quiet NaN. -/
def fmaN (rm : Nat) (x y z : Num) : Num × Flags :=
  let (p, f) := mulN x y
  let (r, g) := addN rm p z
  (r, f ||| g)

/-- The quotient (R123): finite nonzero over zero is infinite and raises DZ. -/
def divN (x y : Num) : Num × Flags :=
  match x, y with
  | .nan _, _ => (.nan false, snanFlag [x, y])
  | _, .nan _ => (.nan false, snanFlag [x, y])
  | .inf _, .inf _ => (.nan false, flNV)
  | .inf a, .fin b _ _ _ => (.inf (a != b), 0)
  | .fin a _ _ _, .inf b => (.fin (a != b) 0 0 false, 0)
  | .fin a m1 e1 _, .fin b m2 e2 _ =>
    if m2 = 0 then if m1 = 0 then (.nan false, flNV) else (.inf (a != b), flDZ)
    else
      let s := 64 + bitLen m2
      let q := m1 * 2 ^ s / m2
      (.fin (a != b) q (e1 - e2 - s) (m1 * 2 ^ s % m2 != 0), 0)

/-- The largest `r` with `r² ≤ n`, found from bit `i - 1` down. -/
def isqrtFrom (n : Nat) : Nat → Nat → Nat
  | 0, r => r
  | i + 1, r => isqrtFrom n i (if (r + 2 ^ i) * (r + 2 ^ i) ≤ n then r + 2 ^ i else r)

/-- Integer square root. -/
def isqrt (n : Nat) : Nat := isqrtFrom n (bitLen n / 2 + 1) 0

/-- Square root of a positive finite magnitude, to 64 bits and more. -/
def sqrtFin (m : Nat) (e : Int) : Num :=
  let s : Nat := 128 + (if e % 2 = 0 then 0 else 1)
  let n := m * 2 ^ s
  let r := isqrt n
  .fin false r ((e - s) / 2) (r * r != n)

/-- The square root (R123): of -0 it is -0, of a negative number a NaN. -/
def sqrtN (x : Num) : Num × Flags :=
  match x with
  | .nan _ => (.nan false, snanFlag [x])
  | .inf n => if n then (.nan false, flNV) else (x, 0)
  | .fin n m e _ => if m = 0 then (x, 0) else if n then (.nan false, flNV) else (sqrtFin m e, 0)

/-- Compares two numbers that are not NaNs by value: `x < y`. -/
def ltN (x y : Num) : Bool :=
  match x, y with
  | .inf a, .inf b => a && !b
  | .inf a, _ => a
  | _, .inf b => !b
  | .fin n1 m1 e1 _, .fin n2 m2 e2 _ =>
    let e := min e1 e2
    let a : Int := (m1 * 2 ^ (e1 - e).toNat : Nat)
    let b : Int := (m2 * 2 ^ (e2 - e).toNat : Nat)
    decide ((if n1 then -a else a) < (if n2 then -b else b))
  | _, _ => false

/-- Equality of two numbers that are not NaNs: -0 equals +0. -/
def eqN (x y : Num) : Bool := !x.isNan && !y.isNan && !ltN x y && !ltN y x

/-- R123: whether `fmin` takes its first operand, -0 below +0. -/
def minFirst (x y : Num) : Bool := ltN x y || (eqN x y && x.neg?)

/-- R123: whether `fmax` takes its first operand. -/
def maxFirst (x y : Num) : Bool := ltN y x || (eqN x y && !x.neg?)

/-- R178: an integer fitted to `b` bits, signed or not: the bits and the flags. -/
def fitInt (signed : Bool) (b : Nat) (sat : Bool) (z : Int) : Nat × Flags :=
  let lo : Int := if signed then -(2 ^ (b - 1) : Int) else 0
  let hi : Int := if signed then 2 ^ (b - 1) - 1 else 2 ^ b - 1
  let keep (v : Int) : Nat := (v % 2 ^ b).toNat
  if sat && decide (z < lo) then (keep lo, flSAT ||| flNX)
  else if sat && decide (hi < z) then (keep hi, flSAT ||| flNX)
  else (keep z, 0)

/-- R125, R178: a float converted to `b` bits: NaN gives 0, an out-of-range value the nearest limit, both raising NV. -/
def floatToInt (signed : Bool) (b : Nat) (m : Mode) (x : Num) : Nat × Flags :=
  let lo : Int := if signed then -(2 ^ (b - 1) : Int) else 0
  let hi : Int := if signed then 2 ^ (b - 1) - 1 else 2 ^ b - 1
  let keep (v : Int) : Nat := (v % 2 ^ b).toNat
  match x with
  | .nan _ => (0, flNV)
  | .inf n => (keep (if n then lo else hi), flNV)
  | .fin .. =>
    match roundInt m x with
    | some (z, inexact) =>
      if z < lo then (keep lo, flNV) else if hi < z then (keep hi, flNV)
      else (keep z, if inexact then flNX else 0)
    | none => (0, flNV)

/-- A sum at a home (R36): operands and result in format `f`, nearest even, subnormals kept, canonical NaN. -/
def homeAdd (f : Fmt) (a b : Nat) : Nat × Flags :=
  let (x, fl) := addN 0 (readF f false a) (readF f false b)
  let (r, g) := roundF f homeMode x
  (r, fl ||| g)

end Sys2Proof.Machine
end

