-- ==== Sys2Proof/Machine/Flags.lean ====
section
/-!
DEFINITION. How flags merge into VSTAT and FLIX (R186–R188).
-/
namespace Sys2Proof.Machine

open Sys2Proof

/-- R188: flags merge into VSTAT alone: scalar forms. -/
def addFlags (f : Flags) (s : State) : State :=
  withCtrl s { s.hart.ctrl with vstat := s.hart.ctrl.vstat ||| f.setWidth 64 }

/-- R187: FLIX with v set and the element. -/
def flixValue (e : Nat) : Word := BitVec.ofNat 64 (2 ^ 63 + e % 2048)

/-- R188: for one issue, writes FLIX of each class with the lowest element that raised it. `raised` lists elements with
their flags in ascending order. -/
def flixOf (raised : List (Nat × Flags)) (old : Vector Word 8) : Vector Word 8 :=
  Vector.ofFn (fun i : Fin 8 =>
    match raised.find? (fun r => r.2.getLsbD i.val) with
    | some r => flixValue r.1
    | none => old[i])

/-- R188: merges the flags of the committed elements of one issue of one member. -/
def mergeFlags (raised : List (Nat × Flags)) (s : State) : State :=
  let all := raised.foldl (fun a r => a ||| r.2) (0 : Flags)
  withCtrl s { s.hart.ctrl with
    vstat := s.hart.ctrl.vstat ||| all.setWidth 64
    flix := flixOf raised s.hart.ctrl.flix }

/-- R42: flags of a strand's asynchronous work, credited to it with the element the work names. -/
def creditFlags (f : Flags) (e : Nat) (h : Strand) : Strand :=
  { h with ctrl := { h.ctrl with
      vstat := h.ctrl.vstat ||| f.setWidth 64
      flix := flixOf [(e, f)] h.ctrl.flix } }

end Sys2Proof.Machine
end

