-- ==== Sys2Proof/Machine/Scalar.lean ====
section
/-!
DEFINITION. Integer arithmetic, control flow and memory access of the scalar unit (R106–R122).
-/
namespace Sys2Proof.Machine

open Sys2Proof

/-- 1 or 0 as a register value. -/
def ofFlag (b : Bool) : Word := if b then 1 else 0

/-- `add`, R111. -/
def execAdd (gd ga gb : Reg) (s : State) : Res :=
  let a := readG s ga
  let b := readG s gb
  finishG gd (a + b) s

/-- `sub`, R111. -/
def execSub (gd ga gb : Reg) (s : State) : Res :=
  let a := readG s ga
  let b := readG s gb
  finishG gd (a - b) s

/-- `and`, R111. -/
def execAnd (gd ga gb : Reg) (s : State) : Res :=
  let a := readG s ga
  let b := readG s gb
  finishG gd (a &&& b) s

/-- `or`, R111. -/
def execOr (gd ga gb : Reg) (s : State) : Res :=
  let a := readG s ga
  let b := readG s gb
  finishG gd (a ||| b) s

/-- `xor`, R111. -/
def execXor (gd ga gb : Reg) (s : State) : Res :=
  let a := readG s ga
  let b := readG s gb
  finishG gd (a ^^^ b) s

/-- `andn`, R111. -/
def execAndn (gd ga gb : Reg) (s : State) : Res :=
  let a := readG s ga
  let b := readG s gb
  finishG gd (a &&& ~~~b) s

/-- `sll`, R111. -/
def execSll (gd ga gb : Reg) (s : State) : Res :=
  let a := readG s ga
  let b := readG s gb
  finishG gd (a <<< (b.toNat % 64)) s

/-- `srl`, R111. -/
def execSrl (gd ga gb : Reg) (s : State) : Res :=
  let a := readG s ga
  let b := readG s gb
  finishG gd (a >>> (b.toNat % 64)) s

/-- `sra`, R111. -/
def execSra (gd ga gb : Reg) (s : State) : Res :=
  let a := readG s ga
  let b := readG s gb
  finishG gd (a.sshiftRight (b.toNat % 64)) s

/-- `rol`, R111. -/
def execRol (gd ga gb : Reg) (s : State) : Res :=
  let a := readG s ga
  let b := readG s gb
  finishG gd (a.rotateLeft (b.toNat % 64)) s

/-- `slt`, R111. -/
def execSlt (gd ga gb : Reg) (s : State) : Res :=
  let a := readG s ga
  let b := readG s gb
  finishG gd (ofFlag (a.slt b)) s

/-- `sltn`, R111. -/
def execSltn (gd ga gb : Reg) (s : State) : Res :=
  let a := readG s ga
  let b := readG s gb
  finishG gd (ofFlag (a.ult b)) s

/-- `min`, R111. -/
def execMin (gd ga gb : Reg) (s : State) : Res :=
  let a := readG s ga
  let b := readG s gb
  finishG gd (if a.slt b then a else b) s

/-- `max`, R111. -/
def execMax (gd ga gb : Reg) (s : State) : Res :=
  let a := readG s ga
  let b := readG s gb
  finishG gd (if a.slt b then b else a) s

/-- `minn`, R111. -/
def execMinn (gd ga gb : Reg) (s : State) : Res :=
  let a := readG s ga
  let b := readG s gb
  finishG gd (if a.ult b then a else b) s

/-- `maxn`, R111. -/
def execMaxn (gd ga gb : Reg) (s : State) : Res :=
  let a := readG s ga
  let b := readG s gb
  finishG gd (if a.ult b then b else a) s

/-- `addw`, R111. -/
def execAddw (gd ga gb : Reg) (s : State) : Res :=
  let a := readG s ga
  let b := readG s gb
  finishG gd (((a + b).setWidth 32).signExtend 64) s

/-- `subw`, R111. -/
def execSubw (gd ga gb : Reg) (s : State) : Res :=
  let a := readG s ga
  let b := readG s gb
  finishG gd (((a - b).setWidth 32).signExtend 64) s

/-- `mul`, R112. -/
def execMul (gd ga gb : Reg) (s : State) : Res :=
  let a := readG s ga
  let b := readG s gb
  finishG gd (a * b) s

/-- `mulh`, R112. -/
def execMulh (gd ga gb : Reg) (s : State) : Res :=
  let a := readG s ga
  let b := readG s gb
  finishG gd (BitVec.ofInt 64 (a.toInt * b.toInt / 2 ^ 64)) s

/-- `mulhn`, R112. -/
def execMulhn (gd ga gb : Reg) (s : State) : Res :=
  let a := readG s ga
  let b := readG s gb
  finishG gd (BitVec.ofNat 64 (a.toNat * b.toNat / 2 ^ 64)) s

/-- `div`, R112. -/
def execDiv (gd ga gb : Reg) (s : State) : Res :=
  let a := readG s ga
  let b := readG s gb
  finishG gd (if b = 0 then BitVec.allOnes 64 else a.sdiv b) s

/-- `divn`, R112. -/
def execDivn (gd ga gb : Reg) (s : State) : Res :=
  let a := readG s ga
  let b := readG s gb
  finishG gd (if b = 0 then BitVec.allOnes 64 else a / b) s

/-- `rem`, R112. -/
def execRem (gd ga gb : Reg) (s : State) : Res :=
  let a := readG s ga
  let b := readG s gb
  finishG gd (if b = 0 then a else a.srem b) s

/-- `remn`, R112. -/
def execRemn (gd ga gb : Reg) (s : State) : Res :=
  let a := readG s ga
  let b := readG s gb
  finishG gd (if b = 0 then a else a % b) s

/-- Bits set among the low `n` of a word (R113). -/
def popCount (a : Word) : Nat → Nat
  | 0 => 0
  | n + 1 => popCount a n + (a.getLsbD n).toNat

/-- Zero bits from bit `n - 1` of a word down (R113). -/
def leadZeros (a : Word) : Nat → Nat
  | 0 => 0
  | n + 1 => if a.getLsbD n then 0 else leadZeros a n + 1

/-- Zero bits from bit `64 - n` of a word up (R113). -/
def trailZeros (a : Word) : Nat → Nat
  | 0 => 0
  | n + 1 => if a.getLsbD (63 - n) then 0 else trailZeros a n + 1

/-- A word with its bytes in reverse order (R113). -/
def byteSwap (a : Word) : Word := BitVec.ofNat 64 (leNat (leBytes 8 a.toNat).reverse)

/-- `clz`, R113. -/
def execClz (gd ga : Reg) (s : State) : Res :=
  let a := readG s ga
  finishG gd (BitVec.ofNat 64 (leadZeros a 64)) s

/-- `ctz`, R113. -/
def execCtz (gd ga : Reg) (s : State) : Res :=
  let a := readG s ga
  finishG gd (BitVec.ofNat 64 (trailZeros a 64)) s

/-- `popc`, R113. -/
def execPopc (gd ga : Reg) (s : State) : Res :=
  let a := readG s ga
  finishG gd (BitVec.ofNat 64 (popCount a 64)) s

/-- `sextb`, R113. -/
def execSextb (gd ga : Reg) (s : State) : Res :=
  let a := readG s ga
  finishG gd ((a.setWidth 8).signExtend 64) s

/-- `sexth`, R113. -/
def execSexth (gd ga : Reg) (s : State) : Res :=
  let a := readG s ga
  finishG gd ((a.setWidth 16).signExtend 64) s

/-- `sextw`, R113. -/
def execSextw (gd ga : Reg) (s : State) : Res :=
  let a := readG s ga
  finishG gd ((a.setWidth 32).signExtend 64) s

/-- `zextb`, R113. -/
def execZextb (gd ga : Reg) (s : State) : Res :=
  let a := readG s ga
  finishG gd ((a.setWidth 8).setWidth 64) s

/-- `zexth`, R113. -/
def execZexth (gd ga : Reg) (s : State) : Res :=
  let a := readG s ga
  finishG gd ((a.setWidth 16).setWidth 64) s

/-- `zextw`, R113. -/
def execZextw (gd ga : Reg) (s : State) : Res :=
  let a := readG s ga
  finishG gd ((a.setWidth 32).setWidth 64) s

/-- `bswap`, R113. -/
def execBswap (gd ga : Reg) (s : State) : Res :=
  let a := readG s ga
  finishG gd (byteSwap a) s

/-- `addi`, R114. -/
def execAddi (gd ga : Reg) (imm : BitVec 15) (s : State) : Res :=
  let a := readG s ga
  finishG gd (a + imm.signExtend 64) s

/-- `andi`, R114. -/
def execAndi (gd ga : Reg) (imm : BitVec 15) (s : State) : Res :=
  let a := readG s ga
  finishG gd (a &&& imm.setWidth 64) s

/-- `ori`, R114. -/
def execOri (gd ga : Reg) (imm : BitVec 15) (s : State) : Res :=
  let a := readG s ga
  finishG gd (a ||| imm.setWidth 64) s

/-- `xori`, R114. -/
def execXori (gd ga : Reg) (imm : BitVec 15) (s : State) : Res :=
  let a := readG s ga
  finishG gd (a ^^^ imm.setWidth 64) s

/-- `slti`, R114. -/
def execSlti (gd ga : Reg) (imm : BitVec 15) (s : State) : Res :=
  let a := readG s ga
  finishG gd (ofFlag (a.slt (imm.signExtend 64))) s

/-- `sltni`, R114. -/
def execSltni (gd ga : Reg) (imm : BitVec 15) (s : State) : Res :=
  let a := readG s ga
  finishG gd (ofFlag (a.ult (imm.signExtend 64))) s

/-- `slli`, R115. -/
def execSlli (gd ga : Reg) (sh : BitVec 6) (s : State) : Res :=
  let a := readG s ga
  finishG gd (a <<< sh.toNat) s

/-- `srli`, R115. -/
def execSrli (gd ga : Reg) (sh : BitVec 6) (s : State) : Res :=
  let a := readG s ga
  finishG gd (a >>> sh.toNat) s

/-- `srai`, R115. -/
def execSrai (gd ga : Reg) (sh : BitVec 6) (s : State) : Res :=
  let a := readG s ga
  finishG gd (a.sshiftRight sh.toNat) s

/-- `roli`, R115. -/
def execRoli (gd ga : Reg) (sh : BitVec 6) (s : State) : Res :=
  let a := readG s ga
  finishG gd (a.rotateLeft sh.toNat) s

/-- `lih`, R116. -/
def execLih (gd : Reg) (imm : BitVec 20) (s : State) : Res := finishG gd (imm.signExtend 64 <<< 12) s

/-- `pcadd`, R116: the address is that of the `pcadd` itself. -/
def execPcadd (gd : Reg) (imm : BitVec 20) (s : State) : Res :=
  finishG gd (s.hart.pc.setWidth 64 + (imm.signExtend 64 <<< 12)) s

/-- A scalar access of `n` bytes at a pointer (R108): aligned to `n`. -/
def scalarReq (kind : Kind) (ptr : Word) (n : Nat) (plain : Bool) : Req :=
  { kind := kind, ptr := ptr, len := n, align := n, plain := plain, consumes := kind != .write }

/-- The register value of `n` bytes loaded, sign-extended or not (R117). -/
def extendLoad (signed : Bool) (n : Nat) (bs : List Byte) : Word :=
  if signed then ofInt (sextN (8 * n) (leNat bs)) else BitVec.ofNat 64 (leNat bs)

/-- `ld` of one size (R117). -/
def loadSz (n : Nat) (signed : Bool) (gd ga : Reg) (off : BitVec 12) (s : State) : Res :=
  let r := scalarReq .read (readG s ga + off.signExtend 64) n true
  match check s r with
  | .home k translated _ =>
    let (s, bs) := performLoad r k translated s
    finishG gd (extendLoad signed n bs) s
  | c => .next (stopScalar c s)

/-- `st` of one size (R118). -/
def storeSz (n : Nat) (gs ga : Reg) (off : BitVec 12) (s : State) : Res :=
  let r := scalarReq .write (readG s ga + off.signExtend 64) n true
  match check s r with
  | .home k _ cow => finish (performStore r k cow (leBytes n (readG s gs).toNat) s)
  | c => .next (stopScalar c s)

/-- `ld`, R117: 1 bytes, sign-extended. -/
def execLdB (gd ga : Reg) (off : BitVec 12) (s : State) : Res := loadSz 1 true gd ga off s

/-- `ld`, R117: 1 bytes. -/
def execLdBn (gd ga : Reg) (off : BitVec 12) (s : State) : Res := loadSz 1 false gd ga off s

/-- `ld`, R117: 2 bytes, sign-extended. -/
def execLdH (gd ga : Reg) (off : BitVec 12) (s : State) : Res := loadSz 2 true gd ga off s

/-- `ld`, R117: 2 bytes. -/
def execLdHn (gd ga : Reg) (off : BitVec 12) (s : State) : Res := loadSz 2 false gd ga off s

/-- `ld`, R117: 4 bytes, sign-extended. -/
def execLdW (gd ga : Reg) (off : BitVec 12) (s : State) : Res := loadSz 4 true gd ga off s

/-- `ld`, R117: 4 bytes. -/
def execLdWn (gd ga : Reg) (off : BitVec 12) (s : State) : Res := loadSz 4 false gd ga off s

/-- `ld`, R117: 8 bytes. -/
def execLdD (gd ga : Reg) (off : BitVec 12) (s : State) : Res := loadSz 8 false gd ga off s

/-- `st`, R118: 1 bytes. -/
def execStB (gs ga : Reg) (off : BitVec 12) (s : State) : Res := storeSz 1 gs ga off s

/-- `st`, R118: 2 bytes. -/
def execStH (gs ga : Reg) (off : BitVec 12) (s : State) : Res := storeSz 2 gs ga off s

/-- `st`, R118: 4 bytes. -/
def execStW (gs ga : Reg) (off : BitVec 12) (s : State) : Res := storeSz 4 gs ga off s

/-- `st`, R118: 8 bytes. -/
def execStD (gs ga : Reg) (off : BitVec 12) (s : State) : Res := storeSz 8 gs ga off s

/-- Bytes of a load size code of R117, and whether it sign-extends; none for a code that is ILLEGAL. -/
def sizeOfCode (sz : BitVec 3) : Option (Nat × Bool) :=
  match sz.toNat with
  | 0 => some (1, true)
  | 1 => some (1, false)
  | 2 => some (2, true)
  | 3 => some (2, false)
  | 4 => some (4, true)
  | 5 => some (4, false)
  | 6 => some (8, false)
  | _ => none

/-- `lda`, R119: a load performed at its home, an acquire at its scope. -/
def execLda (gd ga : Reg) (sz scope : BitVec 3) (off : BitVec 9) (s : State) : Res :=
  match sizeOfCode sz with
  | none => .next (trapAt (wordTrap (.lda gd ga sz scope off) 1 0) s)
  | some (n, signed) =>
    if 4 < scope.toNat then .next (trapAt (wordTrap (.lda gd ga sz scope off) 1 0) s)
    else
      let r := scalarReq .read (readG s ga + off.signExtend 64) n false
      match check s r with
      | .home k _ _ =>
        let (s, _, bs) := homeBytes r k false s
        finishG gd (extendLoad signed n bs) (acquire scope s)
      | c => .next (stopScalar c s)

/-- `stl`, R119: a store performed at its home, a release at its scope. -/
def execStl (gs ga : Reg) (sz scope : BitVec 3) (off : BitVec 9) (s : State) : Res :=
  match (if sz.toNat % 2 = 0 then sizeOfCode sz else none) with
  | none => .next (trapAt (wordTrap (.stl gs ga sz scope off) 1 0) s)
  | some (n, _) =>
    if 4 < scope.toNat then .next (trapAt (wordTrap (.stl gs ga sz scope off) 1 0) s)
    else
      let r := scalarReq .write (readG s ga + off.signExtend 64) n false
      match check s r with
      | .home k _ cow =>
        let (s', k, _) := homeBytes r k cow (release s)
        finish (memPut s' k (leBytes n (readG s gs).toNat))
      | c => .next (stopScalar c s)

/-- R120: the value an atomic writes, from the old value, the operand and the compare value (all below 2^m), or none for a
`cas` that does not hold; and the flags of `fadd`. None outside the table. -/
def amoNew (op m old b cmp : Nat) : Option (Option Nat × Flags) :=
  match op with
  | 0 => some (some b, 0)
  | 1 => some (some ((old + b) % 2 ^ m), 0)
  | 2 => some (some (old &&& b), 0)
  | 3 => some (some (old ||| b), 0)
  | 4 => some (some (old ^^^ b), 0)
  | 5 => some (some (if sextN m old < sextN m b then old else b), 0)
  | 6 => some (some (if sextN m old < sextN m b then b else old), 0)
  | 7 => some (some (Nat.min old b), 0)
  | 8 => some (some (Nat.max old b), 0)
  | 9 => some (if old = cmp then some b else none, 0)
  | 10 => if m = 32 then (let (r, f) := homeAdd f32 old b; some (some r, f)) else none
  | _ => none

/-- `amo`, R120: indivisible at its home; the order's release comes before it and the acquire after it. -/
def execAmo (gd ga gb : Reg) (op : BitVec 4) (order : BitVec 2) (scope : BitVec 3) (sz : BitVec 1) (s : State) : Res :=
  let n := if sz = 0 then 4 else 8
  let m := 8 * n
  let b := (readG s gb).toNat % 2 ^ m
  let cmp := (readG s gd).toNat % 2 ^ m
  if 10 < op.toNat ∨ 4 < scope.toNat ∨ (op = 10 ∧ sz = 1) then
    .next (trapAt (wordTrap (.amo gd ga gb op order scope sz) 1 0) s)
  else
    let r := scalarReq .atomic (readG s ga) n false
    match check s r with
    | .home k _ cow =>
      let s := if order.getLsbD 1 then release s else s
      let (s, k, bs) := homeBytes r k cow s
      let old := leNat bs
      match amoNew op.toNat m old b cmp with
      | none => .next (trapAt (wordTrap (.amo gd ga gb op order scope sz) 1 0) s)
      | some (new, fl) =>
        let s := match new with | some v => memPut s k (leBytes n v) | none => s
        let s := if order.getLsbD 0 then acquire scope s else s
        finishG gd (ofInt (sextN m old)) (addFlags fl s)
    | c => .next (stopScalar c s)

/-- R121: a branch, taken to `P + 4 × off` or not. -/
def branch (taken : Bool) (off : BitVec 12) (s : State) : Res :=
  .next (jumpTo (endConvoy s) (if taken then s.hart.pc + (off.signExtend 48 <<< 2) else s.hart.pc + 4))

/-- `br`, R121. -/
def execBrEq (ga gb : Reg) (off : BitVec 12) (s : State) : Res :=
  let a := readG s ga
  let b := readG s gb
  branch (a == b) off s

/-- `br`, R121. -/
def execBrNe (ga gb : Reg) (off : BitVec 12) (s : State) : Res :=
  let a := readG s ga
  let b := readG s gb
  branch (a != b) off s

/-- `br`, R121. -/
def execBrLt (ga gb : Reg) (off : BitVec 12) (s : State) : Res :=
  let a := readG s ga
  let b := readG s gb
  branch (a.slt b) off s

/-- `br`, R121. -/
def execBrGe (ga gb : Reg) (off : BitVec 12) (s : State) : Res :=
  let a := readG s ga
  let b := readG s gb
  branch (!a.slt b) off s

/-- `br`, R121. -/
def execBrLtn (ga gb : Reg) (off : BitVec 12) (s : State) : Res :=
  let a := readG s ga
  let b := readG s gb
  branch (a.ult b) off s

/-- `br`, R121. -/
def execBrGen (ga gb : Reg) (off : BitVec 12) (s : State) : Res :=
  let a := readG s ga
  let b := readG s gb
  branch (!a.ult b) off s

/-- `jal`, R122. -/
def execJal (gd : Reg) (off : BitVec 20) (s : State) : Res :=
  .next (jumpTo (endConvoy (writeG s gd (s.hart.pc.setWidth 64 + 4))) (s.hart.pc + (off.signExtend 48 <<< 2)))

/-- `jalr`, R122: a misaligned target traps ALIGN, one above the 48-bit space PROT, and gd is not written. -/
def execJalr (gd ga : Reg) (imm : BitVec 15) (s : State) : Res :=
  let t := readG s ga + imm.signExtend 64
  if t.extractLsb' 0 2 != 0 then .next (trapAt { cause := 5, aux := 2, addr := t.setWidth 48 } s)
  else if t.extractLsb' 48 16 != 0 then .next (trapAt { cause := 6, aux := 2, addr := t.setWidth 48 } s)
  else .next (jumpTo (endConvoy (writeG s gd (s.hart.pc.setWidth 64 + 4))) (t.setWidth 48))

end Sys2Proof.Machine
end

