-- ==== Sys2Proof/Machine/Float.lean ====
section
/-!
DEFINITION. Scalar floating point (R110, R123–R126): f32 in bits [31:0] and bf16 in bits [15:0] of a register.
-/
namespace Sys2Proof.Machine

open Sys2Proof

/-- R110: rounding of a scalar form: VCFG.rm with sr as rne, ftz, never sat. -/
def scalarMode (s : State) : Mode :=
  { rm := if vcfgRm s = 5 then 0 else vcfgRm s, sat := false, ftz := vcfgFtz s, k := 0 }

/-- The f32 operand of a register (R110, R185). -/
def readF32 (s : State) (r : Reg) : Num := readF f32 (vcfgFtz s) ((readG s r).toNat % 2 ^ 32)

/-- Rounds a value to f32 and completes the instruction with it and its flags (R110). -/
def finishF32 (gd : Reg) (x : Num × Flags) (s : State) : Res :=
  let (bits, f) := roundF f32 (scalarMode s) x.1
  finishG gd (BitVec.ofNat 64 bits) (addFlags (x.2 ||| f) s)

/-- `fadd`, R123. -/
def execFadd (gd ga gb : Reg) (s : State) : Res :=
  finishF32 gd (addN (scalarMode s).rm (readF32 s ga) (readF32 s gb)) s

/-- `fsub`, R123. -/
def execFsub (gd ga gb : Reg) (s : State) : Res :=
  finishF32 gd (addN (scalarMode s).rm (readF32 s ga) (readF32 s gb).negate) s

/-- `fmul`, R123. -/
def execFmul (gd ga gb : Reg) (s : State) : Res := finishF32 gd (mulN (readF32 s ga) (readF32 s gb)) s

/-- `fdiv`, R123. -/
def execFdiv (gd ga gb : Reg) (s : State) : Res := finishF32 gd (divN (readF32 s ga) (readF32 s gb)) s

/-- `fsqrt`, R123. -/
def execFsqrt (gd ga : Reg) (s : State) : Res := finishF32 gd (sqrtN (readF32 s ga)) s

/-- R123: the lesser or greater of two numbers; a NaN yields the other operand. -/
def pickN (first : Num → Num → Bool) (x y : Num) : Num × Flags :=
  (if x.isNan then (if y.isNan then .nan false else y)
   else if y.isNan then x else if first x y then x else y, snanFlag [x, y])

/-- `fmin`, R123. -/
def execFmin (gd ga gb : Reg) (s : State) : Res := finishF32 gd (pickN minFirst (readF32 s ga) (readF32 s gb)) s

/-- `fmax`, R123. -/
def execFmax (gd ga gb : Reg) (s : State) : Res := finishF32 gd (pickN maxFirst (readF32 s ga) (readF32 s gb)) s

/-- R123: x[30:0] with a given sign. -/
def withSign (x : Word) (neg : Bool) : Word :=
  BitVec.ofNat 64 (x.toNat % 2 ^ 31 + if neg then 2 ^ 31 else 0)

/-- `fsgnj`, R123: a bit operation. -/
def execFsgnj (gd ga gb : Reg) (s : State) : Res :=
  finishG gd (withSign (readG s ga) (bitW (readG s gb) 31)) s

/-- `fsgnjn`, R123. -/
def execFsgnjn (gd ga gb : Reg) (s : State) : Res :=
  finishG gd (withSign (readG s ga) (!bitW (readG s gb) 31)) s

/-- `fsgnjx`, R123. -/
def execFsgnjx (gd ga gb : Reg) (s : State) : Res :=
  finishG gd (withSign (readG s ga) (bitW (readG s ga) 31 != bitW (readG s gb) 31)) s

/-- R124: `±(x × y) ± z`, rounded once. -/
def fused (negProd negAdd : Bool) (gd ga gb gc : Reg) (s : State) : Res :=
  let x := if negProd then (readF32 s ga).negate else readF32 s ga
  let z := if negAdd then (readF32 s gc).negate else readF32 s gc
  finishF32 gd (let r := fmaN (scalarMode s).rm x (readF32 s gb) z
                (r.1, r.2 ||| snanFlag [x, readF32 s gb, z])) s

/-- `fmadd`, R124. -/
def execFmadd (gd ga gb gc : Reg) (s : State) : Res := fused false false gd ga gb gc s

/-- `fmsub`, R124. -/
def execFmsub (gd ga gb gc : Reg) (s : State) : Res := fused false true gd ga gb gc s

/-- `fnmadd`, R124. -/
def execFnmadd (gd ga gb gc : Reg) (s : State) : Res := fused true true gd ga gb gc s

/-- `fnmsub`, R124. -/
def execFnmsub (gd ga gb gc : Reg) (s : State) : Res := fused true false gd ga gb gc s

/-- `fcvt.f32.i32`, R125. -/
def execFcvtF32I32 (gd ga : Reg) (s : State) : Res := finishF32 gd (ofIntN (sextN 32 (readG s ga).toNat), 0) s

/-- `fcvt.f32.n32`, R125. -/
def execFcvtF32N32 (gd ga : Reg) (s : State) : Res :=
  finishF32 gd (ofIntN ((readG s ga).toNat % 2 ^ 32 : Nat), 0) s

/-- `fcvt.f32.i64`, R125. -/
def execFcvtF32I64 (gd ga : Reg) (s : State) : Res := finishF32 gd (ofIntN (readG s ga).toInt, 0) s

/-- `fcvt.f32.n64`, R125. -/
def execFcvtF32N64 (gd ga : Reg) (s : State) : Res := finishF32 gd (ofIntN ((readG s ga).toNat : Nat), 0) s

/-- R125: an f32 converted to `b` bits, completing the instruction; a signed result is sign-extended. -/
def finishInt (signed : Bool) (b : Nat) (gd ga : Reg) (s : State) : Res :=
  let (v, f) := floatToInt signed b (scalarMode s) (readF32 s ga)
  finishG gd (if signed then ofInt (sextN b v) else BitVec.ofNat 64 v) (addFlags f s)

/-- `fcvt.i32.f32`, R125. -/
def execFcvtI32F32 (gd ga : Reg) (s : State) : Res := finishInt true 32 gd ga s

/-- `fcvt.n32.f32`, R125. -/
def execFcvtN32F32 (gd ga : Reg) (s : State) : Res := finishInt false 32 gd ga s

/-- `fcvt.i64.f32`, R125. -/
def execFcvtI64F32 (gd ga : Reg) (s : State) : Res := finishInt true 64 gd ga s

/-- `fcvt.n64.f32`, R125. -/
def execFcvtN64F32 (gd ga : Reg) (s : State) : Res := finishInt false 64 gd ga s

/-- `fcvt.bf16.f32`, R125. -/
def execFcvtBf16F32 (gd ga : Reg) (s : State) : Res :=
  let x := readF32 s ga
  let (bits, f) := roundF bf16 (scalarMode s) x
  finishG gd (BitVec.ofNat 64 bits) (addFlags (f ||| snanFlag [x]) s)

/-- `fcvt.f32.bf16`, R125: exact. -/
def execFcvtF32Bf16 (gd ga : Reg) (s : State) : Res :=
  let x := readF bf16 (vcfgFtz s) ((readG s ga).toNat % 2 ^ 16)
  finishG gd (BitVec.ofNat 64 (roundF f32 homeMode x).1) (addFlags (snanFlag [x]) s)

/-- `feq`, R126: NV for a signalling NaN only. -/
def execFeq (gd ga gb : Reg) (s : State) : Res :=
  let x := readF32 s ga
  let y := readF32 s gb
  finishG gd (ofFlag (eqN x y)) (addFlags (snanFlag [x, y]) s)

/-- `flt`, R126: NV for any NaN. -/
def execFlt (gd ga gb : Reg) (s : State) : Res :=
  let x := readF32 s ga
  let y := readF32 s gb
  finishG gd (ofFlag (!x.isNan && !y.isNan && ltN x y)) (addFlags (if x.isNan || y.isNan then flNV else 0) s)

/-- `fle`, R126: NV for any NaN. -/
def execFle (gd ga gb : Reg) (s : State) : Res :=
  let x := readF32 s ga
  let y := readF32 s gb
  finishG gd (ofFlag (!x.isNan && !y.isNan && !ltN y x)) (addFlags (if x.isNan || y.isNan then flNV else 0) s)

/-- R126: the bit of a class. -/
def classBit (x : Num) (subnormal : Bool) : Nat :=
  match x with
  | .nan sig => if sig then 8 else 9
  | .inf neg => if neg then 0 else 7
  | .fin neg m _ _ =>
    if m = 0 then (if neg then 3 else 4)
    else if subnormal then (if neg then 2 else 5) else (if neg then 1 else 6)

/-- `fclass`, R126: ignores ftz; a signalling NaN raises NV (R110). -/
def execFclass (gd ga : Reg) (s : State) : Res :=
  let b := (readG s ga).toNat % 2 ^ 32
  let x := readF f32 false b
  finishG gd (BitVec.ofNat 64 (2 ^ classBit x (b / 2 ^ 23 % 256 == 0))) (addFlags (snanFlag [x]) s)

end Sys2Proof.Machine
end

