-- ==== Sys2Proof/Machine/Special.lean ====
section
/-!
DEFINITION. Control registers (R100, R127, R396), mask words (R128) and the taking of strips (R96, R129).
-/
namespace Sys2Proof.Machine

open Sys2Proof

/-- Channel `n mod 4` of the strand. -/
def chanAt (h : Strand) (n : Nat) : Chan := h.chans[n % 4]'(Nat.mod_lt n (by decide))

/-- R100, R102, R103, R127: the value of a control register. -/
def readCR (s : State) (n : Nat) : Word :=
  let h := s.hart
  let c := h.ctrl
  if n = 0x000 then c.vcfg
  else if n = 0x001 then c.vstat
  else if 0x008 ≤ n ∧ n ≤ 0x00F then c.flix[n % 8]'(Nat.mod_lt n (by decide))
  else if n = 0x010 then c.stidx
  else if n = 0x011 then c.epc
  else if n = 0x012 then c.ecause
  else if n = 0x013 then c.einfo
  else if n = 0x014 then c.tvec
  else if n = 0x018 then c.stripBase
  else if n = 0x019 then c.stripLen
  else if n = 0x01A then BitVec.ofNat 64 (h.part % 32 * 2 ^ 32 + h.serial % 2 ^ 32)
  else if n = 0x01B then BitVec.ofNat 64 (h.slot % 4 * 2 ^ 11 + h.index % 2048)
  else if n = 0x01C then BitVec.ofNat 64 (coreId s h)
  else if n = 0x020 then BitVec.ofNat 64 h.seam.grant
  else if n = 0x021 then h.seam.gw.setWidth 64
  else if n = 0x022 then c.sadp
  else if n = 0x023 then h.seam.bound0
  else if n = 0x024 then h.seam.bound1
  else if n = 0x028 then c.vloss
  else if 0x030 ≤ n ∧ n ≤ 0x033 then (chanAt h n).dwp
  else if 0x034 ≤ n ∧ n ≤ 0x037 then (chanAt h n).dlen
  else if n = 0x040 then c.obs
  else if 0x050 ≤ n ∧ n ≤ 0x057 then c.watch[n % 8]'(Nat.mod_lt n (by decide))
  else if n = 0x060 then cycleOf s (dieOf h.core)
  else if n = 0x070 then c.recctl
  else if n = 0x071 then c.recbase
  else if n = 0x072 then c.rechead
  else if n = 0x073 then c.reclost
  else if 0x078 ≤ n ∧ n ≤ 0x07B then c.pmsel[n % 4]'(Nat.mod_lt n (by decide))
  else if 0x07C ≤ n ∧ n ≤ 0x07F then c.pmc[n % 4]'(Nat.mod_lt n (by decide))
  else 0

/-- R127: the value of a write fails R101, R397 or R404 and traps ILLEGAL. -/
def badCrValue (n : Nat) (v : Word) : Bool :=
  (n == 0x000 && (decide (2048 < bitsW v 0 12) || decide (5 < bitsW v 12 3) || decide (4 < bitsW v 17 3))) ||
  (n == 0x070 && (decide (20 < bitsW v 11 5) || (bitW v 1 && decide (bitsW v 6 5 < 4)))) ||
  (decide (0x078 ≤ n) && decide (n ≤ 0x07B) && decide (17 < bitsW v 0 8))

/-- R17, R18, R127: writes the RW fields of a control register; RO and reserved fields keep. A write of EPC empties kd and
clears STIDX.sa (R153), and with it what else stands of the stopped convoy; one of SADP with flush drops the partition's adapter lines (R289). -/
def writeCR (n : Nat) (v : Word) (s : State) : State :=
  let c := s.hart.ctrl
  if n = 0x000 then withCtrl s { c with vcfg := v &&& 0x3F_FFFF }
  else if n = 0x001 then withCtrl s { c with vstat := v &&& 0xFF }
  else if 0x008 ≤ n ∧ n ≤ 0x00F then
    withCtrl s { c with flix := c.flix.set (n % 8) (v &&& 0x8000_0000_0000_07FF) (Nat.mod_lt n (by decide)) }
  else if n = 0x010 then withCtrl s { c with stidx := v &&& 0xFFF }
  else if n = 0x011 then
    withCtrl { s with hart := { s.hart with kd := 0, stands := [] } }
      { c with epc := v &&& 0xFFFF_FFFF_FFFC, stidx := c.stidx &&& ~~~0x800 }
  else if n = 0x012 then withCtrl s { c with ecause := v &&& 0xF_FFFF_01FF }
  else if n = 0x013 then withCtrl s { c with einfo := v &&& ~~~0x800 }
  else if n = 0x014 then withCtrl s { c with tvec := v &&& 0xFFFF_FFFF_FFFC }
  else if n = 0x022 then
    let s := if bitW v 0 then
        { s with adapter := smDrop ((gangOf s.hart.core * 32 + s.hart.part) * 2 ^ 41) (2 ^ 41) s.adapter } else s
    withCtrl s { c with sadp := v &&& 0xF000_FFFF_FFFF_FFF8 }
  else if n = 0x028 then withCtrl s { c with vloss := v &&& 0xFFFF_FFFF }
  else if n = 0x040 then withCtrl s { c with obs := v &&& 0x1F }
  else if 0x050 ≤ n ∧ n ≤ 0x057 then
    withCtrl s { c with watch := c.watch.set (n % 8) (v &&& 0xFC00_FFFF_FFFF_FFFF) (Nat.mod_lt n (by decide)) }
  else if n = 0x070 then withCtrl s { c with recctl := v &&& 0xFFCF }
  else if n = 0x071 then withCtrl s { c with recbase := v &&& 0xFFFF_FFFF_FFC0 }
  else if n = 0x072 then withCtrl s { c with rechead := v }
  else if n = 0x073 then withCtrl s { c with reclost := v &&& 0xFFFF_FFFF }
  else if 0x078 ≤ n ∧ n ≤ 0x07B then
    withCtrl s { c with pmsel := c.pmsel.set (n % 4) (v &&& 0xFF) (Nat.mod_lt n (by decide)) }
  else if 0x07C ≤ n ∧ n ≤ 0x07F then
    withCtrl s { c with pmc := c.pmc.set (n % 4) v (Nat.mod_lt n (by decide)) }
  else s

/-- R30, R127: a register that older work of the strand has yet to write: DLEN0 to DLEN3 while the channel has an operation.
DESIGN CHOICE (log 13): VSTAT and FLIX wait for no pending adapter contribution, whose flags may arrive later (R291). -/
def crPending (s : State) (n : Nat) : Bool :=
  decide (0x034 ≤ n) && decide (n ≤ 0x037) && !(chanAt s.hart n).ops.isEmpty

/-- R289: a flush of SADP waits for every contribution of the strand. -/
def flushWaits (s : State) (n : Nat) (v : Word) : Bool :=
  n == 0x022 && bitW v 0 && s.contribs.any (fun c => c.who == whoIs s.hart)

/-- R127: the cause of a control register word `i`: ILLEGAL for an unassigned number, then PRIV for OBS from unprivileged
code. -/
def crTrap (i : Instr) (cr : BitVec 12) (s : State) : Option Trap :=
  if !crAssigned cr.toNat then some (wordTrap i 1 0)
  else if cr = 0x040 && !privileged s then some (wordTrap i 13 0)
  else none

/-- R127: the cause of a `crw` of `v`: that of `crr`, then PRIV for VCFG.obs, then ILLEGAL for the value. -/
def crwTrap (i : Instr) (cr : BitVec 12) (v : Word) (s : State) : Option Trap :=
  match crTrap i cr s with
  | some t => some t
  | none =>
    if cr = 0x000 && bitW v 21 && !privileged s then some (wordTrap i 13 0)
    else if badCrValue cr.toNat v then some (wordTrap i 1 0)
    else none

/-- `crr`, R127; it waits for a value that is not yet written (R30). -/
def execCrr (gd : Reg) (cr : BitVec 12) (s : State) : Res :=
  match crTrap (.crr gd cr) cr s with
  | some t => .next (trapAt t s)
  | none => if crPending s cr.toNat then .next s else finishG gd (readCR s cr.toNat) s

/-- `crw`, R127; gd takes the prior value. It waits as `crr` does, and a flush for the strand's contributions. -/
def execCrw (gd ga : Reg) (cr : BitVec 12) (s : State) : Res :=
  let v := readG s ga
  match crwTrap (.crw gd ga cr) cr v s with
  | some t => .next (trapAt t s)
  | none =>
    if crPending s cr.toNat || flushWaits s cr.toNat v then .next s
    else finishG gd (readCR s cr.toNat) (writeCR cr.toNat v s)

/-- R128: the word index. -/
def maskWord (s : State) (ga : Reg) (imm : BitVec 5) : Nat := ((readG s ga).toNat + imm.toNat) % 32

/-- `movk`, R128. -/
def execMovk (gd ga : Reg) (kn : BitVec 3) (imm : BitVec 5) (s : State) : Res :=
  finishG gd ((readK s kn).extractLsb' (64 * maskWord s ga imm) 64) s

/-- R128: a mask with word `i` replaced. -/
def putMaskWord (m : Mask) (i : Nat) (v : Word) : Mask :=
  (m &&& ~~~((BitVec.allOnes 64).setWidth 2048 <<< (64 * i))) ||| (v.setWidth 2048 <<< (64 * i))

/-- `kmov`, R128. -/
def execKmov (ga gb : Reg) (kn : BitVec 3) (imm : BitVec 5) (s : State) : Res :=
  finish (writeK s kn (putMaskWord (readK s kn) (maskWord s ga imm) (readG s gb)))

/-- R360: packet fields by dword and bits. -/
def pktField (pkt : List Word) (dword lo n : Nat) : Nat := bitsW (pkt.getD dword 0) lo n

/-- R96: the request after rounding to the granule. -/
def roundRequest (q g : Nat) : Nat := if q = 0 then 0 else Nat.max g (q - q % g)

/-- R96, R99: what a launch's pool grants for a rounded request `q`: base, count, and the pool after. A returned range is
granted first, the one of lowest base. -/
def poolGrant (l : Launch) (q : Nat) : Nat × Nat × Launch :=
  if q = 0 then (0, 0, l)
  else match l.returned with
  | (b, len) :: t =>
    let n := Nat.min q len
    (b, n, { l with returned := if n = len then t else (b + n, len - n) :: t })
  | [] =>
    let n := Nat.min q (pktField l.pkt 1 0 48 - l.next)
    (l.next, n, { l with next := l.next + n })

/-- R96: writes the grant to gd, VL, STRIPBASE and STRIPLEN. -/
def writeGrant (gd : Reg) (base n : Nat) (s : State) : State :=
  let s := setVl (writeG s gd (BitVec.ofNat 64 n)) n
  let s := withCtrl s { s.hart.ctrl with
    stripBase := if n = 0 then 0 else BitVec.ofNat 64 base, stripLen := BitVec.ofNat 64 n }
  { s with hart := { s.hart with
      stripStart := cycleOf s (dieOf s.hart.core), nsusp := 0, nstop := 0, stripIdle := 0, stripWork := #v[0, 0, 0, 0] } }

/-- The room for the save of a strand that the headframe is parking (R372); it parks none where no strand of the recipient still
stands parked for it (R369). -/
def parkRoom (s : State) : Option Nat :=
  match s.hart.yieldsTo with
  | some r =>
    if yieldedOn s s.hart.part r s.hart.core < parkedOn s s.hart.part r s.hart.core then
      saveRoom s (dieOf s.hart.core) (saveSize s.hart)
    else none
  | none => none

/-- `strip`, R96, R129: closes the open strip and takes the next. A strand that the headframe is parking stops here, after
the close and before the grant, where its save has room (R369). On a deputy it writes zeros. -/
def execStrip (gd ga : Reg) (s : State) : Res :=
  if onDeputy s.hart then finish (writeGrant gd 0 0 s)
  else
    let q := Nat.min (readG s ga).toNat 2048
    let s := closeStrip 0 s
    match parkRoom s with
    | some excess =>
      let s := withCtrl s { s.hart.ctrl with stripBase := 0, stripLen := 0 }
      let s := saveAllot s.hart s
      .next (endConvoy { s with hart := { s.hart with parked := true, spilled := excess } })
    | none =>
    let s := if s.hart.yieldsTo.isSome then { s with hart := { s.hart with yieldsTo := none } } else s
    match findLaunch s s.hart.part s.hart.serial with
    | some l =>
      let g := pktField l.pkt 2 0 12
      let (base, n, l') := poolGrant l (roundRequest q g)
      finish (writeGrant gd base n (mapLaunch l.part l.serial (fun _ => l') s))
    | none => finish (writeGrant gd 0 0 s)

end Sys2Proof.Machine
end

