-- ==== Sys2Proof/Machine/Operands.lean ====
section
/-!
DEFINITION. Windows: descriptors (R164, R165), element coordinates and edges (R166–R168), the checks at issue (R169), and
the reading and writing of elements of the strand's stope, STREAM windows included (R167, R349).
-/
namespace Sys2Proof.Machine

open Sys2Proof

/-! ### Descriptors and types -/

/-- kind of a descriptor: 0 RECT, 1 COL, 2 DIAG, 3 ADIAG, 4 STREAM (R164). -/
def dKind (d : Word) : Nat := bitsW d 61 3
/-- type code of a descriptor (R164). -/
def dType (d : Word) : Nat := bitsW d 57 4
/-- row0 of a descriptor (R164). -/
def dRow0 (d : Word) : Nat := bitsW d 47 10
/-- col0 of a descriptor (R164). -/
def dCol0 (d : Word) : Nat := bitsW d 38 9
/-- height of a descriptor (R164). -/
def dHeight (d : Word) : Nat := bitsW d 27 11
/-- width of a descriptor (R164). -/
def dWidth (d : Word) : Nat := bitsW d 17 10
/-- edge mode: 0 clamp, 1 void, 2 trap (R164). -/
def dEdge (d : Word) : Nat := bitsW d 15 2
/-- chan of a descriptor (R164). -/
def dChan (d : Word) : Nat := bitsW d 12 3

/-- R165: element width in bits of a type code. -/
def tyBits (t : Nat) : Nat :=
  match t with
  | 0 | 7 => 4
  | 1 | 4 | 8 | 9 | 13 => 8
  | 2 | 5 | 10 | 11 => 16
  | 3 | 6 | 12 => 32
  | _ => 512

/-- R165: elements per row. -/
def tyQ (t : Nat) : Nat := 2048 / tyBits t

/-- R191: the integer class: i4, i8, i16, i32, n8, n16, n32, sc8. -/
def isInt (t : Nat) : Bool := decide (t ≤ 6) || t == 13

/-- R177: two's complement types. -/
def isSigned (t : Nat) : Bool := decide (t ≤ 3)

/-- R191: the float class: e4m3, e5m2, bf16, hf16, f32. -/
def isFloat (t : Nat) : Bool := decide (8 ≤ t) && decide (t ≤ 12)

/-- The format of a float type. -/
def fmtOf (t : Nat) : Fmt :=
  match t with
  | 8 => e4m3
  | 9 => e5m2
  | 10 => bf16
  | 11 => hf16
  | _ => f32

/-- R166: the element count of a window. -/
def dCount (d : Word) : Nat :=
  if dKind d = 2 || dKind d = 3 then Nat.min (dHeight d) (dWidth d) else dHeight d * dWidth d

/-- R169, reason 2: a malformed descriptor, or STREAM as a destination. -/
def malformed (d : Word) (dest : Bool) : Bool :=
  decide (4 < dKind d) || dType d == 15 || dHeight d == 0 || decide (1024 < dHeight d) || dWidth d == 0 ||
  decide (512 < dWidth d) || dEdge d == 3 || bitsW d 0 12 != 0 ||
  (if dKind d = 4 then dEdge d == 2 || decide (3 < dChan d) || dRow0 d != 0 || dCol0 d != 0 || dest
   else dChan d != 0)

/-- R166: plane coordinate of element `e`. -/
def coord (d : Word) (e : Nat) : Nat × Nat :=
  match dKind d with
  | 0 => (dRow0 d + e / dWidth d, dCol0 d + e % dWidth d)
  | 1 => (dRow0 d + e % dHeight d, dCol0 d + e / dHeight d)
  | 2 => (dRow0 d + e, dCol0 d + e)
  | _ => (dRow0 d + e, dCol0 d + dWidth d - 1 - e)

/-- R168: element `e` lies past the edge of a plane of `h` rows. -/
def pastEdge (h : Nat) (d : Word) (e : Nat) : Bool :=
  let (r, c) := coord d e
  decide (h ≤ r) || decide (tyQ (dType d) ≤ c)

/-- R169: the first check that a window fails, as a reason code. -/
def windowReason (h n : Nat) (d : Word) (dest : Bool) : Option Nat :=
  if malformed d dest then some 2
  else if dCount d < n then some 0
  else if dEdge d == 2 && (List.range n).any (pastEdge h d) then some 1
  else none

/-- A window operand at issue: its table entry, its operand code (R146), whether it is a destination, and the type rule of
its instruction (R191). -/
structure Operand where
  win : Win
  code : Nat
  dest : Bool

/-- R146: the aux of WINDOW. -/
def windowAux (w : Win) (code reason : Nat) : BitVec 16 := BitVec.ofNat 16 (w.toNat + code * 2 ^ 5 + reason * 2 ^ 7)

/-- R169: the checks of every operand window in order, for `n` elements. -/
def checkWindows (i : Instr) (ops : List Operand) (s : State) : Option Trap :=
  match ops.find? (fun o => (windowReason s.hart.height (vl s) (readW s o.win) o.dest).isSome) with
  | some o =>
    some (wordTrap i 4 (windowAux o.win o.code
      ((windowReason s.hart.height (vl s) (readW s o.win) o.dest).getD 0)))
  | none => none

/-- R191: the first operand whose type its instruction does not accept raises WINDOW with reason 2. -/
def checkTypes (i : Instr) (ops : List (Win × Nat × Bool)) : Option Trap :=
  match ops.find? (fun o => !o.2.2) with
  | some o => some (wordTrap i 4 (windowAux o.1 o.2.1 2))
  | none => none

/-! ### Elements -/

/-- The bits of a cell range of the strand's stope: element column `c` of `b` bits in row `r` (R161). -/
def stopeBits (h : Strand) (r c b : Nat) : Nat :=
  ((smGet 0 h.stope r).extractLsb' (c * b) b).toNat

/-- Where a source element is read (R168): none where it reads zero. -/
def sourceCell (h : Strand) (d : Word) (e : Nat) : Option (Nat × Nat) :=
  if pastEdge h.height d e then
    if dEdge d = 0 && h.height != 0 then
      let (r, c) := coord d e
      some (Nat.min r (h.height - 1), Nat.min c (tyQ (dType d) - 1))
    else none
  else some (coord d e)

/-- R349: the delivery region of a drift operation, byte `i` of the delivery order, as a destination address. -/
def deliveryAddr (op : DriftOp) (i : Nat) : Nat :=
  match op.form with
  | .drift2 =>
    let d0 := op.shape.getD 0 0
    let esz := 2 ^ bitsW d0 62 2
    let c := bitsW d0 0 16
    let p := if bitsW d0 32 28 = 0 then c * esz else bitsW d0 32 28
    let e := i / esz
    (op.dst.toNat + e / c * p + e % c * esz + i % esz) % 2 ^ 48
  | _ => (op.dst.toNat + i) % 2 ^ 48

/-- R349: byte `i` of the region as an offset of the strand's own pad, if it lies there and in no other pad. -/
def ownPadOffset (h : Strand) (op : DriftOp) (i : Nat) : Option Nat :=
  match op.form with
  | .driftm =>
    if bitsW op.arg 32 4 = 2 ^ (h.core % 4) then some (op.dst.toNat % 2 ^ 19 + i) else none
  | _ =>
    let a := deliveryAddr op i
    if a < 0x20_0000 ∧ a / 2 ^ 19 = h.core % 4 then some (a % 2 ^ 19) else none

/-- R349: `n` bytes of the region from byte `i` on lie in the strand's own pad. -/
def ownPadSpan (h : Strand) (op : DriftOp) (i n : Nat) : Bool :=
  match ownPadOffset h op i with
  | some o => decide (o + n ≤ Config.padBytes)
  | none => decide (n = 0)

/-- R349: the whole region lies in the issuing core's own pad. -/
def regionInPad (h : Strand) (op : DriftOp) : Bool :=
  match op.form with
  | .drift2 =>
    let d0 := op.shape.getD 0 0
    let row := bitsW d0 0 16 * 2 ^ bitsW d0 62 2
    !onDeputy h && (List.range (bitsW d0 16 16)).all (fun i => ownPadSpan h op (i * row) row)
  | _ => !onDeputy h && ownPadSpan h op 0 op.total

/-- Where a STREAM element is read: at a nibble of an operation's delivery region, nowhere (it reads zero), or not yet. -/
inductive StreamRead where
  | at_ (op : DriftOp) (nibble : Nat)
  | zero
  | notYet
  deriving DecidableEq, Repr

/-- The homes of the bytes that hold the `b` bits at nibble `p` of the region. -/
def streamHomes (s : State) (h : Strand) (op : DriftOp) (p b : Nat) : List (Option Nat) :=
  (List.range ((p % 2 * 4 + b + 7) / 8)).map (fun i => (ownPadOffset h op (p / 2 + i)).map (padKey s h h.core))

/-- The bits of `b` that begin at nibble `p` of the region (R167). -/
def streamBits (s : State) (h : Strand) (op : DriftOp) (p b : Nat) : Nat :=
  let bytes := (streamHomes s h op p b).map (fun k => match k with | some k => memByte s k | none => 0)
  leNat bytes / 2 ^ (4 * (p % 2)) % 2 ^ b

/-- R349: the youngest copy operation of a channel. -/
def youngest (ch : Chan) : Option DriftOp :=
  match ch.ops.getLast? with
  | some op => some op
  | none => ch.region

/-- R167, R349: element `e` of a STREAM window on channel `c` with the stream position `pos` in nibbles. -/
def readStream (s : State) (d : Word) (pos e : Nat) : StreamRead :=
  let h := s.hart
  let ch := chanAt h (dChan d)
  let b := tyBits (dType d)
  match youngest ch with
  | none => .zero
  | some op =>
    if !op.begun && op.ended.isNone then .notYet
    else if !regionInPad h op then .zero
    else
      let p := pos + e * b / 4
      let last := (p * 4 + b + 7) / 8
      if last ≤ op.count then .at_ op p
      else if op.ended.isNone then .notYet
      else if dEdge d = 0 then
        let whole := if op.count * 2 < pos + b / 4 then 0 else (op.count * 2 - pos) / (b / 4)
        if whole = 0 then .zero else .at_ op (pos + (whole - 1) * b / 4)
      else .zero

/-- R167: the stream position of a descriptor's channel. -/
def streamPos (s : State) (d : Word) : Nat := (chanAt s.hart (dChan d)).spos

/-- R167: the window waits for bytes not yet delivered, at some element below VL. -/
def streamWaits (s : State) (d : Word) : Bool :=
  dKind d == 4 && (List.range (vl s)).any (fun e => readStream s d (streamPos s d) e == .notYet)

/-- The bits of source element `e`, W(w, e) of R19. -/
def srcBits (s : State) (d : Word) (e : Nat) : Nat :=
  if dKind d = 4 then
    match readStream s d (streamPos s d) e with
    | .at_ op p => streamBits s s.hart op p (tyBits (dType d))
    | .zero => 0
    | .notYet => 0
  else match sourceCell s.hart d e with
  | some (r, c) => stopeBits s.hart r c (tyBits (dType d))
  | none => 0

/-- The value of bits under an integer-class type (R177). -/
def intVal (t bits : Nat) : Int := if isSigned t then sextN (tyBits t) bits else (bits : Int)

/-- The value of bits under a type of either class (R177, R179, R185). -/
def numVal (t : Nat) (ftz : Bool) (bits : Nat) : Num :=
  if isFloat t then readF (fmtOf t) ftz bits else ofIntN (intVal t bits)

/-- R163: the stope element index of element `e`. -/
def stopeIndex (d : Word) (e : Nat) : Nat :=
  let (r, c) := coord d e
  r * tyQ (dType d) + c

/-- VCFG's rounding for destination element `e` (R181, R183). -/
def laneMode (s : State) (d : Word) (e : Nat) : Mode :=
  { rm := vcfgRm s, sat := vcfgSat s, ftz := vcfgFtz s, k := stopeIndex d e }

/-- R192 `fit` of an exact value into a type: integers under R178, floats under `round()`. -/
def fitTo (t : Nat) (m : Mode) (x : Num) : Nat × Flags :=
  if isFloat t then roundF (fmtOf t) m x
  else match x with
  | .fin neg mag exp _ =>
    fitInt (isSigned t) (tyBits t) m.sat (let z : Int := (mag * 2 ^ exp.toNat : Nat); if neg then -z else z)
  | _ => (0, 0)

/-- Replaces the `b` bits of element column `c` in a row. -/
def putRow (row : BitVec 2048) (c b v : Nat) : BitVec 2048 :=
  (row &&& ~~~(((BitVec.allOnes 2048) >>> (2048 - b)) <<< (c * b))) ||| (BitVec.ofNat 2048 (v % 2 ^ b) <<< (c * b))

/-- Writes element `e` of a destination window; past a clamp edge it is discarded and raises EDGE (R168). -/
def writeElem (h : Strand) (d : Word) (e v : Nat) : Strand × Flags :=
  if pastEdge h.height d e then (h, if dEdge d = 0 then flEDGE else 0)
  else
    let (r, c) := coord d e
    let b := tyBits (dType d)
    ({ h with
        stope := smSet 0 h.stope r (putRow (smGet 0 h.stope r) c b v)
        badBits := if h.badBits.isEmpty then h.badBits
                   else smSet 0 h.badBits r (putRow (smGet 0 h.badBits r) c b 0) }, 0)

/-- R146, R171: the tier and address of the first 32-byte granule with an uncorrectable error that source element `e` reads:
of the stope (tier 3), or of the pad behind a STREAM window (tier 2, R219; log 21). -/
def badSource (s : State) (d : Word) (e : Nat) : Option (Nat × Nat) :=
  let b := tyBits (dType d)
  if dKind d = 4 then
    if s.bad.isEmpty then none
    else match readStream s d (streamPos s d) e with
    | .at_ op p =>
      ((streamHomes s s.hart op p b).zipIdx.find? (fun x => match x.1 with
        | some k => smGet false s.bad k
        | none => false)).map (fun x => (2, (s.hart.core % 4 * 2 ^ 19 + (ownPadOffset s.hart op (p / 2 + x.2)).getD 0) / 32 * 32))
    | _ => none
  else if s.hart.badBits.isEmpty then none
  else match sourceCell s.hart d e with
  | some (r, c) =>
    let bits := (smGet 0 s.hart.badBits r).extractLsb' (c * b) b
    if bits = 0 then none
    else some (3, r * 256 + (c * b + if bits.extractLsb' 0 256 = 0 then 256 else 0) / 8 / 32 * 32)
  | none => none

/-- A stope footprint: element position, row, first bit and width (R151). -/
structure Cell where
  pos : Nat
  row : Nat
  lo : Nat
  len : Nat
  deriving DecidableEq, Repr

/-- The cells that the elements of a list read through a window. -/
def readCells (h : Strand) (d : Word) (es : List Nat) : List Cell :=
  if dKind d = 4 then []
  else es.filterMap (fun e => (sourceCell h d e).map (fun (r, c) =>
    { pos := e, row := r, lo := c * tyBits (dType d), len := tyBits (dType d) }))

/-- The cells that the elements of a list write through a window. -/
def writeCells (h : Strand) (d : Word) (es : List Nat) : List Cell :=
  es.filterMap (fun e => if pastEdge h.height d e then none else
    let (r, c) := coord d e
    some { pos := e, row := r, lo := c * tyBits (dType d), len := tyBits (dType d) })

/-- R151: some bit written as element e is read at a position other than e. -/
def interlockedBy (reads writes : List Cell) : Bool :=
  writes.any (fun w => reads.any (fun r =>
    r.row == w.row && r.pos != w.pos && decide (r.lo < w.lo + w.len) && decide (w.lo < r.lo + r.len)))

end Sys2Proof.Machine
end

