-- ==== Sys2Proof/Machine/Convoy.lean ====
section
/-!
DEFINITION. Convoys (R31–R35, R150–R153, R192): what a member is, how the members of a convoy act as one unit, where a stop
leaves them, and which words join none. A convoy's members run in program order over the elements still to be done; where
one of them stops, they run again from the state before the convoy over the elements that R150 lets them commit.
-/
namespace Sys2Proof.Machine

open Sys2Proof

/-- How a word takes part in convoys (R31, R32): a window-table or `vcfg` word, one that stands alone, or a member with the
classes it occupies, a bit each: ALU-A, ALU-B, MUL, SFU, XFORM, LOAD, STORE, SEAM. -/
inductive Role where
  | table
  | alone
  | member (classes : BitVec 8)
  deriving DecidableEq, Repr

/-- Class ALU-A (R32). -/
def clAluA : BitVec 8 := 1
/-- Class ALU-B (R32). -/
def clAluB : BitVec 8 := 2
/-- Class MUL (R32). -/
def clMul : BitVec 8 := 4
/-- Class SFU (R32). -/
def clSfu : BitVec 8 := 8
/-- Class XFORM (R32). -/
def clXform : BitVec 8 := 16
/-- Class LOAD (R32). -/
def clLoad : BitVec 8 := 32
/-- Class STORE (R32). -/
def clStore : BitVec 8 := 64
/-- Class SEAM (R32). -/
def clSeam : BitVec 8 := 128

/-- Why a convoy cannot act yet. -/
inductive Block where
  /-- A STREAM element is not delivered (R167), or a queue is full (R29). -/
  | wait
  /-- A `smul` or `smula` start held by the governor (R373). -/
  | governor
  /-- A message to send, whose acknowledgement the member awaits (R27). -/
  | send (m : Msg)
  deriving DecidableEq, Repr

/-- What a member did over the elements it was given: the state after it, an error that it finds in its sources and reports at
its issue (R27; log 21), the elements that stopped, the condition found at the lowest of them, the page faults it found
(R248), its register result (R193), the shortened VL (R228, R314), the nibbles its STREAM windows consume (R167), and why it
cannot act yet. -/
structure MRes where
  st : State
  early : Option Trap := none
  stopped : Mask := 0
  trap : Option (Nat × Option Trap) := none
  misses : List Miss := []
  gw : Option (Reg × Word) := none
  newVl : Option Nat := none
  adv : List (Nat × Nat) := []
  block : Option Block := none
  /-- The seam has accepted it (R295), a copy has joined a channel's queue (R338), its release has taken effect, and its
  acquire will drop the core's data cache, by VCFG and OBS as captured (R62, R235). -/
  seamAccepted : Bool := false
  driftAccepted : Option Nat := none
  released : Bool := false
  acquires : Bool := false

/-- How a member's elements commit where its convoy stops: below the stop only, above it too where every member lets it
(R35), above it where they meet no condition of their own (R224), or not at all before the convoy completes. -/
inductive Commit where
  | ordered
  | chained
  | unordered
  | last
  deriving DecidableEq, Repr

/-- A member: its word, convoy bit, role, and what it does. -/
structure Member where
  word : Instr
  /-- The bits of the word, where it is no instruction (R295). -/
  raw : Option Nat := none
  c : BitVec 1
  role : Role
  /-- PRIV from this code (R78). -/
  priv : State → Bool := fun _ => false
  /-- The check at issue reads an element that a channel has not delivered (R155, R167). -/
  stall : State → Bool := fun _ => false
  /-- The checks at issue of the entry, after CONVOY (R78). -/
  check : State → Option Trap := fun _ => none
  /-- The effect over the given elements. -/
  run : Mask → State → MRes
  /-- The elements it acts on, and the stope cells that they read and write. -/
  active : State → Mask := fun _ => 0
  reads : State → List Cell := fun _ => []
  writes : State → List Cell := fun _ => []
  /-- The masks that its elements read, each its own bit; the mask they write; a mask bit that the whole form reads
  (`kbit`); and the masks whose older writers it waits for (R204). -/
  masks : List (BitVec 3) := []
  kOut : BitVec 3 := 0
  peek : State → Option (BitVec 3 × Nat) := fun _ => none
  awaits : List (BitVec 3) := []
  /-- It reads all its sources before it commits anything (R193). -/
  whole : Bool := false
  /-- It acts on all its elements in one step (R310, R390). -/
  once : Bool := false
  /-- Majors 0x48 to 0x4B: the seam accepts it as a whole (R295). -/
  seam : Bool := false
  commit : Commit := .ordered
  /-- The home of an element's access, where it has one (R224). -/
  home : State → Nat → Option Nat := fun _ _ => none
  /-- The page faults that an element's translation meets, and the stope cells that its addresses read (R247). -/
  faults : State → Nat → List Miss := fun _ _ => []
  indexes : State → List Cell := fun _ => []

/-- The elements of a mask below VL that the given elements hold, ascending. -/
def elemsOf (s : State) (k act : Mask) : List Nat :=
  (List.range (vl s)).filter (fun e => k.getLsbD e && act.getLsbD e)

/-- Bits `[n-1:0]` set. -/
def below (n : Nat) : Mask := onesMask >>> (2048 - n)

/-- One bit set. -/
def oneBit (e : Nat) : Mask := (1 : Mask) <<< e

/-- The elements of a list as a mask. -/
def maskOf (es : List Nat) : Mask := es.foldl (fun m e => m ||| oneBit e) 0

/-- The lowest element of a mask, from element `e` on, among `n`. -/
def lowestFrom (m : Mask) : Nat → Nat → Option Nat
  | _, 0 => none
  | e, n + 1 => if m.getLsbD e then some e else lowestFrom m (e + 1) n

/-- The lowest element of a mask. -/
def lowest (m : Mask) : Option Nat := lowestFrom m 0 2048

/-- R21: the active elements of a form with the execution mask `kn`. -/
def activeOf (kn : BitVec 3) (s : State) : Mask := readK s kn &&& below (vl s)

/-! ### What stands of a convoy -/

/-- R150: where the convoy at issue starts; within a handler STIDX and kd are ignored (R153). -/
def startOf (s : State) : Nat := if trapActive s then 0 else s.hart.ctrl.stidx.toNat % 2048

/-- R150: kd as the convoy at issue finds it. -/
def kdOf (s : State) : Mask := if trapActive s then 0 else s.hart.kd

/-- R150: the elements the convoy acts on: at or above STIDX, kd bit clear. -/
def actOf (s : State) : Mask := (onesMask <<< startOf s) &&& ~~~(kdOf s)

/-- The address of the open convoy's first word. -/
def convoyFirst (s : State) : Option (BitVec 48) :=
  match s.hart.convoy with
  | .open first .. => some first
  | _ => none

/-- What stands of the open convoy. -/
def standing (s : State) : Stand := standOf s.hart ((convoyFirst s).getD s.hart.pc)

/-- R295: the seam has accepted the member of the convoy that begins at `first`: STIDX.sa, or within a handler, where STIDX is
ignored (R153), what stands of the convoy. -/
def seamDoneAt (first : BitVec 48) (s : State) : Bool :=
  if trapActive s then (standOf s.hart first).seam else bitW s.hart.ctrl.stidx 11

/-- R150, R295: the seam has accepted the member of the open convoy. -/
def seamDone (s : State) : Bool := seamDoneAt ((convoyFirst s).getD s.hart.pc) s

/-- R228: the cut of the open convoy's `vldff` at an earlier stop, which its next issue keeps where it starts above the cut. -/
def Stand.cutFrom (x : Stand) (start : Nat) : Option Nat := x.cut.filter (fun f => decide (f < start))

/-- A `vldff` (R228). -/
def isFirstFault : Instr → Bool
  | .vldff .. => true
  | _ => false

/-! ### One pass over the members -/

/-- A member that issued: the state at its issue, with every mask bit set that an older member had left unwritten, and the
elements whose sources an older member had left unwritten. -/
structure Seen where
  m : Member
  st : State
  unready : Mask

/-- The elements below VL that a member that issued acts on. -/
def Seen.active (x : Seen) : Mask := x.m.active x.st

/-- What one pass over the members found. -/
structure Pass where
  st : State
  /-- The elements not done, with the cells and mask bits that they leave unwritten. -/
  stopped : Mask
  unwritten : List Cell
  unmasked : List (BitVec 3 × Mask)
  /-- The lowest stop: element, member position, its trap or none for a page fault. -/
  low : Option (Nat × Nat × Option Trap)
  misses : List Miss
  /-- Register results, and whether the seam gave them (R295). -/
  gws : List (Reg × Word × Bool)
  newVl : Option Nat
  adv : List (Nat × Nat)
  acquires : Bool
  block : Option Block
  drift : Bool
  /-- The members that issued, newest first. -/
  trace : List Seen
  /-- The number of words that issued; whether the next one traps at issue or waits for an older member (R204). -/
  count : Nat
  issue : Option Trap
  stuck : Bool
  classes : BitVec 8
  pos : Nat
  alone : Bool

/-- R295: the word stands at the SEAM position of a convoy whose member the seam has accepted; one that follows an ended convoy
or that its convoy refuses (R31, R32) does not. -/
def Member.passed (m : Member) (joins ended : Bool) (classes : BitVec 8) (alone : Bool) (s : State) : Bool :=
  m.seam && seamDone s && !ended && !(joins && (alone || (classes &&& clSeam) != 0))

/-- R78: PRIV, CONVOY and the entry's own checks of a word that would join with these classes taken, in that order. A word
that must stand alone traps CONVOY for C = 1 also where no convoy is open: R32 before R31 (log 70). -/
def issueTrap (m : Member) (joins : Bool) (ended : Bool) (classes : BitVec 8) (alone : Bool) (s : State) : Option Trap :=
  if !m.word.wf then some (wordTrap m.word 1 0)
  else if m.priv s && !m.passed joins ended classes alone s then some (wordTrap m.word 13 0)
  else
    let convoy :=
      (m.c = 1 && ended) ||
      (match m.role with
       | .alone => m.c == 1
       | .table => joins && alone
       | .member cl => joins && (alone || (classes &&& cl) != 0))
    if convoy then some (wordTrap m.word 2 0) else m.check s

/-- Earlier stop of two: lowest element, then lowest position (R147). -/
def lower (a : Option (Nat × Nat × Option Trap)) (b : Option (Nat × Nat × Option Trap)) :
    Option (Nat × Nat × Option Trap) :=
  match a, b with
  | some x, some y => if y.1 < x.1 then b else a
  | none, _ => b
  | _, none => a

/-- The state with the position that the next member takes (R35). -/
def atPosition (pos : Nat) (s : State) : State :=
  match s.hart.convoy with
  | .open first classes _ alone => { s with hart := { s.hart with convoy := .open first classes pos alone } }
  | _ => s

/-- The elements whose cells of a list overlap a cell of another. -/
def touching (cells others : List Cell) : Mask :=
  maskOf ((cells.filter (fun c => others.any (fun o => c.row == o.row && decide (c.lo < o.lo + o.len) &&
    decide (o.lo < c.lo + c.len)))).map (·.pos))

/-- The state with the mask bits set that are not written yet: those elements may be active. -/
def fillMasks (ms : List (BitVec 3 × Mask)) (s : State) : State :=
  ms.foldl (fun s x => writeK s x.1 (readK s x.1 ||| x.2)) s

/-- The state of a pass in which every mask bit is set that an older member has left unwritten (R192). -/
def Pass.filled (p : Pass) : State := fillMasks p.unmasked p.st

/-- The elements of a member whose mask bits an older member has left unwritten. -/
def Pass.unmarked (p : Pass) (m : Member) : Mask :=
  (p.unmasked.filter (fun x => m.masks.contains x.1)).foldl (fun a x => a ||| x.2) 0

/-- The elements of a member whose sources an older member has left unwritten. -/
def Pass.unready (p : Pass) (m : Member) : Mask :=
  if p.stopped = 0 then 0 else touching (m.reads p.filled) p.unwritten ||| p.unmarked m

/-- R247: the page faults of the elements of a mask that wait for data alone: they are active, and their addresses are there. -/
def Pass.lateFaults (p : Pass) (m : Member) (late : Mask) : List Miss :=
  let known := late &&& ~~~(p.unmarked m ||| touching (m.indexes p.filled) p.unwritten)
  ((List.range 2048).filter known.getLsbD).flatMap (m.faults p.st)

/-- What a member does over the elements of `act` whose sources are there: one that acts as a whole needs them all. Every element
whose address is there is translated, and the page faults come in the order of the elements (R247, R248). -/
def Pass.runMember (p : Pass) (act : Mask) (m : Member) : MRes :=
  let late := p.unready m
  let due := m.active p.filled &&& act
  if late = 0 then m.run act (atPosition p.pos p.st)
  else if m.whole || m.once || m.seam then { st := p.st, stopped := due }
  else
    let r := m.run (act &&& ~~~late) (atPosition p.pos p.st)
    { r with
      stopped := r.stopped ||| (due &&& late)
      misses := sortBy (fun a b => decide (a.elem < b.elem)) (r.misses ++ p.lateFaults m (due &&& late)) }

/-- The bits of a member's word. -/
def Member.bits (m : Member) : Nat := (m.raw.orElse (fun _ => encodeWord m.word)).getD 0

/-- R402, R405: the `n`-th word `w` of an issue is counted as it issues, at the position that it takes and with VL as it is then. -/
def tallyWord (w n pos v : Nat) (s : State) : State := countWord (s.hart.pc + BitVec.ofNat 48 (4 * n)) w pos v true s

/-- The member takes its place among the convoy's words. -/
def Pass.seat (p : Pass) (m : Member) : Pass :=
  { p with
    count := p.count + 1
    classes := match m.role with | .member cl => p.classes ||| cl | _ => p.classes
    pos := match m.role with | .member _ => p.pos + 1 | _ => p.pos
    alone := match m.role with | .alone => true | _ => p.alone }

/-- The pass after a member's result. A message that is to be sent leaves its elements undone. -/
def Pass.take (p : Pass) (m : Member) (r : MRes) : Pass :=
  let undone := match r.block with
    | some (.send _) => r.stopped ||| m.active p.filled
    | _ => r.stopped
  { p.seat m with
    st := r.st
    stopped := p.stopped ||| undone
    unwritten := if undone = 0 then p.unwritten
                 else p.unwritten ++ (m.writes p.filled).filter (fun c => undone.getLsbD c.pos)
    unmasked := if undone = 0 || m.kOut = 0 then p.unmasked else (m.kOut, undone) :: p.unmasked
    low := lower p.low (r.trap.map (fun x => (x.1, p.pos, x.2.map (fun t =>
      { t with member := BitVec.ofNat 3 p.pos }))))
    misses := p.misses ++ r.misses.map (fun x => { x with member := p.pos % 8 })
    gws := p.gws ++ (r.gw.map (fun w => (w.1, w.2, r.seamAccepted))).toList
    newVl := if r.newVl.isSome then r.newVl else p.newVl
    adv := (match r.driftAccepted with | some ch => p.adv.filter (fun a => a.1 != ch) | none => p.adv) ++ r.adv
    acquires := p.acquires || r.acquires
    block := if p.block.isSome then p.block else r.block
    drift := p.drift || r.driftAccepted.isSome
    trace := { m := m, st := p.filled, unready := p.unready m } :: p.trace }

/-- How an issue counts its words (R402): not at all where it stands for one word's effect alone, and else from word `n` on:
those before it have been counted. -/
abbrev Tally := Option Nat

/-- The state with the next word of a pass counted, where it counts. -/
def Tally.count (y : Tally) (w n pos v : Nat) (s : State) : State :=
  match y with
  | some from_ => if from_ ≤ n then tallyWord w n pos v s else s
  | none => s

/-- Runs the words in program order over the given elements, up to the first that traps at issue or must wait; the first
`ahead` of them are complete already. A message waits to be sent until every younger member has been looked at (R34). Each
word is counted before it acts, and after the older ones have (R399). -/
def runPass (act : Mask) (ahead : Nat) (y : Tally) : List Member → Bool → Bool → Pass → Pass
  | [], _, _, p => p
  | m :: ms, joins, ended, p =>
    if p.count < ahead then runPass act ahead y ms true false ({ p with st := y.count m.bits p.count p.pos (vl p.st) p.st }.seat m)
    else if m.awaits.any (fun k => k != 0 && p.unmasked.any (fun x => x.1 == k)) then { p with stuck := true }
    else
      let q := { p with st := y.count m.bits p.count p.pos (vl p.st) p.st }
      match issueTrap m joins ended q.classes q.alone q.st with
      | some t => { q with issue := some t }
      | none =>
        if m.stall q.st then { p with block := if p.block.isSome then p.block else some .wait }
        else
          let r := q.runMember act m
          match r.early, r.block with
          | some t, _ => { q with issue := some t }
          | none, none => runPass act ahead y ms true false (q.take m r)
          | none, some (.send _) => runPass act ahead y ms true false (q.take m r)
          | none, some b => { p with block := if p.block.isSome then p.block else some b }

/-- The state at the head of a pass. -/
def passFrom (s : State) (classes : BitVec 8) (pos : Nat) (alone : Bool) : Pass :=
  { st := s, stopped := 0, unwritten := [], unmasked := [], low := none, misses := [], gws := [], newVl := none,
    adv := [], acquires := false, block := none, drift := false, trace := [], count := 0, issue := none, stuck := false,
    classes := classes, pos := pos, alone := alone }

/-! ### Completing -/

/-- Writes channel `n mod 4` of the strand. -/
def setChan (s : State) (n : Nat) (c : Chan) : State :=
  let cs := s.hart.chans.set (n % 4) c (Nat.mod_lt n (by decide))
  { s with hart := { s.hart with chans := cs } }

/-- R167: advances a channel's stream position. -/
def advanceStream (s : State) (a : Nat × Nat) : State :=
  setChan s a.1 { chanAt s.hart a.1 with spos := (chanAt s.hart a.1).spos + a.2 }

/-- R193: the register results of the members, in program order. -/
def applyRegs (ws : List (Reg × Word × Bool)) (s : State) : State := ws.foldl (fun s w => writeG s w.1 w.2.1) s

/-- The shortened VL that a convoy leaves: its own pass's, or that of a `vldff` complete before (R228). -/
def Pass.vlLeft (p : Pass) (x : Stand) : Option Nat :=
  if p.newVl.isSome || p.trace.any (fun y => isFirstFault y.m.word) then p.newVl else x.cut

/-- R28: the queue that an extension word is sent to: lq, sq, aq, sm or mq. -/
def queueOf (i : Instr) : Option Nat :=
  match i with
  | .vld .. | .vlds .. | .vldff .. | .vldb .. | .vldx .. => some 0
  | .vst .. | .vsts .. | .vstduo .. | .vstx .. | .tagset .. => some 1
  | .vamo .. | .vamoX .. | .sax .. | .sred .. | .sqpush .. | .sqpop .. | .seqopen .. | .claim .. | .claimn .. | .seqfork ..
  | .seqtrim .. | .seqclose .. => some 2
  | .msgput .. | .msgget .. | .nred .. => some 4
  | _ => if (encodeWord i).any (fun w => decide (0x48 ≤ bitsAt w 25 7) && decide (bitsAt w 25 7 ≤ 0x4C)) then some 3 else none

/-- R172: a word that takes claims on the stope: it has an element class, or the sump or a message moves its elements. -/
def takesClaims (m : Member) : Bool :=
  match m.role, m.word with
  | .member _, _ | _, .sred .. | _, .sqpush .. | _, .sqpop .. | _, .msgput .. | _, .msgget .. | _, .nred .. => true
  | _, _ => false

/-- R28, R172: the words sent by a strand, with one word more. -/
def sendWord (m : Member) (v : Vector Nat 6) : Vector Nat 6 :=
  let more (k : Nat) : Nat := if queueOf m.word = some k then 1 else 0
  #v[v[0] + more 0, v[1] + more 1, v[2] + more 2, v[3] + more 3, v[4] + more 4, v[5] + if takesClaims m then 1 else 0]

/-- R150: every member has finished: STIDX and kd clear, results and positions take effect, and a vector acquire comes last
(R235). A handler's convoy leaves the stopped one's state (R153). -/
def completeConvoy (first : BitVec 48) (p : Pass) : State :=
  let s := p.adv.foldl advanceStream (applyRegs p.gws p.st)
  let s := match p.vlLeft (standOf s.hart first) with | some n => setVl s n | none => s
  let s := if p.acquires then dropCache s.hart.core s else s
  let s := { s with hart := { s.hart with sent := p.trace.foldl (fun v x => sendWord x.m v) s.hart.sent } }
  if trapActive s then { s with hart := { dropStand first s.hart with admitted := false } }
  else
    { s with hart := { s.hart with
        ctrl := { s.hart.ctrl with stidx := 0 }
        kd := 0
        stands := []
        admitted := false } }

/-! ### Stopping (R35, R150, R151) -/

/-- What the words of a convoy do at issue: the words, a word that is no instruction and would join them, where the convoy begins,
the classes and positions taken before them, the state they start from, the words complete already, how it counts them, the
elements they act on, and their first pass. -/
structure Issue where
  words : List Member
  barred : Option Nat
  first : BitVec 48
  classes : BitVec 8
  pos : Nat
  start : State
  ahead : Nat
  tally : Tally
  act : Mask
  pass : Pass

/-- R192: `kbit` reads a mask bit that another member writes as an element above 0. -/
def peeksAside (l : List Seen) : Bool :=
  l.any (fun x => match x.m.peek x.st with
    | some (k, n) => k != 0 && n != 0 && l.any (fun y => y.m.kOut == k && y.active.getLsbD n)
    | none => false)

/-- R151, R193: no element commits before all have settled: a stope bit written as one element is read as another, a form
reads all its sources first, `kbit` reads a mask bit of another element (R192), `vmerge` waits for a stopped load (R204), or a
member waits for a copy of its own convoy (R349; log 61). -/
def Pass.interlocked (p : Pass) : Bool :=
  p.stuck || (p.drift && p.block.isSome) || p.trace.any (fun x => x.m.whole) || peeksAside p.trace ||
  interlockedBy (p.trace.flatMap (fun x => x.m.reads x.st)) (p.trace.flatMap (fun x => x.m.writes x.st))

/-- R310: the lowest element of the members that act in one step, which no stop finds done. -/
def Pass.onceFrom (p : Pass) (act : Mask) (elem : Nat) : Nat :=
  (p.trace.filter (fun x => x.m.once)).foldl (fun b x => Nat.min b ((lowest (x.active &&& act)).getD b)) elem

/-- The elements that the members of a pass act on. -/
def Pass.busy (p : Pass) : Mask := p.trace.foldl (fun a x => a ||| x.active) 0

/-- Chooses the elements above a stop that commit, in ascending order: of the candidates, those that are wanted and reach
no home that an undone lower element of the same member reaches (R224, R225). `homes` names an element's homes by member,
and `left` holds those so reached; a home that is not known yet, none, stands for all. -/
def pickLate (homes : Nat → List (Nat × Option Nat)) (pick : Nat → Bool) :
    List Nat → List (Nat × Option Nat) → List Nat
  | [], _ => []
  | e :: es, left =>
    if pick e && !(homes e).any (fun h => left.any (fun l => l.1 == h.1 && (l.2.isNone || l.2 == h.2))) then
      e :: pickLate homes pick es left
    else pickLate homes pick es (homes e ++ left)

/-- The home that an element of a member reaches, none where it is not known; nothing where the element stops itself. -/
def Seen.homeAt (x : Seen) (e : Nat) : List (Option Nat) :=
  if !x.active.getLsbD e then []
  else if x.unready.getLsbD e then [none]
  else match x.m.home x.st e with
  | some h => [some h]
  | none => []

/-- A word of the convoy must wait, so that not every member has issued. -/
def Pass.cutShort (p : Pass) : Bool :=
  match p.block with
  | none => false
  | some (.send _) => false
  | some _ => true

/-- R224: the elements above a stop at `elem` that commit: on a page fault or a pre-emption every one that may, on a trap
those of the free value (log 8). -/
def Issue.late (i : Issue) (elem : Nat) (all : Bool) : Mask :=
  let tr := i.pass.trace
  if i.pass.cutShort || tr.any (fun x => x.m.commit == .ordered && x.m.role != .table) ||
      !tr.any (fun x => x.m.commit == .unordered) then 0
  else
    let homes (e : Nat) : List (Nat × Option Nat) :=
      tr.zipIdx.flatMap (fun x => if x.1.m.commit == .unordered then (x.1.homeAt e).map (fun h => (x.2, h)) else [])
    let pick (e : Nat) : Bool :=
      decide (elem < e) && !i.pass.stopped.getLsbD e && (all || Config.lateCommit i.start.tick e)
    maskOf (pickLate homes pick
      ((List.range 2048).filter (fun e => decide (elem ≤ e) && (i.act &&& i.pass.busy).getLsbD e)) [])

/-- The registers, window table and VCFG of a strand: all that window-table words and `vcfg` write. -/
structure Tables where
  gpr : Vector Word 32
  win : Vector Word 32
  vcfg : Word

/-- What window-table words and `vcfg` write, as it stands. -/
def tablesOf (h : Strand) : Tables := { gpr := h.gpr, win := h.win, vcfg := h.ctrl.vcfg }

/-- The strand with its registers, window table and VCFG as given. -/
def withTables (h : Strand) (x : Tables) : Strand := { h with gpr := x.gpr, win := x.win, ctrl := { h.ctrl with vcfg := x.vcfg } }

/-- What the members commit where their convoy stops: the state, register results, stream advances of accepted seam work,
whether the seam has accepted one and a release has taken effect, a cut of `vldff`, the cells and mask bits left unwritten,
the cells that seam members not yet accepted still read, whether a member has committed a cell that an older one has still to
write or read, and the words and positions so far. -/
structure Commits where
  st : State
  gws : List (Reg × Word × Bool)
  adv : List (Nat × Nat)
  seam : Bool
  released : Bool
  cut : Option Nat
  unwritten : List Cell
  unmasked : List (BitVec 3 × Mask)
  unread : List Cell
  clash : Bool
  count : Nat
  pos : Nat

/-- No word of an issue has committed anything. -/
def commitsFrom (i : Issue) : Commits :=
  { st := i.start, gws := [], adv := [], seam := false, released := false, cut := none, unwritten := [], unmasked := [],
    unread := [], clash := false, count := 0, pos := i.pos }

/-- Two cells share a bit. -/
def Cell.meets (a b : Cell) : Bool := a.row == b.row && decide (a.lo < b.lo + b.len) && decide (b.lo < a.lo + a.len)

/-- R172: a member that commits the cells `put` and leaves `left` commits one that an older member, or a lower element of its
own, has still to write, or that the seam has still to read (R175). -/
def Commits.collides (q : Commits) (put left : List Cell) : Bool :=
  put.any (fun c => q.unwritten.any c.meets || q.unread.any c.meets || left.any (fun x => decide (x.pos < c.pos) && c.meets x))

/-- Commits the elements of `acts` of one member; `todo` are those still to be done. The seam accepts a member only where no
older member has left one of its sources unwritten (R172, R295); its STREAM windows then advance, so that another reader of the
channel finds the advanced position when it is issued again (R167; log 33). -/
def Commits.add (q : Commits) (acts todo : Mask) (m : Member) : Commits :=
  let s := fillMasks q.unmasked q.st
  let undone := m.active s &&& todo &&& ~~~acts
  let (left, put) := ((m.writes s).filter (fun c => todo.getLsbD c.pos)).partition (fun c => !acts.getLsbD c.pos)
  let waits := m.seam && touching (m.reads s) q.unwritten != 0
  if m.whole || m.once || m.commit == .last || waits then
    { q with
      unwritten := q.unwritten ++ m.writes s
      unmasked := if m.kOut = 0 then q.unmasked else (m.kOut, m.active s &&& todo) :: q.unmasked
      unread := if waits then q.unread ++ m.reads s else q.unread }
  else
    let r := m.run acts q.st
    { q with
      st := r.st
      gws := q.gws ++ ((r.gw.filter (fun _ => r.seamAccepted || acts.getLsbD 0)).map (fun w =>
        (w.1, w.2, r.seamAccepted))).toList
      adv := if m.seam && r.seamAccepted then q.adv ++ r.adv else q.adv
      seam := q.seam || r.seamAccepted
      released := q.released || r.released
      cut := if r.newVl.isSome then r.newVl else q.cut
      unwritten := q.unwritten ++ left
      unmasked := if m.kOut = 0 || undone = 0 then q.unmasked else (m.kOut, undone) :: q.unmasked
      clash := q.clash || q.collides put left }

/-- The next word of a stopped issue: it is counted, and where it is not complete already its member commits. -/
def Commits.word (i : Issue) (acts : Mask) (q : Commits) (m : Member) : Commits :=
  let s := { q with st := i.tally.count m.bits q.count q.pos (vl q.st) q.st }
  { (if q.count < i.ahead then s else s.add acts i.act m) with
    count := q.count + 1
    pos := match m.role with | .member _ => q.pos + 1 | _ => q.pos }

/-- R35: the word that has issued and traps at issue behind the words that have issued as members: it is none of them. -/
def Issue.barrier (i : Issue) : Option Nat :=
  match i.pass.issue with
  | some _ => (i.words[i.pass.count]?).map Member.bits
  | none => if i.pass.count == i.words.length then i.barred else none

/-- What the words that issued commit of the elements of `acts`; a word that traps at issue behind them is counted as they stop,
and issues again (R35, R402). -/
def Issue.commits (i : Issue) (acts : Mask) : Commits :=
  let q := (i.words.take i.pass.count).foldl (Commits.word i acts) (commitsFrom i)
  match i.barrier with
  | some w => { q with st := i.tally.count w q.count q.pos (vl q.st) q.st }
  | none => q

/-- R150, R151: what commits at a stop whose lowest element not done is `elem`: the elements below it, and those above it that
may; none of either kind where the convoy is interlocked or the sequential order of its cells demands it (R172; log 61).
Answers STIDX.start, the elements above it, and the commits; none where nothing commits. -/
def Issue.commit (i : Issue) (elem : Nat) (all : Bool) : Option (Nat × Mask × Commits) :=
  if i.pass.interlocked then none
  else
    let start := i.pass.onceFrom i.act elem
    let base := i.act &&& below start
    let above := if start != elem then 0 else i.late elem all
    let q := i.commits (base ||| above)
    if !q.clash then some (start, above, q)
    else
      let q := i.commits base
      if q.clash || above = 0 then none else some (start, 0, q)

/-- R294: of a stopped convoy whose seam member is accepted, the SGW that its older members have captured. -/
def Issue.older (i : Issue) (q : Commits) (t : State) : Option (BitVec 48 × BitVec 2) :=
  if seamDoneAt i.first i.start then i.start.hart.seam.older
  else if q.seam && t.hart.seam.gw != i.start.hart.seam.gw then some (i.first, i.start.hart.seam.gw)
  else t.hart.seam.older

/-- R35, R150: the convoy stops with `elem` the lowest element that is not done; `all` elements above it commit that may.
Answers the state it leaves, with STIDX.start, STIDX.sa and kd. A word that traps at issue is no member of it (R35), and a
message that was refused is sent again. The words issue again, its window-table and `vcfg` words among them, so what these
have written is as before the convoy (R20, R170; log 33). -/
def Issue.halt (i : Issue) (elem : Nat) (all : Bool) : State × Nat × Bool × Mask :=
  let s := i.start
  let done := i.commit elem all
  let (start, above, q) := done.getD (startOf s, 0, i.commits 0)
  let s' := q.adv.foldl advanceStream (applyRegs q.gws { q.st with hart := withTables q.st.hart (tablesOf s.hart) })
  let x := standOf s'.hart i.first
  let h := putStand { x with
    released := x.released || q.released
    cut := match q.cut with | some f => if f < start then some f else none | none => x.cut
    reply := match x.reply with | some (.ok bs) => some (.ok bs) | _ => none
    words := if i.pass.issue.isSome then i.pass.count else i.words.length
    owed := false
    begun := false
    tallied := 0
    seam := trapActive s && (x.seam || q.seam) } s'.hart
  ({ s' with hart := { h with convoy := .none, admitted := false, seam := { h.seam with older := i.older q s' } } }, start, q.seam || seamDoneAt i.first s,
   if done.isNone then kdOf s else (above ||| kdOf s) &&& ~~~(below (start + 1)))

/-- R248: at most 32 misses of one member, one for each page, in the order found; 32 for the suspension. -/
def pagesOnce : List Miss → List Miss → List Miss
  | [], acc => acc.reverse
  | m :: ms, acc =>
    if acc.any (fun x => x.member == m.member && x.va / 2 ^ 16 == m.va / 2 ^ 16) then pagesOnce ms acc
    else pagesOnce ms (m :: acc)

/-- R35, R150, R247: stops the convoy at the lowest stop of its first pass. -/
def stopConvoy (i : Issue) (elem member : Nat) (t : Option Trap) : State :=
  let (s, start, sa, kd) := i.halt elem t.isNone
  match t with
  | some t => takeTrap { t with member := BitVec.ofNat 3 member } i.first start sa kd s
  | none => suspend (pagesOnce i.pass.misses []) i.first start sa kd s

/-! ### Words that join no convoy (R35) -/

/-- R35: a word after the first `n` of a convoy ends it early, by a trap at issue or its fetch; the older ones are complete.
Of words that were members of the convoy at its last stop, STIDX, kd and the rest stand, at the word's own address. -/
def keepStop (i : Issue) (n : Nat) (pc : BitVec 48) (s : State) : State :=
  let x := standOf i.start.hart i.first
  if x.words ≤ n then s
  else
    let sa := seamDoneAt i.first i.start && !(i.words.take n).any (·.seam)
    let cut := if (i.words.take n).any (fun m => isFirstFault m.word) then none else x.cut
    let h := putStand { x with
      first := pc, ahead := x.ahead - n, cut := cut, words := x.words - n, owed := false, begun := false, tallied := 0,
      seam := trapActive s && sa } { s.hart with seam := { s.hart.seam with
        older := s.hart.seam.older.map (fun y => (if y.1 = i.first then pc else y.1, y.2)) } }
    if trapActive s then { s with hart := h }
    else
      { s with hart := { h with
          ctrl := { h.ctrl with stidx := BitVec.ofNat 64 (sa.toNat * 2 ^ 11 + startOf i.start) }
          kd := kdOf i.start } }

/-- R35: a word that traps at issue, or whose fetch does, joins no convoy: EPC is the word, and the stop state that it
finds stands. -/
def trapAlone (t : Trap) (pc : BitVec 48) (s : State) : State := takeTrap t pc (startOf s) (seamDone s) (kdOf s) s

/-! ### A convoy at issue -/

/-- R31, R32, R35: how the first word of the list stands to the strand's convoy: the first member's address, classes,
positions, whether an older member stands alone, whether it joins, and whether it follows an ended convoy. -/
def joinState (s : State) (c : BitVec 1) : BitVec 48 × BitVec 8 × Nat × Bool × Bool × Bool :=
  match s.hart.convoy, c with
  | .open first classes pos alone, 1 => (first, classes, pos, alone, true, false)
  | .ended, 1 => (s.hart.pc, 0, 0, false, false, true)
  | _, _ => (s.hart.pc, 0, 0, false, false, false)

/-- R33: the convoy of a word is open. -/
def openConvoy (first : BitVec 48) (s : State) : State :=
  { s with hart := { s.hart with convoy := .open first 0 0 false } }

/-- R33: a convoy begins at a word (event 4 of R405). -/
def beginConvoy (first : BitVec 48) (s : State) : State := countEvent 4 1 (openConvoy first s)

/-- R33: the state at the issue of a word: a convoy begins unless the word joins one, or follows one that has ended; one that
waits for its own copy (R349) or its message (R27) has begun already. -/
def atIssue (first : BitVec 48) (joins ended : Bool) (s : State) : State :=
  if joins || ended then s
  else if (standOf s.hart first).begun then openConvoy first s else beginConvoy first s

/-- The first pass of the words `m0 :: ms`, which are counted where `counted` says so. Of a convoy that waits for its own copy,
or for what its message brings, the words that have issued are counted. -/
def issueWords (m0 : Member) (ms : List Member) (counted : Bool) (s : State) : Issue :=
  let (first, classes, pos, alone, joins, ended) := joinState s m0.c
  let x := standOf s.hart first
  let s0 := atIssue first joins ended s
  let act := actOf s
  let y : Tally := if counted then some x.tallied else none
  { words := m0 :: ms, barred := none, first := first, classes := classes, pos := pos, start := s0, ahead := x.ahead, tally := y, act := act,
    pass := runPass act x.ahead y (m0 :: ms) joins ended (passFrom s0 classes pos alone) }

/-- The stop that a pass reports: its lowest. A member that must wait comes before a stop above the first element, unless it
waits for a channel's operation that the stop keeps from being accepted (R349). -/
def passStop (i : Issue) : Option (Nat × Nat × Option Trap) :=
  match i.pass.low, i.pass.block with
  | some x, none => some x
  | some x, some (.send _) => some x
  | some (e, x), some _ => if e != 0 && !i.pass.drift then none else some (e, x)
  | none, _ => none

/-- R349: the copies that the words accepted are what one of them waits for: those words are complete. -/
def Pass.copied (p : Pass) : Bool := p.drift && p.stopped == 0

/-- R29, R167: the words wait at issue: none of them has issued. -/
def Issue.waits (i : Issue) : Bool :=
  (passStop i).isNone && !i.pass.copied && (match i.pass.block with | some .wait => true | _ => false)

/-- R349: the words before one that waits for a channel are complete where one of them is a copy that it may wait for. -/
def completeAhead (i : Issue) (s : State) : State :=
  let p := i.pass
  let s' := p.adv.foldl advanceStream (applyRegs p.gws p.st)
  let x := standOf s'.hart i.first
  { s' with hart := { putStand { x with ahead := p.count, cut := p.vlLeft x, begun := true, tallied := p.count } s'.hart with
                      convoy := s.hart.convoy } }

/-- R402: the words of an issue that have issued are counted, each with the VL that it captures (R32), and none of them has acted. -/
def Issue.counts (i : Issue) : State :=
  ((i.words.take i.pass.count).zipIdx.foldl (fun (x : State × State × Nat) y =>
    (i.tally.count y.1.bits y.2 x.2.2 (vl x.2.1) x.1,
     if y.1.role = .table ∧ i.ahead ≤ y.2 then (y.1.run i.act x.2.1).st else x.2.1,
     match y.1.role with | .member _ => x.2.2 + 1 | _ => x.2.2))
    (i.start, i.start, i.pos)).1

/-- R402: the first word of an issue is counted: it issues, and has not been counted since its convoy began. -/
def Issue.countsFirst (i : Issue) : Bool :=
  i.tally == some 0 && (match i.pass.block with | none => true | some (.send _) => true | _ => false)

/-- A message leaves, and its strand awaits what comes back (R27): its words have issued, and none of them has acted. -/
def Issue.sends (i : Issue) (msg : Msg) (c : Convoy) : State :=
  let s := i.counts
  let h := putStand { standOf s.hart i.first with begun := true, tallied := i.pass.count } s.hart
  { s with msgs := s.msgs ++ [msg], hart := { h with convoy := c, run := .messaging i.first } }

/-- A convoy that cannot act yet (R27, R29, R373). -/
def blockConvoy (i : Issue) (b : Block) (s : State) : State :=
  match b with
  | .wait => if i.pass.copied then completeAhead i s else s
  | .governor =>
    let d := dieAt s (dieOf s.hart.core)
    setDie { s with hart := { s.hart with run := .held } } (dieOf s.hart.core)
      { d with govQ := d.govQ ++ [(s.hart.core, s.hart.slot, s.tick)], holds := d.holds.tail }
  | .send msg => i.sends msg s.hart.convoy

/-- The strand's pc after `n` words. -/
def wordsOn (s : State) (n : Nat) : BitVec 48 := s.hart.pc + BitVec.ofNat 48 (4 * n)

/-- What follows the words of a convoy (R35): no word that would join it; one that would, but its fetch stops or it is no
instruction, here with its bits; or one that was no member when the convoy stopped, and issues with no convoy. -/
inductive Tail where
  | clear
  | barred (word : Option Nat)
  | apart
  deriving DecidableEq, Repr

/-- A word would join the convoy and may not. -/
def Tail.bars : Tail → Bool
  | .barred _ => true
  | _ => false

/-- The issue with what follows its words. -/
def Issue.before (i : Issue) (tail : Tail) : Issue := { i with barred := match tail with | .barred w => w | _ => none }

/-- Executes consecutive words of one convoy as a unit (R33–R35). -/
def runConvoy (ms : List Member) (tail : Tail) (counted : Bool) (s : State) : Res :=
  match ms with
  | [] => .next s
  | m0 :: rest =>
    let i := (issueWords m0 rest counted s).before tail
    let p := i.pass
    let n := p.count
    match passStop i with
    | some (e, member, t) => .next (stopConvoy i e member t)
    | none =>
      match p.block with
      | some b => .next (blockConvoy i b s)
      | none =>
        match p.issue with
        | some t =>
          let done := if n = 0 then i.tally.count m0.bits 0 i.pos (vl s) s else keepStop i n (wordsOn s n) (completeConvoy i.first p)
          .next (trapAlone t (wordsOn s n) done)
        | none =>
          let done := completeConvoy i.first p
          let s' := if tail.bars then keepStop i n (wordsOn s n) done else done
          .next { s' with hart := { s'.hart with
            convoy := if tail = .apart then .none else .open i.first p.classes p.pos p.alone
            pc := wordsOn s n } }

/-- Executes consecutive words of one convoy as a unit, the next word not among them. -/
def runWords (ms : List Member) (s : State) : Res := runConvoy ms .clear false s

/-- R150, R151: a pre-emption or swap stops the convoy at its lowest element left from the boundary `elem` on, where it may:
not while a member waits, not before its first element commits or once its last one has, and not while it is interlocked or a
member acts in one step. The strand stands at the convoy's first word. -/
def Issue.interrupt (i : Issue) (elem : Nat) : Option State :=
  let todo := i.act &&& i.pass.busy
  match lowestFrom todo elem (2048 - elem) with
  | none => none
  | some e =>
    let reached := match i.pass.low with | some (l, _) => decide (e ≤ l) | none => true
    if i.pass.block.isSome || (i.commit e true).isNone || i.pass.onceFrom i.act e != e || !reached ||
        !(lowest todo).any (fun l => decide (l < e)) then none
    else
      let (s, start, sa, kd) := i.halt e true
      some { s with hart := { s.hart with
        pc := i.first
        resuming := true
        ctrl := if trapActive s then s.hart.ctrl
                else { s.hart.ctrl with stidx := BitVec.ofNat 64 (sa.toNat * 2 ^ 11 + start % 2048) }
        kd := if trapActive s then s.hart.kd else kd } }

end Sys2Proof.Machine
end

