-- ==== Sys2Proof/Machine/Plane.lean ====
section
/-!
DEFINITION. The plane engine (R191–R215): window table and `vcfg`, element-wise arithmetic, compares, moves, reductions,
conversions and masks. Each form is a member of a convoy (`mem…`) and a word by itself (`exec…`).
-/
namespace Sys2Proof.Machine

open Sys2Proof

/-! ### Elementary functions of the special-function pipe (R200, R201) -/

/-- Fraction bits of the fixed-point evaluation of 2^x and log2 x (log 17). -/
def fxBits : Nat := 320

/-- ln 2 with `fxBits` fraction bits. -/
def fxLn2 : Nat := 0xb17217f7d1cf79abc9e3b39803f2f6af40f343267298b62d8a0d175b8baafa2be7b876206debac98

/-- The sum of `t^k / k!` from term `k` on, `n` more terms, with the term before it. -/
def expSeries (t : Nat) : Nat → Nat → Nat → Nat
  | 0, _, _ => 0
  | n + 1, k, term =>
    let next := term * t / 2 ^ fxBits / k
    next + expSeries t n (k + 1) next

/-- The sum of `z^(2j+1) / (2j+1)` over `n` terms; `p` is the next power of z. -/
def atanhSeries (z2 : Nat) : Nat → Nat → Nat → Nat
  | 0, _, _ => 0
  | n + 1, j, p => p / (2 * j + 1) + atanhSeries z2 n (j + 1) (p * z2 / 2 ^ fxBits)

/-- 2^x of a finite number: an exact power for an integer, otherwise irrational (R201). -/
def exp2Fin (neg : Bool) (mag : Nat) (exp : Int) : Num :=
  if mag = 0 then .fin false 1 0 false
  else if 24 < exp + bitLen mag then .fin false 1 (if neg then -(2 ^ 20) else 2 ^ 20) (neg && false)
  else
    let z : Int := if neg then -(mag : Int) else mag
    if 0 ≤ exp then .fin false 1 (z * 2 ^ exp.toNat) false
    else
      let d := (-exp).toNat
      let n := z / 2 ^ d
      let f := (z - n * 2 ^ d).toNat
      if f = 0 then .fin false 1 n false
      else
        let t := f * fxLn2 / 2 ^ d
        .fin false (2 ^ fxBits + expSeries t 100 1 (2 ^ fxBits)) (n - fxBits) true

/-- log2 of a positive finite number: an exact integer for a power of two, otherwise irrational (R201). -/
def log2Fin (mag : Nat) (exp : Int) : Num :=
  let l := Nat.log2 mag
  let e : Int := exp + l
  if mag = 2 ^ l then ofIntN e
  else
    let z := (mag - 2 ^ l) * 2 ^ fxBits / (mag + 2 ^ l)
    let ln := 2 * atanhSeries (z * z / 2 ^ fxBits) 110 0 z
    let t : Int := e * 2 ^ fxBits + (ln * 2 ^ fxBits / fxLn2 : Nat)
    if 0 ≤ t then .fin false t.toNat (-(fxBits : Int)) true
    else .fin true (-t - 1).toNat (-(fxBits : Int)) true

/-- `vexp2` of a number (R201). -/
def exp2N (x : Num) : Num × Flags :=
  match x with
  | .nan _ => (.nan false, snanFlag [x])
  | .inf neg => (if neg then .fin false 0 0 false else .inf false, 0)
  | .fin neg m e _ => (exp2Fin neg m e, 0)

/-- `vlog2` of a number (R201). -/
def log2N (x : Num) : Num × Flags :=
  match x with
  | .nan _ => (.nan false, snanFlag [x])
  | .inf neg => if neg then (.nan false, flNV) else (x, 0)
  | .fin neg m e _ => if m = 0 then (.inf true, flDZ) else if neg then (.nan false, flNV) else (log2Fin m e, 0)

/-- `vrsq` of a number: 1 / √x, correctly rounded (R200). -/
def rsqN (x : Num) : Num × Flags :=
  match x with
  | .nan _ => (.nan false, snanFlag [x])
  | .inf neg => if neg then (.nan false, flNV) else (.fin false 0 0 false, 0)
  | .fin neg m e _ =>
    if m = 0 then (.inf neg, flDZ)
    else if neg then (.nan false, flNV)
    else
      let m := if e % 2 = 0 then m else 2 * m
      let e := if e % 2 = 0 then e else e - 1
      let s := 96 + bitLen m
      let r := isqrt (2 ^ (2 * s) / m)
      (.fin false r (-(e / 2) - s) (r * r * m != 2 ^ (2 * s)), 0)

/-! ### Members that work element by element -/

/-- The type code of a window's descriptor. -/
def tyOf (s : State) (w : Win) : Nat := dType (readW s w)

/-- R189: writes bit e of kE for each performed element: 1 if it raised a class other than NX. -/
def exceptMask (raised : List (Nat × Flags)) (old : Mask) : Mask :=
  raised.foldl (fun m r => if r.2 &&& ~~~flNX = 0 then m &&& ~~~(oneBit r.1) else m ||| oneBit r.1) old

/-- Groups of 256 bits of consecutive elements among a list (R34). -/
def groupsOf (b : Nat) (es : List Nat) : Nat := ((es.map (fun e => e * b / 256)).eraseDups).length

/-- The nibbles that the STREAM sources of an instruction consume (R167). -/
def streamUse (s : State) (ds : List Word) : List (Nat × Nat) :=
  ds.filterMap (fun d => if dKind d = 4 then some (dChan d, vl s * tyBits (dType d) / 4) else none)

/-- The first error that the sources of one element meet (R146). -/
def badAt (s : State) (srcs : List (Word × Nat)) : Option (Nat × Nat) :=
  if s.hart.badBits.isEmpty && s.bad.isEmpty then none else srcs.findSome? (fun x => badSource s x.1 x.2)

/-- The elements of a list whose sources meet an error, each with its tier and granule (R146; log 21). -/
def badElems (s : State) (srcs : Nat → List (Word × Nat)) (es : List Nat) : List (Nat × Nat × Nat) :=
  if s.hart.badBits.isEmpty && s.bad.isEmpty then []
  else es.filterMap (fun e => (badAt s (srcs e)).map (fun a => (e, a)))

/-- MEMERR of a granule of a tier at an element (R146). -/
def sourceError (e : Nat) (a : Nat × Nat) : Trap :=
  { cause := 12, aux := BitVec.ofNat 16 a.1, addr := BitVec.ofNat 48 a.2, ev := true, elem := BitVec.ofNat 11 e }

/-- A lane or seam form that finds errors in its sources traps at its issue, with the lowest of its elements that meets one, and
joins no convoy: it is settled once its checks at issue pass, and a convoy of lane members cannot trap later (R27, R151,
R154; log 21). -/
def issueError (s : State) (bad : List (Nat × Nat × Nat)) : Option MRes :=
  bad.head?.map (fun x => { st := s, early := some (sourceError x.1 x.2) })

/-- The stop of a form that finds errors in its sources: at the lowest; none of the given elements is done. -/
def errorStop (s : State) (bad : List (Nat × Nat × Nat)) (es : List Nat) : Option MRes :=
  bad.head?.map (fun x => { st := s, trap := some (x.1, some (sourceError x.1 x.2)), stopped := maskOf es })

/-- Element `e` of each of a list of source windows. -/
def sameElem (ds : List Word) (e : Nat) : List (Word × Nat) := ds.map (fun d => (d, e))

/-- Writes values into elements of a window, in order; answers the strand and the flags, EDGE among them (R168). -/
def putElems (d : Word) : List (Nat × Nat × Flags) → Strand → Strand × Flags
  | [], h => (h, 0)
  | (e, v, f) :: t, h =>
    let (h, f') := writeElem h d e v
    let (h, g) := putElems d t h
    (h, f ||| f' ||| g)

/-- Writes a list of elements through a window; answers the strand and each element's flags with EDGE (R168). -/
def writeElems (d : Word) : List (Nat × Nat × Flags) → Strand → Strand × List (Nat × Flags)
  | [], h => (h, [])
  | (e, v, f) :: t, h =>
    let (h, f') := writeElem h d e v
    let (h, r) := writeElems d t h
    (h, (e, f ||| f') :: r)

/-- Performs each element of a list on the strand, and lists their flags in order. -/
def performEach (put : Nat → Strand → Strand × Flags) : List Nat → Strand → Strand × List (Nat × Flags)
  | [], h => (h, [])
  | e :: es, h =>
    let (h, f) := put e h
    let (h, r) := performEach put es h
    (h, (e, f) :: r)

/-- R192: an element-wise form that writes windows: every source is read before any element is written. Element `e` reads
`srcs e`, and `put es e` writes it, `es` being the elements performed, which `groups` counts in groups (R34). -/
def eachRun (groups : List Nat → Nat) (k : Mask) (xk : Option (BitVec 3)) (ds : List Word) (srcs : Nat → List (Word × Nat))
    (put : List Nat → Nat → Strand → Strand × Flags) (act : Mask) (s : State) : MRes :=
  let es := elemsOf s k act
  match issueError s (badElems s srcs es) with
  | some r => r
  | none =>
    let (h, raised) := performEach (put es) es s.hart
    let s' := mergeFlags raised { s with hart := h }
    let s' := match xk with
      | some ke => writeK s' ke (exceptMask raised (readK s ke))
      | none => s'
    { st := countEvent 5 (groups es) s', adv := streamUse s ds }

/-- An element-wise form whose element `e` writes element `e` of wd. -/
def laneRun (wd : Win) (ds : List Word) (srcs : Nat → List (Word × Nat)) (k : Mask) (xk : Option (BitVec 3))
    (f : State → Nat → Nat × Flags) (act : Mask) (s : State) : MRes :=
  if ds.any (streamWaits s) then { st := s, block := some .wait }
  else
    let d := readW s wd
    eachRun (groupsOf (tyBits (dType d))) k xk ds srcs (fun _ e h => putElems d [(e, f s e)] h) act s

/-- R192, R202: an element-wise form that writes a mask. -/
def laneMaskRun (kd : BitVec 3) (srcs : List Win) (k : Mask) (f : State → Nat → Bool × Flags)
    (act : Mask) (s : State) : MRes :=
  let ds := srcs.map (readW s)
  if ds.any (streamWaits s) then { st := s, block := some .wait }
  else
    let es := elemsOf s k act
    match issueError s (badElems s (sameElem ds) es) with
    | some r => r
    | none =>
      let rs := es.map (fun e => (e, f s e))
      let m := rs.foldl (fun m r => if r.2.1 then m ||| oneBit r.1 else m &&& ~~~(oneBit r.1)) (readK s kd)
      let s' := mergeFlags (rs.map (fun r => (r.1, r.2.2))) (writeK s kd m)
      { st := countEvent 5 (groupsOf (tyBits (dType (ds.headD 0))) es) s', adv := streamUse s ds }

/-- The operand windows of a form: a destination and its sources with their codes (R146). -/
def operands (wd : Win) (srcs : List (Win × Nat)) : List Operand :=
  { win := wd, code := 0, dest := true } :: srcs.map (fun x => { win := x.1, code := x.2, dest := false })

/-- The checks at issue of a form with windows: R169, then the type rules of R191. -/
def windowChecks (i : Instr) (ops : List Operand) (types : State → List (Win × Nat × Bool)) (s : State) :
    Option Trap :=
  match checkWindows i ops s with
  | some t => some t
  | none => checkTypes i (types s)

/-- The cells that a list of elements reads through each of a list of windows. -/
def windowReads (ws : List Win) (es : List Nat) (s : State) : List Cell :=
  ws.flatMap (fun w => readCells s.hart (readW s w) es)

/-- The cells that the active elements of a form read through its windows. -/
def activeReads (ws : List Win) (kn : BitVec 3) (s : State) : List Cell :=
  windowReads ws (elemsOf s (readK s kn) onesMask) s

/-- The cells that the active elements of a form write through a window. -/
def activeWrites (wd : Win) (kn : BitVec 3) (s : State) : List Cell :=
  writeCells s.hart (readW s wd) (elemsOf s (readK s kn) onesMask)

/-- An element-wise member that writes a window; `also` are source windows that are no operands of its own. -/
def laneMember (i : Instr) (c : BitVec 1) (cl : BitVec 8) (wd : Win) (srcs : List (Win × Nat)) (kn : BitVec 3)
    (xk : Option (BitVec 3)) (types : State → List (Win × Nat × Bool)) (f : State → Nat → Nat × Flags)
    (also : List Win := []) : Member where
  word := i
  c := c
  role := .member cl
  check := windowChecks i (operands wd srcs) types
  run := fun act s =>
    laneRun wd (srcs.map (fun x => readW s x.1)) (sameElem ((srcs.map (·.1) ++ also).map (readW s))) (readK s kn) xk f act s
  active := activeOf kn
  reads := activeReads (srcs.map (·.1) ++ also) kn
  writes := activeWrites wd kn
  masks := [kn]
  kOut := xk.getD 0
  commit := .chained

/-- A member that reads all its sources before it writes anything (R193): the elements below VL of its source windows, and
the elements that it writes. -/
def wholeMember (i : Instr) (c : BitVec 1) (cl : BitVec 8) (srcs : List Win) (kn : BitVec 3)
    (dst : Option (Win × (State → List Nat))) (check : State → Option Trap) (run : Mask → State → MRes) : Member where
  word := i
  c := c
  role := .member cl
  check := check
  run := run
  active := activeOf 0
  reads := fun s => windowReads srcs (List.range (vl s)) s
  writes := fun s => match dst with | some (w, es) => writeCells s.hart (readW s w) (es s) | none => []
  masks := [kn]
  whole := true

/-- kE of a form with X = 1 (R189). -/
def xMask (x : BitVec 1) (ke : BitVec 3) : Option (BitVec 3) := if x = 1 then some ke else none

/-- Integer or float class. -/
def arith (t : Nat) : Bool := isInt t || isFloat t

/-- Two types of one class. -/
def sameClass (t u : Nat) : Bool := (isInt t && isInt u) || (isFloat t && isFloat u)

/-- Two types of one width. -/
def sameWidth (t u : Nat) : Bool := tyBits t == tyBits u

/-- val(w, e) of R192. -/
def valAt (s : State) (w : Win) (e : Nat) : Num := numVal (tyOf s w) (vcfgFtz s) (srcBits s (readW s w) e)

/-- val(w, e) of an integer-class window. -/
def intAt (s : State) (w : Win) (e : Nat) : Int := intVal (tyOf s w) (srcBits s (readW s w) e)

/-- fit(x) of R192 into element `e` of a window, with flags raised before it. -/
def fitAt (s : State) (wd : Win) (e : Nat) (x : Num × Flags) : Nat × Flags :=
  let (v, f) := fitTo (tyOf s wd) (laneMode s (readW s wd) e) x.1
  (v, x.2 ||| f)

/-- Word `[31:0]` of a form that needs only its windows and types checked and one step of its own. -/
def runOne (m : Member) (s : State) : Res := runWords [m] s

/-! ### Reduction trees (R190) -/

/-- One level of the tree: nodes 2i and 2i + 1 combine; a lone child passes through. -/
def treeLevel (f : Num → Num → Num × Flags) : List (Option Num) → List (Option Num) × Flags
  | [] => ([], 0)
  | [x] => ([x], 0)
  | x :: y :: t =>
    let (r, g) := treeLevel f t
    match x, y with
    | some a, some b => let (v, h) := f a b; (some v :: r, g ||| h)
    | some a, none => (some a :: r, g)
    | none, b => (b :: r, g)

/-- `n` levels of the tree. -/
def treeUp (f : Num → Num → Num × Flags) : Nat → List (Option Num) → Option Num × Flags
  | 0, l => (l.head?.join, 0)
  | n + 1, l =>
    let (l', g) := treeLevel f l
    let (r, h) := treeUp f n l'
    (r, g ||| h)

/-- The operation of a reduction's nodes. -/
inductive RedOp where
  | sum
  | max
  | min
  deriving DecidableEq, Repr

/-- R209: one node: floats are fitted to the destination type at every node, integers stay exact. -/
def redNode (op : RedOp) (t : Nat) (m : Mode) (x y : Num) : Num × Flags :=
  let (v, f) := match op with
    | .sum => addN m.rm x y
    | .max => pickN maxFirst x y
    | .min => pickN minFirst x y
  if isFloat t then
    let (b, g) := roundF (fmtOf t) m v
    (readF (fmtOf t) false b, f ||| g)
  else (v, f)

/-- R209: the result when no element is present. -/
def redIdentity (op : RedOp) (t : Nat) : Nat :=
  match op with
  | .sum => 0
  | .max =>
    if isFloat t then
      let f := fmtOf t
      f.signBit true + (if f.inf then f.infBits else f.maxBits)
    else if isSigned t then 2 ^ (tyBits t - 1) else 0
  | .min =>
    if isFloat t then
      let f := fmtOf t
      if f.inf then f.infBits else f.maxBits
    else if isSigned t then 2 ^ (tyBits t - 1) - 1 else 2 ^ tyBits t - 1

/-- R190, R209: the reduction of the present values, by index, fitted to type `t`. -/
def reduce (op : RedOp) (t : Nat) (m : Mode) (vals : List (Option Num)) : Nat × Flags :=
  match treeUp (redNode op t m) 12 vals with
  | (none, _) => (redIdentity op t, 0)
  | (some r, f) =>
    let (b, g) := fitTo t m r
    (b, f ||| g ||| snanFlag [r])

/-- The values of the present elements of a window, by index below `n` (R190). -/
def present (s : State) (wa : Win) (k : Mask) (n : Nat) : List (Option Num) :=
  (List.range n).map (fun e => if k.getLsbD e then some (valAt s wa e) else none)

/-- R209: a reduction into element 0. Only the present elements are read (log 21). -/
def redRun (op : RedOp) (wd wa : Win) (kn : BitVec 3) (act : Mask) (s : State) : MRes :=
  let da := readW s wa
  let es := elemsOf s (readK s kn) onesMask
  if streamWaits s da then { st := s, block := some .wait }
  else if vl s = 0 || !act.getLsbD 0 then { st := s, adv := streamUse s [da] }
  else match issueError s (badElems s (sameElem [da]) es) with
    | some r => r
    | none =>
      let d := readW s wd
      let (v, f) := reduce op (dType d) (laneMode s d 0) (present s wa (readK s kn) (vl s))
      let (h, g) := writeElem s.hart d 0 v
      { st := countEvent 5 (groupsOf (tyBits (dType da)) es) (mergeFlags [(0, f ||| g)] { s with hart := h }),
        adv := streamUse s [da] }

/-- R210: inclusive prefix sums, each by its own tree. -/
def scanRun (wd wa : Win) (kn : BitVec 3) (act : Mask) (s : State) : MRes :=
  laneRun wd [readW s wa] (sameElem [readW s wa]) (readK s kn) none (fun s e =>
    reduce .sum (tyOf s wd) (laneMode s (readW s wd) e) (present s wa (readK s kn) (e + 1))) act s

/-- A form that answers a general register as its element 0 (R193): the sources it reads, the groups it performs (R405), and
its result. -/
def regRun (ds : List Word) (srcs : List (Word × Nat)) (groups : Nat) (gd : Reg) (f : State → Word) (act : Mask)
    (s : State) : MRes :=
  if ds.any (streamWaits s) then { st := s, block := some .wait }
  else if !act.getLsbD 0 then { st := s, adv := streamUse s ds }
  else match srcs.findSome? (fun x => (badAt s [x]).map (fun a => (x.2, a))) with
    | some (e, a) => { st := s, early := some (sourceError e a) }
    | none => { st := countEvent 5 groups s, gw := some (gd, f s), adv := streamUse s ds }

/-! ### Window table and VCFG (R194, R195) -/

/-- A window-table or `vcfg` word: it acts at issue, whatever the elements still to be done. -/
def tableMember (i : Instr) (c : BitVec 1) (priv : State → Bool) (check : State → Option Trap)
    (f : State → State) : Member where
  word := i
  c := c
  role := .table
  priv := priv
  check := check
  run := fun _ s => { st := f s }

/-- R195: VCFG with the fields of the mask taken from a value. -/
def vcfgNew (old v : Word) (m : BitVec 7) : Word :=
  let put (i lo n : Nat) (x : Word) : Word := if m.getLsbD i then setBitsW x lo n (bitsW v lo n) else x
  put 6 21 1 (put 5 20 1 (put 4 17 3 (put 3 16 1 (put 2 15 1 (put 1 12 3 (put 0 0 12 old))))))

/-- R204, R155: the lowest element still to be done with both mask bits set. -/
def mergeElem (kn ke : BitVec 3) (s : State) : Option Nat :=
  if ke = 0 then none else (elemsOf s (readK s kn &&& readK s ke) (actOf s)).head?

/-- R155, R167: the value that names the deferred cause is not delivered yet. -/
def mergeStall (wa : Win) (kn ke : BitVec 3) (s : State) : Bool :=
  match mergeElem kn ke s with
  | some e => dKind (readW s wa) == 4 && readStream s (readW s wa) (streamPos s (readW s wa)) e == .notYet
  | none => false

/-- R204, R155: the deferred fault that `vmerge` raises; its aux and key are 0 (log 62). -/
def mergeFault (wa : Win) (kn ke : BitVec 3) (s : State) : Option Trap :=
  (mergeElem kn ke s).map (fun e =>
    let v := srcBits s (readW s wa) e % 16
    { cause := if [5, 6, 7, 8, 10, 11, 12].contains v then BitVec.ofNat 8 v else 6,
      ev := true, elem := BitVec.ofNat 11 e })

/-- R213: the selected elements of a window, packed from element 0. -/
def compressRun (wd wa : Win) (kn : BitVec 3) (act : Mask) (s : State) : MRes :=
  let da := readW s wa
  if streamWaits s da then { st := s, block := some .wait }
  else
    let es := elemsOf s (readK s kn) onesMask
    let moved := es.zipIdx.filter (fun x => act.getLsbD x.2)
    match issueError s (badElems s (sameElem [da]) (moved.map (·.1))) with
    | some r => r
    | none =>
      let vs := moved.map (fun x => (x.2, srcBits s da x.1, (0 : Flags)))
      let (h, raised) := writeElems (readW s wd) vs s.hart
      { st := countEvent 5 (groupsOf (tyBits (dType da)) es) (mergeFlags raised { s with hart := h }),
        adv := streamUse s [da] }

/-- R214: `kfun` over the elements below VL. -/
def kfunMask (s : State) (kd ka kb : BitVec 3) (t : BitVec 4) (act : Mask) : Mask :=
  let a := readK s ka
  let b := readK s kb
  let pick (i : Nat) (m : Mask) : Mask := if t.getLsbD i then m else 0
  let r := pick 0 (~~~a &&& ~~~b) ||| pick 1 (~~~a &&& b) ||| pick 2 (a &&& ~~~b) ||| pick 3 (a &&& b)
  let w := below (vl s) &&& act
  (readK s kd &&& ~~~w) ||| (r &&& w)

/-- A member that only reads and writes masks and a general register. -/
def maskMember (i : Instr) (c : BitVec 1) (active : State → Mask) (masks : List (BitVec 3)) (kOut : BitVec 3)
    (run : Mask → State → MRes) : Member where
  word := i
  c := c
  role := .member clAluA
  run := run
  active := active
  masks := masks
  kOut := kOut
  commit := .chained

/-- Groups of 256 mask bits below VL that hold one of the given elements (R34, R405; log 6). -/
def maskGroups (act : Mask) (s : State) : Nat := groupsOf 1 (elemsOf s onesMask act)

/-- R215: the element that `kset` and `kclr` act with: the one whose bit they write, or element 0 for a bit at or above VL
(log 33). -/
def bitElem (n : Nat) (s : State) : Nat := if n < vl s then n else 0

/-- R215: writes one mask bit. -/
def bitRun (kd : BitVec 3) (ga : Reg) (v : Bool) (act : Mask) (s : State) : MRes :=
  let n := (readG s ga).toNat
  if act.getLsbD (bitElem n s) then
    { st := countEvent 5 1 (if n < 2048 then
        writeK s kd (if v then readK s kd ||| oneBit n else readK s kd &&& ~~~(oneBit n)) else s) }
  else { st := s }

/-- `wdef` as a convoy member, R194. -/
def memWdef (c : BitVec 1) (w : Win) (ga : Reg) : Member :=
  tableMember (.wdef c w ga) c (fun _ => false) (fun _ => none) (fun s => writeW s w (readG s ga))

/-- `wdef`, R194. -/
def execWdef (c : BitVec 1) (w : Win) (ga : Reg) (s : State) : Res := runWords [memWdef c w ga] s

/-- `wget` as a convoy member, R194. -/
def memWget (c : BitVec 1) (w : Win) (gd : Reg) : Member :=
  tableMember (.wget c w gd) c (fun _ => false) (fun _ => none) (fun s => writeG s gd (readW s w))

/-- `wget`, R194. -/
def execWget (c : BitVec 1) (w : Win) (gd : Reg) (s : State) : Res := runWords [memWget c w gd] s

/-- `wcopy` as a convoy member, R194. -/
def memWcopy (c : BitVec 1) (w wsrc : Win) : Member :=
  tableMember (.wcopy c w wsrc) c (fun _ => false) (fun _ => none) (fun s => writeW s w (readW s wsrc))

/-- `wcopy`, R194. -/
def execWcopy (c : BitVec 1) (w wsrc : Win) (s : State) : Res := runWords [memWcopy c w wsrc] s

/-- `worg` as a convoy member, R194. -/
def memWorg (c : BitVec 1) (w : Win) (ga gb : Reg) : Member :=
  tableMember (.worg c w ga gb) c (fun _ => false) (fun _ => none) (fun s =>
    writeW s w (setBitsW (setBitsW (readW s w) 47 10 (readG s ga).toNat) 38 9 (readG s gb).toNat))

/-- `worg`, R194. -/
def execWorg (c : BitVec 1) (w : Win) (ga gb : Reg) (s : State) : Res := runWords [memWorg c w ga gb] s

/-- `wtype` as a convoy member, R194. -/
def memWtype (c : BitVec 1) (w : Win) (ty : BitVec 5) : Member :=
  tableMember (.wtype c w ty) c (fun _ => false) (fun _ => none) (fun s =>
    writeW s w (setBitsW (readW s w) 57 4 ty.toNat))

/-- `wtype`, R194. -/
def execWtype (c : BitVec 1) (w : Win) (ty : BitVec 5) (s : State) : Res := runWords [memWtype c w ty] s

/-- `vcfg` as a convoy member, R195. Naming OBS is privileged whatever bit it would write (log 76). -/
def memVcfg (c : BitVec 1) (ga gb : Reg) (fields : BitVec 7) : Member :=
  tableMember (.vcfg c ga gb fields) c (fun s => fields.getLsbD 6 && !privileged s)
    (fun s => if badCrValue 0 (vcfgNew s.hart.ctrl.vcfg (readG s ga) fields) then
                some (wordTrap (.vcfg c ga gb fields) 1 0) else none)
    (fun s => writeG (withCtrl s { s.hart.ctrl with vcfg := vcfgNew s.hart.ctrl.vcfg (readG s ga) fields }) gb
                s.hart.ctrl.vcfg)

/-- `vcfg`, R195. -/
def execVcfg (c : BitVec 1) (ga gb : Reg) (fields : BitVec 7) (s : State) : Res := runWords [memVcfg c ga gb fields] s

/-- `vadd` as a convoy member, R196. -/
def memVadd (c x : BitVec 1) (wd wa wb : Win) (kn ke : BitVec 3) : Member :=
  laneMember (.vadd c x wd wa wb kn ke) c clAluA wd [(wa, 1), (wb, 2)] kn (xMask x ke)
    (fun s => [(wd, 0, arith (tyOf s wd)), (wa, 1, sameClass (tyOf s wd) (tyOf s wa)), (wb, 2, sameClass (tyOf s wa) (tyOf s wb))])
    (fun s e => fitAt s wd e (addN (vcfgRm s) (valAt s wa e) (valAt s wb e)))

/-- `vadd`, R196. -/
def execVadd (c x : BitVec 1) (wd wa wb : Win) (kn ke : BitVec 3) (s : State) : Res := runWords [memVadd c x wd wa wb kn ke] s

/-- `vsub` as a convoy member, R196. -/
def memVsub (c x : BitVec 1) (wd wa wb : Win) (kn ke : BitVec 3) : Member :=
  laneMember (.vsub c x wd wa wb kn ke) c clAluA wd [(wa, 1), (wb, 2)] kn (xMask x ke)
    (fun s => [(wd, 0, arith (tyOf s wd)), (wa, 1, sameClass (tyOf s wd) (tyOf s wa)), (wb, 2, sameClass (tyOf s wa) (tyOf s wb))])
    (fun s e => fitAt s wd e (addN (vcfgRm s) (valAt s wa e) (valAt s wb e).negate))

/-- `vsub`, R196. -/
def execVsub (c x : BitVec 1) (wd wa wb : Win) (kn ke : BitVec 3) (s : State) : Res := runWords [memVsub c x wd wa wb kn ke] s

/-- `vmin` as a convoy member, R196. -/
def memVmin (c x : BitVec 1) (wd wa wb : Win) (kn ke : BitVec 3) : Member :=
  laneMember (.vmin c x wd wa wb kn ke) c clAluA wd [(wa, 1), (wb, 2)] kn (xMask x ke)
    (fun s => [(wd, 0, arith (tyOf s wd)), (wa, 1, sameClass (tyOf s wd) (tyOf s wa)), (wb, 2, sameClass (tyOf s wa) (tyOf s wb))])
    (fun s e => fitAt s wd e (pickN minFirst (valAt s wa e) (valAt s wb e)))

/-- `vmin`, R196. -/
def execVmin (c x : BitVec 1) (wd wa wb : Win) (kn ke : BitVec 3) (s : State) : Res := runWords [memVmin c x wd wa wb kn ke] s

/-- `vmax` as a convoy member, R196. -/
def memVmax (c x : BitVec 1) (wd wa wb : Win) (kn ke : BitVec 3) : Member :=
  laneMember (.vmax c x wd wa wb kn ke) c clAluA wd [(wa, 1), (wb, 2)] kn (xMask x ke)
    (fun s => [(wd, 0, arith (tyOf s wd)), (wa, 1, sameClass (tyOf s wd) (tyOf s wa)), (wb, 2, sameClass (tyOf s wa) (tyOf s wb))])
    (fun s e => fitAt s wd e (pickN maxFirst (valAt s wa e) (valAt s wb e)))

/-- `vmax`, R196. -/
def execVmax (c x : BitVec 1) (wd wa wb : Win) (kn ke : BitVec 3) (s : State) : Res := runWords [memVmax c x wd wa wb kn ke] s

/-- `vand` as a convoy member, R197. -/
def memVand (c : BitVec 1) (wd wa wb : Win) (kn : BitVec 3) : Member :=
  laneMember (.vand c wd wa wb kn) c clAluA wd [(wa, 1), (wb, 2)] kn none
    (fun s => [(wd, 0, tyBits (tyOf s wd) != 512), (wa, 1, sameWidth (tyOf s wd) (tyOf s wa)), (wb, 2, sameWidth (tyOf s wd) (tyOf s wb))])
    (fun s e => (srcBits s (readW s wa) e &&& srcBits s (readW s wb) e, 0))

/-- `vand`, R197. -/
def execVand (c : BitVec 1) (wd wa wb : Win) (kn : BitVec 3) (s : State) : Res := runWords [memVand c wd wa wb kn] s

/-- `vor` as a convoy member, R197. -/
def memVor (c : BitVec 1) (wd wa wb : Win) (kn : BitVec 3) : Member :=
  laneMember (.vor c wd wa wb kn) c clAluA wd [(wa, 1), (wb, 2)] kn none
    (fun s => [(wd, 0, tyBits (tyOf s wd) != 512), (wa, 1, sameWidth (tyOf s wd) (tyOf s wa)), (wb, 2, sameWidth (tyOf s wd) (tyOf s wb))])
    (fun s e => (srcBits s (readW s wa) e ||| srcBits s (readW s wb) e, 0))

/-- `vor`, R197. -/
def execVor (c : BitVec 1) (wd wa wb : Win) (kn : BitVec 3) (s : State) : Res := runWords [memVor c wd wa wb kn] s

/-- `vxor` as a convoy member, R197. -/
def memVxor (c : BitVec 1) (wd wa wb : Win) (kn : BitVec 3) : Member :=
  laneMember (.vxor c wd wa wb kn) c clAluA wd [(wa, 1), (wb, 2)] kn none
    (fun s => [(wd, 0, tyBits (tyOf s wd) != 512), (wa, 1, sameWidth (tyOf s wd) (tyOf s wa)), (wb, 2, sameWidth (tyOf s wd) (tyOf s wb))])
    (fun s e => (srcBits s (readW s wa) e ^^^ srcBits s (readW s wb) e, 0))

/-- `vxor`, R197. -/
def execVxor (c : BitVec 1) (wd wa wb : Win) (kn : BitVec 3) (s : State) : Res := runWords [memVxor c wd wa wb kn] s

/-- `vandn` as a convoy member, R197. -/
def memVandn (c : BitVec 1) (wd wa wb : Win) (kn : BitVec 3) : Member :=
  laneMember (.vandn c wd wa wb kn) c clAluA wd [(wa, 1), (wb, 2)] kn none
    (fun s => [(wd, 0, tyBits (tyOf s wd) != 512), (wa, 1, sameWidth (tyOf s wd) (tyOf s wa)), (wb, 2, sameWidth (tyOf s wd) (tyOf s wb))])
    (fun s e => 
      let b := tyBits (tyOf s wd)
      (srcBits s (readW s wa) e &&& (2 ^ b - 1 - srcBits s (readW s wb) e), 0))

/-- `vandn`, R197. -/
def execVandn (c : BitVec 1) (wd wa wb : Win) (kn : BitVec 3) (s : State) : Res := runWords [memVandn c wd wa wb kn] s

/-- R198: the shifts of an element of `b` bits by `s` below `b`. -/
def shiftBits (op b x s : Nat) : Nat :=
  match op with
  | 0 => x * 2 ^ s % 2 ^ b
  | 1 => x / 2 ^ s
  | 2 => (sextN b x / 2 ^ s % 2 ^ b).toNat
  | _ => (x * 2 ^ s + x / 2 ^ (b - s)) % 2 ^ b

/-- R198: the shift of element `e` of wa by element `e` of wb. -/
def shiftAt (op : Nat) (s : State) (wa wb : Win) (e : Nat) : Nat × Flags :=
  let b := tyBits (tyOf s wa)
  (shiftBits op b (srcBits s (readW s wa) e) (intAt s wb e % b).toNat, 0)

/-- `vshl` as a convoy member, R198. -/
def memVshl (c : BitVec 1) (wd wa wb : Win) (kn : BitVec 3) : Member :=
  laneMember (.vshl c wd wa wb kn) c clAluA wd [(wa, 1), (wb, 2)] kn none
    (fun s => [(wd, 0, isInt (tyOf s wd)), (wa, 1, (tyOf s wd == tyOf s wa)), (wb, 2, isInt (tyOf s wb))])
    (fun s e => shiftAt 0 s wa wb e)

/-- `vshl`, R198. -/
def execVshl (c : BitVec 1) (wd wa wb : Win) (kn : BitVec 3) (s : State) : Res := runWords [memVshl c wd wa wb kn] s

/-- `vshr` as a convoy member, R198. -/
def memVshr (c : BitVec 1) (wd wa wb : Win) (kn : BitVec 3) : Member :=
  laneMember (.vshr c wd wa wb kn) c clAluA wd [(wa, 1), (wb, 2)] kn none
    (fun s => [(wd, 0, isInt (tyOf s wd)), (wa, 1, (tyOf s wd == tyOf s wa)), (wb, 2, isInt (tyOf s wb))])
    (fun s e => shiftAt 1 s wa wb e)

/-- `vshr`, R198. -/
def execVshr (c : BitVec 1) (wd wa wb : Win) (kn : BitVec 3) (s : State) : Res := runWords [memVshr c wd wa wb kn] s

/-- `vsra` as a convoy member, R198. -/
def memVsra (c : BitVec 1) (wd wa wb : Win) (kn : BitVec 3) : Member :=
  laneMember (.vsra c wd wa wb kn) c clAluA wd [(wa, 1), (wb, 2)] kn none
    (fun s => [(wd, 0, isInt (tyOf s wd)), (wa, 1, (tyOf s wd == tyOf s wa)), (wb, 2, isInt (tyOf s wb))])
    (fun s e => shiftAt 2 s wa wb e)

/-- `vsra`, R198. -/
def execVsra (c : BitVec 1) (wd wa wb : Win) (kn : BitVec 3) (s : State) : Res := runWords [memVsra c wd wa wb kn] s

/-- `vrol` as a convoy member, R198. -/
def memVrol (c : BitVec 1) (wd wa wb : Win) (kn : BitVec 3) : Member :=
  laneMember (.vrol c wd wa wb kn) c clAluA wd [(wa, 1), (wb, 2)] kn none
    (fun s => [(wd, 0, isInt (tyOf s wd)), (wa, 1, (tyOf s wd == tyOf s wa)), (wb, 2, isInt (tyOf s wb))])
    (fun s e => shiftAt 3 s wa wb e)

/-- `vrol`, R198. -/
def execVrol (c : BitVec 1) (wd wa wb : Win) (kn : BitVec 3) (s : State) : Res := runWords [memVrol c wd wa wb kn] s

/-- `vmul` as a convoy member, R199. -/
def memVmul (c x : BitVec 1) (wd wa wb : Win) (kn ke : BitVec 3) : Member :=
  laneMember (.vmul c x wd wa wb kn ke) c clMul wd [(wa, 1), (wb, 2)] kn (xMask x ke)
    (fun s => [(wd, 0, arith (tyOf s wd)), (wa, 1, sameClass (tyOf s wd) (tyOf s wa)), (wb, 2, sameClass (tyOf s wa) (tyOf s wb))])
    (fun s e => fitAt s wd e (mulN (valAt s wa e) (valAt s wb e)))

/-- `vmul`, R199. -/
def execVmul (c x : BitVec 1) (wd wa wb : Win) (kn ke : BitVec 3) (s : State) : Res := runWords [memVmul c x wd wa wb kn ke] s

/-- `vmulh` as a convoy member, R199. -/
def memVmulh (c x : BitVec 1) (wd wa wb : Win) (kn ke : BitVec 3) : Member :=
  laneMember (.vmulh c x wd wa wb kn ke) c clMul wd [(wa, 1), (wb, 2)] kn (xMask x ke)
    (fun s => [(wd, 0, isInt (tyOf s wd)), (wa, 1, isInt (tyOf s wa) && sameWidth (tyOf s wd) (tyOf s wa)), (wb, 2, isInt (tyOf s wb) && sameWidth (tyOf s wd) (tyOf s wb))])
    (fun s e => 
      let b := tyBits (tyOf s wd)
      ((intAt s wa e * intAt s wb e / 2 ^ b % 2 ^ b).toNat, 0))

/-- `vmulh`, R199. -/
def execVmulh (c x : BitVec 1) (wd wa wb : Win) (kn ke : BitVec 3) (s : State) : Res := runWords [memVmulh c x wd wa wb kn ke] s

/-- R199: the fused sum of a product and the destination's old value, rounded once. -/
def fusedAt (s : State) (wd wa wb : Win) (neg : Bool) (e : Nat) : Nat × Flags :=
  let a := if neg then (valAt s wa e).negate else valAt s wa e
  let c := valAt s wd e
  let (r, f) := fmaN (vcfgRm s) a (valAt s wb e) c
  fitAt s wd e (r, f ||| snanFlag [a, valAt s wb e, c])

/-- `vfma` as a convoy member, R199. -/
def memVfma (c x : BitVec 1) (wd wa wb : Win) (kn ke : BitVec 3) : Member :=
  laneMember (.vfma c x wd wa wb kn ke) c clMul wd [(wa, 1), (wb, 2)] kn (xMask x ke)
    (fun s => [(wd, 0, arith (tyOf s wd)), (wa, 1, sameClass (tyOf s wd) (tyOf s wa)), (wb, 2, sameClass (tyOf s wa) (tyOf s wb))])
    (fun s e => fusedAt s wd wa wb false e) [wd]

/-- `vfma`, R199. -/
def execVfma (c x : BitVec 1) (wd wa wb : Win) (kn ke : BitVec 3) (s : State) : Res := runWords [memVfma c x wd wa wb kn ke] s

/-- `vfms` as a convoy member, R199. -/
def memVfms (c x : BitVec 1) (wd wa wb : Win) (kn ke : BitVec 3) : Member :=
  laneMember (.vfms c x wd wa wb kn ke) c clMul wd [(wa, 1), (wb, 2)] kn (xMask x ke)
    (fun s => [(wd, 0, arith (tyOf s wd)), (wa, 1, sameClass (tyOf s wd) (tyOf s wa)), (wb, 2, sameClass (tyOf s wa) (tyOf s wb))])
    (fun s e => fusedAt s wd wa wb true e) [wd]

/-- `vfms`, R199. -/
def execVfms (c x : BitVec 1) (wd wa wb : Win) (kn ke : BitVec 3) (s : State) : Res := runWords [memVfms c x wd wa wb kn ke] s

/-- R200: `vdiv` of one element; an integer division by zero writes all ones and raises DZ. -/
def divAt (s : State) (wd wa wb : Win) (e : Nat) : Nat × Flags :=
  if isFloat (tyOf s wd) then fitAt s wd e (divN (valAt s wa e) (valAt s wb e))
  else if intAt s wb e = 0 then (2 ^ tyBits (tyOf s wd) - 1, flDZ)
  else fitAt s wd e (ofIntN ((intAt s wa e).tdiv (intAt s wb e)), 0)

/-- `vdiv` as a convoy member, R200. -/
def memVdiv (c x : BitVec 1) (wd wa wb : Win) (kn ke : BitVec 3) : Member :=
  laneMember (.vdiv c x wd wa wb kn ke) c clSfu wd [(wa, 1), (wb, 2)] kn (xMask x ke)
    (fun s => [(wd, 0, arith (tyOf s wd)), (wa, 1, sameClass (tyOf s wd) (tyOf s wa)), (wb, 2, sameClass (tyOf s wa) (tyOf s wb))])
    (fun s e => divAt s wd wa wb e)

/-- `vdiv`, R200. -/
def execVdiv (c x : BitVec 1) (wd wa wb : Win) (kn ke : BitVec 3) (s : State) : Res := runWords [memVdiv c x wd wa wb kn ke] s

/-- `vsqrt` as a convoy member, R200. -/
def memVsqrt (c x : BitVec 1) (wd wa : Win) (kn ke : BitVec 3) : Member :=
  laneMember (.vsqrt c x wd wa kn ke) c clSfu wd [(wa, 1)] kn (xMask x ke)
    (fun s => [(wd, 0, isFloat (tyOf s wd)), (wa, 1, isFloat (tyOf s wa))])
    (fun s e => fitAt s wd e (sqrtN (valAt s wa e)))

/-- `vsqrt`, R200. -/
def execVsqrt (c x : BitVec 1) (wd wa : Win) (kn ke : BitVec 3) (s : State) : Res := runWords [memVsqrt c x wd wa kn ke] s

/-- `vrcp` as a convoy member, R200. -/
def memVrcp (c x : BitVec 1) (wd wa : Win) (kn ke : BitVec 3) : Member :=
  laneMember (.vrcp c x wd wa kn ke) c clSfu wd [(wa, 1)] kn (xMask x ke)
    (fun s => [(wd, 0, isFloat (tyOf s wd)), (wa, 1, isFloat (tyOf s wa))])
    (fun s e => fitAt s wd e (divN (ofIntN 1) (valAt s wa e)))

/-- `vrcp`, R200. -/
def execVrcp (c x : BitVec 1) (wd wa : Win) (kn ke : BitVec 3) (s : State) : Res := runWords [memVrcp c x wd wa kn ke] s

/-- `vrsq` as a convoy member, R200. -/
def memVrsq (c x : BitVec 1) (wd wa : Win) (kn ke : BitVec 3) : Member :=
  laneMember (.vrsq c x wd wa kn ke) c clSfu wd [(wa, 1)] kn (xMask x ke)
    (fun s => [(wd, 0, isFloat (tyOf s wd)), (wa, 1, isFloat (tyOf s wa))])
    (fun s e => fitAt s wd e (rsqN (valAt s wa e)))

/-- `vrsq`, R200. -/
def execVrsq (c x : BitVec 1) (wd wa : Win) (kn ke : BitVec 3) (s : State) : Res := runWords [memVrsq c x wd wa kn ke] s

/-- `vexp2` as a convoy member, R201. -/
def memVexp2 (c x : BitVec 1) (wd wa : Win) (kn ke : BitVec 3) : Member :=
  laneMember (.vexp2 c x wd wa kn ke) c clSfu wd [(wa, 1)] kn (xMask x ke)
    (fun s => [(wd, 0, isFloat (tyOf s wd)), (wa, 1, isFloat (tyOf s wa))])
    (fun s e => fitAt s wd e (exp2N (valAt s wa e)))

/-- `vexp2`, R201. -/
def execVexp2 (c x : BitVec 1) (wd wa : Win) (kn ke : BitVec 3) (s : State) : Res := runWords [memVexp2 c x wd wa kn ke] s

/-- `vlog2` as a convoy member, R201. -/
def memVlog2 (c x : BitVec 1) (wd wa : Win) (kn ke : BitVec 3) : Member :=
  laneMember (.vlog2 c x wd wa kn ke) c clSfu wd [(wa, 1)] kn (xMask x ke)
    (fun s => [(wd, 0, isFloat (tyOf s wd)), (wa, 1, isFloat (tyOf s wa))])
    (fun s e => fitAt s wd e (log2N (valAt s wa e)))

/-- `vlog2`, R201. -/
def execVlog2 (c x : BitVec 1) (wd wa : Win) (kn ke : BitVec 3) (s : State) : Res := runWords [memVlog2 c x wd wa kn ke] s

/-- A number's magnitude. -/
def absN (x : Num) : Num :=
  match x with
  | .nan b => .nan b
  | .inf _ => .inf false
  | .fin _ m e t => .fin false m e t

/-- R201: `vabs` and `vneg`: a bit operation between windows of one float type, otherwise a fit of the value. -/
def signOp (s : State) (wd wa : Win) (neg : Bool) (e : Nat) : Nat × Flags :=
  let t := tyOf s wa
  if isFloat t && t == tyOf s wd then
    let x := srcBits s (readW s wa) e
    let half := 2 ^ (tyBits t - 1)
    (if neg then (x + half) % (2 * half) else x % half, 0)
  else
    let x := valAt s wa e
    let y := if isFloat t then (if neg then x.negate else absN x)
             else if neg then ofIntN (-(intAt s wa e)) else absN x
    fitAt s wd e (y, snanFlag [x])

/-- `vabs` as a convoy member, R201. -/
def memVabs (c x : BitVec 1) (wd wa : Win) (kn ke : BitVec 3) : Member :=
  laneMember (.vabs c x wd wa kn ke) c clSfu wd [(wa, 1)] kn (xMask x ke)
    (fun s => [(wd, 0, arith (tyOf s wd)), (wa, 1, sameClass (tyOf s wd) (tyOf s wa))])
    (fun s e => signOp s wd wa false e)

/-- `vabs`, R201. -/
def execVabs (c x : BitVec 1) (wd wa : Win) (kn ke : BitVec 3) (s : State) : Res := runWords [memVabs c x wd wa kn ke] s

/-- `vneg` as a convoy member, R201. -/
def memVneg (c x : BitVec 1) (wd wa : Win) (kn ke : BitVec 3) : Member :=
  laneMember (.vneg c x wd wa kn ke) c clSfu wd [(wa, 1)] kn (xMask x ke)
    (fun s => [(wd, 0, arith (tyOf s wd)), (wa, 1, sameClass (tyOf s wd) (tyOf s wa))])
    (fun s e => signOp s wd wa true e)

/-- `vneg`, R201. -/
def execVneg (c x : BitVec 1) (wd wa : Win) (kn ke : BitVec 3) (s : State) : Res := runWords [memVneg c x wd wa kn ke] s

/-- R202: a compare of two values: equality relations raise NV for a signalling NaN only, order relations for any. -/
def compareN (op : Nat) (x y : Num) : Bool × Flags :=
  let nan := x.isNan || y.isNan
  match op with
  | 0 => (eqN x y, snanFlag [x, y])
  | 1 => (!eqN x y, snanFlag [x, y])
  | 2 => (!nan && ltN x y, if nan then flNV else 0)
  | _ => (!nan && !ltN y x, if nan then flNV else 0)

/-- A compare as a convoy member (R202). -/
def compareMember (i : Instr) (c : BitVec 1) (op : Nat) (kd : BitVec 3) (wa wb : Win) (kn : BitVec 3) : Member where
  word := i
  c := c
  role := .member clAluA
  check := windowChecks i [{ win := wa, code := 1, dest := false }, { win := wb, code := 2, dest := false }]
    (fun s => [(wa, 1, arith (tyOf s wa)), (wb, 2, sameClass (tyOf s wa) (tyOf s wb))])
  run := fun act s => laneMaskRun kd [wa, wb] (readK s kn) (fun s e => compareN op (valAt s wa e) (valAt s wb e)) act s
  active := activeOf kn
  reads := activeReads [wa, wb] kn
  masks := [kn]
  kOut := kd
  commit := .chained

/-- `vceq` as a convoy member, R202. -/
def memVceq (c : BitVec 1) (kd : BitVec 3) (wa wb : Win) (kn : BitVec 3) : Member :=
  compareMember (.vceq c kd wa wb kn) c 0 kd wa wb kn

/-- `vceq`, R202. -/
def execVceq (c : BitVec 1) (kd : BitVec 3) (wa wb : Win) (kn : BitVec 3) (s : State) : Res := runWords [memVceq c kd wa wb kn] s

/-- `vcne` as a convoy member, R202. -/
def memVcne (c : BitVec 1) (kd : BitVec 3) (wa wb : Win) (kn : BitVec 3) : Member :=
  compareMember (.vcne c kd wa wb kn) c 1 kd wa wb kn

/-- `vcne`, R202. -/
def execVcne (c : BitVec 1) (kd : BitVec 3) (wa wb : Win) (kn : BitVec 3) (s : State) : Res := runWords [memVcne c kd wa wb kn] s

/-- `vclt` as a convoy member, R202. -/
def memVclt (c : BitVec 1) (kd : BitVec 3) (wa wb : Win) (kn : BitVec 3) : Member :=
  compareMember (.vclt c kd wa wb kn) c 2 kd wa wb kn

/-- `vclt`, R202. -/
def execVclt (c : BitVec 1) (kd : BitVec 3) (wa wb : Win) (kn : BitVec 3) (s : State) : Res := runWords [memVclt c kd wa wb kn] s

/-- `vcle` as a convoy member, R202. -/
def memVcle (c : BitVec 1) (kd : BitVec 3) (wa wb : Win) (kn : BitVec 3) : Member :=
  compareMember (.vcle c kd wa wb kn) c 3 kd wa wb kn

/-- `vcle`, R202. -/
def execVcle (c : BitVec 1) (kd : BitVec 3) (wa wb : Win) (kn : BitVec 3) (s : State) : Res := runWords [memVcle c kd wa wb kn] s

/-- `vsel` as a convoy member, R203. It reads both elements, the one it does not take too (log 21). -/
def memVsel (c : BitVec 1) (wd wa wb : Win) (kn : BitVec 3) : Member :=
  let m := laneMember (.vsel c wd wa wb kn) c clAluB wd [(wa, 1), (wb, 2)] 0 none
    (fun s => [(wd, 0, true), (wa, 1, sameWidth (tyOf s wd) (tyOf s wa)), (wb, 2, sameWidth (tyOf s wd) (tyOf s wb))])
    (fun s e => (if (readK s kn).getLsbD e then srcBits s (readW s wa) e else srcBits s (readW s wb) e, 0))
  { m with masks := [kn] }

/-- `vsel`, R203. -/
def execVsel (c : BitVec 1) (wd wa wb : Win) (kn : BitVec 3) (s : State) : Res := runWords [memVsel c wd wa wb kn] s

/-- `vmov` as a convoy member, R203. -/
def memVmov (c : BitVec 1) (wd wa : Win) (kn : BitVec 3) : Member :=
  laneMember (.vmov c wd wa kn) c clAluB wd [(wa, 1)] kn none
    (fun s => [(wd, 0, true), (wa, 1, sameWidth (tyOf s wd) (tyOf s wa))]) (fun s e => (srcBits s (readW s wa) e, 0))

/-- `vmov`, R203. -/
def execVmov (c : BitVec 1) (wd wa : Win) (kn : BitVec 3) (s : State) : Res := runWords [memVmov c wd wa kn] s

/-- `vmerge` as a convoy member, R204. -/
def memVmerge (c : BitVec 1) (wd wa : Win) (kn ke : BitVec 3) : Member :=
  let m := laneMember (.vmerge c wd wa kn ke) c clAluB wd [(wa, 1)] kn none
    (fun s => [(wd, 0, true), (wa, 1, sameWidth (tyOf s wd) (tyOf s wa))]) (fun s e => (srcBits s (readW s wa) e, 0))
  { m with check := fun s => match m.check s with | some t => some t | none => if mergeStall wa kn ke s then none else mergeFault wa kn ke s
           stall := fun s => (m.check s).isNone && mergeStall wa kn ke s
           awaits := [kn, ke] }

/-- `vmerge`, R204. -/
def execVmerge (c : BitVec 1) (wd wa : Win) (kn ke : BitVec 3) (s : State) : Res := runWords [memVmerge c wd wa kn ke] s

/-- `viota` as a convoy member, R205. -/
def memViota (c : BitVec 1) (wd : Win) (kn : BitVec 3) : Member :=
  laneMember (.viota c wd kn) c clAluB wd [] kn none
    (fun s => [(wd, 0, arith (tyOf s wd))]) (fun s e => fitAt s wd e (ofIntN (e : Int), 0))

/-- `viota`, R205. -/
def execViota (c : BitVec 1) (wd : Win) (kn : BitVec 3) (s : State) : Res := runWords [memViota c wd kn] s

/-- R206: the scalar operand, the low bits of a register under wa's type. -/
def scalarAt (s : State) (wa : Win) (g : Word) : Num :=
  numVal (tyOf s wa) (vcfgFtz s) (g.toNat % 2 ^ tyBits (tyOf s wa))

/-- `vadds` as a convoy member, R206. -/
def memVadds (c x : BitVec 1) (wd wa : Win) (ga : Reg) (kn ke : BitVec 3) : Member :=
  laneMember (.vadds c x wd wa ga kn ke) c clAluB wd [(wa, 1)] kn (xMask x ke)
    (fun s => [(wd, 0, arith (tyOf s wd)), (wa, 1, sameClass (tyOf s wd) (tyOf s wa))])
    (fun s e => fitAt s wd e (addN (vcfgRm s) (valAt s wa e) (scalarAt s wa (readG s ga))))

/-- `vadds`, R206. -/
def execVadds (c x : BitVec 1) (wd wa : Win) (ga : Reg) (kn ke : BitVec 3) (s : State) : Res := runWords [memVadds c x wd wa ga kn ke] s

/-- `vmuls` as a convoy member, R206. -/
def memVmuls (c x : BitVec 1) (wd wa : Win) (ga : Reg) (kn ke : BitVec 3) : Member :=
  laneMember (.vmuls c x wd wa ga kn ke) c clAluB wd [(wa, 1)] kn (xMask x ke)
    (fun s => [(wd, 0, arith (tyOf s wd)), (wa, 1, sameClass (tyOf s wd) (tyOf s wa))])
    (fun s e => fitAt s wd e (mulN (valAt s wa e) (scalarAt s wa (readG s ga))))

/-- `vmuls`, R206. -/
def execVmuls (c x : BitVec 1) (wd wa : Win) (ga : Reg) (kn ke : BitVec 3) (s : State) : Res := runWords [memVmuls c x wd wa ga kn ke] s

/-- `vbcast` as a convoy member, R207. -/
def memVbcast (c : BitVec 1) (wd : Win) (ga : Reg) (kn : BitVec 3) : Member :=
  laneMember (.vbcast c wd ga kn) c clAluB wd [] kn none
    (fun s => [(wd, 0, tyBits (tyOf s wd) != 512)])
    (fun s _ => ((readG s ga).toNat % 2 ^ tyBits (tyOf s wd), 0))

/-- `vbcast`, R207. -/
def execVbcast (c : BitVec 1) (wd : Win) (ga : Reg) (kn : BitVec 3) (s : State) : Res := runWords [memVbcast c wd ga kn] s

/-- R208: the register value of one element: signed types sign-extend. -/
def extractElem (s : State) (wa : Win) (i : Nat) : Word :=
  if vl s ≤ i then 0
  else
    let x := srcBits s (readW s wa) i
    if isSigned (tyOf s wa) then ofInt (sextN (tyBits (tyOf s wa)) x) else BitVec.ofNat 64 x

/-- `vextr` as a convoy member, R208. -/
def memVextr (c : BitVec 1) (gd : Reg) (wa : Win) (ga : Reg) : Member :=
  wholeMember (.vextr c gd wa ga) c clAluB [wa] 0 none
    (windowChecks (.vextr c gd wa ga) [{ win := wa, code := 1, dest := false }]
      (fun s => [(wa, 1, tyBits (tyOf s wa) != 512)]))
    (fun act s =>
      let i := (readG s ga).toNat
      regRun [readW s wa] (if i < vl s then [(readW s wa, i)] else []) 1 gd (fun s => extractElem s wa i) act s)

/-- `vextr`, R208. -/
def execVextr (c : BitVec 1) (gd : Reg) (wa : Win) (ga : Reg) (s : State) : Res := runWords [memVextr c gd wa ga] s

/-- `vredsum` as a convoy member, R209. -/
def memVredsum (c : BitVec 1) (wd wa : Win) (kn : BitVec 3) : Member :=
  wholeMember (.vredsum c wd wa kn) c clAluB [wa] kn (some (wd, fun _ => [0]))
    (windowChecks (.vredsum c wd wa kn) (operands wd [(wa, 1)]) (fun s => [(wd, 0, arith (tyOf s wd)), (wa, 1, sameClass (tyOf s wd) (tyOf s wa))]))
    (redRun .sum wd wa kn)

/-- `vredsum`, R209. -/
def execVredsum (c : BitVec 1) (wd wa : Win) (kn : BitVec 3) (s : State) : Res := runWords [memVredsum c wd wa kn] s

/-- `vredmax` as a convoy member, R209. -/
def memVredmax (c : BitVec 1) (wd wa : Win) (kn : BitVec 3) : Member :=
  wholeMember (.vredmax c wd wa kn) c clAluB [wa] kn (some (wd, fun _ => [0]))
    (windowChecks (.vredmax c wd wa kn) (operands wd [(wa, 1)]) (fun s => [(wd, 0, arith (tyOf s wd)), (wa, 1, sameClass (tyOf s wd) (tyOf s wa))]))
    (redRun .max wd wa kn)

/-- `vredmax`, R209. -/
def execVredmax (c : BitVec 1) (wd wa : Win) (kn : BitVec 3) (s : State) : Res := runWords [memVredmax c wd wa kn] s

/-- `vredmin` as a convoy member, R209. -/
def memVredmin (c : BitVec 1) (wd wa : Win) (kn : BitVec 3) : Member :=
  wholeMember (.vredmin c wd wa kn) c clAluB [wa] kn (some (wd, fun _ => [0]))
    (windowChecks (.vredmin c wd wa kn) (operands wd [(wa, 1)]) (fun s => [(wd, 0, arith (tyOf s wd)), (wa, 1, sameClass (tyOf s wd) (tyOf s wa))]))
    (redRun .min wd wa kn)

/-- `vredmin`, R209. -/
def execVredmin (c : BitVec 1) (wd wa : Win) (kn : BitVec 3) (s : State) : Res := runWords [memVredmin c wd wa kn] s

/-- `vscan` as a convoy member, R210. -/
def memVscan (c : BitVec 1) (wd wa : Win) (kn : BitVec 3) : Member :=
  wholeMember (.vscan c wd wa kn) c clAluB [wa] kn (some (wd, fun s => elemsOf s (readK s kn) onesMask))
    (windowChecks (.vscan c wd wa kn) (operands wd [(wa, 1)]) (fun s => [(wd, 0, arith (tyOf s wd)), (wa, 1, sameClass (tyOf s wd) (tyOf s wa))]))
    (scanRun wd wa kn)

/-- `vscan`, R210. -/
def execVscan (c : BitVec 1) (wd wa : Win) (kn : BitVec 3) (s : State) : Res := runWords [memVscan c wd wa kn] s

/-- R211: the conversion of one element. -/
def convertAt (s : State) (wd wa : Win) (e : Nat) : Nat × Flags :=
  let x := valAt s wa e
  let t := tyOf s wd
  if isFloat (tyOf s wa) && isInt t then floatToInt (isSigned t) (tyBits t) (laneMode s (readW s wd) e) x
  else fitAt s wd e (x, snanFlag [x])

/-- `vcvt` as a convoy member, R211. -/
def memVcvt (c x : BitVec 1) (wd wa : Win) (kn ke : BitVec 3) : Member :=
  laneMember (.vcvt c x wd wa kn ke) c clXform wd [(wa, 1)] kn (xMask x ke)
    (fun s => [(wd, 0, arith (tyOf s wd)), (wa, 1, arith (tyOf s wa))])
    (fun s e => convertAt s wd wa e)

/-- `vcvt`, R211. -/
def execVcvt (c x : BitVec 1) (wd wa : Win) (kn ke : BitVec 3) (s : State) : Res := runWords [memVcvt c x wd wa kn ke] s

/-- R212: element `e` takes element `at_ e` of wa, zero where that is not below VL; `idx` are windows it reads at `e`. -/
def moveRun (wd wa : Win) (idx : List Win) (kn : BitVec 3) (at_ : Nat → Int) (act : Mask) (s : State) : MRes :=
  let inside (i : Int) : Bool := decide (0 ≤ i) && decide (i < vl s)
  laneRun wd (readW s wa :: idx.map (readW s))
    (fun e => sameElem (idx.map (readW s)) e ++ (if inside (at_ e) then [(readW s wa, (at_ e).toNat)] else []))
    (readK s kn) none
    (fun s e => (if inside (at_ e) then srcBits s (readW s wa) (at_ e).toNat else 0, 0)) act s

/-- `vperm` as a convoy member, R212. -/
def memVperm (c : BitVec 1) (wd wa wb : Win) (kn : BitVec 3) : Member :=
  wholeMember (.vperm c wd wa wb kn) c clXform [wa, wb] kn (some (wd, fun s => elemsOf s (readK s kn) onesMask))
    (windowChecks (.vperm c wd wa wb kn) (operands wd [(wa, 1), (wb, 2)])
      (fun s => [(wd, 0, true), (wa, 1, sameWidth (tyOf s wd) (tyOf s wa)), (wb, 2, isInt (tyOf s wb))]))
    (fun act s => moveRun wd wa [wb] kn (fun e => intAt s wb e) act s)

/-- `vperm`, R212. -/
def execVperm (c : BitVec 1) (wd wa wb : Win) (kn : BitVec 3) (s : State) : Res := runWords [memVperm c wd wa wb kn] s

/-- `vslide` as a convoy member, R212. -/
def memVslide (c : BitVec 1) (wd wa : Win) (ga : Reg) (kn : BitVec 3) : Member :=
  wholeMember (.vslide c wd wa ga kn) c clXform [wa] kn (some (wd, fun s => elemsOf s (readK s kn) onesMask))
    (windowChecks (.vslide c wd wa ga kn) (operands wd [(wa, 1)]) (fun s => [(wd, 0, true), (wa, 1, sameWidth (tyOf s wd) (tyOf s wa))]))
    (fun act s => moveRun wd wa [] kn (fun e => (e : Int) + (readG s ga).toInt) act s)

/-- `vslide`, R212. -/
def execVslide (c : BitVec 1) (wd wa : Win) (ga : Reg) (kn : BitVec 3) (s : State) : Res := runWords [memVslide c wd wa ga kn] s

/-- `vcompress` as a convoy member, R213. -/
def memVcompress (c : BitVec 1) (wd wa : Win) (kn : BitVec 3) : Member :=
  wholeMember (.vcompress c wd wa kn) c clXform [wa] kn
    (some (wd, fun s => List.range (elemsOf s (readK s kn) onesMask).length))
    (windowChecks (.vcompress c wd wa kn) (operands wd [(wa, 1)]) (fun s => [(wd, 0, true), (wa, 1, sameWidth (tyOf s wd) (tyOf s wa))]))
    (compressRun wd wa kn)

/-- `vcompress`, R213. -/
def execVcompress (c : BitVec 1) (wd wa : Win) (kn : BitVec 3) (s : State) : Res := runWords [memVcompress c wd wa kn] s

/-- `kfun` as a convoy member, R214. -/
def memKfun (c : BitVec 1) (kd ka kb : BitVec 3) (tt : BitVec 4) : Member :=
  maskMember (.kfun c kd ka kb tt) c (activeOf 0) [ka, kb] kd
    (fun act s => { st := countEvent 5 (maskGroups act s) (writeK s kd (kfunMask s kd ka kb tt act)) })

/-- `kfun`, R214. -/
def execKfun (c : BitVec 1) (kd ka kb : BitVec 3) (tt : BitVec 4) (s : State) : Res := runWords [memKfun c kd ka kb tt] s

/-- `kpop` as a convoy member, R214. -/
def memKpop (c : BitVec 1) (gd : Reg) (ka : BitVec 3) : Member :=
  { maskMember (.kpop c gd ka) c (activeOf 0) [ka] 0
      (fun act s => regRun [] [] (maskGroups onesMask s) gd (fun s => BitVec.ofNat 64 (popMask (vl s) (readK s ka))) act s) with
    whole := true }

/-- `kpop`, R214. -/
def execKpop (c : BitVec 1) (gd : Reg) (ka : BitVec 3) (s : State) : Res := runWords [memKpop c gd ka] s

/-- `kfirst` as a convoy member, R214. -/
def memKfirst (c : BitVec 1) (gd : Reg) (ka : BitVec 3) : Member :=
  { maskMember (.kfirst c gd ka) c (activeOf 0) [ka] 0
      (fun act s => regRun [] [] (maskGroups onesMask s) gd
        (fun s => BitVec.ofNat 64 ((elemsOf s (readK s ka) onesMask).head?.getD (vl s))) act s) with
    whole := true }

/-- `kfirst`, R214. -/
def execKfirst (c : BitVec 1) (gd : Reg) (ka : BitVec 3) (s : State) : Res := runWords [memKfirst c gd ka] s

/-- `kset` as a convoy member, R215. -/
def memKset (c : BitVec 1) (kd : BitVec 3) (ga : Reg) : Member :=
  maskMember (.kset c kd ga) c (fun s => oneBit (bitElem (readG s ga).toNat s)) [] kd (bitRun kd ga true)

/-- `kset`, R215. -/
def execKset (c : BitVec 1) (kd : BitVec 3) (ga : Reg) (s : State) : Res := runWords [memKset c kd ga] s

/-- `kclr` as a convoy member, R215. -/
def memKclr (c : BitVec 1) (kd : BitVec 3) (ga : Reg) : Member :=
  maskMember (.kclr c kd ga) c (fun s => oneBit (bitElem (readG s ga).toNat s)) [] kd (bitRun kd ga false)

/-- `kclr`, R215. -/
def execKclr (c : BitVec 1) (kd : BitVec 3) (ga : Reg) (s : State) : Res := runWords [memKclr c kd ga] s

/-- `kbit` as a convoy member, R215. -/
def memKbit (c : BitVec 1) (gd : Reg) (ka : BitVec 3) (ga : Reg) : Member :=
  { maskMember (.kbit c gd ka ga) c (fun _ => 1) [ka] 0
      (regRun [] [] 1 gd (fun s =>
        let n := (readG s ga).toNat
        ofFlag (decide (n < 2048) && (readK s ka).getLsbD n))) with
    peek := fun s => some (ka, (readG s ga).toNat) }

/-- `kbit`, R215. -/
def execKbit (c : BitVec 1) (gd : Reg) (ka : BitVec 3) (ga : Reg) (s : State) : Res := runWords [memKbit c gd ka ga] s

end Sys2Proof.Machine
end

