-- ==== Sys2Proof/Machine/Claim.lean ====
section
/-!
DEFINITION. The claim engine's instructions (R318–R331): sequences, handles, claims, forks, trims and closes. Each form
acts once, as element 0 of its member (R326). The copy-on-write step stands in Machine/Ops.lean.
-/
namespace Sys2Proof.Machine

open Sys2Proof

/-! ### Handles and ranges -/

/-- R321: the handle of a slot. -/
def seqHandle (part eng gen slot : Nat) : Word := BitVec.ofNat 64 (part * 2 ^ 27 + eng * 2 ^ 23 + gen * 2 ^ 12 + slot)

/-- A descriptor slot of an engine. -/
def seqAt (s : State) (eng slot : Nat) : Seq := smGet Seq.free (engineAt s eng).seqs slot

/-- Writes a descriptor slot. -/
def setSeq (eng slot : Nat) (q : Seq) (s : State) : State :=
  setEngine s eng { engineAt s eng with seqs := smSet Seq.free (engineAt s eng).seqs slot q }

/-- R321: the engine and slot that a handle names, where it is live for the strand's partition; a deputy has
none. -/
def liveSeq (s : State) (h : Word) : Option (Nat × Nat) :=
  let eng := bitsW h 23 4
  let slot := bitsW h 0 12
  let q := seqAt s eng slot
  if !onDeputy s.hart ∧ bitsW h 32 32 = 0 ∧ bitsW h 27 5 = s.hart.part ∧ eng < 12 ∧ q.live ∧ q.gen = bitsW h 12 11 ∧ q.part = s.hart.part
  then some (eng, slot) else none

/-- R327: a page of a new range has a leaf with v 0 and claim 0. -/
def pageOpen (s : State) (p va : Nat) : Bool :=
  match leafAddr s p va with
  | some a => !bitW (tableEntry s a) 61 && !bitW (tableEntry s a) 57
  | none => false

/-- R327: the checks of a base address for `pages` pages. -/
def rangeOk (s : State) (base : Word) (pages : Nat) : Bool :=
  let p := s.hart.part
  let b := base.toNat
  decide (b < 2 ^ 48) && b % 2 ^ 16 == 0 && decide (0 < pages) && decide (pages ≤ 65536) &&
  b / 2 ^ 35 == (b + pages * 2 ^ 16 - 1) / 2 ^ 35 && entryKind (smGet 0 (partOf s p).shaft (b / 2 ^ 35)) == 3 &&
  (List.range pages).all (fun i => pageOpen s p (b + i * 2 ^ 16))

/-- R322: the leaf of an unclaimed page. -/
def leafUnclaimed : Word := BitVec.ofNat 64 (2 ^ 57)

/-- R322: the leaf of a claimed page. -/
def leafClaimed (block : Nat) (q : Seq) (wp : Bool) : Word :=
  BitVec.ofNat 64 (2 ^ 61 + q.tagged.toNat * 2 ^ 59 + wp.toNat * 2 ^ 58 + 2 ^ 57 + 2 ^ 56 + q.wr.toNat * 2 ^ 55 +
    block * 2 ^ 16)

/-- R322, R327: the level-2 tables of a new range of `pages` pages: one for each 2 MiB of it. -/
def rangeTables (s : State) (p base pages : Nat) : List Nat :=
  (List.range ((base + pages * 2 ^ 16 - 1) / 2 ^ 21 - base / 2 ^ 21 + 1)).map (fun i =>
    (leafAddr s p ((base / 2 ^ 21 + i) * 2 ^ 21)).getD 0)

/-- Writes the leaf of page `i` of a sequence, for an instruction of the strand in focus (R55). -/
def putLeaf (q : Seq) (i : Nat) (e : Word) (s : State) : State :=
  match q.leafAt i with
  | some a => storeEntry s a e
  | none => s

/-- The block that page `i` of a sequence maps. -/
def pageBlock (s : State) (q : Seq) (i : Nat) : Nat :=
  match q.leafAt i with
  | some a => entryPa (tableEntry s a) / 2 ^ 16
  | none => 0

/-- Writes a list of leaves from page `i` on. -/
def putLeaves (q : Seq) : Nat → List Word → State → State
  | _, [], s => s
  | i, e :: es, s => putLeaves q (i + 1) es (putLeaf q i e s)

/-- R327, R329: a free descriptor slot of an engine: which of them is open (log 9). -/
def freeSlotOf (s : State) (eng : Nat) : Option Nat :=
  let free := (List.range 4096).filter (fun i => !(seqAt s eng i).live)
  free[Config.freeSlot s.tick % free.length]?

/-! ### Members -/

/-- A failed check (R326): PROT with aux 3, at element 0, changing nothing. -/
def claimTrap (s : State) : MRes :=
  { st := s, trap := some (0, some { cause := 6, aux := 3 }), stopped := 1 }

/-- R331: an operation that finds nothing to take: SAT, and gd takes 0. -/
def claimSat (gd : Reg) (s : State) : MRes := { st := mergeFlags [(0, flSAT)] s, gw := some (gd, 0) }

/-- A form of major 0x54 as a convoy member (R325, R326). -/
def claimMember (i : Instr) (c : BitVec 1) (run : State → MRes) : Member where
  word := i
  c := c
  role := .member (clLoad ||| clStore)
  priv := fun s => onDeputy s.hart
  run := fun act s => if act.getLsbD 0 then run s else { st := s }
  active := fun _ => 1

/-- R327: the engine with the most blocks left in the quota among the six from `eng` on, ties to the lowest. -/
def bestEngine (s : State) (p eng : Nat) : Nat :=
  (List.range 6).foldl (fun b i => if quotaLeft s p b < quotaLeft s p (eng + i) then eng + i else b) eng

/-- R327: the control word of `seqopen` is legal. -/
def controlOk (w : Word) : Bool :=
  bitsW w 32 32 == 0 && bitsW w 19 9 == 0 && (decide (bitsW w 28 4 < 12) || bitsW w 28 4 == 15)

/-- `seqopen` as a convoy member, R327. -/
def memSeqopen (c : BitVec 1) (gd gb gc : Reg) : Member :=
  claimMember (.seqopen c gd gb gc) c (fun s =>
    let w := readG s gc
    let pages := bitsW w 0 17
    let eng := if bitsW w 28 4 = 15 then bestEngine s s.hart.part (6 * dieOf s.hart.core) else bitsW w 28 4
    if !(controlOk w && rangeOk s (readG s gb) pages) then claimTrap s
    else match freeSlotOf s eng with
    | none => claimSat gd s
    | some slot =>
      let q : Seq := { seqAt s eng slot with
        live := true, part := s.hart.part, base := (readG s gb).toNat, cap := pages, len := 0,
        wr := bitW w 17, tagged := bitW w 18, tables := rangeTables s s.hart.part (readG s gb).toNat pages }
      { st := putLeaves q 0 (List.replicate pages leafUnclaimed) (setSeq eng slot q s),
        gw := some (gd, seqHandle s.hart.part eng q.gen slot) })

/-- `seqopen`, R327. -/
def execSeqopen (c : BitVec 1) (gd gb gc : Reg) (s : State) : Res := runWords [memSeqopen c gd gb gc] s

/-- R318, R328: the first `n` free blocks of an engine from block `b` on, in free-list order. -/
def freeBlocks (counts : List (Nat × BitVec 16)) : Nat → Nat → Nat → List Nat
  | _, 0, _ => []
  | _, _ + 1, 0 => []
  | b, m + 1, n + 1 =>
    if smGet 0 counts b = 0 then b :: freeBlocks counts (b + 1) m n else freeBlocks counts (b + 1) m (n + 1)

/-- R324: the tag of a claim: the first from the counter on that no block's granule 0 has. -/
def claimTag (s : State) (blocks : List Nat) (tau : Nat) : Nat :=
  let used := blocks.map (fun b => (smGet 0 s.tags (b * 2048)).toNat % 16)
  (((List.range 15).map (fun i => (tau - 1 + i) % 15 + 1)).find? (fun t => !used.contains t)).getD tau

/-- R324: tags every granule of the blocks of a claim. -/
def tagBlocks (t : Nat) : List Nat → State → State
  | [], s => s
  | b :: bs, s =>
    tagBlocks t bs { s with tags := pushTags (fun _ => BitVec.ofNat 4 t) (b * 2048) 2048 s.tags }

/-- R328: claims `n` pages of the sequence that a handle names. -/
def claimPages (gd : Reg) (h : Word) (n : Nat) (s : State) : MRes :=
  match liveSeq s h with
  | none => claimTrap s
  | some (eng, slot) =>
    let q := seqAt s eng slot
    let e := engineAt s eng
    if q.cap < q.len + n then claimTrap s
    else
      let blocks := freeBlocks e.counts (poolOf e).1 (poolOf e).2 n
      if blocks.length < n ∨ quotaLeft s s.hart.part eng < n then
        { claimSat gd s with st := notifyExhausted eng (mergeFlags [(0, flSAT)] s) }
      else
        let t := if q.tagged then claimTag s blocks e.tag else 0
        let s := setEngine s eng { e with
          counts := blocks.foldl (fun m b => smSet 0 m b 1) e.counts
          used := smSet 0 e.used s.hart.part (smGet 0 e.used s.hart.part + n)
          tag := if q.tagged then t % 15 + 1 else e.tag }
        let s := blocks.foldl (fun s b => uncacheBlock b s) (if q.tagged then tagBlocks t blocks s else s)
        let s := putLeaves q q.len (blocks.map (fun b => leafClaimed b q false)) s
        { st := setSeq eng slot { q with len := q.len + n } s,
          gw := some (gd, BitVec.ofNat 64 (t * 2 ^ 60 + (q.base + q.len * 2 ^ 16) % 2 ^ 48)) }

/-- `claim` as a convoy member, R328. -/
def memClaim (c : BitVec 1) (gd gb : Reg) : Member :=
  claimMember (.claim c gd gb) c (fun s => claimPages gd (readG s gb) 1 s)

/-- `claim`, R328. -/
def execClaim (c : BitVec 1) (gd gb : Reg) (s : State) : Res := runWords [memClaim c gd gb] s

/-- `claimn` as a convoy member, R328. -/
def memClaimn (c : BitVec 1) (gd gb gc : Reg) : Member :=
  claimMember (.claimn c gd gb gc) c (fun s =>
    let n := (readG s gc).toNat
    if n = 0 ∨ 8 < n then claimTrap s else claimPages gd (readG s gb) n s)

/-- `claimn`, R328. -/
def execClaimn (c : BitVec 1) (gd gb gc : Reg) (s : State) : Res := runWords [memClaimn c gd gb gc] s

/-- R329: the leaves of the first `n` pages of both sequences share their blocks. -/
def sharePages (src dst : Seq) (eng : Nat) : Nat → Nat → State → State
  | _, 0, s => s
  | i, n + 1, s =>
    let b := pageBlock s src i
    let e := engineAt s eng
    let s := setEngine s eng { e with counts := smSet 0 e.counts b (smGet 0 e.counts b + 1) }
    let s := putLeaf dst i (leafClaimed b dst true) (putLeaf src i (leafClaimed b src true) s)
    sharePages src dst eng (i + 1) n s

/-- `seqfork` as a convoy member, R329. -/
def memSeqfork (c : BitVec 1) (gd gb gc : Reg) : Member :=
  claimMember (.seqfork c gd gb gc) c (fun s =>
    match liveSeq s (readG s gb) with
    | none => claimTrap s
    | some (eng, slot) =>
      let q := seqAt s eng slot
      if !rangeOk s (readG s gc) q.cap then claimTrap s
      else match freeSlotOf s eng with
      | none => claimSat gd s
      | some new =>
        if (List.range q.len).any (fun i => smGet 0 (engineAt s eng).counts (pageBlock s q i) == 0xFFFF) then claimSat gd s
        else
          let d : Seq := { q with gen := (seqAt s eng new).gen, base := (readG s gc).toNat,
                                  tables := rangeTables s s.hart.part (readG s gc).toNat q.cap }
          let s := setSeq eng new d s
          let s := putLeaves d q.len (List.replicate (q.cap - q.len) leafUnclaimed) s
          { st := sharePages q d eng 0 q.len s, gw := some (gd, seqHandle s.hart.part eng d.gen new) })

/-- `seqfork`, R329. -/
def execSeqfork (c : BitVec 1) (gd gb gc : Reg) (s : State) : Res := runWords [memSeqfork c gd gb gc] s

/-- R330: lowers the count of a released block: a free block is zeroed (R320) and its quota returns; a block left with one
sharer is writable in place again (R322). -/
def releaseBlock (eng part block : Nat) (s : State) : State :=
  let e := engineAt s eng
  let n := smGet 0 e.counts block - 1
  let s := setEngine s eng { e with
    counts := smSet 0 e.counts block n
    used := if n = 0 then smSet 0 e.used part (smGet 0 e.used part - 1) else e.used }
  if n = 0 then zeroBlock s block else if n = 1 then unshare storeEntry eng block s else s

/-- R330: releases `n` pages of a sequence from page `i` on; `leaf` is what their leaves become. -/
def releasePages (q : Seq) (eng : Nat) (leaf : Word) : Nat → Nat → State → State
  | _, 0, s => s
  | i, n + 1, s =>
    let b := pageBlock s q i
    releasePages q eng leaf (i + 1) n (releaseBlock eng q.part b (putLeaf q i leaf s))

/-- R344: copies of a sequence no longer reach pages from `n` on: those in progress after a trim, and every one after a
close (`all`). No byte of such a page is read any more: the copy ends with end 8 there (log 42). -/
def cutCopies (handle : Word) (n : Nat) (all : Bool) (s : State) : State :=
  let cut (o : DriftOp) : DriftOp :=
    if o.form = .driftx ∧ o.src = handle ∧ (all ∨ o.begun) then { o with pages := Nat.min o.pages n } else o
  mapStrands (fun h => { h with chans := h.chans.map (fun c => { c with ops := c.ops.map cut }) }) s

/-- R321: the generation after a close. -/
def nextGen (g : Nat) : Nat := if g = 2047 then 1 else g + 1

/-- R330: closes a sequence. -/
def closeSeq (eng slot : Nat) (s : State) : State :=
  let q := seqAt s eng slot
  let s := cutCopies (seqHandle q.part eng q.gen slot) 0 true s
  let s := setSeq eng slot { Seq.free with gen := nextGen q.gen } s
  putLeaves q q.len (List.replicate (q.cap - q.len) 0) (releasePages q eng 0 0 q.len s)

/-- `seqtrim` as a convoy member, R330. -/
def memSeqtrim (c : BitVec 1) (gd gb gc : Reg) : Member :=
  claimMember (.seqtrim c gd gb gc) c (fun s =>
    match liveSeq s (readG s gb) with
    | none => claimTrap s
    | some (eng, slot) =>
      let q := seqAt s eng slot
      let n := Nat.min (readG s gc).toNat q.len
      let s := cutCopies (readG s gb) (q.len - n) false (setSeq eng slot { q with len := q.len - n } s)
      { st := releasePages q eng leafUnclaimed (q.len - n) n s, gw := some (gd, BitVec.ofNat 64 (q.len - n)) })

/-- `seqtrim`, R330. -/
def execSeqtrim (c : BitVec 1) (gd gb gc : Reg) (s : State) : Res := runWords [memSeqtrim c gd gb gc] s

/-- `seqclose` as a convoy member, R330. -/
def memSeqclose (c : BitVec 1) (gd gb : Reg) : Member :=
  claimMember (.seqclose c gd gb) c (fun s =>
    match liveSeq s (readG s gb) with
    | none => claimTrap s
    | some (eng, slot) =>
      { st := closeSeq eng slot s, gw := some (gd, BitVec.ofNat 64 (seqAt s eng slot).len) })

/-- `seqclose`, R330. -/
def execSeqclose (c : BitVec 1) (gd gb : Reg) (s : State) : Res := runWords [memSeqclose c gd gb] s

end Sys2Proof.Machine
end

