-- ==== Sys2Proof/Machine/Sync.lean ====
section
/-!
DEFINITION. Bells, fences and draining (R130–R141), majors 0x58 and 0x59. Every form stands alone (R32).
-/
namespace Sys2Proof.Machine

open Sys2Proof

/-- A word that stands alone (R32), with its checks and its effect. -/
def aloneMember (i : Instr) (c : BitVec 1) (check : State → Option Trap) (f : State → State × Option (Reg × Word)) :
    Member where
  word := i
  c := c
  role := .alone
  check := check
  run := fun _ s => { st := (f s).1, gw := (f s).2 }

/-- R137: the core whose bell a word names: its own for a register field of 0. -/
def bellCore (s : State) (gc : Reg) : Nat :=
  if gc = 0 then s.hart.core else s.hart.core / 4 * 4 + (readG s gc).toNat % 4

/-- R131: a bell number out of range, or the remote form on a deputy core, traps PROT. -/
def bellTrap (n : BitVec 11) (gc : Reg) (s : State) : Option Trap :=
  if onDeputy s.hart then (if gc ≠ 0 then some { cause := 6 } else none)
  else if s.hart.bells ≤ n.toNat then some { cause := 6 } else none

/-- The bell that a word names. -/
def namedBell (s : State) (n : BitVec 11) (core : Nat) : Bell :=
  bellAt s (bellOwner s.hart).1 (bellOwner s.hart).2 core n.toNat

/-- R133, R137: a release, then one arrival. -/
def arriveAt (n : BitVec 11) (core : Nat) (s : State) : State :=
  let s := release s
  arriveBell (bellOwner s.hart).1 (bellOwner s.hart).2 core n.toNat false s

/-- R134: the wait completes and acquires where the phase differs from P, and blocks otherwise. -/
def waitAt (n : BitVec 11) (core : Nat) (p : Bool) (scope : BitVec 3) (s : State) : State :=
  if (namedBell s n core).phase != p then acquire scope s
  else { s with hart := { s.hart with run := .waiting core n.toNat p false scope } }

/-- `arrive` as a convoy member, R137. -/
def memArrive (c : BitVec 1) (bell : BitVec 11) (gc : Reg) (scope : BitVec 3) : Member :=
  aloneMember (.arrive c bell gc scope) c (bellTrap bell gc) (fun s => (arriveAt bell (bellCore s gc) s, none))

/-- `arrive`, R137. -/
def execArrive (c : BitVec 1) (bell : BitVec 11) (gc : Reg) (scope : BitVec 3) (s : State) : Res :=
  runWords [memArrive c bell gc scope] s

/-- `wait` as a convoy member, R137. -/
def memWait (c : BitVec 1) (bell : BitVec 11) (gc : Reg) (scope : BitVec 3) (ph : BitVec 1) : Member :=
  aloneMember (.wait c bell gc scope ph) c (bellTrap bell gc)
    (fun s => (waitAt bell (bellCore s gc) (ph == 1) scope s, none))

/-- `wait`, R137. -/
def execWait (c : BitVec 1) (bell : BitVec 11) (gc : Reg) (scope : BitVec 3) (ph : BitVec 1) (s : State) : Res :=
  runWords [memWait c bell gc scope ph] s

/-- `arrwait` as a convoy member, R137. -/
def memArrwait (c : BitVec 1) (bell : BitVec 11) (gc : Reg) (scope : BitVec 3) (ph : BitVec 1) : Member :=
  aloneMember (.arrwait c bell gc scope ph) c (bellTrap bell gc)
    (fun s => (waitAt bell (bellCore s gc) (ph == 1) scope (arriveAt bell (bellCore s gc) s), none))

/-- `arrwait`, R137. -/
def execArrwait (c : BitVec 1) (bell : BitVec 11) (gc : Reg) (scope : BitVec 3) (ph : BitVec 1) (s : State) : Res :=
  runWords [memArrwait c bell gc scope ph] s

/-- R138: the bell after `bellset n`, and whether it flipped. -/
def bellArm (b : Bell) (n : BitVec 16) : Bell × Bool :=
  let a := b.count.toNat
  let e := n.toNat
  let b := { b with expect := n, short := false, overrun := false }
  if e = 0 ∨ a < e then (b, false)
  else ({ b with count := BitVec.ofNat 16 (a % e), phase := if a / e % 2 = 1 then !b.phase else b.phase }, true)

/-- Writes a bell of the issuing core, releasing its waiters where it flipped. -/
def putOwnBell (n : BitVec 11) (b : Bell) (flipped : Bool) (s : State) : State :=
  putBell (bellOwner s.hart).1 (bellOwner s.hart).2 s.hart.core n.toNat b flipped s

/-- `bellset` as a convoy member, R138. -/
def memBellset (c : BitVec 1) (bell : BitVec 11) (ga : Reg) : Member :=
  aloneMember (.bellset c bell ga) c (bellTrap bell 0) (fun s =>
    let (b, f) := bellArm (namedBell s bell s.hart.core) ((readG s ga).setWidth 16)
    (putOwnBell bell b f s, none))

/-- `bellset`, R138. -/
def execBellset (c : BitVec 1) (bell : BitVec 11) (ga : Reg) (s : State) : Res := runWords [memBellset c bell ga] s

/-- R130: the state of a bell as `belltst` reads it. -/
def Bell.word (b : Bell) : Word :=
  BitVec.ofNat 64 (b.overrun.toNat * 2 ^ 34 + b.short.toNat * 2 ^ 33 + b.phase.toNat * 2 ^ 32 + b.expect.toNat * 2 ^ 16 +
    b.count.toNat)

/-- `belltst` as a convoy member, R138. -/
def memBelltst (c : BitVec 1) (bell : BitVec 11) (gd : Reg) : Member :=
  aloneMember (.belltst c bell gd) c (bellTrap bell 0) (fun s => (s, some (gd, (namedBell s bell s.hart.core).word)))

/-- `belltst`, R138. -/
def execBelltst (c : BitVec 1) (bell : BitVec 11) (gd : Reg) (s : State) : Res := runWords [memBelltst c bell gd] s

/-- `bellrst` as a convoy member, R138. -/
def memBellrst (c : BitVec 1) (bell : BitVec 11) : Member :=
  aloneMember (.bellrst c bell) c (bellTrap bell 0) (fun s =>
    (putOwnBell bell { Bell.zero with phase := (namedBell s bell s.hart.core).phase } false s, none))

/-- `bellrst`, R138. -/
def execBellrst (c : BitVec 1) (bell : BitVec 11) (s : State) : Res := runWords [memBellrst c bell] s

/-- `fence` as a convoy member, R140. -/
def memFence (c : BitVec 1) (scope : BitVec 3) : Member :=
  aloneMember (.fence c scope) c (fun _ => none) (fun s => (acquire scope (release s), none))

/-- `fence`, R140. -/
def execFence (c : BitVec 1) (scope : BitVec 3) (s : State) : Res := runWords [memFence c scope] s

/-- R141: work of the strand that a drain of the queues of a mask waits for: its drift operations, its adapter contributions (R288), and its
messages. Every other instruction has completed when the next one issues (log 1). -/
def undrained (s : State) (h : Strand) (queues : BitVec 9) : Bool :=
  (List.range 4).any (fun n => queues.getLsbD (n + 3) && !(chanAt h n).ops.isEmpty) ||
  (queues.getLsbD 7 && s.contribs.any (fun c => c.who == whoIs h)) ||
  (queues.getLsbD 8 && s.msgs.any (fun m => m.who == whoIs h))

/-- R141: a drain that names a channel ends as a `dwp` acquire. -/
def drained (queues : BitVec 9) (s : State) : State :=
  if queues.extractLsb' 3 4 = 0 then s else acquire 0 s

/-- `drain` as a convoy member, R141. -/
def memDrain (c : BitVec 1) (queues : BitVec 9) : Member :=
  aloneMember (.drain c queues) c (fun _ => none) (fun s =>
    (if undrained s s.hart queues then { s with hart := { s.hart with run := .draining queues } }
     else drained queues s, none))

/-- `drain`, R141. -/
def execDrain (c : BitVec 1) (queues : BitVec 9) (s : State) : Res := runWords [memDrain c queues] s

end Sys2Proof.Machine
end

