-- ==== Sys2Proof/Machine/System.lean ====
section
/-!
DEFINITION. Trap and strand instructions, major 0x60 (R156–R160).
-/
namespace Sys2Proof.Machine

open Sys2Proof

/-- R156: the trap of `trap ga`. -/
def userTrap (v : Word) : Trap := { cause := 15, addr := v.setWidth 48, aux := v.extractLsb' 48 16 }

/-- `trap`, R156: USER, with EPC at the next word. -/
def execTrap (ga : Reg) (s : State) : Res :=
  .next (takeTrap (userTrap (readG s ga)) (s.hart.pc + 4) 0 false 0 (endConvoy s))

/-- `break`, R157: BREAK, with EPC at the word. -/
def execBrk (s : State) : Res := .next (trapAt { cause := 14 } s)

/-- `trapret`, R158: PRIV without act, else the return. -/
def execTrapret (s : State) : Res :=
  .next (if trapActive s then returnFromTrap s else trapAt (wordTrap .trapret 13 0) s)

/-- The mask of all nine queues (R141). -/
def allQueues : BitVec 9 := 0x1FF

/-- R97: a launch whose every strand has ended, with no replacement to come, is DONE. -/
def completeLaunch (p serial : Nat) (s : State) : State :=
  match findLaunch s p serial with
  | some l =>
    if l.placed && l.ended == l.members && l.replace.isEmpty then
      endLaunch p serial { status := 1, info := 0, place := 0, aux := 0 } s
    else s
  | none => s

/-- R159: the strand has drained: it closes its strip, releases at device scope and frees its slot. -/
def finishRetire (s : State) : State :=
  let h := s.hart
  let s := release (closeStrip 1 (drained allQueues s))
  let s := removeStrands (fun x => whoIs x == whoIs h && x.core == h.core && x.slot == h.slot && x.run != .vacant) s
  completeLaunch h.part h.serial (mapLaunch h.part h.serial (fun l => { l with ended := l.ended + 1 }) s)

/-- `retire`, R159: PRIV on a deputy; it waits until every queue of the strand has drained. -/
def execRetire (s : State) : Res :=
  if onDeputy s.hart then .next (trapAt (wordTrap .retire 13 0) s)
  else if undrained s s.hart allQueues then .next (endConvoy { s with hart := { s.hart with run := .retiring } })
  else .next (finishRetire s)

/-- `yield`, R160: the strand becomes the most recently issued of its class. -/
def execYield (s : State) : Res := finish { s with hart := { s.hart with stamp := s.tick, aged := false } }

end Sys2Proof.Machine
end

