-- ==== Sys2Proof/Machine/Nodes.lean ====
section
/-!
DEFINITION. Launch packets (R360, R361) and the nodes of a job with their handles and counters (R362–R365).
-/
namespace Sys2Proof.Machine

open Sys2Proof

/-! ### Packets -/

/-- R360: entry. -/
def pktEntry (p : List Word) : BitVec 48 := (p.getD 0 0).setWidth 48
/-- R360: N. -/
def pktN (p : List Word) : Nat := pktField p 1 0 48
/-- R360: seam macros of a strand. -/
def pktMacros (p : List Word) : Nat := pktField p 2 48 7
/-- R162: the height of a strand's stope allotment. -/
def pktRows (p : List Word) : Nat := (pktField p 2 32 11 + 15) / 16 * 16
/-- R360: nest. -/
def pktNest (p : List Word) : Nat := pktField p 2 18 2
/-- R360: class. -/
def pktClass (p : List Word) : Nat := pktField p 2 12 2
/-- R360: granule G. -/
def pktGranule (p : List Word) : Nat := pktField p 2 0 12
/-- R360: REPLAY. -/
def pktReplay (p : List Word) : Bool := pktField p 2 16 1 == 1
/-- R360: pipe. -/
def pktPipe (p : List Word) : Bool := pktField p 3 60 1 == 1
/-- R360: the address of the input queue's header. -/
def pktQueue (p : List Word) : Nat := pktField p 3 38 22 * 64
/-- R360: bells B. -/
def pktBells (p : List Word) : Nat := pktField p 3 20 12
/-- R95: bytes of a strand's pad allotment. -/
def pktPad (p : List Word) : Nat := (pktField p 3 0 20 + 255) / 256 * 256
/-- R360: wait entry `i`. -/
def pktWait (p : List Word) (i : Nat) : Word := p.getD (12 + i) 0
/-- R360: the gang set names view gang `die.g`. -/
def pktNames (p : List Word) (die g : Nat) : Bool := bitW (p.getD (4 + die) 0) g

/-- R360: the physical gangs of the gang set, die 0 first. -/
def pktGangs (pgang : Word) (p : List Word) : List Nat :=
  [0, 1].flatMap (fun d => (List.range 4).filterMap (fun g => if pktNames p d g then physGang pgang d g else none))

/-- R361: the gang set is not empty and names only gangs of the view. -/
def pktGangsOk (pgang : Word) (p : List Word) : Bool :=
  (p.getD 4 0 != 0 || p.getD 5 0 != 0) &&
  [0, 1].all (fun d => (List.range 64).all (fun g => !pktNames p d g || (physGang pgang d g).isSome))

/-- R361: a wait entry is zero or names a node. -/
def pktWaitOk (part : Nat) (w : Word) : Bool :=
  w == 0 || (bitsW w 33 23 == 0 && decide (1 ≤ bitsW w 61 3) && decide (bitsW w 61 3 ≤ 4) && bitsW w 56 5 == part)

/-- R361: with pipe, the queue lies in a sump aperture outside the top 8 KiB. -/
def pktQueueOk (p : List Word) : Bool :=
  match sumpAperture (pktQueue p) with
  | some (_, off) => decide (off < Config.frqOffset)
  | none => false

/-- R361: the packet is legal for a partition. -/
def pktLegal (s : State) (part : Nat) (p : List Word) : Bool :=
  pktField p 0 48 16 == 0 && pktField p 1 48 16 == 0 && pktField p 2 55 9 == 0 && pktField p 2 43 5 == 0 &&
  pktField p 2 20 12 == 0 && pktField p 2 14 1 == 0 && pktField p 3 61 3 == 0 && pktField p 3 32 6 == 0 &&
  pktField p 0 0 2 == 0 && decide (pktMacros p ≤ 64) && decide (pktField p 2 32 11 ≤ 1024) && pktNest p != 3 &&
  decide (1 ≤ pktGranule p) && decide (pktGranule p ≤ 2048) && decide (pktBells p ≤ 2048) &&
  decide (pktField p 3 0 20 ≤ Config.padBytes) && pktGangsOk (partOf s part).pgang p &&
  (!pktPipe p || pktQueueOk p) && (pktField p 2 15 1 == 0 || bitW (partOf s part).ppriv 0) &&
  (List.range 4).all (fun i => pktWaitOk part (pktWait p i))

/-- The dwords of a packet's bytes. -/
def dwordsOf (n : Nat) (bs : List Byte) : List Word :=
  (List.range n).map (fun i => BitVec.ofNat 64 (leNat ((bs.drop (8 * i)).take 8)))

/-! ### Nodes -/

/-- A job by its place in acceptance order. -/
def findJob (s : State) (id : Nat) : Option Job := s.jobs.find? (fun j => j.id == id)

/-- Changes one job. -/
def mapJob (id : Nat) (f : Job → Job) (s : State) : State :=
  { s with jobs := s.jobs.map (fun j => if j.id = id then f j else j) }

/-- R364, R387: the statuses of the launches of a job are written. -/
def jobSettled (s : State) (j : Job) : Bool := s.launches.all (fun l => l.job != j.id || l.part != j.part || l.written)

/-- R357: a job has no terminal status yet, or one that waits for the work of its launches (R387). -/
def jobUnsettled (s : State) (j : Job) : Bool := j.verdict.isNone || !jobSettled s j

/-- R357: a job is live until it has its terminal status. -/
def jobLive (s : State) (id : Nat) : Bool :=
  match findJob s id with
  | some j => jobUnsettled s j
  | none => false

/-- R363: a handle is malformed for a partition. -/
def badHandle (part : Nat) (h : Word) : Bool :=
  decide (bitsW h 61 3 < 1) || decide (4 < bitsW h 61 3) || bitsW h 32 24 != 0 || bitsW h 56 5 != part

/-- R363: the node of a level that holds a launch. -/
def nodeAbove (l : Launch) (level : Nat) : Node :=
  { level := level, part := l.part, job := l.job, phase := if level ≤ 3 then l.phase else 0,
    graph := if level ≤ 2 then l.graph else 0, serial := if level ≤ 1 then l.serial else 0 }

/-- R363: the node that a well-formed handle names; none for no node. -/
def nodeOf (s : State) (part : Nat) (h : Word) : Option Node :=
  match findLaunch s part (bitsW h 0 32) with
  | some l => if jobLive s l.job then some (nodeAbove l (bitsW h 61 3)) else none
  | none => none

/-- A node holds a launch. -/
def Node.holds (n : Node) (l : Launch) : Bool :=
  l.part == n.part && l.job == n.job && nodeAbove l n.level == n

/-- The launches inside a node, in order of making. -/
def launchesIn (s : State) (n : Node) : List Launch := s.launches.filter n.holds

/-- R364: the nodes that are members of a node above a launch, in order of making. -/
def membersOf (s : State) (n : Node) : List Node := ((launchesIn s n).map (fun l => nodeAbove l (n.level - 1))).eraseDups

/-- R364: the status of a node as its counter reads: 0 while live. -/
def nodeStatus (s : State) (n : Node) : Nat :=
  if n.level = 1 then
    match (launchesIn s n).head? with
    | some l => match l.verdict with
                | some v => if l.written then v.status else 0
                | none => 0
    | none => 0
  else match findJob s n.job with
  | some j => match j.written.find? (fun w => w.1 == n.level && w.2.1 == n.phase && w.2.2.1 == n.graph) with
              | some w => w.2.2.2
              | none => 0
  | none => 0

/-- R364: members placed or made, and members that are terminal. -/
def nodeCount (s : State) (n : Node) : Nat × Nat :=
  if n.level = 1 then
    match (launchesIn s n).head? with
    | some l => (l.members, l.ended)
    | none => (0, 0)
  else
    let ms := membersOf s n
    (ms.length, (ms.filter (fun m => nodeStatus s m != 0)).length)

/-- R364: the completion counter. -/
def nodeWord (s : State) (n : Node) : Word :=
  let c := nodeCount s n
  BitVec.ofNat 64 (nodeStatus s n * 2 ^ 61 + c.1 % 2 ^ 24 * 2 ^ 24 + c.2 % 2 ^ 24)

/-- R364: the counter of no node. -/
def noNodeWord : Word := BitVec.ofNat 64 (7 * 2 ^ 61)

/-- R363: the handle of a launch. -/
def launchHandle (part serial : Nat) : Word := BitVec.ofNat 64 (2 ^ 61 + part % 32 * 2 ^ 56 + serial % 2 ^ 32)

/-- R378: cancels every launch inside a node that has not ended. -/
def cancelNode (n : Node) (s : State) : State :=
  (launchesIn s n).foldl
    (fun s l => endLaunch l.part l.serial { status := 2, info := 0, place := 0, aux := 0 } s) s

/-- R102: the serial after one. -/
def serialAfter (n : Nat) : Nat := if n + 1 < 2 ^ 32 then n + 1 else 1

/-- R362: adds a launch to a job at a phase and graph; its wait entries take the nodes they name now (R365). -/
def addLaunch (part job phase graph home : Nat) (addr : Word) (pkt : List Word) (s : State) : State × Nat :=
  let pt := partOf s part
  let serial := pt.nextSerial
  let waits := (List.range 4).filterMap (fun i =>
    let w := pktWait pkt i
    if w = 0 then none else some (bitW w 32, nodeOf s part (setBitsW w 32 1 0)))
  let l : Launch := {
    part := part, serial := serial, job := job, phase := phase, graph := graph, order := s.accepted, pkt := pkt,
    addr := addr, home := home, placed := false, gangs := [], waits := waits, members := 0, ended := 0, next := 0,
    returned := [], replace := [], severed := false, verdict := none, written := false, reported := false }
  let s := setPart s part { pt with nextSerial := serialAfter serial }
  ({ s with launches := s.launches.filter (fun x => !(x.part == part && x.serial == serial)) ++ [l]
            accepted := s.accepted + 1 }, serial)

end Sys2Proof.Machine
end

