-- ==== Sys2Proof/Machine/Launch.lean ====
section
/-!
DEFINITION. The instructions of the headframe, major 0x61 (R377–R380), and the cache forms, major 0x63 (R381).
-/
namespace Sys2Proof.Machine

open Sys2Proof

/-- R377: the read of a packet: a load without CONFLICT, 128 bytes aligned to 128. -/
def packetReq (a : Word) : Req := { kind := .read, ptr := a, len := 128, align := 128, plain := false }

/-- R377: launches of a partition that are not terminal. -/
def liveLaunches (s : State) (part : Nat) : Nat :=
  (s.launches.filter (fun l => l.part == part && !l.written)).length

/-- R362, R377: makes the launch of a packet in the node that its nest field chooses beside the issuer's launch. -/
def makeLaunch (a : Word) (pkt : List Word) (s : State) : State × Nat :=
  let p := s.hart.part
  let (job, phase, graph) := match findLaunch s p s.hart.serial with
    | some l => (l.job, l.phase, l.graph)
    | none => (0, 0, 0)
  let used := (s.launches.filter (fun l => l.part == p && l.job == job && l.phase == phase)).map (·.graph)
  let phases := match findJob s job with | some j => j.phases | none => 1
  let addr := a &&& 0xFFFF_FFFF_FFFF
  match pktNest pkt with
  | 0 => addLaunch p job phase graph (dieOf s.hart.core) addr pkt s
  | 1 => addLaunch p job phase (used.foldl Nat.max 0 + 1) (dieOf s.hart.core) addr pkt s
  | _ => addLaunch p job phases 0 (dieOf s.hart.core) addr pkt
           (mapJob job (fun j => { j with phases := j.phases + 1 }) s)

/-- `launch`, R377. -/
def execLaunch (gd ga : Reg) (s : State) : Res :=
  if onDeputy s.hart then .next (trapAt (wordTrap (.launch gd ga) 13 0) s)
  else
    let a := readG s ga
    let r := packetReq a
    match check s r with
    | .home k _ _ =>
      let pkt := dwordsOf 16 (memBytes s k 128)
      if !pktLegal s s.hart.part pkt then .next (trapAt (r.trap 6 0) s)
      else
        let s := release s
        if 65536 ≤ liveLaunches s s.hart.part then finishG gd 0 (mergeFlags [(0, flSAT)] s)
        else
          let (s, serial) := makeLaunch a pkt s
          finishG gd (launchHandle s.hart.part serial) s
    | c => .next (stopScalar c s)

/-- PROT of a malformed handle (R363). -/
def handleTrap : Trap := { cause := 6 }

/-- `cancel`, R378; where the node holds the issuing strand, the strand stops here. -/
def execCancel (ga : Reg) (s : State) : Res :=
  if onDeputy s.hart then .next (trapAt (wordTrap (.cancel ga) 13 0) s)
  else if badHandle s.hart.part (readG s ga) then .next (trapAt handleTrap s)
  else match nodeOf s s.hart.part (readG s ga) with
  | some n => .next (cancelNode n (advance (endConvoy s)))
  | none => finish s

/-- R379: a `cwait` on a node with g[gb] = `count` returns. -/
def cwaitDone (s : State) (n : Node) (count : Word) : Bool :=
  nodeStatus s n != 0 || (count != 0 && decide (bitsW count 0 24 ≤ (nodeCount s n).2))

/-- R379: the node holds the strand's own launch. -/
def holdsStrand (s : State) (n : Node) : Bool :=
  match findLaunch s s.hart.part s.hart.serial with
  | some l => n.holds l
  | none => false

/-- `cwait`, R379: an acquire at device scope where it returns. -/
def execCwait (ga gb : Reg) (s : State) : Res :=
  let h := readG s ga
  let count := readG s gb
  if onDeputy s.hart then .next (trapAt (wordTrap (.cwait ga gb) 13 0) s)
  else if badHandle s.hart.part h then .next (trapAt handleTrap s)
  else match nodeOf s s.hart.part h with
  | none => finish (acquire 3 s)
  | some n =>
    if count = 0 && holdsStrand s n then .next (trapAt handleTrap s)
    else if cwaitDone s n count then finish (acquire 3 s)
    else finish { s with hart := { s.hart with run := .cwaiting h (bitsW count 0 24) } }

/-- `cread`, R380. -/
def execCread (gd ga : Reg) (s : State) : Res :=
  if onDeputy s.hart then .next (trapAt (wordTrap (.cread gd ga) 13 0) s)
  else if badHandle s.hart.part (readG s ga) then .next (trapAt handleTrap s)
  else finishG gd (match nodeOf s s.hart.part (readG s ga) with
    | some n => nodeWord s n
    | none => noNodeWord) s

/-! ### Cache forms (R381) -/

/-- Key of an instruction cache word. -/
def fetchKey (core part va : Nat) : Nat := (core * 32 + part % 32) * 2 ^ 46 + va / 4

/-- R381: drops the lines of a virtual range from the instruction caches of the cores of the issuer: those of its
partition, or the deputies for a deputy. -/
def dropFetch (dep : Bool) (part lo n : Nat) (s : State) : State :=
  { s with icache := s.icache.filter (fun x =>
      let core := x.1 / 2 ^ 51
      let word := x.1 % 2 ^ 46
      !((decide (0x200 ≤ core) == dep) && (dep || x.1 / 2 ^ 46 % 32 == part) && decide (n ≠ 0) &&
        decide (lo / 4 ≤ word) && decide (word < (lo + n + 3) / 4))) }

/-- `icinv`, R381. -/
def execIcinv (ga gb : Reg) (s : State) : Res :=
  finish (dropFetch (onDeputy s.hart) s.hart.part ((readG s ga).toNat % 2 ^ 48) (readG s gb).toNat s)

/-- `dcinv`, R381: invalidates the core's scalar data cache. -/
def execDcinv (s : State) : Res := finish (dropCache s.hart.core s)

/-- `dcwb`, R381: every older store has been performed at its home when it completes (log 1). -/
def execDcwb (_ga _gb : Reg) (s : State) : Res := finish s

end Sys2Proof.Machine
end

