-- ==== Sys2Proof/Machine/Deputy.lean ====
section
/-!
DEFINITION. The deputy instructions, major 0x62 (R255–R262), with the legality of map entries (R241–R244), suspensions'
ends (R253), and the kill of a partition (R259).
-/
namespace Sys2Proof.Machine

open Sys2Proof

/-- A form that issues only on a deputy core, and elsewhere traps PRIV (R76). -/
def deputyForm (i : Instr) (f : State → Res) (s : State) : Res :=
  if onDeputy s.hart then f s else .next (trapAt (wordTrap i 13 0) s)

/-- PROT of a deputy form: a malformed place, handle or selector names no address (log 29). -/
def deputyTrap (s : State) : Res := .next (trapAt { cause := 6 } s)

/-- PROT of a deputy form at the address that its operand names (R146; log 29). -/
def deputyTrapAt (w : Word) (s : State) : Res := .next (trapAt { cause := 6, addr := w.setWidth 48 } s)

/-- The deputy's number on its die. -/
def deputyNo (s : State) : Nat := s.hart.core % 2

/-- R251: the aperture address of slot `i` of a die's queue. -/
def frqAddr (die i : Nat) : Nat := (if die % 2 = 0 then 0x09FF_E000 else 0x0FFF_E000) + 32 * (i % 256)

/-- The slots that the two deputies hold, with one of them changed. -/
def setHeld (d : Die) (n : Nat) (v : Option Nat) : Die :=
  { d with held := d.held.set (n % 2) v (Nat.mod_lt n (by decide)) }

/-- `frqpop`, R255: the deputy gives back the slot it held and takes the oldest record's, with an acquire at die scope. -/
def execFrqpop (gd : Reg) (s : State) : Res :=
  deputyForm (.frqpop gd) (fun s =>
    let die := dieOf s.hart.core
    let d := dieAt s die
    let s := acquire 2 s
    if d.frHead = d.frTail then finishG gd 0 (setDie s die (setHeld d (deputyNo s) none))
    else
      finishG gd (BitVec.ofNat 64 (frqAddr die d.frHead))
        (setDie s die { setHeld d (deputyNo s) (some (d.frHead % 256)) with frHead := d.frHead + 1 })) s

/-! ### Map entries (R241–R244) -/

/-- R254: the partition of a place. -/
def placePart (w : Word) : Nat := bitsW w 53 5

/-- R254: the virtual address of a place. -/
def placeVa (w : Word) : Nat := bitsW w 0 48

/-- R254: a place with reserved bits, or with a sub that its form does not take. -/
def badPlace (w : Word) (maxSub : Nat) : Bool := bitsW w 58 6 != 0 || decide (maxSub < bitsW w 48 5)

/-- R244: `n` bytes lie wholly in one HBM stack. -/
def inStack (pa n : Nat) : Bool := decide (pa / 2 ^ 37 < 12) && decide (pa % 2 ^ 37 + n ≤ Config.stackBytes)

/-- R244: `n` bytes lie wholly in one sump. -/
def inSump (pa n : Nat) : Bool :=
  decide (sumpBase 0 ≤ pa) && decide (pa < sumpBase 0 + 2 ^ 28) && decide (pa % 2 ^ 27 + n ≤ Config.sumpBytes)

/-- R241: the reserved bits of an entry are zero. -/
def entryClean (e : Word) : Bool := bitsW e 42 12 == 0 && bitsW e 0 8 == 0

/-- R241, R243, R244: a valid walked entry keeps the rules: a 64 KiB leaf, a 2 MiB leaf, or a pointer to a level-2 table. -/
def walkedOk (e : Word) : Bool :=
  entryClean e &&
  match entryKind e with
  | 0 => entryPa e % 2 ^ 16 == 0 && (inStack (entryPa e) (2 ^ 16) || inSump (entryPa e) (2 ^ 16))
  | 1 => entryPa e % 2 ^ 21 == 0 && inStack (entryPa e) (2 ^ 21)
  | 2 => inStack (entryPa e) 256
  | _ => false

/-- R241, R244: a shaft entry keeps the rules; its host, wp and claim bits, which only a walked leaf has, are ignored
(log 50). -/
def shaftOk (e : Word) : Bool :=
  entryClean e && !bitW e 61 &&
  match entryKind e with
  | 1 => entryPa e % 2 ^ 35 == 0 && inStack (entryPa e) (2 ^ 35)
  | 3 => entryPa e % 2 ^ 17 == 0 && inStack (entryPa e) (2 ^ 17)
  | _ => true

/-- R242, R244: a sub-entry keeps the rules. -/
def subOk (e : Word) : Bool :=
  entryClean e && !bitW e 61 &&
  match entryKind e with
  | 0 => true
  | 1 => entryPa e % 2 ^ 30 == 0 && inStack (entryPa e) (2 ^ 30)
  | _ => false

/-- R243: the address of the level-1 entry of a place, if its region is SMALL. -/
def levelOne (s : State) (p va : Nat) : Option Nat :=
  let e := smGet 0 (partOf s p).shaft (va / 2 ^ 35)
  if entryKind e = 3 then some (entryPa e + 8 * (va / 2 ^ 21 % 16384)) else none

/-- R256: the entry that `pgmap` of an entry of kind `kind` writes. -/
def mapTarget (s : State) (p va kind : Nat) : Option Nat :=
  match levelOne s p va with
  | none => none
  | some a1 =>
    match kind with
    | 0 => leafAddr s p va
    | 1 => some a1
    | 2 => some a1
    | _ => none

/-- R246, R263: a map of a partition has changed: what its instruction caches fetched through it is dropped. -/
def mapChanged (p : Nat) (s : State) : State := dropFetch false p 0 (2 ^ 48) s

/-- `pgmap`, R256. -/
def execPgmap (ga gb : Reg) (s : State) : Res :=
  deputyForm (.pgmap ga gb) (fun s =>
    let w := readG s ga
    let e := readG s gb
    if badPlace w 0 then deputyTrap s
    else match mapTarget s (placePart w) (placeVa w) (entryKind e) with
    | none => deputyTrapAt w s
    | some a =>
      if bitW (tableEntry s a) 57 || bitW e 57 || (bitW e 61 && !walkedOk e) then deputyTrapAt w s
      else finish (storeEntry (mapChanged (placePart w) s) a e)) s

/-- R257: the leaf that maps a place, as the address of its entry. -/
def leafOfPlace (s : State) (p va a1 : Nat) : Nat := (leafAddr s p va).getD a1

/-- R257: an entry is a valid leaf of its level. -/
def validLeaf (e : Word) (levelTwo : Bool) : Bool := bitW e 61 && (entryKind e == if levelTwo then 0 else 1)

/-- `pgunmap`, R257. A place whose region is not SMALL traps PROT as for `pgmap` (log 29). -/
def execPgunmap (ga : Reg) (s : State) : Res :=
  deputyForm (.pgunmap ga) (fun s =>
    let w := readG s ga
    if badPlace w 0 then deputyTrap s
    else match levelOne s (placePart w) (placeVa w) with
    | none => deputyTrapAt w s
    | some a1 =>
      let a := leafOfPlace s (placePart w) (placeVa w) a1
      let e := tableEntry s a
      if bitW e 57 then deputyTrapAt w s
      else if validLeaf e (a != a1) then finish (storeEntry (mapChanged (placePart w) s) a 0)
      else finish s) s

/-! ### Suspensions (R253) -/

/-- R251: the record that a handle names has not entered its queue: its strand stays suspended. -/
def recordHeld (s : State) (w : Word) : Bool :=
  s.dies.toList.any (fun d => d.waiting.any (fun r =>
    let h := r.words.getD 1 0
    r.fresh && bitsW h 48 16 == bitsW w 48 16 && bitsW h 11 21 == bitsW w 11 21))

/-- R253: the record that a handle names, of the suspended strand that it names by susp, core, slot, part and gen. -/
def handleMatches (s : State) (h : Strand) (w : Word) : Bool :=
  h.run == .suspended && h.susp.toNat == bitsW w 48 16 && coreId s h % 512 == bitsW w 16 9 && h.slot == bitsW w 25 2 &&
  h.part == bitsW w 11 5 && (partOf s h.part).gen.toNat == bitsW w 0 11 && decide (bitsW w 27 5 < h.recs.length) &&
  !recordHeld s w

/-- R253: one record of the suspension is resumed; with the last of them the strand is ready, and owes an element (R152). -/
def resumeRec (i : Nat) (fail : Bool) (h : Strand) : Strand :=
  let recs := h.recs.zipIdx.map (fun x => if x.2 = i then { x.1 with resumed := true, failed := fail } else x.1)
  if recs.all (·.resumed) then
    owe { h with run := .ready, recs := [], resuming := true, convoy := .none,
                 failPages := h.failPages ++ (recs.filter (·.failed)).map (·.page) }
  else { h with recs := recs }

/-- The record is still to be resumed. -/
def recOpen (h : Strand) (i : Nat) : Bool :=
  match h.recs[i]? with
  | some r => !r.resumed
  | none => false

/-- R253: applies a handle to every strand it names; one that matches no live suspension changes nothing. -/
def resumeHandle (w : Word) (s : State) : State :=
  mapStrands (fun h =>
    if handleMatches s h w && recOpen h (bitsW w 27 5) then resumeRec (bitsW w 27 5) (bitW w 38) h else h) s

/-- `resume`, R258. -/
def execResume (ga : Reg) (s : State) : Res :=
  deputyForm (.resume ga) (fun s => finish (resumeHandle (readG s ga) s)) s

/-- R259: ends every launch of a partition that has not ended, FAULTED with cause 0. -/
def killLaunches (p : Nat) (s : State) : State :=
  (s.launches.filter (fun l => l.part == p)).foldl
    (fun s l => endLaunch p l.serial { status := 3, info := 0, place := 0, aux := 0 } s) s

/-- R259, R387: the jobs of a partition that have made no launch end FAULTED with it. -/
def killJobs (p : Nat) (s : State) : State :=
  { s with jobs := s.jobs.map (fun j =>
      if j.part = p ∧ ¬j.started ∧ j.verdict.isNone then
        { j with started := true, verdict := some { status := 3, info := 0, place := 0, aux := 0 } }
      else j) }

/-- R259: the kill of a partition. Outstanding page requests stay, and their answers fail the generation test. -/
def killPart (p : Nat) (s : State) : State :=
  let s := setPart s p { partOf s p with gen := (partOf s p).gen + 1 }
  killJobs p (killLaunches p s)

/-- `kill`, R259. -/
def execKill (ga : Reg) (s : State) : Res :=
  deputyForm (.kill ga) (fun s =>
    let w := readG s ga
    if bitsW w 5 59 != 0 then deputyTrap s else finish (killPart (w.toNat % 32) s)) s

/-! ### Page requests and invalidation -/

/-- R252: the lowest group index that no outstanding request of a partition has. -/
def freeIndex (pt : Part) : Option Nat := (List.range 512).find? (fun i => !pt.pgreqs.any (fun r => r.idx == i))

/-- R260: the slot that this deputy holds, if it lies at the address; its neighbour's held slot is none of its own (log 50). -/
def heldSlot (s : State) (a : Word) : Option Nat :=
  let die := dieOf s.hart.core
  match (dieAt s die).held[deputyNo s % 2]'(Nat.mod_lt _ (by decide)) with
  | some i => if a.toNat = frqAddr die i then some i else none
  | none => none

/-- R260: the record in a slot of a die's queue is one to ask the host for. -/
def pgreqRecord (s : State) (die i : Nat) : Option (List Word) :=
  let r := dwordsOf 4 (memBytes s (frqKey die i) 32)
  if !bitW (r.getD 3 0) 0 || decide (2 < bitsW (r.getD 0 0) 52 4) then none else some r

/-- R252, R386: the index that a request of a partition takes, where one is free and requests are not stopped. -/
def requestIndex (pt : Part) : Option Nat := if pt.priFailed then none else freeIndex pt

/-- R252: `pgreq` waits at issue for a free index. -/
def pgreqWaits (ga : Reg) (s : State) : Bool :=
  onDeputy s.hart &&
  match (heldSlot s (readG s ga)).bind (pgreqRecord s (dieOf s.hart.core)) with
  | some r => (requestIndex (partOf s (bitsW (r.getD 1 0) 11 5))).isNone
  | none => false

/-- `pgreq`, R260, R252; with no free index, or requests stopped on the function (R386), it waits at issue. -/
def execPgreq (ga : Reg) (s : State) : Res :=
  deputyForm (.pgreq ga) (fun s =>
    let die := dieOf s.hart.core
    match (heldSlot s (readG s ga)).bind (pgreqRecord s die) with
    | none => deputyTrapAt (readG s ga) s
    | some r =>
      let p := bitsW (r.getD 1 0) 11 5
      let pt := partOf s p
      match requestIndex pt with
      | none => .next s
      | some n =>
        let m : PageMsg := { part := p, idx := n, page := bitsW (r.getD 0 0) 16 32,
                             write := [1, 2, 5].contains (bitsW (r.getD 0 0) 52 4) }
        finish (setPart { s with pageMsgs := m :: s.pageMsgs } p { pt with pgreqs := pt.pgreqs ++
          [{ idx := n, die := die, record := r, gen := (r.getD 1 0).setWidth 11 }] })) s

/-- `tlbinv`, R261: no translation is held in the model; the instruction caches drop what they fetched. -/
def execTlbinv (ga : Reg) (s : State) : Res :=
  deputyForm (.tlbinv ga) (fun s =>
    let w := readG s ga
    if 3 < bitsW w 58 6 ∨ bitsW w 48 5 ≠ 0 then deputyTrap s else finish (mapChanged (placePart w) s)) s

/-- R242: SPLIT entries of a partition. -/
def splitCount (pt : Part) : Nat := (pt.shaft.filter (fun x => entryKind x.2 == 2)).length

/-- R262: writes a shaft entry; a new SPLIT starts with 32 VOID sub-entries, and one over a SPLIT keeps those it has (log 50). -/
def putShaft (p n : Nat) (e : Word) (s : State) : State :=
  let pt := partOf s p
  let keep := entryKind e == 2 && entryKind (smGet 0 pt.shaft n) == 2
  setPart s p { pt with shaft := smSet 0 pt.shaft n e
                        subs := if keep then pt.subs else smDrop (n * 32) 32 pt.subs }

/-- `shmap`, R262. -/
def execShmap (ga gb : Reg) (s : State) : Res :=
  deputyForm (.shmap ga gb) (fun s =>
    let w := readG s ga
    let e := readG s gb
    let p := placePart w
    let pt := partOf s p
    let n := placeVa w / 2 ^ 35
    let sub := bitsW w 48 5
    let old := smGet 0 pt.shaft n
    if badPlace w 32 then deputyTrap s
    else if sub = 0 then
      if !shaftOk e || (entryKind e == 2 && entryKind old != 2 && decide (256 ≤ splitCount pt)) then deputyTrapAt w s
      else finish (putShaft p n e (mapChanged p s))
    else if entryKind old != 2 || !subOk e then deputyTrapAt w s
    else finish (setPart (mapChanged p s) p { pt with subs := smSet 0 pt.subs (n * 32 + (sub - 1)) e })) s

end Sys2Proof.Machine
end

