-- ==== Sys2Proof/Machine/Seam.lean ====
section
/-!
DEFINITION. The seam (R269–R291) and the instructions of majors 0x48 to 0x4C (R292–R300). Seam work is performed when the
seam accepts it, rows in ascending order; a convoy reissued with STIDX.sa set passes over its accepted member (R295).
-/
namespace Sys2Proof.Machine

open Sys2Proof

/-! ### Rows, bounds and digits -/

/-- R271: the guard width in bits that a value of SGW names. -/
def guardWidth (gw : BitVec 2) : Nat := 16 * 2 ^ gw.toNat

/-- R271: the guard width in bits that SGW names. -/
def guardBits (s : State) : Nat := guardWidth s.hart.seam.gw

/-- R274: images of a packed word. -/
def packN (s : State) : Nat := 512 / guardBits s

/-- R294: the SGW that a lane form of the open convoy captures: what it captured before, where it is older than an `sguard` that the
seam accepted at an earlier issue. -/
def laneGuard (s : State) : BitVec 2 :=
  match s.hart.seam.older with
  | some (first, gw) => if seamDone s && first == (convoyFirst s).getD s.hart.pc then gw else s.hart.seam.gw
  | none => s.hart.seam.gw

/-- R271: the guard width in bits that a lane form captures. -/
def laneBits (s : State) : Nat := guardWidth (laneGuard s)

/-- R274: images of a packed word that a lane form packs or unpacks. -/
def laneN (s : State) : Nat := 512 / laneBits s

/-- R295: the reissue passes over the word at the SEAM position; the younger members capture SGW as it is (R294). -/
def passSeam (s : State) : MRes :=
  let seam := s.hart.seam
  let done := seam.older.any (fun x => x.1 == (convoyFirst s).getD s.hart.pc)
  { st := if done then { s with hart := { s.hart with seam := { seam with older := none } } } else s, seamAccepted := true }

/-- A held row of a strand (R269). -/
def rowOf (h : Strand) (r : Nat) : SeamRow := smGet SeamRow.zero h.seam.rows r

/-- A strand with a held row written. -/
def setRow (r : Nat) (v : SeamRow) (h : Strand) : Strand :=
  { h with seam := { h.seam with rows := smSet SeamRow.zero h.seam.rows r v } }

/-- A held row of the strand in focus. -/
def seamRow (s : State) (r : Nat) : SeamRow := rowOf s.hart r

/-- Writes a held row of the strand in focus. -/
def setSeamRow (r : Nat) (v : SeamRow) (s : State) : State := { s with hart := setRow r v s.hart }

/-- Changes every held row; a row that becomes as a fresh one leaves the list. -/
def mapRows (f : SeamRow → SeamRow) (s : State) : State :=
  { s with hart := { s.hart with seam := { s.hart.seam with
      rows := s.hart.seam.rows.filterMap (fun x => if f x.2 = SeamRow.zero then none else some (x.1, f x.2)) } } }

/-- SBOUND of a slot (R271). -/
def boundOf (s : State) (slot : BitVec 1) : Word := if slot = 0 then s.hart.seam.bound0 else s.hart.seam.bound1

/-- R271: the headroom bound of a slot. -/
def headroom (s : State) (slot : BitVec 1) : Nat := bitsW (boundOf s slot) 0 63

/-- R279: the slots are joined. -/
def joinedSlots (s : State) (slot : BitVec 1) : Bool := bitW (boundOf s slot) 63

/-- Writes both SBOUND registers. -/
def setBounds (b0 b1 : Word) (s : State) : State :=
  { s with hart := { s.hart with seam := { s.hart.seam with bound0 := b0, bound1 := b1 } } }

/-- R276: digit `k` of an accumulator value by the balanced rule. -/
def digit (g k p : Nat) : Int :=
  if k = 0 then sextN g p else sextN g ((p + 2 ^ (g * k - 1)) / 2 ^ (g * k))

/-- R277: the bound of a class. -/
def classBound (c : BitVec 2) : Nat :=
  match c.toNat with
  | 0 => 8
  | 1 => 16
  | 2 => 128
  | _ => 32767

/-- R277: the classes that a guard width allows. -/
def classAllowed (gw c : BitVec 2) : Bool :=
  match gw.toNat with
  | 0 => decide (c.toNat ≤ 1)
  | 1 => decide (c.toNat ≤ 2)
  | _ => true

/-- R275: the accumulator pair of convolution mode. -/
def pairOf (r : SeamRow) : Nat := r.s1.toNat * 2 ^ 512 + r.s0.toNat

/-- R275: one row takes one product. -/
def accumulate (slot mode : BitVec 1) (a : BitVec 512) (r : SeamRow) : SeamRow :=
  if mode = 1 then
    let t := (pairOf r + a.toNat * r.b.toNat) % 2 ^ 1024
    { r with s0 := BitVec.ofNat 512 t, s1 := BitVec.ofNat 512 (t / 2 ^ 512) }
  else if slot = 0 then { r with s0 := r.s0 + a * r.b }
  else { r with s1 := r.s1 + a * r.b }

/-! ### The row operand and the checks at issue -/

/-- R273: r0 of a row operand. -/
def rowBase (s : State) (ga : Reg) : Nat := bitsW (readG s ga) 0 15

/-- R273: bcast of a row operand. -/
def rowBcast (s : State) (ga : Reg) : Bool := bitW (readG s ga) 15

/-- R273: sel of a row operand. -/
def rowSel (s : State) (ga : Reg) : Nat := bitsW (readG s ga) 16 16

/-- R273: the rows named lie past the grant. -/
def rowTrap (s : State) (ga : Reg) : Option Trap :=
  if vl s ≠ 0 ∧ s.hart.seam.grant < rowBase s ga + vl s then some { cause := 6 } else none

/-- R293: the checks of one window of a tensor form, for `n` elements. -/
def tensorWindow (i : Instr) (s : State) (w : Win) (code : Nat) (dest : Bool) (typeOk : Nat → Bool) (n : Nat) :
    Option Trap :=
  let d := readW s w
  let bad (reason : Nat) : Option Trap := some (wordTrap i 4 (windowAux w code reason))
  if malformed d dest then bad 2
  else if !typeOk (dType d) then bad 2
  else if dCount d < n then bad 0
  else if dEdge d == 2 && (List.range n).any (pastEdge s.hart.height d) then bad 1
  else none

/-- The first of two checks that holds. -/
def orElseTrap (a : Option Trap) (b : Option Trap) : Option Trap := if a.isSome then a else b

/-- A member of majors 0x48 to 0x4B (R293–R295): accepted as a whole, passed over on a reissue with STIDX.sa set, on a deputy core
too (log 56, `Member.passed`). -/
def seamMember (i : Instr) (c : BitVec 1) (check : State → Option Trap) (run : State → MRes)
    (reads : State → List Cell) : Member where
  word := i
  c := c
  role := .member clSeam
  priv := fun s => onDeputy s.hart
  check := fun s => if seamDone s then none else check s
  run := fun _ s => if seamDone s then passSeam s else run s
  reads := fun s => if seamDone s then [] else reads s
  seam := true
  commit := .chained

/-- The elements that a seam member reads of its windows: those below VL, or in a broadcast element 0 alone (R273). -/
def seamElems (bcast : Bool) (s : State) : List Nat := if bcast then List.range (Nat.min 1 (vl s)) else List.range (vl s)

/-- A seam member that reads the elements `es` of its windows: it waits for a STREAM source, and with an error in one it traps at
its issue (R27, R146, R167). -/
def seamRead (ws : List Win) (es : List Nat) (f : State → MRes) (s : State) : MRes :=
  let ds := ws.map (readW s)
  if ds.any (fun d => dKind d == 4 && es.any (fun e => readStream s d (streamPos s d) e == .notYet)) then
    { st := s, block := some .wait }
  else match issueError s (badElems s (sameElem ds) es) with
  | some r => r
  | none => { f s with adv := streamUse s ds }

/-- R288, R296: contributions of the strand in focus are pending on a row that satisfies `f`. -/
def pendingRow (f : Nat → Bool) (s : State) : Bool := s.contribs.any (fun c => c.who == whoIs s.hart && f c.row)

/-- A seam member that waits for the contributions of older `smula` to the rows it names (R288, R296). -/
def afterContribs (f : Nat → Bool) (run : State → MRes) (s : State) : MRes :=
  if pendingRow f s then { st := s, block := some .wait } else run s

/-! ### Seam control -/

/-- `satt` as a convoy member, R296. -/
def memSatt (c : BitVec 1) (ga : Reg) : Member :=
  seamMember (.satt c ga) c (fun _ => none) (afterContribs (fun _ => true) fun s =>
    let q := Nat.min (readG s ga).toNat s.hart.seam.macros
    { st := { s with hart := { s.hart with seam := { s.hart.seam with
                grant := 512 * q, bound0 := 0, bound1 := 0, rows := [] } } }, seamAccepted := true }) (fun _ => [])

/-- `satt`, R296. -/
def execSatt (c : BitVec 1) (ga : Reg) (s : State) : Res := runWords [memSatt c ga] s

/-- `sdet` as a convoy member, R296. -/
def memSdet (c : BitVec 1) : Member :=
  seamMember (.sdet c) c (fun _ => none) (afterContribs (fun _ => true) fun s =>
    { st := { s with hart := { s.hart with seam := { s.hart.seam with
                grant := 0, bound0 := 0, bound1 := 0, rows := [] } } }, seamAccepted := true }) (fun _ => [])

/-- `sdet`, R296. -/
def execSdet (c : BitVec 1) (s : State) : Res := runWords [memSdet c] s

/-- `sguard` as a convoy member, R296. -/
def memSguard (c : BitVec 1) (gw : BitVec 2) : Member :=
  seamMember (.sguard c gw) c (fun _ => none) (fun s =>
    let s := mapRows (fun r => { r with s0 := 0, s1 := 0, chain0 := false, chain1 := false }) s
    { st := setBounds 0 0 { s with hart := { s.hart with seam := { s.hart.seam with gw := gw, older := none } } },
      seamAccepted := true }) (fun _ => [])

/-- `sguard`, R296. -/
def execSguard (c : BitVec 1) (gw : BitVec 2) (s : State) : Res := runWords [memSguard c gw] s

/-- `szero` as a convoy member, R296, R279. -/
def memSzero (c slot : BitVec 1) : Member :=
  seamMember (.szero c slot) c (fun _ => none) (fun s =>
    { st :=
        if joinedSlots s slot then
          setBounds 0 0 (mapRows (fun r => { r with s0 := 0, s1 := 0, chain0 := false, chain1 := false }) s)
        else if slot = 0 then
          setBounds 0 s.hart.seam.bound1 (mapRows (fun r => { r with s0 := 0, chain0 := false }) s)
        else setBounds s.hart.seam.bound0 0 (mapRows (fun r => { r with s1 := 0, chain1 := false }) s),
      seamAccepted := true }) (fun _ => [])

/-- `szero`, R296. -/
def execSzero (c slot : BitVec 1) (s : State) : Res := runWords [memSzero c slot] s

/-- R297: the status word. -/
def seamStatus (s : State) : Word :=
  let rows := s.hart.seam.rows.filter (fun r => decide (r.1 < s.hart.seam.grant))
  BitVec.ofNat 64 (
    (if rows.any (fun r => (readF f32 false r.2.delta.toNat).isNan) then 2 ^ 20 else 0) +
    (if rows.any (fun r => r.2.delta != 0) then 2 ^ 19 else 0) +
    (if joinedSlots s 0 then 2 ^ 18 else 0) + s.hart.seam.gw.toNat * 2 ^ 16 + s.hart.seam.grant % 2 ^ 16)

/-- `sstat` as a convoy member, R296. -/
def memSstat (c : BitVec 1) (ga : Reg) : Member :=
  seamMember (.sstat c ga) c (fun _ => none)
    (afterContribs (fun _ => true) fun s => { st := s, gw := some (ga, seamStatus s), seamAccepted := true })
    (fun _ => [])

/-- `sstat`, R296. -/
def execSstat (c : BitVec 1) (ga : Reg) (s : State) : Res := runWords [memSstat c ga] s

/-! ### Loading B words -/

/-- Type w512. -/
def isW512 (t : Nat) : Bool := t == 14

/-- `sldb` as a convoy member, R298. -/
def memSldb (c : BitVec 1) (w : Win) (ga : Reg) : Member :=
  seamMember (.sldb c w ga) c
    (fun s => orElseTrap (tensorWindow (.sldb c w ga) s w 1 false isW512 (vl s)) (rowTrap s ga))
    (fun s => seamRead [w] (seamElems false s) (fun s =>
      let base := rowBase s ga
      let d := readW s w
      { st := countEvent 8 (vl s) ((List.range (vl s)).foldl (fun s' i =>
                setSeamRow (base + i) { seamRow s' (base + i) with b := BitVec.ofNat 512 (srcBits s d i) } s') s),
        seamAccepted := true }) s)
    (fun s => windowReads [w] (seamElems false s) s)

/-- `sldb`, R298. -/
def execSldb (c : BitVec 1) (w : Win) (ga : Reg) (s : State) : Res := runWords [memSldb c w ga] s

/-! ### Adapters (R285–R291) -/

/-- Key of an adapter line: gang, partition, and the 128-byte line of the address (R288). -/
def adapterKey (gang part va : Nat) : Nat := (gang * 32 + part) * 2 ^ 41 + va / 128

/-- R288, R290: reads one line from HBM (R54) for a core and partition; none where the read finds no translation, no
permission, a wrong tag or an error, or where the address is not in HBM (log 13) or past the top of the space. -/
def readLine (s : State) (core part key va : Nat) : Option (List Byte) :=
  if 2 ^ 48 ≤ va then none
  else match locate s { Strand.vacant with core := core, part := part } va .read with
  | .home k tagged _ _ =>
    if decide (sumpBase 0 ≤ k) || (tagged && (tagMismatch s k 128 key).isSome) || (badByte s k 128).isSome then none
    else some (memBytes s k 128)
  | _ => none

/-- The f32 value of column `q` of a line. -/
def lineF32 (bs : List Byte) (q : Nat) : Num := readF f32 false (leNat ((bs.drop (4 * q)).take 4))

/-- One dword of a line at a byte offset. -/
def lineDword (bs : List Byte) (off : Nat) : Word := BitVec.ofNat 64 (leNat ((bs.drop off).take 8))

/-- Exact sum of products of two lists of numbers, with the flags of invalid operations. The terms meet from the last to the
first, which shows only in NV where infinities and NaNs meet (log 38). -/
def dotN : List (Num × Num) → Num × Flags
  | [] => (.fin false 0 0 false, 0)
  | (x, y) :: t =>
    let (p, f) := mulN x y
    let (r, g) := dotN t
    let (z, h) := addN 0 p r
    (z, f ||| g ||| h)

/-- R287: the exact contribution from the coefficients, the U rows and the V row. -/
def contribution (coef : List Int) (us : List (List Byte)) (v : List Byte) (rank : Nat) : Num × Flags :=
  let inner := (List.range rank).map (fun q => (dotN ((coef.zip us).map (fun x => (ofIntN x.1, lineF32 x.2 q))), lineF32 v q))
  let (r, f) := dotN (inner.map (fun x => (x.1.1, x.2)))
  (r, inner.foldl (fun a x => a ||| x.1.2) f)

/-- What a contribution needs: a line that is not there yet, with the key and address of its read; or nothing more, and
then it adds nothing, a NaN (R290), or a number with the flags of its sum. -/
inductive Needs where
  | line (key va : Nat)
  | nothing
  | nan
  | sum (e : Num) (f : Flags)
  deriving DecidableEq, Repr

/-- A line of a contribution: one that its own fills brought, or one that the gang's cache holds. -/
def Contrib.line (s : State) (c : Contrib) (va : Nat) : Option (List Byte) :=
  match c.lines.find? (fun x => x.1 == va / 128) with
  | some x => some x.2
  | none =>
    if 2 ^ 48 ≤ va then none else
    match smGet [] s.adapter (adapterKey (gangOf c.core) c.who.part va) with
    | [] => none
    | bs => some bs

/-- R286: a well-formed pointer of a directory entry whose low `n` bits are its own. -/
def pointerOk (w : Word) (lo n : Nat) : Bool := bitsW w lo n == 0 && bitsW w 48 12 == 0

/-- R286: the address of line `i` from a pointer on, which past the top of the space has no translation (R20). -/
def pointerLine (w : Word) (i : Nat) : Nat := bitsW w 7 41 * 128 + 128 * i

/-- R286–R288, R290: what a contribution needs now. A directory entry of rank above 32 or with must-be-zero bits set gives the
NaN of R290, after a rank of 0 (log 13). -/
def Contrib.needs (s : State) (c : Contrib) : Needs :=
  let entry := bitsW c.sadp 8 40 * 256 + 16 * c.ident
  if c.ident = 0 then .nothing
  else if c.failed then .nan
  else match c.line s entry with
  | none => .line (bitsW c.sadp 60 4) (entry / 128 * 128)
  | some l =>
    let u := lineDword l (entry % 128)
    let v := lineDword l (entry % 128 + 8)
    let rank := bitsW u 0 6
    if rank = 0 then .nothing
    else if decide (32 < rank) || !pointerOk u 6 1 || !pointerOk v 0 7 then .nan
    else
      let n := 512 / c.guard
      let us := (List.range n).map (fun m => pointerLine u (c.chunk * n + m))
      match us.find? (fun a => (c.line s a).isNone) with
      | some a => .line (bitsW u 60 4) a
      | none =>
        match c.line s (pointerLine v c.row) with
        | none => .line (bitsW v 60 4) (pointerLine v c.row)
        | some vl =>
          let coef := (List.range n).map (fun m => digit c.guard m c.a.toNat)
          let (e, f) := contribution coef (us.map (fun a => (c.line s a).getD [])) vl rank
          .sum e f

/-- R286: the addresses of the lines that a contribution looks up, as far as its directory entry is there to name them. -/
def Contrib.addrs (s : State) (c : Contrib) : List Nat :=
  let entry := bitsW c.sadp 8 40 * 256 + 16 * c.ident
  entry :: match c.line s entry with
  | none => []
  | some l =>
    let n := 512 / c.guard
    pointerLine (lineDword l (entry % 128 + 8)) c.row ::
      (List.range n).map (fun m => pointerLine (lineDword l (entry % 128)) (c.chunk * n + m))

/-- R54, R288: a contribution that waits keeps the lines that the cache holds as its `smula` issues: they answer without reading
memory, whatever the cache drops meanwhile. -/
def Contrib.keep (s : State) (c : Contrib) : Contrib :=
  { c with lines := c.lines ++ (c.addrs s).filterMap (fun a => (c.line s a).map (fun bs => (a / 128, bs))) }

/-- R288: the next line that a contribution lacks is read, and the gang's cache keeps it. What the strand itself does later
comes after the fills that it would change (R55, log 13). -/
def fillContrib (s : State) (c : Contrib) : State × Contrib :=
  match c.needs s with
  | .line key va =>
    match readLine s c.core c.who.part key va with
    | some bs =>
      let lo := gangOf c.core * 32 * 2 ^ 41
      ({ s with adapter := smSet [] (makeRoom lo (32 * 2 ^ 41) Config.adapterLines (Config.victim s.tick) s.adapter)
                  (adapterKey (gangOf c.core) c.who.part va) bs },
       { c with lines := (va / 128, bs) :: c.lines })
    | none => (s, { c with failed := true })
  | _ => (s, c)

/-- Fills until a contribution lacks no line: its entry, at most 32 rows of U, and its row of V. -/
def fillWhole : Nat → State → Contrib → State × Contrib
  | 0, s, c => (s, c)
  | n + 1, s, c => let (s, c) := fillContrib s c; fillWhole n s c

/-- R287, R290: a contribution that lacks nothing takes effect on its row; answers the flags it raises. -/
def addDelta (row : Nat) (n : Needs) (h : Strand) : Strand × Flags :=
  match n with
  | .line .. => (h, 0)
  | .nothing => (h, 0)
  | .nan => (setRow row { rowOf h row with delta := 0x7FC0_0000 } h, flGRD)
  | .sum e f =>
    let (z, g) := addN 0 (readF f32 false (rowOf h row).delta.toNat) e
    let (b, x) := roundF f32 homeMode z
    (setRow row { rowOf h row with delta := BitVec.ofNat 32 b } h, f ||| g ||| x)

/-- R288: an older contribution to the same row is pending. -/
def rowPending (s : State) (c : Contrib) : Bool := s.contribs.any (fun x => x.who == c.who && x.row == c.row)

/-- The needs that another line would change. -/
def Needs.missing : Needs → Bool
  | .line .. => true
  | _ => false

/-- R288: the contribution of one row of the strand in focus: at once where its lines are there or are filled at once, and
no older one is pending on the row; otherwise it waits (log 13). Answers the flags it raises now. -/
def contribute (c : Contrib) (s : State) : State × Flags :=
  let miss := (c.needs s).missing
  let s := if miss then countEvent 14 1 s else s
  let late := miss && s.lateFills.head?.getD false
  let s := if miss then { s with lateFills := s.lateFills.tail } else s
  let (s, c) := if miss && !late then fillWhole 40 s c else (s, c)
  if late || (rowPending s c && c.needs s != .nothing) then ({ s with contribs := s.contribs ++ [c.keep s] }, 0)
  else
    let (h, f) := addDelta c.row (c.needs s) s.hart
    ({ s with hart := h }, f)

/-- R288, R291: a contribution that was pending takes effect, and its flags go to its strand with its element. -/
def settleContrib (s : State) (c : Contrib) : State :=
  if (c.needs s).missing || rowPending s c then { s with contribs := s.contribs ++ [c] }
  else mapStrands (fun h =>
    if h.run != .vacant && whoIs h == c.who then
      let (h, f) := addDelta c.row (c.needs s) h
      creditFlags f c.elem h
    else h) s

/-- R288: every pending contribution that lacks nothing takes effect, in program order by row. -/
def settleContribs (s : State) : State := s.contribs.foldl settleContrib { s with contribs := [] }

/-- R272: every fill of the contributions that satisfy `f` arrives. -/
def fillAll (f : Contrib → Bool) (s : State) : State :=
  settleContribs (s.contribs.foldl (fun s c =>
    let (s, c) := if f c then fillWhole 40 s c else (s, c)
    { s with contribs := s.contribs ++ [c] }) { s with contribs := [] })

/-- What a contribution adds where its fills come now. -/
def Contrib.filled (s : State) (c : Contrib) : Needs := let (s, c) := fillWhole 40 s c; c.needs s

/-- R45, R54: the fills of a contribution bring another sum after what takes a state to the next than before it. -/
def Contrib.changed (s t : State) (c : Contrib) : Bool := c.filled s != c.filled t

/-- R288: the next fill of the `n`-th pending contribution arrives. -/
def fillNth (n : Nat) (s : State) : State :=
  settleContribs (s.contribs.zipIdx.foldl (fun s x =>
    let (s, c) := if x.2 = n then fillContrib s x.1 else (s, x.1)
    { s with contribs := s.contribs ++ [c] }) { s with contribs := [] })

/-! ### Multiplying -/

/-- R278: what a `smul` of these classes adds to the bound. -/
def headroomStep (s : State) (ca cb : BitVec 2) : Nat := packN s * classBound ca * classBound cb

/-- R277–R280: SEAMCOMBO, then GUARD, with VL > 0. -/
def mulTrap (i : Instr) (s : State) (slot : BitVec 1) (ca cb : BitVec 2) (mode : BitVec 1) : Option Trap :=
  let gw := s.hart.seam.gw
  if vl s = 0 then none
  else if !(classAllowed gw ca && classAllowed gw cb) then
    some (wordTrap i 3 (BitVec.ofNat 16 (gw.toNat + ca.toNat * 4 + cb.toNat * 16)))
  else
    let b0 := headroom s 0
    let b1 := headroom s 1
    let limit := 2 ^ (guardBits s - 1) - 1
    let h := headroomStep s ca cb
    let guard :=
      if mode = 1 then (!joinedSlots s 0 && (b0 != 0 || b1 != 0)) || decide (limit < Nat.max b0 b1 + h)
      else joinedSlots s slot || decide (limit < headroom s slot + h)
    if guard then some (wordTrap i 9 (BitVec.ofNat 16 (slot.toNat + gw.toNat * 2))) else none

/-- R278, R279: the bound update at issue. -/
def raiseBounds (slot : BitVec 1) (ca cb : BitVec 2) (mode : BitVec 1) (s : State) : State :=
  if vl s = 0 then s
  else
    let next (x : BitVec 1) : Nat := headroom s x + headroomStep s ca cb
    if mode = 1 then setBounds (BitVec.ofNat 64 (2 ^ 63 + next 0)) (BitVec.ofNat 64 (2 ^ 63 + next 1)) s
    else if slot = 0 then setBounds (BitVec.ofNat 64 (next 0)) s.hart.seam.bound1 s
    else setBounds s.hart.seam.bound0 (BitVec.ofNat 64 (next 1)) s

/-- R373: the governor holds a start that reaches it now. -/
def governorHolds (s : State) : Bool :=
  let d := dieAt s (dieOf s.hart.core)
  !s.hart.admitted && (!d.govQ.isEmpty || d.holds.head?.getD false)

/-- R373: a start passes the governor. -/
def passGovernor (s : State) : State :=
  let n := dieOf s.hart.core
  let d := dieAt s n
  if s.hart.admitted then { s with hart := { s.hart with admitted := false } }
  else setDie s n { d with holds := d.holds.tail }

/-- R299: the rows of a `smul`, or with identifiers of a `smula`, in ascending order; answers each row's flags. -/
def mulRows (s0 : State) (d : Word) (bc : Bool) (base : Nat) (slot mode : BitVec 1) (ident : Option Word) (chunk : Nat) :
    List Nat → State → State × List (Nat × Flags)
  | [], s => (s, [])
  | i :: is, s =>
    let a : BitVec 512 := BitVec.ofNat 512 (srcBits s0 d (if bc then 0 else i))
    let s := setSeamRow (base + i) (accumulate slot mode a (seamRow s (base + i))) s
    let (s, f) := match ident with
      | some w => contribute
          { who := whoIs s0.hart, core := s0.hart.core, row := base + i, elem := i, sadp := s0.hart.ctrl.sadp,
            guard := guardBits s0, ident := srcBits s0 w (if bc then 0 else i), chunk := chunk, a := a, lines := [],
            failed := false } s
      | none => (s, 0)
    let (s, r) := mulRows s0 d bc base slot mode ident chunk is s
    (s, (i, f) :: r)

/-- R299: `smul`, or `smula` with its identifier window. -/
def mulRun (w : Win) (ident : State → Option Win) (ga : Reg) (slot : BitVec 1) (ca cb : BitVec 2) (mode : BitVec 1)
    (s : State) : MRes :=
  seamRead (w :: (ident s).toList) (seamElems (rowBcast s ga) s) (fun s =>
    if governorHolds s then { st := s, block := some .governor }
    else
      let s1 := raiseBounds slot ca cb mode (passGovernor s)
      let (s2, raised) := mulRows s (readW s w) (rowBcast s ga) (rowBase s ga) slot mode ((ident s).map (readW s))
        (rowSel s ga) (List.range (vl s)) s1
      { st := countEvent 8 (vl s) (mergeFlags raised s2), seamAccepted := true }) s

/-- `smul` as a convoy member, R299. -/
def memSmul (c : BitVec 1) (w : Win) (ga : Reg) (slot : BitVec 1) (ca cb : BitVec 2) (mode : BitVec 1) : Member :=
  let i : Instr := .smul c w ga slot ca cb mode
  seamMember i c
    (fun s => orElseTrap (tensorWindow i s w 1 false isW512 (vl s))
      (orElseTrap (rowTrap s ga) (mulTrap i s slot ca cb mode)))
    (mulRun w (fun _ => none) ga slot ca cb mode)
    (fun s => windowReads [w] (seamElems (rowBcast s ga) s) s)

/-- `smul`, R299. -/
def execSmul (c : BitVec 1) (w : Win) (ga : Reg) (slot : BitVec 1) (ca cb : BitVec 2) (mode : BitVec 1) (s : State) :
    Res := runWords [memSmul c w ga slot ca cb mode] s

/-- R285: SADP.win. -/
def adapterWin (s : State) : Win := s.hart.ctrl.sadp.extractLsb' 3 5

/-- `smula` as a convoy member, R299. -/
def memSmula (c : BitVec 1) (w : Win) (ga : Reg) (slot : BitVec 1) (ca cb : BitVec 2) (mode : BitVec 1) : Member :=
  let i : Instr := .smula c w ga slot ca cb mode
  seamMember i c
    (fun s => orElseTrap (tensorWindow i s w 1 false isW512 (vl s))
      (orElseTrap (tensorWindow i s (adapterWin s) 2 false (fun t => t == 5) (vl s))
        (orElseTrap (rowTrap s ga) (mulTrap i s slot ca cb mode))))
    (mulRun w (fun s => some (adapterWin s)) ga slot ca cb mode)
    (fun s => windowReads [w, adapterWin s] (seamElems (rowBcast s ga) s) s)

/-- `smula`, R299. -/
def execSmula (c : BitVec 1) (w : Win) (ga : Reg) (slot : BitVec 1) (ca cb : BitVec 2) (mode : BitVec 1) (s : State) :
    Res := runWords [memSmula c w ga slot ca cb mode] s

/-! ### Reading results -/

/-- R300: digits defined for a slot. -/
def digitsOf (s : State) (slot : BitVec 1) : Nat := if joinedSlots s slot then 2 * packN s else packN s

/-- R300: the accumulator of a row. -/
def accOf (s : State) (slot : BitVec 1) (r : SeamRow) : Nat :=
  if joinedSlots s slot then pairOf r else if slot = 0 then r.s0.toNat else r.s1.toNat

/-- An extraction as a convoy member (R295, R300): row i writes `per` window elements; it may have to wait. -/
def extractMember (i : Instr) (c : BitVec 1) (w : Win) (ga : Reg) (typeOk : Nat → Bool) (per : State → Nat)
    (extra : State → Option Trap) (value : State → Nat → Nat → Nat × Flags) (after : Nat → State → State)
    (waits : State → Bool := fun _ => false) : Member where
  word := i
  c := c
  role := .member clSeam
  priv := fun s => onDeputy s.hart
  check := fun s => orElseTrap (tensorWindow i s w 0 true typeOk (vl s * per s)) (orElseTrap (rowTrap s ga) (extra s))
  run := fun act s =>
    let es := elemsOf s onesMask act
    let d := readW s w
    let step (x : State × List (Nat × Flags)) (e : Nat) : State × List (Nat × Flags) :=
      let (h, fs) := writeElems d ((List.range (per s)).map (fun j =>
        let (v, f) := value s e j
        (e * per s + j, v, f))) x.1.hart
      (after e { x.1 with hart := h }, (e, fs.foldl (fun a y => a ||| y.2) 0) :: x.2)
    let r := es.foldl step (s, [])
    if waits s then { st := s, block := some .wait }
    else { st := countEvent 8 es.length (mergeFlags r.2.reverse r.1) }
  active := activeOf 0
  writes := fun s => (List.range (vl s)).flatMap (fun e =>
    (writeCells s.hart (readW s w) ((List.range (per s)).map (fun j => e * per s + j))).map (fun x => { x with pos := e }))
  commit := .chained

/-- R300: the fitted digit of a row for window element `x`. -/
def digitAt (s : State) (w : Win) (ga : Reg) (slot : BitVec 1) (e k x : Nat) : Nat × Flags :=
  let d := readW s w
  fitTo (dType d) (laneMode s d x) (ofIntN (digit (guardBits s) k (accOf s slot (seamRow s (rowBase s ga + e)))))

/-- `sxtr` as a convoy member, R300. -/
def memSxtr (c : BitVec 1) (w : Win) (ga : Reg) (slot : BitVec 1) : Member :=
  extractMember (.sxtr c w ga slot) c w ga isInt (fun _ => 1)
    (fun s => if vl s ≠ 0 ∧ digitsOf s slot ≤ rowSel s ga then some { cause := 6 } else none)
    (fun s e _ => digitAt s w ga slot e (rowSel s ga) e) (fun _ s => s)

/-- `sxtr`, R300. -/
def execSxtr (c : BitVec 1) (w : Win) (ga : Reg) (slot : BitVec 1) (s : State) : Res := runWords [memSxtr c w ga slot] s

/-- `sxtw` as a convoy member, R300. -/
def memSxtw (c : BitVec 1) (w : Win) (ga : Reg) (slot : BitVec 1) : Member :=
  extractMember (.sxtw c w ga slot) c w ga isInt (fun s => digitsOf s slot) (fun _ => none)
    (fun s e j => digitAt s w ga slot e j (e * digitsOf s slot + j)) (fun _ s => s)

/-- `sxtw`, R300. -/
def execSxtw (c : BitVec 1) (w : Win) (ga : Reg) (slot : BitVec 1) (s : State) : Res := runWords [memSxtw c w ga slot] s

/-- `sfin` as a convoy member, R300: the delta, which is then +0; it waits for the contributions to its rows (R288). Under
VCFG.ftz a subnormal delta is rounded as it is, not first read as zero, and a tiny result is flushed (R185; log 38). -/
def memSfin (c : BitVec 1) (w : Win) (ga : Reg) : Member :=
  extractMember (.sfin c w ga) c w ga isFloat (fun _ => 1) (fun _ => none)
    (fun s e _ =>
      let d := readW s w
      fitTo (dType d) (laneMode s d e) (readF f32 false (seamRow s (rowBase s ga + e)).delta.toNat))
    (fun e s => setSeamRow (rowBase s ga + e) { seamRow s (rowBase s ga + e) with delta := 0 } s)
    (fun s => pendingRow (fun r => decide (rowBase s ga ≤ r) && decide (r < rowBase s ga + vl s)) s)

/-- `sfin`, R300. -/
def execSfin (c : BitVec 1) (w : Win) (ga : Reg) (s : State) : Res := runWords [memSfin c w ga] s

end Sys2Proof.Machine
end

