-- ==== Sys2Proof/Machine/Drift.lean ====
section
/-!
DEFINITION. Drift channels (R335–R350): the acceptance of copies, stops and bindings, and the three steps of a channel's
operation: beginning, the delivery of one unit, and the end.
-/
namespace Sys2Proof.Machine

open Sys2Proof

/-! ### Acceptance -/

/-- R28, R29: the words that a channel's queue holds: the copies that have not begun and the bindings behind them. An
operation in progress has left the queue. -/
def queuedWords (cn : Chan) : Nat := (cn.ops.filter (fun o => !o.begun && o.ended.isNone)).length + cn.binds.length

/-- R28: words that a channel's queue can hold. -/
def Config.chanDepth : Nat := 4

/-- R29: the queue of a channel of the strand in focus is full. -/
def queueFull (s : State) (ch : BitVec 2) : Bool := decide (Config.chanDepth ≤ queuedWords (chanAt s.hart ch.toNat))

/-- A word of a channel's queue as a convoy member (R338): the checks at acceptance, and what its acceptance changes in the
channel. It waits while the queue is full (R29), unchecked, and the queue takes it as its convoy completes (log 33). -/
def driftMember (i : Instr) (c : BitVec 1) (ch : BitVec 2) (copy : Bool) (check : State → Option Trap)
    (accept : State → Chan → Chan) : Member where
  word := i
  c := c
  role := .member clStore
  check := fun s => if queueFull s ch then none else check s
  run := fun _ s =>
    if queueFull s ch then { st := s, block := some .wait }
    else { st := setChan s ch.toNat (accept s (chanAt s.hart ch.toNat)), driftAccepted := if copy then some ch.toNat else none }
  active := fun _ => 1
  commit := .last

/-- R338: PROT at acceptance. -/
def acceptTrap (bad : Bool) : Option Trap := if bad then some { cause := 6 } else none

/-- R342: bits [59:48] of an address operand. -/
def farBits (w : Word) : Bool := bitsW w 48 12 != 0

/-- The operation of a copy word as it is accepted. -/
def newOp (s : State) (form : DriftForm) (dst src arg : Word) (cn : Chan) : DriftOp :=
  { form := form, dst := dst, src := src, arg := arg, bell := cn.bell, begun := false, serial := 0, count := 0,
    total := 0, shape := [], ended := none, epc := (convoyFirst s).getD s.hart.pc,
    member := match s.hart.convoy with | .open _ _ pos _ => pos | _ => 0
    pages := 2 ^ 16, undo := [] }

/-- R338, R349: a copy joins its channel's queue, and the stream position becomes 0. -/
def acceptCopy (form : DriftForm) (ga gb gc : Reg) (s : State) (cn : Chan) : Chan :=
  { cn with ops := cn.ops ++ [newOp s form (readG s ga) (readG s gb) (readG s gc) cn], spos := 0 }

/-- `drift` as a convoy member, R342. -/
def memDrift (c : BitVec 1) (ch : BitVec 2) (ga gb gc : Reg) : Member :=
  driftMember (.drift c ch ga gb gc) c ch true
    (fun s => acceptTrap (farBits (readG s ga) || farBits (readG s gb) || bitsW (readG s gc) 32 32 != 0))
    (acceptCopy .drift ga gb gc)

/-- `drift`, R342. -/
def execDrift (c : BitVec 1) (ch : BitVec 2) (ga gb gc : Reg) (s : State) : Res := runWords [memDrift c ch ga gb gc] s

/-- `drift2` as a convoy member, R342. -/
def memDrift2 (c : BitVec 1) (ch : BitVec 2) (ga gb gc : Reg) : Member :=
  driftMember (.drift2 c ch ga gb gc) c ch true
    (fun s => acceptTrap (farBits (readG s ga) || farBits (readG s gb))) (acceptCopy .drift2 ga gb gc)

/-- `drift2`, R342. -/
def execDrift2 (c : BitVec 1) (ch : BitVec 2) (ga gb gc : Reg) (s : State) : Res :=
  runWords [memDrift2 c ch ga gb gc] s

/-- R344: a token range within the capacity of a live sequence. -/
def tokensOk (s : State) (h arg : Word) : Bool :=
  match liveSeq s h with
  | none => false
  | some (eng, slot) =>
    let t := bitsW arg 43 5
    decide (t ≤ 16) && bitsW arg 32 11 == 0 &&
      decide ((bitsW arg 0 32 + bitsW arg 48 16) * 2 ^ t ≤ (seqAt s eng slot).cap * 2 ^ 16)

/-- `driftx` as a convoy member, R342, R344. -/
def memDriftx (c : BitVec 1) (ch : BitVec 2) (ga gb gc : Reg) : Member :=
  driftMember (.driftx c ch ga gb gc) c ch true
    (fun s => acceptTrap (farBits (readG s ga) || !tokensOk s (readG s gb) (readG s gc))) (acceptCopy .driftx ga gb gc)

/-- `driftx`, R344. -/
def execDriftx (c : BitVec 1) (ch : BitVec 2) (ga gb gc : Reg) (s : State) : Res :=
  runWords [memDriftx c ch ga gb gc] s

/-- `driftm` as a convoy member, R342, R345. -/
def memDriftm (c : BitVec 1) (ch : BitVec 2) (ga gb gc : Reg) : Member :=
  driftMember (.driftm c ch ga gb gc) c ch true
    (fun s =>
      let a := readG s ga
      let g := readG s gc
      acceptTrap (onDeputy s.hart || bitsW a 19 45 != 0 || farBits (readG s gb) || bitsW g 36 28 != 0 ||
        bitsW g 32 4 == 0 || decide (Config.padBytes < bitsW a 0 19 + bitsW g 0 32)))
    (acceptCopy .driftm ga gb gc)

/-- `driftm`, R345. -/
def execDriftm (c : BitVec 1) (ch : BitVec 2) (ga gb gc : Reg) (s : State) : Res :=
  runWords [memDriftm c ch ga gb gc] s

/-- `dwp` as a convoy member, R346: it reads DWP, and with A acquires at core scope. -/
def memDwp (c : BitVec 1) (ch : BitVec 2) (gd : Reg) (acq : BitVec 1) : Member :=
  aloneMember (.dwp c ch gd acq) c (fun _ => none)
    (fun s => (if acq = 1 then acquire 0 s else s, some (gd, (chanAt s.hart ch.toNat).dwp)))

/-- `dwp`, R346. -/
def execDwp (c : BitVec 1) (ch : BitVec 2) (gd : Reg) (acq : BitVec 1) (s : State) : Res :=
  runWords [memDwp c ch gd acq] s

/-- `dlen` as a convoy member, R346. -/
def memDlen (c : BitVec 1) (ch : BitVec 2) (gd : Reg) : Member :=
  aloneMember (.dlen c ch gd) c (fun _ => none) (fun s => (s, some (gd, (chanAt s.hart ch.toNat).dlen)))

/-- `dlen`, R346. -/
def execDlen (c : BitVec 1) (ch : BitVec 2) (gd : Reg) (s : State) : Res := runWords [memDlen c ch gd] s

/-- `dstop` as a convoy member, R347: every operation of the channel that has not ended ends with end 5, and the bindings
behind them have their turn. -/
def memDstop (c : BitVec 1) (ch : BitVec 2) : Member :=
  driftMember (.dstop c ch) c ch false (fun _ => none)
    (fun _ cn => { cn with
      binds := []
      ops := cn.ops.map (fun o => if o.ended.isNone then { o with ended := some 5 } else o) })

/-- `dstop`, R347. -/
def execDstop (c : BitVec 1) (ch : BitVec 2) (s : State) : Res := runWords [memDstop c ch] s

/-- `dbell` as a convoy member, R348. -/
def memDbell (c : BitVec 1) (ch : BitVec 2) (ga gb : Reg) : Member :=
  driftMember (.dbell c ch ga gb) c ch false
    (fun s =>
      let a := readG s ga
      acceptTrap (!bitW a 63 && (bitsW a 11 52 != 0 ||
        (!onDeputy s.hart && decide (s.hart.bells ≤ bitsW a 0 11)))))
    (fun s cn =>
      let ahead := (cn.ops.filter (fun o => !o.begun && o.ended.isNone)).length
      { cn with
        bell := if bitW (readG s ga) 63 then none else some ((readG s gb).toNat % 4, bitsW (readG s ga) 0 11)
        binds := if ahead = 0 then cn.binds else cn.binds ++ [ahead] })

/-- `dbell`, R348. -/
def execDbell (c : BitVec 1) (ch : BitVec 2) (ga gb : Reg) (s : State) : Res := runWords [memDbell c ch ga gb] s

/-! ### The strand in focus -/

/-- Replaces the first strand of a list that satisfies `f`; answers it and the list. -/
def takeStrand (f : Strand → Bool) (new : Strand) : List Strand → Option (Strand × List Strand)
  | [] => none
  | h :: t =>
    if f h then some (h, new :: t)
    else match takeStrand f new t with
      | some (x, l) => some (x, h :: l)
      | none => none

/-- Brings a strand that satisfies `f` into focus, if there is one. -/
def focusOn (f : Strand → Bool) (s : State) : Option State :=
  if f s.hart then some s
  else match takeStrand f s.hart s.rest with
    | some (h, l) => some { s with hart := h, rest := l }
    | none => none

/-- A strand of a slot. -/
def inSlot (core slot : Nat) (h : Strand) : Bool := h.run != .vacant && h.core == core && h.slot == slot

/-! ### Beginning (R338, R343) -/

/-- Why a unit ends its operation: its end code, and for end 1 the fault record's miss. -/
structure DriftStop where
  code : Nat
  miss : Option Miss := none
  exhausted : Nat := 0

/-- Where a byte of an operation's access goes; bits [59:48] of its pointer that are not zero name no address. -/
def driftPlace (s : State) (ptr : Word) (kind : Kind) : Place :=
  if farBits ptr then .prot else locate s s.hart (vaOf ptr) kind

/-- R339: the checks of a unit's access through a list of byte pointers, each over every byte before the next: translation,
permissions and ranges with the copy-on-write step of a write (R332), tags, and errors in source bytes. Answers each byte's
home, or why the unit fails. Kind 4 or 5 is the record's. -/
def driftBytes (s : State) (kind : Kind) (ps : List Word) : Except DriftStop (List Nat) :=
  let at_ := ps.map (fun p => (p, driftPlace s p kind))
  let missing (x : Word × Place) : Option DriftStop := match x.2 with
    | .missing a b c => some { code := 1, miss := some {
        va := vaOf x.1, key := bitsW x.1 60 4, kind := if kind = .read then 4 else 5, split := a, void := b, host := c } }
    | _ => none
  let forbidden (x : Word × Place) : Option DriftStop := match x.2 with
    | .home .. => none
    | _ => some { code := 2 }
  let shared (x : Word × Place) : Option DriftStop := match x.2 with
    | .home _ _ _ true =>
      if cowExhausted s s.hart.part (vaOf x.1) then
        some { code := 7, exhausted := match cowSite s s.hart.part (vaOf x.1) with | some c => c.eng + 1 | none => 0 }
      else none
    | _ => none
  let untagged (x : Word × Place) : Option DriftStop := match x.2 with
    | .home k true _ _ => if (tagMismatch s k 1 (bitsW x.1 60 4)).isSome then some { code := 3 } else none
    | _ => none
  let broken (x : Word × Place) : Option DriftStop := match x.2 with
    | .home k .. => if kind = .read && (badByte s k 1).isSome then some { code := 4 } else none
    | _ => none
  match (at_.findSome? missing).or ((at_.findSome? forbidden).or ((at_.findSome? shared).or
      ((at_.findSome? untagged).or (at_.findSome? broken)))) with
  | some e => .error e
  | none => .ok (at_.map (fun x => match x.2 with | .home k .. => k | _ => 0))

/-- A pointer with a byte offset added (R222). -/
def ptrAdd (p : Word) (off : Int) : Word :=
  BitVec.ofNat 64 (bitsW p 60 4 * 2 ^ 60 + ((((p.toNat % 2 ^ 60 : Nat) : Int) + off) % 2 ^ 60).toNat)

/-- R343: the rules of a descriptor. -/
def shapeOk (d : List Word) : Bool :=
  let d0 := d.getD 0 0
  let d3 := d.getD 3 0
  let esz := 2 ^ bitsW d0 62 2
  let c := bitsW d0 0 16
  bitsW d0 60 2 == 0 && bitsW d0 16 16 != 0 && c != 0 && (bitsW d0 32 28 == 0 || decide (c * esz ≤ bitsW d0 32 28)) &&
  bitsW (d.getD 1 0) 48 16 == 0 && bitsW (d.getD 2 0) 48 16 == 0 && bitsW d3 48 16 == 0 && bitsW d3 16 16 == 0

/-- R343: bytes that a descriptor's operation delivers. -/
def shapeTotal (d : List Word) : Nat :=
  let d0 := d.getD 0 0
  bitsW d0 16 16 * bitsW d0 0 16 * 2 ^ bitsW d0 62 2

/-- Queues the one fault record of an operation that ends with end 1 (R339, R250). -/
def driftRecord (op : DriftOp) (chan : Nat) (m : Miss) (s : State) : State :=
  queueRecords (dieOf s.hart.core) [{
    words := missRecord { m with member := op.member } (handleOf s s.hart 0 1 0 0) op.epc chan
    fresh := true, who := some (whoIs s.hart), chan := some (whoIs s.hart, chan) }] s

/-- Ends an operation short at its present count, with its record or the notice of an exhausted engine. -/
def shortOp (op : DriftOp) (chan : Nat) (e : DriftStop) (s : State) : State × DriftOp :=
  let s := match e.miss with | some m => driftRecord op chan m s | none => s
  let s := if e.exhausted = 0 then s else notifyExhausted (e.exhausted - 1) s
  (s, { op with ended := some e.code })

/-- R338: the operation that begins: its length, and for `drift2` its descriptor. -/
def beginOp (op : DriftOp) (serial : BitVec 16) (chan : Nat) (s : State) : State × DriftOp :=
  let op := { op with begun := true, serial := serial, count := 0 }
  let start (n : Nat) (op : DriftOp) : DriftOp := { op with total := n, ended := if n = 0 then some 0 else none }
  match op.form with
  | .drift => (s, start (bitsW op.arg 0 32) op)
  | .driftm => (s, start (bitsW op.arg 0 32) op)
  | .driftx => (s, start (bitsW op.arg 48 16 * 2 ^ bitsW op.arg 43 5) op)
  | .drift2 =>
    match driftBytes s .read ((List.range 32).map (fun i => ptrAdd op.arg (i : Nat))) with
    | .error e => if e.code = 1 then shortOp op chan e s else (s, { op with ended := some 9 })
    | .ok ks =>
      let bs := ks.map (memByte s)
      let d := (List.range 4).map (fun i => BitVec.ofNat 64 (leNat ((bs.drop (8 * i)).take 8)))
      if shapeOk d then (s, start (shapeTotal d) { op with shape := d }) else (s, { op with ended := some 9 })

/-- Replaces the first operation of a channel. -/
def setHead (cn : Chan) (op : DriftOp) : Chan := { cn with ops := op :: cn.ops.tail }

/-- R348: a copy leaves the channel's queue: each binding behind it has one copy less ahead, and with none left its turn. -/
def passBinds (l : List Nat) : List Nat := (l.map (· - 1)).filter (· != 0)

/-- The first operation of channel `chan` of the strand in focus begins. -/
def beginHead (chan : Nat) (s : State) : State :=
  let cn := chanAt s.hart chan
  match cn.ops with
  | [] => s
  | op :: _ =>
    if op.begun || op.ended.isSome then s
    else
      let serial := cn.serial + 1
      let (s, op) := beginOp op serial chan s
      let cn := chanAt s.hart chan
      setChan s chan { setHead cn op with serial := serial, dwp := driftWord serial 0 0, binds := passBinds cn.binds }

/-! ### Delivery (R339, R341, R343–R345) -/

/-- R338: bytes of one unit. -/
def unitBytes (op : DriftOp) : Nat :=
  match op.form with
  | .drift2 => 2 ^ bitsW (op.shape.getD 0 0) 62 2
  | _ => 1

/-- R343: a 48-bit stride, signed. -/
def strideOf (w : Word) : Int := sextN 48 w.toNat

/-- R343: source offset of element `e`. -/
def shapeSource (d : List Word) (e : Nat) : Int :=
  let d0 := d.getD 0 0
  let d3 := d.getD 3 0
  let c := bitsW d0 0 16
  let rb := if bitsW d3 32 16 = 0 then bitsW d0 16 16 else bitsW d3 32 16
  let cb := if bitsW d3 0 16 = 0 then c else bitsW d3 0 16
  (Nat.min (e / c) (rb - 1) : Nat) * strideOf (d.getD 1 0) + (Nat.min (e % c) (cb - 1) : Nat) * strideOf (d.getD 2 0)

/-- The source pointers of the unit at byte `n` of the delivery order; `driftx` has none. -/
def sourcePtrs (op : DriftOp) (n : Nat) : List Word :=
  match op.form with
  | .drift2 =>
    let u := unitBytes op
    (List.range u).map (fun i => ptrAdd op.src (shapeSource op.shape (n / u) + (i : Nat)))
  | _ => [ptrAdd op.src (n : Nat)]

/-- The destination pointers of the unit at byte `n`; `driftm` has none. -/
def destPtrs (op : DriftOp) (n : Nat) : List Word :=
  match op.form with
  | .drift2 =>
    let u := unitBytes op
    let d0 := op.shape.getD 0 0
    let c := bitsW d0 0 16
    let p := if bitsW d0 32 28 = 0 then c * u else bitsW d0 32 28
    (List.range u).map (fun i => ptrAdd op.dst ((n / u / c * p + n / u % c * u + i : Nat)))
  | _ => [ptrAdd op.dst (n : Nat)]

/-- R344: the home of byte `n` of a `driftx` source. -/
def sequenceByte (s : State) (op : DriftOp) (n : Nat) : Except DriftStop Nat :=
  match liveSeq s op.src with
  | none => .error { code := 8 }
  | some (eng, slot) =>
    let q := seqAt s eng slot
    let o := bitsW op.arg 0 32 * 2 ^ bitsW op.arg 43 5 + n
    if Nat.min q.len op.pages ≤ o / 2 ^ 16 then .error { code := 8 }
    else
      let k := pageBlock s q (o / 2 ^ 16) * 2 ^ 16 + o % 2 ^ 16
      if severedFrom s s.hart.core k .read 0 then .error { code := 2 }
      else if (badByte s k 1).isSome then .error { code := 4 }
      else .ok k

/-- The homes of the source bytes of the unit at byte `n`. -/
def sourceHomes (s : State) (op : DriftOp) (n : Nat) : Except DriftStop (List Nat) :=
  match op.form with
  | .driftx => (sequenceByte s op n).map (fun k => [k])
  | _ => driftBytes s .read (sourcePtrs op n)

/-- R345: the pads that a `driftm` writes, by core. -/
def namedPads (h : Strand) (op : DriftOp) : List Nat :=
  ((List.range 4).filter (fun c => op.arg.getLsbD (32 + c))).map (fun c => h.core / 4 * 4 + c)

/-- R341: the value of a source byte; where the operation itself has overwritten it, the old or the new one (log 10). -/
def sourceByte (s : State) (op : DriftOp) (i k : Nat) : Byte :=
  match smGet none op.undo k with
  | some old => if Config.overlapOld s.tick i then old else memByte s k
  | none => memByte s k

/-- Writes one delivered byte at a home, keeping the value it overwrites, which a later unit may read as a source. -/
def deliverByte (op : DriftOp) (k : Nat) (b : Byte) (s : State) : State × DriftOp :=
  (memPut s k [b],
   if (smGet none op.undo k).isNone then { op with undo := smSet none op.undo k (some (memByte s k)) } else op)

/-- Writes the bytes of a unit at their homes. -/
def deliverBytes : List (Nat × Byte) → DriftOp → State → State × DriftOp
  | [], op, s => (s, op)
  | (k, b) :: t, op, s =>
    let (s, op) := deliverByte op k b s
    deliverBytes t op s

/-- R332: takes the copy-on-write steps that a unit's destination needs; a step that finds no block ends them. -/
def settleBytes : List Word → State → State
  | [], s => s
  | p :: ps, s =>
    match driftPlace s p .write with
    | .home _ _ _ true =>
      if cowExhausted s s.hart.part (vaOf p) then s else settleBytes ps (cowStep s.hart.part (vaOf p) s)
    | _ => settleBytes ps s

/-- R339: delivers the next unit of an operation in progress, or ends it short. Its source bytes are read in this step
(R52; log 42). -/
def deliverUnit (op : DriftOp) (chan : Nat) (s : State) : State × DriftOp :=
  let n := op.count
  let u := unitBytes op
  match sourceHomes s op n with
  | .error e => shortOp op chan e s
  | .ok ks =>
    let bs := ks.zipIdx.map (fun x => sourceByte s op (n + x.2) x.1)
    let done (r : State × DriftOp) : State × DriftOp :=
      (r.1, { r.2 with count := n + u, ended := if op.total ≤ n + u then some 0 else none })
    match op.form with
    | .driftm =>
      let b := bs.headD 0
      let off := op.dst.toNat % 2 ^ 19 + n
      done ((namedPads s.hart op).foldl (fun r core =>
        deliverByte r.2 (padKey r.1 r.1.hart core off) b r.1) (s, op))
    | _ =>
      let ps := destPtrs op n
      match driftBytes s .write ps with
      | .error e => shortOp op chan e s
      | .ok _ =>
        let s := settleBytes ps s
        match driftBytes s .write ps with
        | .error e => shortOp op chan e s
        | .ok homes => done (deliverBytes (homes.zip bs) op s)

/-- R45, R341: a unit is delivered after the adapter fills, of any strand, that it would change (log 42). -/
def deliverAfterFills (op : DriftOp) (chan : Nat) (s : State) : State × DriftOp :=
  let r := deliverUnit op chan s
  if s.contribs.any (Contrib.changed s r.1) then deliverUnit op chan (fillAll (Contrib.changed s r.1) s) else r

/-- One unit of the first operation of a channel of the strand in focus. -/
def deliverHead (chan : Nat) (s : State) : State :=
  match (chanAt s.hart chan).ops with
  | [] => s
  | op :: _ =>
    if !op.begun || op.ended.isSome then s
    else
      let (s, op) := deliverAfterFills op chan s
      setChan s chan { setHead (chanAt s.hart chan) op with dwp := driftWord op.serial 0 op.count }

/-! ### The end (R338, R340, R347) -/

/-- R251: the channel of the strand in focus stays stopped: its fault record waits for room in the queue. -/
def recordWaits (chan : Nat) (s : State) : Bool :=
  s.dies.toList.any (fun d => d.waiting.any (fun r => r.chan == some (whoIs s.hart, chan)))

/-- The first operation of a channel ends: DLEN is written and its bell gets one arrival. One that `dstop` ended before it
began begins and ends at once. The arrival is a release of the strand, which ends its filter entries (R58, R63, R340). -/
def endHead (chan : Nat) (s : State) : State :=
  let cn := chanAt s.hart chan
  match cn.ops with
  | [] => s
  | op :: rest =>
    match op.ended, recordWaits chan s with
    | none, _ => s
    | _, true => s
    | some e, false =>
      let cn := if op.begun then cn else { cn with serial := cn.serial + 1, dwp := driftWord (cn.serial + 1) 0 0 }
      let n := if op.begun then op.count else 0
      let op := { op with begun := true, serial := cn.serial, count := n, undo := [] }
      let s := setChan s chan { cn with ops := rest, region := some op, dlen := driftWord cn.serial e n }
      match op.bell with
      | some (core, b) =>
        arriveBell (bellOwner s.hart).1 (bellOwner s.hart).2 (boundCore s.hart core) b (e != 0) (release s)
      | none => s

/-! ### The steps of a channel as events -/

/-- The first operation of a channel satisfies `f`. -/
def headIs (f : DriftOp → Bool) (chan : Nat) (h : Strand) : Bool :=
  match (chanAt h chan).ops with
  | op :: _ => f op
  | [] => false

/-! ### Finishing at once (R375) -/

/-- R375, R350: the operations of a channel of the strand in focus go on to their ends, at most `n` steps of them. -/
def finishChan (chan : Nat) : Nat → State → State
  | 0, s => s
  | n + 1, s =>
    match (chanAt s.hart chan).ops with
    | [] => s
    | op :: _ =>
      if op.ended.isSome then (if recordWaits chan s then s else finishChan chan n (endHead chan s))
      else if op.begun then finishChan chan n (deliverHead chan s)
      else finishChan chan n (beginHead chan s)

/-- DRIFT_BEGIN: a channel begins its next operation (R338). -/
def execDriftBegin (core slot chan : Nat) (s : State) : Res :=
  match focusOn (fun h => inSlot core slot h && headIs (fun o => !o.begun && o.ended.isNone) chan h) s with
  | some s => .next (beginHead chan s)
  | none => .next s

/-- DRIFT_DELIVER: a channel checks and writes one unit (R339). -/
def execDriftDeliver (core slot chan : Nat) (s : State) : Res :=
  match focusOn (fun h => inSlot core slot h && headIs (fun o => o.begun && o.ended.isNone) chan h) s with
  | some s => .next (deliverHead chan s)
  | none => .next s

/-- DRIFT_END: an operation ends, in full or short (R338). -/
def execDriftEnd (core slot chan : Nat) (s : State) : Res :=
  match focusOn (fun h => inSlot core slot h && headIs (fun o => o.ended.isSome) chan h) s with
  | some s => .next (endHead chan s)
  | none => .next s

end Sys2Proof.Machine
end

