-- ==== Sys2Proof/Machine/Message.lean ====
section
/-!
DEFINITION. Ramca messages (R389–R394): the three forms of major 0x52, what a message does at its destination on this
device, and the return of its acknowledgement, its bytes, or the result of its round.
-/
namespace Sys2Proof.Machine

open Sys2Proof

/-! ### The forms -/

/-- Bytes of `n` elements of `b` bits, packed from bit 0 up (R15). -/
def packedLen (b n : Nat) : Nat := (n * b + 7) / 8

/-- The bytes of elements 0 to VL - 1 of a window (R390). -/
def packedBytes (s : State) (w : Win) : List Byte :=
  let d := readW s w
  let b := tyBits (dType d)
  if b = 4 then
    (List.range ((vl s + 1) / 2)).map (fun i => BitVec.ofNat 8
      (srcBits s d (2 * i) + 16 * (if 2 * i + 1 < vl s then srcBits s d (2 * i + 1) else 0)))
  else (List.range (vl s)).flatMap (fun e => leBytes (b / 8) (srcBits s d e))

/-- Element `e` of packed bytes. -/
def unpackElem (b e : Nat) (bs : List Byte) : Nat :=
  if b = 4 then leNat ((bs.drop (e / 2)).take 1) / 16 ^ (e % 2) % 16 else leNat ((bs.drop (e * (b / 8))).take (b / 8))

/-- Writes elements 0 to VL - 1 of a window from packed bytes; an element past a clamp edge raises EDGE (R168; log 65). -/
def unpackInto (w : Win) (bs : List Byte) (s : State) : State :=
  let d := readW s w
  let b := tyBits (dType d)
  let (h, raised) := writeElems d ((List.range (vl s)).map (fun e => (e, unpackElem b e bs, (0 : Flags)))) s.hart
  mergeFlags raised { s with hart := h }

/-- R390: PROT at issue: reserved bits, alignment of off, and the end of the pad. Address, aux and event bit are 0 (log 48). -/
def peerTrap (s : State) (ga : Reg) (w : Win) : Option Trap :=
  let a := readG s ga
  let b := tyBits (tyOf s w)
  let off := bitsW a 0 19
  acceptTrap (bitsW a 19 8 != 0 || off * 8 % Nat.max b 8 != 0 || decide (Config.padBytes * 8 < off * 8 + vl s * b))

/-- R390: the data window is not of type k4. -/
def messageType (t : Nat) : Bool := t != 7

/-- A form of major 0x52 as a convoy member: it sends its message once, waits for what comes back, and ends with `done`. A
message that its destination refuses is PROT at element 0; one that finds an uncorrectable error there traps at its
element. -/
def msgMember (i : Instr) (c : BitVec 1) (ops : List Operand) (types : State → List (Win × Nat × Bool))
    (prot : State → Option Trap) (src dst : Option Win) (refused : State → Trap) (ga : Reg) (kind : State → MsgKind)
    (done : List Byte → State → State) (failed : Nat → State → Trap := fun _ => refused) : Member where
  word := i
  c := c
  role := .member (clLoad ||| clStore)
  priv := fun s => onDeputy s.hart
  check := fun s => orElseTrap (windowChecks i ops types s) (prot s)
  run := fun act s =>
    if vl s = 0 || !act.getLsbD 0 then { st := s }
    else match (standing s).reply with
    | some (.ok bs) => { st := done bs (noteWork 6 (vl s) s), adv := streamUse s (src.toList.map (readW s)) }
    | some .prot => { st := s, trap := some (0, some (refused s)), stopped := onesMask }
    | some (.bad off) =>
      let t := failed off s
      { st := s, trap := some (t.elem.toNat, some t), stopped := onesMask }
    | none =>
      let ds := src.toList.map (readW s)
      if ds.any (streamWaits s) then { st := s, block := some .wait }
      else match errorStop s (badElems s (sameElem ds) (List.range (vl s))) (List.range (vl s)) with
      | some r => r
      | none =>
        { st := s, block := some (.send { who := whoIs s.hart, core := s.hart.core, addr := readG s ga,
                                          kind := kind s, stage := .sent }) }
  active := activeOf 0
  reads := activeReads src.toList 0
  writes := fun s => dst.toList.flatMap (fun w => activeWrites w 0 s)
  once := true

/-- R390: PROT at the destination, with the address and the access. -/
def peerRefused (ga : Reg) (aux : BitVec 16) (s : State) : Trap :=
  { cause := 6, aux := aux, addr := (readG s ga).setWidth 48, ev := true, elem := 0 }

/-- `msgput` as a convoy member, R390. -/
def memMsgput (c : BitVec 1) (wa : Win) (ga : Reg) : Member :=
  msgMember (.msgput c wa ga) c [{ win := wa, code := 1, dest := false }] (fun s => [(wa, 1, messageType (tyOf s wa))])
    (fun s => peerTrap s ga wa) (some wa) none (peerRefused ga 1) ga
    (fun s => .put (packedBytes s wa) (vl s * tyBits (tyOf s wa) % 8 == 4)) (fun _ s => s)

/-- `msgput`, R390. -/
def execMsgput (c : BitVec 1) (wa : Win) (ga : Reg) (s : State) : Res := runWords [memMsgput c wa ga] s

/-- R219, R146: MEMERR of a pad byte that a `msgget` reads, `off` bytes on (log 48). -/
def peerError (ga : Reg) (w : Win) (off : Nat) (s : State) : Trap :=
  { cause := 12, aux := 2, addr := BitVec.ofNat 48 (((readG s ga).toNat % 2 ^ 48 + off) / 32 * 32), ev := true,
    elem := BitVec.ofNat 11 (off * 8 / tyBits (tyOf s w)) }

/-- `msgget` as a convoy member, R390. -/
def memMsgget (c : BitVec 1) (wd : Win) (ga : Reg) : Member :=
  msgMember (.msgget c wd ga) c (operands wd []) (fun s => [(wd, 0, messageType (tyOf s wd))])
    (fun s => peerTrap s ga wd) none (some wd) (peerRefused ga 0) ga
    (fun s => .get (packedLen (tyBits (tyOf s wd)) (vl s))) (fun bs s => unpackInto wd bs s)
    (peerError ga wd)

/-- `msgget`, R390. -/
def execMsgget (c : BitVec 1) (wd : Win) (ga : Reg) (s : State) : Res := runWords [memMsgget c wd ga] s

/-- R390: val(wa, e) of an f32 window as the bits of a contribution: flushed under ftz (R185), NaNs canonical. -/
def contributionBits (s : State) (w : Win) (e : Nat) : BitVec 32 :=
  BitVec.ofNat 32 (roundF f32 homeMode (valAt s w e)).1

/-- `nred` as a convoy member, R390, R394. A round of differing lengths is PROT at element 0 (R392). DESIGN CHOICE (log 48): an n of
0 or 1, outside R389's range, traps nothing. -/
def memNred (c : BitVec 1) (wd wa : Win) (ga : Reg) : Member :=
  msgMember (.nred c wd wa ga) c (operands wd [(wa, 1)])
    (fun s => [(wd, 0, tyOf s wd == 12), (wa, 1, tyOf s wa == 12)]) (fun _ => none) (some wa) (some wd)
    (fun _ => { cause := 6, ev := true, elem := 0 }) ga
    (fun s => .nred ((List.range (vl s)).map (contributionBits s wa))) (fun bs s => unpackInto wd bs s)

/-- `nred`, R394. -/
def execNred (c : BitVec 1) (wd wa : Win) (ga : Reg) (s : State) : Res := runWords [memNred c wd wa ga] s

/-! ### At the destination (R390–R393) -/

/-- Where a partition's pad byte is: the saved image of a swapped-out partition (R393) or of the stopped strand whose
allotment holds the byte (DESIGN CHOICE, log 46), and otherwise the pad. -/
def destKey (s : State) (part core off : Nat) : Nat :=
  match (allStrands s).find? (fun h =>
      h.run != .vacant && h.part == part && h.core == core && allotSaved h &&
      decide (h.padOff ≤ off) && decide (off < h.padOff + h.padLen)) with
  | some h => savedAllotBase h + off
  | none => if (partOf s part).swapOut then savedPadBase part core + off else padBase core + off

/-- R219: the gang of a pad that a message reaches is the partition's; the saved image of one that is swapped out is its own. -/
def reachPad (part core : Nat) (s : State) : State :=
  if (partOf s part).swapOut then s else passGang part (gangOf core) s

/-- Writes bytes to a partition's pad, one by one. -/
def putPad (part core : Nat) : Nat → List Byte → State → State
  | _, [], s => s
  | off, b :: bs, s => putPad part core (off + 1) bs (memPut s (destKey s part core off) [b])

/-- Reads bytes of a partition's pad. -/
def getPad (s : State) (part core off n : Nat) : List Byte :=
  (List.range n).map (fun i => memByte s (destKey s part core (off + i)))

/-- R219: the first of the bytes that a message reads with an uncorrectable error, if any. -/
def padError (s : State) (part core off n : Nat) : Option Nat :=
  if s.bad.isEmpty then none
  else (List.range n).find? (fun i => smGet false s.bad (destKey s part core (off + i)))

/-- R390: the oldest live launch of a partition that holds bells on a core (R131). -/
def bellHolder (s : State) (part core : Nat) : Option Launch :=
  (s.launches.filter (fun l => l.part == part && l.verdict.isNone && l.placed && pktField l.pkt 3 20 12 != 0 &&
    l.gangs.contains (gangOf core))).foldl
    (fun b l => match b with
      | some x => if l.order < x.order then some l else b
      | none => some l) none

/-- R390: the arrival on the message's bell; one that names no bell of that launch is discarded. The manual does not say that this
arrival is a release of the sending strand (R45, R58): the model ends no filter entry by it (log 75). -/
def messageArrival (part core n : Nat) (s : State) : State :=
  if n = 0x7FF then s
  else match bellHolder s part core with
  | some l => if n < pktField l.pkt 3 20 12 then arriveBell part l.serial core n false s else s
  | none => s

/-- The destination pad of a peer address on this device, as a physical core, if the partition's view names it. -/
def peerCore (s : State) (a : Word) : Option Nat :=
  (physGang (partOf s (bitsW a 47 5)).pgang (bitsW a 46 1) (bitsW a 40 6)).map (fun g => g * 4 + bitsW a 38 2)

/-- R390, R391, R395: a message reaches the pad: domains agree, the gang is in the view, and no severed path is needed.
`from_` is the die of a sender on this device. -/
def peerReach (s : State) (a : Word) (domain : BitVec 16) (from_ : Option Nat) : Option Nat :=
  if (partOf s (bitsW a 47 5)).ppeer.setWidth 16 != domain then none
  else match peerCore s a with
  | some c =>
    match from_ with
    | some d => if !s.crosscut && d != dieOf c then none else some c
    | none => some c
  | none => none

/-- R390: writes the last byte of a message that holds its low nibble alone. -/
def putHalf (part core off : Nat) (b : Byte) (s : State) : State :=
  let k := destKey s part core off
  nibblePut s k ((b &&& 0x0F) ||| (memByte s k &&& 0xF0))

/-- R390: applies a `msgput`; a half byte keeps the nibble that the message does not hold. -/
def applyPut (a : Word) (core : Nat) (bs : List Byte) (half : Bool) (s : State) : State :=
  let part := bitsW a 47 5
  let off := bitsW a 0 19
  let s := reachPad part core s
  messageArrival part core (bitsW a 27 11)
    (if half then putHalf part core (off + (bs.length - 1)) (bs.getLastD 0) (putPad part core off bs.dropLast s)
     else putPad part core off bs s)

/-- A message of this device to another device of the fabric. -/
def msgAbroad (m : Msg) : Bool := BitVec.ofNat 12 (bitsW m.addr 52 12) != Config.deviceId

/-- A message, not a contribution to a round. -/
def Msg.toPad (m : Msg) : Bool := match m.kind with | .nred _ => false | _ => true

/-- The `n`-th message that satisfies `f`, with its place. -/
def nthMsg (s : State) (f : Msg → Bool) (n : Nat) : Option (Msg × Nat) := (s.msgs.zipIdx.filter (fun x => f x.1))[n]?

/-- A message of this device to itself is applied, or refused; one that would consume a byte in error is not (R219). -/
def applyOwn (m : Msg) (i : Nat) (s : State) : State :=
  let stage (st : MsgStage) (s : State) : State := { s with msgs := s.msgs.set i { m with stage := st } }
  match peerReach s m.addr ((partOf s m.who.part).ppeer.setWidth 16) (some (dieOf m.core)), m.kind with
  | some core, .put bs half => stage (.applied []) (applyPut m.addr core bs half s)
  | some core, .get n =>
    let s := reachPad (bitsW m.addr 47 5) core s
    match padError s (bitsW m.addr 47 5) core (bitsW m.addr 0 19) n with
    | some off => stage (.failed off) s
    | none => stage (.applied (getPad s (bitsW m.addr 47 5) core (bitsW m.addr 0 19) n)) s
  | _, _ => stage .refused s

/-- MESSAGE_APPLY: an arriving message is checked and applied to a pad or its saved image, with its bell arrival (R390,
R393). -/
def execMessageApply (origin : MsgOrigin) (s : State) : Res :=
  match origin with
  | .own n =>
    match nthMsg s (fun m => m.stage == .sent && m.toPad && !msgAbroad m) n with
    | some (m, i) => .next (applyOwn m i s)
    | none => .next s
  | .peer (.put a domain bs half) =>
    match peerReach s a domain none with
    | some core =>
      if bitsW a 0 19 + bs.length ≤ Config.padBytes then
        .next (let s := applyPut a core bs half s; { s with replies := .peerDone :: s.replies })
      else .next { s with replies := .peerProt :: s.replies }
    | none => .next { s with replies := .peerProt :: s.replies }
  | .peer (.get a domain n) =>
    match peerReach s a domain none with
    | some core =>
      if bitsW a 0 19 + n ≤ Config.padBytes then
        let s := reachPad (bitsW a 47 5) core s
        match padError s (bitsW a 47 5) core (bitsW a 0 19) n with
        | some off => .next { s with replies := .peerBad off :: s.replies }
        | none => .next { s with replies := .peerData (getPad s (bitsW a 47 5) core (bitsW a 0 19) n) :: s.replies }
      else .next { s with replies := .peerProt :: s.replies }
    | none => .next { s with replies := .peerProt :: s.replies }

/-! ### What comes back (R27, R44) -/

/-- Gives a message's strand what came back; the message has settled. Nothing is left to give where the strand is gone. -/
def settleMsg (m : Msg) (r : Reply) (s : State) : State :=
  mapStrands (fun h =>
    match h.run with
    | .messaging first =>
      if whoIs h == m.who && h.core == m.core then
        putStand { standOf h first with reply := some r } { h with run := .ready }
      else h
    | _ => h) s

/-- Takes a message off the device and settles it. -/
def finishMsg (m : Msg) (i : Nat) (r : Reply) (s : State) : State := settleMsg m r { s with msgs := s.msgs.eraseIdx i }

/-- MESSAGE_ACK: the acknowledgement of the `n`-th message returns (R390). A message to another device brings what that
device answered: the bytes, or none for PROT. -/
def execMessageAck (n : Nat) (reply : Option (List Byte)) (s : State) : Res :=
  match nthMsg s Msg.toPad n with
  | none => .next s
  | some (m, i) =>
    match m.stage with
    | .applied bs => .next (finishMsg m i (.ok bs) s)
    | .refused => .next (finishMsg m i .prot s)
    | .failed off => .next (finishMsg m i (.bad off) s)
    | .sent =>
      if !msgAbroad m then .next s
      else match reply, m.kind with
      | none, _ => .next (finishMsg m i .prot s)
      | some bs, .get len => if bs.length = len then .next (finishMsg m i (.ok bs) s) else .next s
      | some _, _ => .next (finishMsg m i (.ok []) s)

/-- R395: a message between the dies that a severance finds unanswered takes PROT, applied or not. -/
def severMsgs (s : State) : State :=
  { s with msgs := s.msgs.map (fun m =>
      if m.toPad && !msgAbroad m && (peerCore s m.addr).any (fun c => dieOf c != dieOf m.core) then
        { m with stage := .refused }
      else m) }

/-- HOME_RETURN: the bytes of the `n`-th applied message that reads return to its strand, or to its saved image (R44). -/
def execHomeReturn (n : Nat) (s : State) : Res :=
  match nthMsg s (fun m => match m.stage, m.kind with | .applied _, .get _ => true | _, _ => false) n with
  | some (m, i) =>
    match m.stage with
    | .applied bs => .next (finishMsg m i (.ok bs) s)
    | _ => .next s
  | none => .next s

/-- The contributions of this device to a round, with their messages. -/
def roundOf (s : State) (group round : Nat) : List (Msg × List (BitVec 32)) :=
  s.msgs.filterMap (fun m => match m.kind with
    | .nred xs => if bitsW m.addr 48 16 = group ∧ bitsW m.addr 0 32 = round then some (m, xs) else none
    | _ => none)

/-- R394: the left fold of the element-`e` values in an order. -/
def foldElem (xs : List (List (BitVec 32))) (e : Nat) : List Nat → BitVec 32
  | [] => 0
  | i :: is => is.foldl (fun a j => BitVec.ofNat 32 (homeAdd f32 a.toNat ((xs.getD j []).getD e 0).toNat).1)
      ((xs.getD i []).getD e 0)

/-- Each number below `n` once. -/
def isOrder (n : Nat) (l : List Nat) : Bool := l.length == n && (List.range n).all (fun i => l.contains i)

/-- Settles every contribution of a round and takes it off the device. -/
def settleRound (ms : List Msg) (r : Reply) (s : State) : State :=
  let s := ms.foldl (fun s m => settleMsg m r s) s
  { s with msgs := s.msgs.filter (fun m => !ms.contains m) }

/-- NRED_RESULT: a round has gathered its n contributions, those of this device first and then those of its peers, and
returns the fold of each element, in that element's order, to every contributor (R394). Where they differ in length every
contributor traps PROT instead (R392). DESIGN CHOICE (log 48): where the tags differ in n the first contribution's counts, and of
more contributions of this device than that the oldest are taken. -/
def execNredResult (group round : Nat) (peers : List (List (BitVec 32))) (orders : List (List Nat)) (s : State) : Res :=
  match roundOf s group round with
  | [] => .next s
  | (m, xs) :: rest =>
    let n := bitsW m.addr 32 16
    let own := ((m, xs) :: rest).take (n - peers.length)
    let all := own.map (·.2) ++ peers
    if all.length != n then .next s
    else if all.any (fun ys => ys.length != xs.length) then .next (settleRound (own.map (·.1)) .prot s)
    else if !(orders.length == xs.length && orders.all (isOrder n)) then .next s
    else
      let bs := orders.zipIdx.flatMap (fun o => leBytes 4 (foldElem all o.2 o.1).toNat)
      .next (settleRound (own.map (·.1)) (.ok bs) s)

end Sys2Proof.Machine
end

