-- ==== Sys2Proof/Machine/VecMem.lean ====
section
/-!
DEFINITION. Vector memory (R221–R237): loads, stores, gathers, scatters, vector atomics and `tagset`, element by element
over the checks of R223, with the ordered and unordered stops of R224 and the deferral of R154.
-/
namespace Sys2Proof.Machine

open Sys2Proof

/-! ### Elements in memory -/

/-- R221: bytes that an element's access covers; a nibble covers its whole byte. -/
def accLen (t : Nat) : Nat := if tyBits t = 4 then 1 else tyBits t / 8

/-- R222: `addr(off)` on a base register; the key stays. -/
def elemAddr (base : Word) (off : Int) : Word :=
  BitVec.ofNat 64 (bitsW base 60 4 * 2 ^ 60 + ((((base.toNat % 2 ^ 60 : Nat) : Int) + off) % 2 ^ 60).toNat)

/-- R221, R227: the address of element `e` of a contiguous form. -/
def contigAddr (base : Word) (t e : Nat) : Word :=
  if tyBits t = 4 then elemAddr base ((e / 2 : Nat) : Int) else elemAddr base ((e * (tyBits t / 8) : Nat) : Int)

/-- R227: the address of element `e` of a strided form. -/
def strideAddr (base stride : Word) (e : Nat) : Word := elemAddr base ((e : Int) * stride.toInt)

/-- The element's bits among the bytes of its access (R221). -/
def bitsOfBytes (t e : Nat) (bs : List Byte) : Nat :=
  if tyBits t = 4 then leNat bs / 16 ^ (e % 2) % 16 else leNat bs

/-- The bytes that a store of the element's bits leaves at its access (R221): a nibble keeps the other one. -/
def bytesOfBits (t e v : Nat) (old : List Byte) : List Byte :=
  if tyBits t = 4 then
    let o := leNat old
    leBytes 1 (if e % 2 = 0 then o / 16 * 16 + v % 16 else o % 16 + v % 16 * 16)
  else leBytes (accLen t) v

/-- R233: the address of element `e` by its index. -/
def indexAddr (s : State) (base : Word) (wi : Win) (size e : Nat) : Word :=
  elemAddr base (intAt s wi e * (size : Int))

/-- R405: the gather-TLB misses of a form that takes its addresses from indexes: a free count, of those elements whose
translation may miss (event 13; log 6). -/
def countGather (ptr : Nat → Word) (es : List Nat) (s : State) : State :=
  if s.hart.ctrl.pmsel.toList.all (fun p => p.toNat != 13) then s
  else
    let n := (es.filter (fun e => walksTables s s.hart (bitsW (ptr e) 0 48))).length
    if n = 0 then s else countEvent 13 (Config.eventCycles 13 (countKey s s.hart) % (n + 1)) s

/-- The access of element `e` at a pointer. -/
def elemReq (kind : Kind) (t : Nat) (ptr : Word) (e : Nat) : Req :=
  { kind := kind, ptr := ptr, len := accLen t, align := accLen t, elem := some e,
    plain := kind != .atomic, consumes := kind != .write }

/-- The page fault that an access meets (R247). -/
def faultOf (s : State) (r : Req) : List Miss :=
  match check s r with
  | .miss m => [m]
  | _ => []

/-- What an element did: performed, with its flags, deferred (R154), or stopped by a trap or (none) by page faults. -/
inductive Elem where
  | done (s : State) (f : Flags)
  | deferred (s : State) (f : Flags)
  | stop (t : Option Trap) (ms : List Miss)

/-- A stopped element, by what its checks found. -/
def Elem.ofCheck : Check → Elem
  | .trap t => .stop (some t) []
  | .miss m => .stop none [m]
  | .home .. => .stop none []

/-- A run over elements: the state so far, stops, the elements done with their flags, newest first, and how many of them
were deferred. -/
structure VRun where
  st : State
  deferred : Nat := 0
  stopped : Mask := 0
  low : Option (Nat × Option Trap) := none
  misses : List Miss := []
  raised : List (Nat × Flags) := []

/-- R223, R224, R247: performs the elements in ascending order. An ordered form performs none from its first stop on, but
every element is translated. -/
def vecLoop (ordered : Bool) (f : Nat → State → Elem) : List Nat → VRun → VRun
  | [], r => r
  | e :: es, r =>
    match f e r.st with
    | .done s fl =>
      if ordered && r.low.isSome then vecLoop ordered f es { r with stopped := r.stopped ||| oneBit e }
      else vecLoop ordered f es { r with st := s, raised := (e, fl) :: r.raised }
    | .deferred s fl =>
      if ordered && r.low.isSome then vecLoop ordered f es { r with stopped := r.stopped ||| oneBit e }
      else vecLoop ordered f es { r with st := s, raised := (e, fl) :: r.raised, deferred := r.deferred + 1 }
    | .stop t ms =>
      vecLoop ordered f es { r with stopped := r.stopped ||| oneBit e,
                                    low := if r.low.isSome then r.low else some (e, t), misses := r.misses ++ ms }

/-- The result of a member from its run: flags merge (R188), and event `ev` of R405 counts the elements performed, the
deferred ones not among them. The flags of a `vamo` arrive as those of one issue (log 74). -/
def vecResult (ev : Nat) (s : State) (ds : List Word) (r : VRun) : MRes :=
  { st := countEvent ev (r.raised.length - r.deferred) (mergeFlags r.raised.reverse r.st), stopped := r.stopped,
    trap := r.low, misses := r.misses, adv := streamUse s ds }

/-! ### Checks at issue -/

/-- R221: data types of the forms of 0x40 and 0x41 that take 4-bit types. -/
def anyData (t : Nat) : Bool := decide (t ≤ 14)

/-- R221: the data types of gathers, scatters and strided forms. -/
def wideData (t : Nat) : Bool := decide (t ≤ 14) && tyBits t != 4

/-- R231: the windows that `vstduo` takes. -/
def duoWindow (d : Word) : Bool :=
  decide (dKind d ≤ 1) && (tyBits (dType d) == 8 || tyBits (dType d) == 16 || tyBits (dType d) == 32)

/-- R234: the types that an operation of `vamo` takes. -/
def vamoType (op : BitVec 3) (t : Nat) : Bool :=
  t == 3 || t == 6 || ((t == 12 || t == 10) && decide (op.toNat ≤ 1)) || (t == 12 && op == 7)

/-! ### Loads -/

/-- The mask word of an element written to kE (R154). -/
def setDeferred (ke : Option (BitVec 3)) (e : Nat) (v : Bool) (s : State) : State :=
  match ke with
  | some k => writeK s k (if v then readK s k ||| oneBit e else readK s k &&& ~~~(oneBit e))
  | none => s

/-- Writes a loaded value, or a deferred cause, into element `e` of the destination (R154, R168). -/
def putElem (d : Word) (e v : Nat) (s : State) : State × Flags :=
  let (h, f) := writeElem s.hart d e v
  ({ s with hart := h }, f)

/-- Element `e` of a load from a pointer: checked, performed into the window, or deferred (R154, R223). -/
def loadElem (d : Word) (ke : Option (BitVec 3)) (ptr : Word) (e : Nat) (s : State) : Elem :=
  let t := dType d
  let r := elemReq .read t ptr e
  match check s r with
  | .home k _ _ =>
    let (s', f) := putElem d e (bitsOfBytes t e (memBytes s k r.len)) (enter r k s)
    .done (setDeferred ke e false s') f
  | .trap x =>
    if ke.isSome then
      let (s', f) := putElem d e x.cause.toNat s
      .deferred (setDeferred ke e true s') f
    else .stop (some x) []
  | c => Elem.ofCheck c

/-- An ordered load (R227): `at_` gives each element's pointer. -/
def loadRun (wd : Win) (kn : BitVec 3) (ke : Option (BitVec 3)) (at_ : State → Nat → Word) (act : Mask) (s : State) :
    MRes :=
  vecResult 6 s [] (vecLoop true (fun e s' => loadElem (readW s wd) ke (at_ s e) e s') (elemsOf s (readK s kn) act)
    { st := s })

/-- R228, R229: the elements of `vldff` above its first one, up to the first condition, which shortens VL. -/
def firstFaultLoop (d : Word) (ke : Option (BitVec 3)) (at_ : Nat → Word) : List Nat → VRun → VRun × Option Nat
  | [], r => (r, none)
  | e :: es, r =>
    match loadElem d none (at_ e) e r.st with
    | .done s fl => firstFaultLoop d ke at_ es { r with st := setDeferred ke e false s, raised := (e, fl) :: r.raised }
    | _ => (r, some e)

/-- `vldff` over the given elements (R228). Where it met its condition before a stop of its convoy, it performs no more. -/
def firstFaultRun (wd : Win) (kn : BitVec 3) (ke : Option (BitVec 3)) (ga : Reg) (act : Mask) (s : State) : MRes :=
  let d := readW s wd
  let at_ := contigAddr (readG s ga) (dType d)
  match (standing s).cutFrom (startOf s), elemsOf s (readK s kn) act with
  | some f, _ => { st := s, newVl := some f }
  | none, [] => { st := s }
  | none, e :: es =>
    let r := vecLoop true (fun e s' => loadElem d ke (at_ e) e s') [e] { st := s }
    if r.low.isSome then { vecResult 6 s [] r with stopped := maskOf (e :: es) }
    else
      let (r, cut) := firstFaultLoop d ke at_ es r
      { vecResult 6 s [] r with newVl := cut }

/-- Writes one value into every element of a list. -/
def spreadElems (d : Word) (ke : Option (BitVec 3)) (v : Nat) (bad : Bool) : List Nat → VRun → VRun
  | [], r => r
  | e :: es, r =>
    let (s, f) := putElem d e v r.st
    spreadElems d ke v bad es { r with st := setDeferred ke e bad s, raised := (e, f) :: r.raised }

/-- `vldb` over the given elements (R227, R229): one access, at the lowest; a 4-bit type spreads the low nibble. -/
def broadcastRun (wd : Win) (kn : BitVec 3) (ke : Option (BitVec 3)) (ga : Reg) (act : Mask) (s : State) : MRes :=
  let d := readW s wd
  let t := dType d
  match elemsOf s (readK s kn) act with
  | [] => { st := s }
  | e :: es =>
    let r := elemReq .read t (elemAddr (readG s ga) 0) e
    let spread (v : Nat) (bad : Bool) (s' : State) : MRes :=
      let q := spreadElems d ke v bad (e :: es) { st := s' }
      { st := countEvent 6 (if bad then 0 else 1) (mergeFlags q.raised.reverse q.st) }
    match check s r with
    | .home k _ _ => spread (bitsOfBytes t 0 (memBytes s k r.len)) false (enter r k s)
    | .trap x =>
      if ke.isSome then spread x.cause.toNat true s
      else { st := s, trap := some (e, some x), stopped := maskOf (e :: es) }
    | .miss m => { st := s, trap := some (e, none), misses := [m], stopped := maskOf (e :: es) }

/-- A load of 0x40 as a convoy member. -/
def loadMember (i : Instr) (c : BitVec 1) (wd : Win) (kn ke : BitVec 3) (types : Nat → Bool)
    (run : Mask → State → MRes) : Member where
  word := i
  c := c
  role := .member clLoad
  check := windowChecks i (operands wd []) (fun s => [(wd, 0, types (tyOf s wd))])
  run := run
  active := activeOf kn
  writes := activeWrites wd kn
  masks := [kn]
  kOut := ke

/-- g[N+1] of a register pair (R227). -/
def pairG (s : State) (ga : Reg) : Word := readG s (ga + 1)

/-- `vld` as a convoy member, R227. -/
def memVld (c x : BitVec 1) (wd : Win) (ga : Reg) (kn ke : BitVec 3) : Member :=
  loadMember (.vld c x wd ga kn ke) c wd kn ((xMask x ke).getD 0) anyData
    (loadRun wd kn (xMask x ke) (fun s e => contigAddr (readG s ga) (tyOf s wd) e))

/-- `vld`, R227. -/
def execVld (c x : BitVec 1) (wd : Win) (ga : Reg) (kn ke : BitVec 3) (s : State) : Res :=
  runWords [memVld c x wd ga kn ke] s

/-- `vlds` as a convoy member, R227. -/
def memVlds (c x : BitVec 1) (wd : Win) (ga : Reg) (kn ke : BitVec 3) : Member :=
  loadMember (.vlds c x wd ga kn ke) c wd kn ((xMask x ke).getD 0) wideData
    (loadRun wd kn (xMask x ke) (fun s e => strideAddr (readG s ga) (pairG s ga) e))

/-- `vlds`, R227. -/
def execVlds (c x : BitVec 1) (wd : Win) (ga : Reg) (kn ke : BitVec 3) (s : State) : Res :=
  runWords [memVlds c x wd ga kn ke] s

/-- `vldff` as a convoy member, R228. -/
def memVldff (c x : BitVec 1) (wd : Win) (ga : Reg) (kn ke : BitVec 3) : Member :=
  loadMember (.vldff c x wd ga kn ke) c wd kn ((xMask x ke).getD 0) anyData (firstFaultRun wd kn (xMask x ke) ga)

/-- `vldff`, R228. -/
def execVldff (c x : BitVec 1) (wd : Win) (ga : Reg) (kn ke : BitVec 3) (s : State) : Res :=
  runWords [memVldff c x wd ga kn ke] s

/-- `vldb` as a convoy member, R227. -/
def memVldb (c x : BitVec 1) (wd : Win) (ga : Reg) (kn ke : BitVec 3) : Member :=
  loadMember (.vldb c x wd ga kn ke) c wd kn ((xMask x ke).getD 0) anyData (broadcastRun wd kn (xMask x ke) ga)

/-- `vldb`, R227. -/
def execVldb (c x : BitVec 1) (wd : Win) (ga : Reg) (kn ke : BitVec 3) (s : State) : Res :=
  runWords [memVldb c x wd ga kn ke] s

/-! ### Stores -/

/-- Performs a checked vector store at its home: copy-on-write, the core's cached lines, the filter (R226, R332). -/
def storeAt (r : Req) (t e v k : Nat) (cow : Bool) (s : State) : State :=
  let (s, k, old) := homeBytes r k cow s
  let bs := bytesOfBits t e v old
  enter r k (if tyBits t = 4 then nibblePut s k (bs.headD 0) else memPut s k bs)

/-- MEMERR of a granule that a form's source element reads (R146). -/
def dataError (s : State) (d : Word) (e : Nat) : Option Trap := (badAt s [(d, e)]).map (sourceError e)

/-- Element `e` of a store of the bits `v` (R230); `bad` is an error in the element's data. -/
def storeElem (t : Nat) (ptr : Word) (e v : Nat) (bad : Option Trap) (s : State) : Elem :=
  let r := elemReq .write t ptr e
  match check s r with
  | .home k _ cow => if bad.isSome then .stop bad [] else .done (storeAt r t e v k cow s) 0
  | c => Elem.ofCheck c

/-- An ordered store (R230). -/
def storeRun (ws : Win) (kn : BitVec 3) (at_ : State → Nat → Word) (act : Mask) (s : State) : MRes :=
  let d := readW s ws
  if streamWaits s d then { st := s, block := some .wait }
  else
    vecResult 7 s [d] (vecLoop true
      (fun e s' => storeElem (dType d) (at_ s e) e (srcBits s d e) (dataError s d e) s')
      (elemsOf s (readK s kn) act) { st := s })

/-- R231: the transposed address of element `e`. -/
def duoAddr (base : Word) (d : Word) (e : Nat) : Word :=
  let i := e / dWidth d
  let j := e % dWidth d
  elemAddr base (((j * dHeight d + i) * (tyBits (dType d) / 8) : Nat) : Int)

/-- R231, R232: element `e` of `vstduo`: both addresses are checked, plain first, before either is written. -/
def duoElem (t : Nat) (p q : Word) (e v : Nat) (bad : Option Trap) (s : State) : Elem :=
  let r1 := elemReq .write t p e
  let r2 := elemReq .write t q e
  match check s r1, check s r2 with
  | .home k1 _ cow1, .home k2 _ cow2 =>
    if bad.isSome then .stop bad []
    else
      let s1 := storeAt r1 t e v k1 cow1 s
      match check s1 r2 with
      | .home k2' _ cow2' => .done (storeAt r2 t e v k2' cow2' s1) 0
      | .trap x => if x.exhausted = 0 then .done (storeAt r2 t e v k2 cow2 s1) 0 else .stop (some x) []
      | .miss m => .stop none [m]
  | .miss m1, .miss m2 => .stop none [m1, m2]
  | .home .., c => Elem.ofCheck c
  | c, _ => Elem.ofCheck c

/-- The page faults of element `e` of `vstduo`: of both its addresses, unless the check of the plain one traps (R248). -/
def duoFaults (s : State) (t : Nat) (p q : Word) (e : Nat) : List Miss :=
  match check s (elemReq .write t p e) with
  | .trap _ => []
  | .miss m => m :: faultOf s (elemReq .write t q e)
  | .home .. => faultOf s (elemReq .write t q e)

/-- `vstduo` over the given elements (R231). -/
def duoRun (ws : Win) (kn : BitVec 3) (ga : Reg) (act : Mask) (s : State) : MRes :=
  let d := readW s ws
  let t := dType d
  vecResult 7 s [] (vecLoop true
    (fun e s' => duoElem t (contigAddr (readG s ga) t e) (duoAddr (pairG s ga) d e) e (srcBits s d e)
      (dataError s d e) s')
    (elemsOf s (readK s kn) act) { st := s })

/-- A store of 0x41 as a convoy member. -/
def storeMember (i : Instr) (c : BitVec 1) (ws : Win) (kn : BitVec 3) (types : Word → Bool)
    (run : Mask → State → MRes) (faults : State → Nat → List Miss) : Member where
  word := i
  c := c
  role := .member clStore
  check := windowChecks i [{ win := ws, code := 0, dest := false }] (fun s => [(ws, 0, types (readW s ws))])
  run := run
  active := activeOf kn
  reads := activeReads [ws] kn
  masks := [kn]
  faults := faults

/-- A store of one access for each element as a convoy member (R230): `at_` gives its pointer. -/
def oneStoreMember (i : Instr) (c : BitVec 1) (ws : Win) (kn : BitVec 3) (types : Word → Bool) (at_ : State → Nat → Word) :
    Member :=
  storeMember i c ws kn types (storeRun ws kn at_) (fun s e => faultOf s (elemReq .write (tyOf s ws) (at_ s e) e))

/-- `vst` as a convoy member, R230. -/
def memVst (c : BitVec 1) (ws : Win) (ga : Reg) (kn : BitVec 3) : Member :=
  oneStoreMember (.vst c ws ga kn) c ws kn (fun d => anyData (dType d)) (fun s e => contigAddr (readG s ga) (tyOf s ws) e)

/-- `vst`, R230. -/
def execVst (c : BitVec 1) (ws : Win) (ga : Reg) (kn : BitVec 3) (s : State) : Res := runWords [memVst c ws ga kn] s

/-- `vsts` as a convoy member, R230. -/
def memVsts (c : BitVec 1) (ws : Win) (ga : Reg) (kn : BitVec 3) : Member :=
  oneStoreMember (.vsts c ws ga kn) c ws kn (fun d => wideData (dType d)) (fun s e => strideAddr (readG s ga) (pairG s ga) e)

/-- `vsts`, R230. -/
def execVsts (c : BitVec 1) (ws : Win) (ga : Reg) (kn : BitVec 3) (s : State) : Res := runWords [memVsts c ws ga kn] s

/-- `vstduo` as a convoy member, R231. -/
def memVstduo (c : BitVec 1) (ws : Win) (ga : Reg) (kn : BitVec 3) : Member :=
  storeMember (.vstduo c ws ga kn) c ws kn duoWindow (duoRun ws kn ga) (fun s e =>
    duoFaults s (tyOf s ws) (contigAddr (readG s ga) (tyOf s ws) e) (duoAddr (pairG s ga) (readW s ws) e) e)

/-- `vstduo`, R231. -/
def execVstduo (c : BitVec 1) (ws : Win) (ga : Reg) (kn : BitVec 3) (s : State) : Res :=
  runWords [memVstduo c ws ga kn] s

/-! ### Gathers and scatters -/

/-- The home of an access that meets no condition (R224). -/
def accessHome (s : State) (r : Req) : Option Nat :=
  match check s r with
  | .home k .. => some (homeOf k)
  | _ => none

/-- `vldx` over the given elements (R233); sources are read as they stood before the instruction. MEMERR of an index element
is no trap of the element's access, and `s:kE` does not defer it (R154; log 72). -/
def gatherRun (wd wi : Win) (ga : Reg) (kn : BitVec 3) (ke : Option (BitVec 3)) (act : Mask) (s : State) : MRes :=
  let d := readW s wd
  let di := readW s wi
  if streamWaits s di then { st := s, block := some .wait }
  else
    vecResult 6 s [di] (vecLoop false
      (fun e s' => match dataError s di e with
        | some t => .stop (some t) []
        | none => loadElem d ke (indexAddr s (readG s ga) wi (accLen (dType d)) e) e s')
      (elemsOf s (readK s kn) act) { st := countGather (indexAddr s (readG s ga) wi (accLen (dType d))) (elemsOf s (readK s kn) act) s })

/-- `vldx` as a convoy member, R233. -/
def memVldx (c x : BitVec 1) (wd wi : Win) (ga : Reg) (kn ke : BitVec 3) : Member where
  word := .vldx c x wd wi ga kn ke
  c := c
  role := .member clLoad
  check := windowChecks (.vldx c x wd wi ga kn ke) (operands wd [(wi, 1)])
    (fun s => [(wd, 0, wideData (tyOf s wd)), (wi, 1, isInt (tyOf s wi))])
  run := gatherRun wd wi ga kn (xMask x ke)
  active := activeOf kn
  reads := activeReads [wi] kn
  writes := activeWrites wd kn
  masks := [kn]
  kOut := (xMask x ke).getD 0
  commit := .unordered
  home := fun s e => accessHome s (elemReq .read (tyOf s wd) (indexAddr s (readG s ga) wi (accLen (tyOf s wd)) e) e)

/-- `vldx`, R233. -/
def execVldx (c x : BitVec 1) (wd wi : Win) (ga : Reg) (kn ke : BitVec 3) (s : State) : Res :=
  runWords [memVldx c x wd wi ga kn ke] s

/-- `vstx` over the given elements (R233, R225). -/
def scatterRun (ws wi : Win) (ga : Reg) (kn : BitVec 3) (act : Mask) (s : State) : MRes :=
  let d := readW s ws
  let di := readW s wi
  if streamWaits s d || streamWaits s di then { st := s, block := some .wait }
  else
    vecResult 7 s [d, di] (vecLoop false
      (fun e s' => match dataError s di e with
        | some t => .stop (some t) []
        | none => storeElem (dType d) (indexAddr s (readG s ga) wi (accLen (dType d)) e) e (srcBits s d e)
                    (dataError s d e) s')
      (elemsOf s (readK s kn) act) { st := countGather (indexAddr s (readG s ga) wi (accLen (dType d))) (elemsOf s (readK s kn) act) s })

/-- `vstx` as a convoy member, R233. -/
def memVstx (c : BitVec 1) (ws wi : Win) (ga : Reg) (kn : BitVec 3) : Member where
  word := .vstx c ws wi ga kn
  c := c
  role := .member clStore
  check := windowChecks (.vstx c ws wi ga kn)
    [{ win := ws, code := 0, dest := false }, { win := wi, code := 1, dest := false }]
    (fun s => [(ws, 0, wideData (tyOf s ws)), (wi, 1, isInt (tyOf s wi))])
  run := scatterRun ws wi ga kn
  active := activeOf kn
  reads := activeReads [ws, wi] kn
  masks := [kn]
  commit := .unordered
  home := fun s e => accessHome s (elemReq .write (tyOf s ws) (indexAddr s (readG s ga) wi (accLen (tyOf s ws)) e) e)
  faults := fun s e => if (dataError s (readW s wi) e).isSome then []
    else faultOf s (elemReq .write (tyOf s ws) (indexAddr s (readG s ga) wi (accLen (tyOf s ws)) e) e)
  indexes := activeReads [wi] kn

/-- `vstx`, R233. -/
def execVstx (c : BitVec 1) (ws wi : Win) (ga : Reg) (kn : BitVec 3) (s : State) : Res :=
  runWords [memVstx c ws wi ga kn] s

/-! ### Atomics -/

/-- R234: the value an operation writes, none for a `cas` that does not hold, and its flags. -/
def vamoNew (op : BitVec 3) (t old v cmp : Nat) : Option Nat × Flags :=
  let b := tyBits t
  match op.toNat with
  | 0 => (some v, 0)
  | 1 => if isFloat t then (let (r, f) := homeAdd (fmtOf t) old v; (some r, f)) else (some ((old + v) % 2 ^ b), 0)
  | 2 => (some (old &&& v), 0)
  | 3 => (some (old ||| v), 0)
  | 4 => (some (old ^^^ v), 0)
  | 5 => (some (if intVal t old < intVal t v then old else v), 0)
  | 6 => (some (if intVal t old < intVal t v then v else old), 0)
  | _ => (if old = cmp then some v else none, 0)

/-- R234: element `e` of `vamo`: indivisible at its home, the old value to the window. -/
def vamoElem (d : Word) (op : BitVec 3) (ptr : Word) (e v cmp : Nat) (bad : Option Trap) (s : State) : Elem :=
  let t := dType d
  let r := elemReq .atomic t ptr e
  match check s r with
  | .home k _ cow =>
    if bad.isSome then .stop bad []
    else
      let (s, k, bs) := homeBytes r k cow s
      let (new, f) := vamoNew op t (leNat bs) v cmp
      let s := match new with | some x => memPut s k (leBytes r.len x) | none => s
      let (s, g) := putElem d e (leNat bs) s
      .done s (f ||| g)
  | c => Elem.ofCheck c

/-- The pointer of element `e` of either form of `vamo` (R234). -/
def vamoAddr (indexed : Bool) (wd : Win) (ga : Reg) (s : State) (e : Nat) : Word :=
  if indexed then elemAddr (readG s ga) ((srcBits s (readW s wd) e * accLen (tyOf s wd) : Nat) : Int)
  else contigAddr (readG s ga) (tyOf s wd) e

/-- `vamo` over the given elements (R234, R235): the release comes first and once for the convoy, and the acquire when the
convoy completes. -/
def vamoRun (indexed : Bool) (wd wa : Win) (ga : Reg) (kn op : BitVec 3) (order : BitVec 2) (act : Mask) (s : State) :
    MRes :=
  let d := readW s wd
  let da := readW s wa
  if streamWaits s da then { st := s, block := some .wait }
  else
    let rel := order.getLsbD 1
    let s1 := if rel && !(standing s).released then release s else s
    let bad (e : Nat) : Option Trap :=
      match dataError s da e with
      | some x => some x
      | none => if indexed || op == 7 then dataError s d e else none
    let r := vecLoop (!indexed) (fun e s' =>
      match (if indexed then dataError s d e else none) with
      | some x => .stop (some x) []
      | none => vamoElem d op (vamoAddr indexed wd ga s e) e (srcBits s da e) (srcBits s d e) (bad e) s')
      (elemsOf s (readK s kn) act) { st := if indexed then countGather (vamoAddr indexed wd ga s) (elemsOf s (readK s kn) act) s1 else s1 }
    let res := vecResult 7 s [da] r
    { res with st := if r.raised.isEmpty then res.st else noteWork 2 r.raised.length res.st, released := rel,
               acquires := order.getLsbD 0 && acquireDrops (vcfgScope s) s }

/-- `vamo` of either form as a convoy member. -/
def vamoMember (i : Instr) (indexed : Bool) (c : BitVec 1) (wd wa : Win) (ga : Reg) (kn op : BitVec 3)
    (order : BitVec 2) : Member where
  word := i
  c := c
  role := .member (clLoad ||| clStore)
  check := windowChecks i (operands wd [(wa, 1)])
    (fun s => [(wa, 1, tyOf s wd == tyOf s wa), (wd, 0, vamoType op (tyOf s wd))])
  run := vamoRun indexed wd wa ga kn op order
  active := activeOf kn
  reads := activeReads (if indexed || op == 7 then [wd, wa] else [wa]) kn
  writes := activeWrites wd kn
  masks := [kn]
  commit := if indexed then .unordered else .ordered
  home := fun s e => accessHome s (elemReq .atomic (tyOf s wd) (vamoAddr indexed wd ga s e) e)
  faults := fun s e => if indexed && (dataError s (readW s wd) e).isSome then []
    else faultOf s (elemReq .atomic (tyOf s wd) (vamoAddr indexed wd ga s e) e)
  indexes := activeReads (if indexed then [wd] else []) kn

/-- Contiguous `vamo` as a convoy member, R234. -/
def memVamo (c : BitVec 1) (wd wa : Win) (ga : Reg) (kn op : BitVec 3) (order : BitVec 2) : Member :=
  vamoMember (.vamo c wd wa ga kn op order) false c wd wa ga kn op order

/-- Contiguous `vamo`, R234. -/
def execVamo (c : BitVec 1) (wd wa : Win) (ga : Reg) (kn op : BitVec 3) (order : BitVec 2) (s : State) : Res :=
  runWords [memVamo c wd wa ga kn op order] s

/-- Indexed `vamo` as a convoy member, R234. -/
def memVamoX (c : BitVec 1) (wd wa : Win) (ga : Reg) (kn op : BitVec 3) (order : BitVec 2) : Member :=
  vamoMember (.vamoX c wd wa ga kn op order) true c wd wa ga kn op order

/-- Indexed `vamo`, R234. -/
def execVamoX (c : BitVec 1) (wd wa : Win) (ga : Reg) (kn op : BitVec 3) (order : BitVec 2) (s : State) : Res :=
  runWords [memVamoX c wd wa ga kn op order] s

/-! ### Tags -/

/-- The access of element `e` of `tagset` (R237): the checks of R223 with 32 bytes, without TAG, CONFLICT and MEMERR. -/
def tagReq (ptr : Word) (e : Nat) : Req :=
  { kind := .write, ptr := ptr, len := 32, align := 32, tagged := false, plain := false, consumes := false, elem := some e
    needTag := true }

/-- Element `e` of `tagset` (R237). -/
def tagElem (ptr : Word) (e v : Nat) (s : State) : Elem :=
  let r := tagReq ptr e
  match check s r with
  | .home k _ cow =>
    let (s, k) := settle s r k cow
    .done { s with tags := pushTags (fun _ => BitVec.ofNat 4 v) (k / 32) 1 s.tags } 0
  | c => Elem.ofCheck c

/-- `tagset` as a convoy member, R237. -/
def memTagset (c : BitVec 1) (wa : Win) (ga : Reg) (kn : BitVec 3) : Member where
  word := .tagset c wa ga kn
  c := c
  role := .member clStore
  check := windowChecks (.tagset c wa ga kn) [{ win := wa, code := 1, dest := false }]
    (fun s => [(wa, 1, isInt (tyOf s wa) && tyBits (tyOf s wa) != 4)])
  run := fun act s =>
    let d := readW s wa
    if streamWaits s d then { st := s, block := some .wait }
    else vecResult 7 s [d] (vecLoop true
      (fun e s' => tagElem (elemAddr (readG s ga) ((32 * e : Nat) : Int)) e (srcBits s d e % 16) s')
      (elemsOf s (readK s kn) act) { st := s })
  active := activeOf kn
  reads := activeReads [wa] kn
  masks := [kn]
  faults := fun s e => faultOf s (tagReq (elemAddr (readG s ga) ((32 * e : Nat) : Int)) e)

/-- `tagset`, R237. -/
def execTagset (c : BitVec 1) (wa : Win) (ga : Reg) (kn : BitVec 3) (s : State) : Res :=
  runWords [memTagset c wa ga kn] s

end Sys2Proof.Machine
end

