-- ==== Sys2Proof/Machine/Sump.lean ====
section
/-!
DEFINITION. What a sump bank performs for major 0x53 (R310–R315): scaled updates, reductions into a word, and the steps of
hardware queues. The last three act in one indivisible step, which a stop of the convoy finds not yet sent.
-/
namespace Sys2Proof.Machine

open Sys2Proof

/-- An atomic access that only a sump performs (R310). -/
def bankReq (ptr : Word) (len align e : Nat) : Req :=
  { kind := .atomic, ptr := ptr, len := len, align := align, plain := false, elem := some e, sumpOnly := true }

/-- The value of an element with subnormals kept, whatever VCFG holds (R310). -/
def bankVal (s : State) (w : Win) (e : Nat) : Num := numVal (tyOf s w) false (srcBits s (readW s w) e)

/-! ### Scaled update -/

/-- R311: the types of `sax`. -/
def saxType (t : Nat) : Bool := t == 3 || t == 6 || t == 12 || t == 10

/-- R311: the updated word and its flags. -/
def saxNew (t old g v : Nat) : Nat × Flags :=
  if isFloat t then
    let f := fmtOf t
    let (x, fl) := fmaN 0 (readF f false g) (readF f false v) (readF f false old)
    let (r, gl) := roundF f homeMode x
    (r, fl ||| gl ||| snanFlag [readF f false g, readF f false v, readF f false old])
  else (((old : Int) + intVal t g * intVal t v) % 2 ^ tyBits t |>.toNat, 0)

/-- Element `e` of `sax`. -/
def saxElem (t g v : Nat) (ptr : Word) (e : Nat) (bad : Option Trap) (s : State) : Elem :=
  let r := bankReq ptr (accLen t) (accLen t) e
  match check s r with
  | .home k _ cow =>
    if bad.isSome then .stop bad []
    else
      let (s, k, bs) := homeBytes r k cow s
      let (n, f) := saxNew t (leNat bs) g v
      .done (memPut s k (leBytes r.len n)) f
  | c => Elem.ofCheck c

/-- `sax` as a convoy member, R311. -/
def memSax (c : BitVec 1) (gs : Reg) (wa : Win) (ga : Reg) (kn : BitVec 3) : Member where
  word := .sax c gs wa ga kn
  c := c
  role := .member (clLoad ||| clStore)
  check := windowChecks (.sax c gs wa ga kn) [{ win := wa, code := 1, dest := false }]
    (fun s => [(wa, 1, saxType (tyOf s wa))])
  run := fun act s =>
    let d := readW s wa
    let t := dType d
    if streamWaits s d then { st := s, block := some .wait }
    else vecResult 7 s [d] (vecLoop true
      (fun e s' => saxElem t ((readG s gs).toNat % 2 ^ tyBits t) (srcBits s d e) (contigAddr (readG s ga) t e) e
        (dataError s d e) s') (elemsOf s (readK s kn) act) { st := s })
  active := activeOf kn
  reads := activeReads [wa] kn
  masks := [kn]

/-- `sax`, R311. -/
def execSax (c : BitVec 1) (gs : Reg) (wa : Win) (ga : Reg) (kn : BitVec 3) (s : State) : Res :=
  runWords [memSax c gs wa ga kn] s

/-! ### Reduction into a word -/

/-- R312: the types of an operation of `sred`. -/
def sredType (op : BitVec 3) (t : Nat) : Bool :=
  t == 3 || t == 6 || ((t == 12 || t == 10) && op == 0)

/-- R312: the word after the reduction of the present elements, with the flags of every node. -/
def sredNew (s : State) (wa : Win) (op : BitVec 3) (es : List Nat) (old : Nat) : Nat × Flags :=
  let t := tyOf s wa
  let b := tyBits t
  let vals := (List.range (vl s)).map (fun e => if es.contains e then some (bankVal s wa e) else none)
  let bits := es.map (fun e => srcBits s (readW s wa) e)
  let tree (o : RedOp) : Num × Flags :=
    match treeUp (redNode o t homeMode) 12 vals with
    | (some r, f) => (r, f)
    | (none, f) => (.fin false 0 0 false, f)
  match op.toNat with
  | 0 =>
    let (r, f) := tree .sum
    if isFloat t then
      let (x, g) := roundF (fmtOf t) homeMode r
      let (n, h) := homeAdd (fmtOf t) old x
      (n, f ||| g ||| h ||| snanFlag [r])
    else
      let (n, _) := fitTo t { homeMode with sat := false } r
      ((old + n) % 2 ^ b, 0)
  | 1 => let n := (fitTo t homeMode (tree .min).1).1
         (if intVal t n < intVal t old then n else old, 0)
  | 2 => let n := (fitTo t homeMode (tree .max).1).1
         (if intVal t old < intVal t n then n else old, 0)
  | 3 => (bits.foldl (· &&& ·) old, 0)
  | 4 => (bits.foldl (· ||| ·) old, 0)
  | _ => (bits.foldl (· ^^^ ·) old, 0)

/-- The stop of a step form at its lowest element. -/
def stepStop (s : State) (es : List Nat) (e : Nat) (c : Check) : MRes :=
  match c with
  | .trap t => { st := s, trap := some (e, some t), stopped := maskOf es }
  | .miss m => { st := s, trap := some (e, none), misses := [m], stopped := maskOf es }
  | .home .. => { st := s }

/-- `sred` over the given elements: one step (R310, R312), checked as an access at the lowest of them; an error in a source
comes last (R147, R223). -/
def sredRun (wa : Win) (ga : Reg) (kn op : BitVec 3) (act : Mask) (s : State) : MRes :=
  let d := readW s wa
  if streamWaits s d then { st := s, block := some .wait }
  else match elemsOf s (readK s kn) act with
  | [] => { st := s, adv := streamUse s [d] }
  | e :: es =>
    let r := bankReq (elemAddr (readG s ga) 0) (accLen (dType d)) (accLen (dType d)) e
    match check s r with
    | .home k _ cow =>
      match errorStop s (badElems s (sameElem [d]) (e :: es)) (e :: es) with
      | some r => r
      | none =>
        let (s1, k, bs) := homeBytes r k cow s
        let (n, f) := sredNew s wa op (e :: es) (leNat bs)
        { st := noteWork 2 (es.length + 1) (countEvent 7 (es.length + 1) (mergeFlags [(0, f)] (memPut s1 k (leBytes r.len n)))),
          adv := streamUse s [d] }
    | c => stepStop s (e :: es) e c

/-- `sred` as a convoy member, R312. -/
def memSred (c : BitVec 1) (wa : Win) (ga : Reg) (kn op : BitVec 3) : Member where
  word := .sred c wa ga kn op
  c := c
  role := .member (clLoad ||| clStore)
  check := windowChecks (.sred c wa ga kn op) [{ win := wa, code := 1, dest := false }]
    (fun s => [(wa, 1, sredType op (tyOf s wa))])
  run := sredRun wa ga kn op
  active := activeOf kn
  reads := activeReads [wa] kn
  masks := [kn]
  once := true

/-- `sred`, R312. -/
def execSred (c : BitVec 1) (wa : Win) (ga : Reg) (kn op : BitVec 3) (s : State) : Res :=
  runWords [memSred c wa ga kn op] s

/-! ### Hardware queues -/

/-- A queue header (R313). -/
structure QueueHead where
  pushed : Nat
  popped : Nat
  depth : Nat
  deriving DecidableEq, Repr

/-- R313: entries that a queue holds. -/
def QueueHead.held (q : QueueHead) : Nat := (q.pushed + 2 ^ 32 - q.popped) % 2 ^ 32

/-- R313: the header at a home, none if it is malformed. `va` and `translated` say how the queue was reached. -/
def queueHead (s : State) (k va : Nat) (translated : Bool) : Option QueueHead :=
  let h := memBytes s k 64
  let d0 := leNat (h.take 8)
  let d1 := leNat ((h.drop 8).take 8)
  let q : QueueHead := { pushed := d0 / 2 ^ 32, popped := d0 % 2 ^ 32, depth := d1 % 2 ^ 16 + 1 }
  let size := 64 + 4 * q.depth
  if d1 / 2 ^ 16 ≠ 0 ∨ leNat (h.drop 16) ≠ 0 ∨ q.depth < q.held ∨ Config.sumpBytes < k % 2 ^ 27 + size ∨
      (translated ∧ 2 ^ 16 < va % 2 ^ 16 + size) then none
  else some q

/-- R313: the offset of entry `i` of a ring from its header. -/
def entryOff (q : QueueHead) (i : Nat) : Nat := 64 + 4 * (i % 2 ^ 32 % q.depth)

/-- The step of R223 that decides a check. -/
def Check.step : Check → Nat
  | .home .. => 9
  | .miss _ => 3
  | .trap t =>
    match t.cause.toNat with
    | 5 => 1
    | 6 => 2
    | 11 => 3
    | 7 => 5
    | 10 => 6
    | 8 => 7
    | _ => 8

/-- R314, R223: of the checks of two parts of one access the earlier step decides; WATCH names the hits of both. -/
def joinChecks (a b : Check) : Check :=
  match a, b with
  | .trap x, .trap y =>
    if x.cause = 10 ∧ y.cause = 10 then .trap { x with aux := x.aux ||| y.aux }
    else if (Check.trap y).step < (Check.trap x).step then b else a
  | _, _ => if b.step < a.step then b else a

/-- R314: the check of entry `i` of a queue as a part of the step's access, reported at the header; a push takes MEMERR of the
entry that it overwrites, as an atomic does (log 30). -/
def entryCheck (s : State) (ptr : Word) (q : QueueHead) (e i : Nat) : Check :=
  match check s (bankReq (elemAddr ptr (entryOff q i : Nat)) 4 4 e) with
  | .trap t => .trap (if t.cause = 12 then t else { t with addr := ptr.setWidth 48 })
  | c => c

/-- R314: the entries written by a push, in order. -/
def putEntries (k : Nat) (q : QueueHead) : Nat → List Nat → State → State
  | _, [], s => s
  | i, v :: vs, s => putEntries k q (i + 1) vs (memPut s (k + entryOff q i) (leBytes 4 v))

/-- R314: dword 0 of a header. -/
def putCounts (k pushed popped : Nat) (s : State) : State :=
  memPut s k (leBytes 8 (pushed % 2 ^ 32 * 2 ^ 32 + popped % 2 ^ 32))

/-- R313, R314: one step on a queue over the elements `es`: `count` entries from `from_` on are touched, and `step` gets
the state, the home of the header, the header and the number of elements taken. `src` are the source windows of a push,
whose errors come last. A pointer that is not 64-byte aligned traps ALIGN (log 30). -/
def queueStep (ga : Reg) (es : List Nat) (count : QueueHead → Nat) (from_ : QueueHead → Nat) (src : List Word)
    (step : State → Nat → QueueHead → Nat → State) (s : State) : MRes :=
  match es with
  | [] => { st := s }
  | e :: _ =>
    let ptr := elemAddr (readG s ga) 0
    let r := bankReq ptr 64 64 e
    let c := check s r
    match (if c.step < 5 then none else some (locate s s.hart (vaOf ptr) .atomic e)) with
    | some (.home k _ translated cow) =>
      match queueHead s k (vaOf ptr) translated with
      | none => stepStop s es e (.trap (r.trap 6 3))
      | some q =>
        let n := count q
        match (List.range n).foldl (fun a j => joinChecks a (entryCheck s ptr q e (from_ q + j))) c with
        | .home .. =>
          match errorStop s (badElems s (sameElem src) (es.take n)) es with
          | some r => r
          | none =>
            let (s1, k, _) := homeBytes r k cow s
            let s2 := cacheRemove s1.hart.core k (64 + 4 * q.depth) s1
            { st := step s2 k q n, newVl := if n < es.length then es[n]? else none }
        | c => stepStop s es e c
    | _ => stepStop s es e c

/-- R314: the types of queue entries. -/
def queueType (t : Nat) : Bool := t == 3 || t == 6 || t == 12

/-- `sqpush` as a convoy member, R314. -/
def memSqpush (c : BitVec 1) (wa : Win) (ga : Reg) (kn : BitVec 3) : Member where
  word := .sqpush c wa ga kn
  c := c
  role := .member (clLoad ||| clStore)
  check := windowChecks (.sqpush c wa ga kn) [{ win := wa, code := 1, dest := false }]
    (fun s => [(wa, 1, queueType (tyOf s wa))])
  run := fun act s =>
    let d := readW s wa
    let es := elemsOf s (readK s kn) act
    if streamWaits s d then { st := s, block := some .wait }
    else
      { queueStep ga es (fun q => Nat.min es.length (q.depth - q.held)) (fun q => q.pushed) [d]
          (fun s' k q n => noteWork 2 n (countEvent 7 n (putCounts k (q.pushed + n) q.popped
            (putEntries k q q.pushed ((es.take n).map (srcBits s d)) s')))) s with adv := streamUse s [d] }
  active := activeOf kn
  reads := activeReads [wa] kn
  masks := [kn]
  once := true

/-- `sqpush`, R314. -/
def execSqpush (c : BitVec 1) (wa : Win) (ga : Reg) (kn : BitVec 3) (s : State) : Res :=
  runWords [memSqpush c wa ga kn] s

/-- `sqpop` as a convoy member, R314; an element past a clamp edge raises EDGE (log 65). -/
def memSqpop (c : BitVec 1) (wd : Win) (ga : Reg) (kn : BitVec 3) : Member where
  word := .sqpop c wd ga kn
  c := c
  role := .member (clLoad ||| clStore)
  check := windowChecks (.sqpop c wd ga kn) (operands wd []) (fun s => [(wd, 0, queueType (tyOf s wd))])
  run := fun act s =>
    let es := elemsOf s (readK s kn) act
    queueStep ga es (fun q => Nat.min es.length q.held) (fun q => q.popped) []
      (fun s' k q n =>
        let vals := (es.take n).zipIdx.map (fun x => (x.1, memNat s' (k + entryOff q (q.popped + x.2)) 4, (0 : Flags)))
        let (h, raised) := writeElems (readW s wd) vals s'.hart
        noteWork 4 n (countEvent 6 n (putCounts k q.pushed (q.popped + n) (mergeFlags raised { s' with hart := h })))) s
  active := activeOf kn
  writes := activeWrites wd kn
  masks := [kn]
  once := true

/-- `sqpop`, R314. -/
def execSqpop (c : BitVec 1) (wd : Win) (ga : Reg) (kn : BitVec 3) (s : State) : Res :=
  runWords [memSqpop c wd ga kn] s

end Sys2Proof.Machine
end

