-- ==== Sys2Proof/Machine/Tensor.lean ====
section
/-!
DEFINITION. The tensor forms of the lanes: packing and unpacking (R301, R302), quantising (R303) and scaling partials
(R304), with the k4 images of R182.
-/
namespace Sys2Proof.Machine

open Sys2Proof

/-! ### k4 codes (R182) -/

/-- R182: the magnitudes of a sign-magnitude type, by index. -/
def k4Mags (t : Nat) : List Nat :=
  match t with
  | 1 => [0, 1, 2, 3, 4, 6, 8, 12]
  | 2 => [0, 1, 2, 4, 8, 16, 32, 64]
  | 3 => [0, 1, 2, 3, 4, 5, 6, 8]
  | _ => [0, 1, 2, 3, 4, 5, 6, 7]

/-- R182: the integer image of a code under the type bits of its scale byte. -/
def k4Image (t code : Nat) : Int :=
  if t = 0 then sextN 4 code
  else
    let m : Int := ((k4Mags t).getD (code % 8) 0 : Nat)
    if code / 8 % 2 = 1 then -m else m

/-- R182: the exponent of a scale byte's factor, halved for E2M1. -/
def scaleExp (b : Nat) : Int := (b % 64 : Nat) - 31 - (if b / 64 % 4 = 1 then 1 else 0)

/-- R182: the scale byte marks a block NaN, or an open group (R303). -/
def scaleOpen (b : Nat) : Bool := b % 64 == 63

/-! ### Members over packed elements -/

/-- R167: a source of some element below VL is not delivered yet. -/
def notDelivered (srcs : Nat → List (Word × Nat)) (s : State) : Bool :=
  (List.range (vl s)).any (fun e => (srcs e).any (fun x =>
    dKind x.1 == 4 && readStream s x.1 (streamPos s x.1) x.2 == .notYet))

/-- A lane form whose element `e` reads the sources `srcs e` and writes the list `f e` of (element, bits, flags). -/
def tensorRun (wd : Win) (k : Mask) (xk : Option (BitVec 3)) (ds : List Word) (srcs : Nat → List (Word × Nat))
    (f : Nat → List (Nat × Nat × Flags)) (act : Mask) (s : State) : MRes :=
  if notDelivered srcs s then { st := s, block := some .wait }
  else
    let d := readW s wd
    eachRun (fun es => groupsOf (tyBits (dType d)) (es.flatMap (fun e => (f e).map (·.1)))) k xk ds srcs
      (fun _ e h => putElems d (f e) h) act s

/-- The cells that element `e` of each of a list reads, at position `e`. -/
def cellsOf (s : State) (srcs : Nat → List (Word × Nat)) (es : List Nat) : List Cell :=
  es.flatMap (fun e => (srcs e).flatMap (fun x => (readCells s.hart x.1 [x.2]).map (fun c => { c with pos := e })))

/-- The cells that element `e` of each of a list writes, at position `e`. -/
def dstCellsOf (s : State) (d : Word) (dst : Nat → List Nat) (es : List Nat) : List Cell :=
  es.flatMap (fun e => (writeCells s.hart d (dst e)).map (fun c => { c with pos := e }))

/-- A lane form of the tensor extension as a convoy member. -/
def tensorMember (i : Instr) (c : BitVec 1) (cl : BitVec 8) (wd : Win) (kn : BitVec 3) (xk : Option (BitVec 3))
    (check : State → Option Trap) (srcs : State → Nat → List (Word × Nat)) (dst : State → Nat → List Nat)
    (run : Mask → State → MRes) : Member where
  word := i
  c := c
  role := .member cl
  check := check
  run := run
  active := activeOf kn
  masks := [kn]
  kOut := xk.getD 0
  commit := .chained
  reads := fun s => cellsOf s (srcs s) (elemsOf s (readK s kn) onesMask)
  writes := fun s => dstCellsOf s (readW s wd) (dst s) (elemsOf s (readK s kn) onesMask)

/-! ### Packing and unpacking -/

/-- R293: the implied scale window of a k4 source. -/
def scaleWin (wa : Win) : Win := wa + 1

/-- R293: the check of the implied scale window for `n` code elements, where the source is k4. -/
def scaleCheck (i : Instr) (s : State) (wa : Win) (n : Nat) : Option Trap :=
  if tyOf s wa = 7 then tensorWindow i s (scaleWin wa) 1 false (fun t => t == 13) ((n + 31) / 32) else none

/-- R182, R301: the image of source element `x`, and whether its block is NaN. -/
def imageAt (s : State) (wa : Win) (x : Nat) : Int × Bool :=
  if tyOf s wa = 7 then
    let b := srcBits s (readW s (scaleWin wa)) (x / 32)
    if scaleOpen b then (0, true) else (k4Image (b / 64) (srcBits s (readW s wa) x), false)
  else (intAt s wa x, false)

/-- The sources of code element `x`: itself, and its scale where it is a k4 code. -/
def imageSrcs (s : State) (wa : Win) (x : Nat) : List (Word × Nat) :=
  (readW s wa, x) :: (if tyOf s wa = 7 then [(readW s (scaleWin wa), x / 32)] else [])

/-- The source windows of a form that reads images: wa, and the implied scale window of k4 codes (R293). -/
def imageWins (s : State) (wa : Win) : List Word :=
  readW s wa :: (if tyOf s wa = 7 then [readW s (scaleWin wa)] else [])

/-- R301: packed word `j`, reversed or not. -/
def packAt (s : State) (wa : Win) (rev : Bool) (j : Nat) : Nat × Flags :=
  let n := laneN s
  let g := laneBits s
  let imgs := (List.range n).map (fun m => imageAt s wa (j * n + (if rev then n - 1 - m else m)))
  let sum := (imgs.zipIdx.map (fun x => x.1.1 * (2 : Int) ^ (g * x.2))).foldl (· + ·) 0
  ((sum % 2 ^ 512).toNat, if imgs.any (·.2) then flGRD else 0)

/-- The sources of packed word `j`. -/
def packSrcs (s : State) (wa : Win) (j : Nat) : List (Word × Nat) :=
  (List.range (laneN s)).flatMap (fun m => imageSrcs s wa (j * laneN s + m))

/-- `vpack` and `vpackr` as a convoy member (R301). -/
def packMember (i : Instr) (rev : Bool) (c : BitVec 1) (wd wa : Win) (kn : BitVec 3) : Member :=
  tensorMember i c clXform wd kn none
    (fun s => orElseTrap (tensorWindow i s wd 0 true isW512 (vl s))
      (orElseTrap (tensorWindow i s wa 1 false (fun t => isInt t || t == 7) (vl s * laneN s))
        (scaleCheck i s wa (vl s * laneN s))))
    (fun s j => packSrcs s wa j) (fun _ j => [j])
    (fun act s => tensorRun wd (readK s kn) none (imageWins s wa) (packSrcs s wa)
      (fun j => [(j, packAt s wa rev j)]) act s)

/-- `vpack` as a convoy member, R301. -/
def memVpack (c : BitVec 1) (wd wa : Win) (kn : BitVec 3) : Member := packMember (.vpack c wd wa kn) false c wd wa kn

/-- `vpack`, R301. -/
def execVpack (c : BitVec 1) (wd wa : Win) (kn : BitVec 3) (s : State) : Res := runWords [memVpack c wd wa kn] s

/-- `vpackr` as a convoy member, R301. -/
def memVpackr (c : BitVec 1) (wd wa : Win) (kn : BitVec 3) : Member := packMember (.vpackr c wd wa kn) true c wd wa kn

/-- `vpackr`, R301. -/
def execVpackr (c : BitVec 1) (wd wa : Win) (kn : BitVec 3) (s : State) : Res := runWords [memVpackr c wd wa kn] s

/-- R302: element `x` of a k4 source, fitted to the destination. -/
def unpackCode (s : State) (wd wa : Win) (x : Nat) : Nat × Flags :=
  let t := tyOf s wd
  let b := srcBits s (readW s (scaleWin wa)) (x / 32)
  let (i, bad) := imageAt s wa x
  if bad then ((if isInt t then 0 else (fmtOf t).nan), flGRD)
  else
    let v : Num := match ofIntN i with
      | .fin n m e st => if isInt t then .fin n m e st else .fin n m (e + scaleExp b) st
      | z => z
    fitTo t (laneMode s (readW s wd) x) v

/-- R302: the elements that source element `e` gives. -/
def unpackAt (s : State) (wd wa : Win) (e : Nat) : List (Nat × Nat × Flags) :=
  if tyOf s wa = 7 then [(e, unpackCode s wd wa e)]
  else
    let n := laneN s
    let p := srcBits s (readW s wa) e
    (List.range n).map (fun m =>
      (e * n + m, fitTo (tyOf s wd) (laneMode s (readW s wd) (e * n + m)) (ofIntN (digit (laneBits s) m p))))

/-- The sources of element `e` of `vunpk`. -/
def unpackSrcs (s : State) (wa : Win) (e : Nat) : List (Word × Nat) := imageSrcs s wa e

/-- The destination elements of element `e` of `vunpk`. -/
def unpackDsts (s : State) (wa : Win) (e : Nat) : List Nat :=
  if tyOf s wa = 7 then [e] else (List.range (laneN s)).map (fun m => e * laneN s + m)

/-- `vunpk` as a convoy member, R302. -/
def memVunpk (c : BitVec 1) (wd wa : Win) (kn : BitVec 3) : Member :=
  let i : Instr := .vunpk c wd wa kn
  tensorMember i c clXform wd kn none
    (fun s =>
      let wide := tyOf s wa == 14
      orElseTrap (tensorWindow i s wd 0 true (fun t => isInt t || (isFloat t && !wide))
          (if wide then vl s * laneN s else vl s))
        (orElseTrap (tensorWindow i s wa 1 false (fun t => t == 7 || t == 14) (vl s)) (scaleCheck i s wa (vl s))))
    (fun s e => unpackSrcs s wa e) (fun s e => unpackDsts s wa e)
    (fun act s => tensorRun wd (readK s kn) none (imageWins s wa) (unpackSrcs s wa) (unpackAt s wd wa) act s)

/-- `vunpk`, R302. -/
def execVunpk (c : BitVec 1) (wd wa : Win) (kn : BitVec 3) (s : State) : Res := runWords [memVunpk c wd wa kn] s

/-! ### Quantising (R303) -/

/-- R303: exponent of f(x) for a type. -/
def quantExp (t x : Nat) : Int := (x : Int) - 31 - (if t = 1 then 1 else 0)

/-- R303: the largest image of a type. -/
def quantLargest (t : Nat) : Nat := (k4Mags t).getD 7 0

/-- R303: the spacing of the grid beyond the largest image. -/
def quantStep (t : Nat) : Nat :=
  match t with
  | 0 => 1
  | 1 => 4
  | 2 => 32
  | _ => 2

/-- R303: the magnitude of a grid index. -/
def gridMag (t i : Nat) : Nat := if i ≤ 7 then (k4Mags t).getD i 0 else quantLargest t + (i - 7) * quantStep t

/-- R303: the least exponent under which a magnitude fits, 62 if none does. -/
def fitScale (t : Nat) (a : Num) : Nat :=
  ((List.range 63).find? (fun x => !ltN (.fin false (quantLargest t) (quantExp t x) false) a)).getD 62

/-- The magnitude of a number. -/
def magN : Num → Num
  | .fin _ m e st => .fin false m e st
  | .inf _ => .inf false
  | z => z

/-- R303: the rounded grid index of `n / d`, and whether it is inexact. Values from the second point beyond the largest on
answer that point. -/
def gridRound (t : Nat) (m : Mode) (neg : Bool) (n d : Nat) : Nat × Bool :=
  if d * gridMag t 9 ≤ n then (9, true)
  else
    let lo := ((List.range 9).filter (fun i => d * gridMag t (i + 1) ≤ n)).length
    let l := gridMag t lo
    let h := gridMag t (lo + 1)
    if n = d * l then (lo, false)
    else
      let up := match m.rm with
        | 0 => decide (d * (l + h) < 2 * n) || (2 * n == d * (l + h) && lo % 2 == 1)
        | 1 => false
        | 2 => neg
        | 3 => !neg
        | 4 => decide (d * (l + h) ≤ 2 * n)
        | _ => decide (2 ^ 16 ≤ (n - d * l) * 2 ^ 16 / (d * (h - l)) + dither m.k)
      (if up then lo + 1 else lo, true)

/-- R303: the code of a value under a scale, with its flags. -/
def quantCode (t x : Nat) (m : Mode) (v : Num) : Nat × Flags :=
  let limit (neg : Bool) : Nat := if t = 0 then (if neg then 8 else 7) else (if neg then 15 else 7)
  match v with
  | .nan _ => (0, flNV)
  | .inf neg => (limit neg, flSAT ||| flNX)
  | .fin neg mag exp _ =>
    let e := exp - quantExp t x
    let (i, inexact) := gridRound t m neg (mag * 2 ^ e.toNat) (2 ^ (-e).toNat)
    if (if t = 0 && neg then 8 else 7) < i then (limit neg, flSAT ||| flNX)
    else
      let code := if t = 0 then (if neg then (16 - i) % 16 else i) else (if neg && i != 0 then 8 + i else i)
      (code, if inexact then flNX else 0)

/-- R303: the exact value of a source element; ftz does not apply. -/
def quantVal (s : State) (wa : Win) (e : Nat) : Num := numVal (tyOf s wa) false (srcBits s (readW s wa) e)

/-- R303: the scale byte of block `m` after the issue whose active elements are given. -/
def quantScale (s : State) (wa wb : Win) (active : List Nat) (m : Nat) : Nat :=
  let b := srcBits s (readW s wb) m
  if scaleOpen b then
    let a := ((active.filter (fun e => e / 32 == m)).map (fun e => magN (quantVal s wa e))).foldl
      (fun x y => if y.isNan then x else if ltN x y then y else x) (.fin false 0 0 false)
    b / 64 * 64 + fitScale (b / 64) a
  else b

/-- The sources of element `e` of `vqnt`: its value and its scale, and while its block is open the values of the block's
other elements among `active`. -/
def quantSrcs (s : State) (wa wb : Win) (active : List Nat) (e : Nat) : List (Word × Nat) :=
  (readW s wa, e) :: (readW s wb, e / 32) ::
    (if scaleOpen (srcBits s (readW s wb) (e / 32)) then
      (active.filter (fun x => x / 32 == e / 32 && x != e)).map (fun x => (readW s wa, x))
    else [])

/-- The elements of a list that come first in their blocks. -/
def blockFirsts (es : List Nat) : List Nat := es.filter (fun e => !es.any (fun x => decide (x < e) && x / 32 == e / 32))

/-- R303: element `e` of `vqnt`; the first one performed of an open block writes its scale (log 64). -/
def quantPut (s : State) (wd wa wb : Win) (active es : List Nat) (e : Nat) (h : Strand) : Strand × Flags :=
  let b := quantScale s wa wb active (e / 32)
  let (v, f) := quantCode (b / 64) (b % 64) (laneMode s (readW s wd) e) (quantVal s wa e)
  let (h, f) := putElems (readW s wd) [(e, v, f)] h
  if scaleOpen (srcBits s (readW s wb) (e / 32)) && (blockFirsts es).contains e then
    let (h, g) := putElems (readW s wb) [(e / 32, b, 0)] h
    (h, f ||| g)
  else (h, f)

/-- `vqnt` over the given elements. -/
def quantRun (wd wa wb : Win) (kn : BitVec 3) (xk : Option (BitVec 3)) (act : Mask) (s : State) : MRes :=
  let k := readK s kn
  let active := elemsOf s k (actOf s)
  let srcs := quantSrcs s wa wb active
  if notDelivered srcs s then { st := s, block := some .wait }
  else eachRun (groupsOf (tyBits (tyOf s wd))) k xk [readW s wa] srcs (quantPut s wd wa wb active) act s

/-- The cells that `vqnt` reads: an element's own, and the scale of a block with the block's first element. -/
def quantReads (wa wb : Win) (kn : BitVec 3) (s : State) : List Cell :=
  let active := elemsOf s (readK s kn) (actOf s)
  cellsOf s (fun e => (quantSrcs s wa wb active e).filter (fun x => x.1 == readW s wa)) active ++
  cellsOf s (fun e => [(readW s wb, e / 32)]) (blockFirsts active)

/-- The cells that `vqnt` writes. -/
def quantWrites (wd wb : Win) (kn : BitVec 3) (s : State) : List Cell :=
  let active := elemsOf s (readK s kn) (actOf s)
  dstCellsOf s (readW s wd) (fun e => [e]) active ++ dstCellsOf s (readW s wb) (fun e => [e / 32]) (blockFirsts active)

/-- `vqnt` as a convoy member, R303. -/
def memVqnt (c x : BitVec 1) (wd wa wb : Win) (kn ke : BitVec 3) : Member :=
  let i : Instr := .vqnt c x wd wa wb kn ke
  let m := tensorMember i c clXform wd kn (xMask x ke)
    (fun s => orElseTrap (tensorWindow i s wd 0 true (fun t => t == 7) (vl s))
      (orElseTrap (tensorWindow i s wa 1 false (fun t => isInt t || isFloat t) (vl s))
        (tensorWindow i s wb 2 true (fun t => t == 13) ((vl s + 31) / 32))))
    (fun _ _ => []) (fun _ e => [e])
    (quantRun wd wa wb kn (xMask x ke))
  { m with reads := quantReads wa wb kn, writes := quantWrites wd wb kn }

/-- `vqnt`, R303. -/
def execVqnt (c x : BitVec 1) (wd wa wb : Win) (kn ke : BitVec 3) (s : State) : Res :=
  runWords [memVqnt c x wd wa wb kn ke] s

/-! ### Scaling partials (R304) -/

/-- R304: the factor of a scale element, with GRD for an sc8 NaN. -/
def factorAt (s : State) (wb : Win) (x : Nat) : Num × Flags :=
  let v := srcBits s (readW s wb) x
  if tyOf s wb = 13 then
    if scaleOpen v then (.nan false, flGRD) else (.fin false 1 (scaleExp v) false, 0)
  else (numVal (tyOf s wb) (vcfgFtz s) v, 0)

/-- R304: element `e` of `vscalc`: one rounding. A 0 × ∞ raises NV where it comes before a NaN in the order of the factors
(log 38). -/
def scaleAt (s : State) (wd wa wb : Win) (e : Nat) : Nat × Flags :=
  let (a, fa) := factorAt s wb (2 * e)
  let (b, fb) := factorAt s wb (2 * e + 1)
  let l := readF f32 (vcfgFtz s) (s.hart.ctrl.vloss.toNat % 2 ^ 32)
  let (p, f1) := mulN (valAt s wa e) a
  let (p, f2) := mulN p b
  let (p, f3) := mulN p l
  let (r, f4) := addN (vcfgRm s) (valAt s wd e) p
  fitAt s wd e (r, fa ||| fb ||| f1 ||| f2 ||| f3 ||| f4)

/-- The sources of element `e` of `vscalc`. -/
def scaleSrcs (s : State) (wd wa wb : Win) (e : Nat) : List (Word × Nat) :=
  [(readW s wd, e), (readW s wa, e), (readW s wb, 2 * e), (readW s wb, 2 * e + 1)]

/-- `vscalc` as a convoy member, R304. -/
def memVscalc (c x : BitVec 1) (wd wa wb : Win) (kn ke : BitVec 3) : Member :=
  let i : Instr := .vscalc c x wd wa wb kn ke
  tensorMember i c clMul wd kn (xMask x ke)
    (fun s => orElseTrap (tensorWindow i s wd 0 true (fun t => t == 12) (vl s))
      (orElseTrap (tensorWindow i s wa 1 false isInt (vl s))
        (tensorWindow i s wb 2 false (fun t => t == 13 || t == 12) (2 * vl s))))
    (fun s e => scaleSrcs s wd wa wb e) (fun _ e => [e])
    (fun act s => tensorRun wd (readK s kn) (xMask x ke) [readW s wa, readW s wb] (scaleSrcs s wd wa wb)
      (fun e => [(e, scaleAt s wd wa wb e)]) act s)

/-- `vscalc`, R304. -/
def execVscalc (c x : BitVec 1) (wd wa wb : Win) (kn ke : BitVec 3) (s : State) : Res :=
  runWords [memVscalc c x wd wa wb kn ke] s

end Sys2Proof.Machine
end

