-- ==== Sys2Proof/Machine/Members.lean ====
section
/-!
DEFINITION. The convoy member that each extension word is (R31, R32): none for scalar and system words and for events.
-/
namespace Sys2Proof.Machine

open Sys2Proof

/-- The member of an extension word. -/
def memberOf (i : Instr) : Option Member :=
  match i with
  | .add _ _ _ => none
  | .sub _ _ _ => none
  | .and _ _ _ => none
  | .or _ _ _ => none
  | .xor _ _ _ => none
  | .andn _ _ _ => none
  | .sll _ _ _ => none
  | .srl _ _ _ => none
  | .sra _ _ _ => none
  | .rol _ _ _ => none
  | .slt _ _ _ => none
  | .sltn _ _ _ => none
  | .min _ _ _ => none
  | .max _ _ _ => none
  | .minn _ _ _ => none
  | .maxn _ _ _ => none
  | .addw _ _ _ => none
  | .subw _ _ _ => none
  | .mul _ _ _ => none
  | .mulh _ _ _ => none
  | .mulhn _ _ _ => none
  | .div _ _ _ => none
  | .divn _ _ _ => none
  | .rem _ _ _ => none
  | .remn _ _ _ => none
  | .clz _ _ => none
  | .ctz _ _ => none
  | .popc _ _ => none
  | .sextb _ _ => none
  | .sexth _ _ => none
  | .sextw _ _ => none
  | .zextb _ _ => none
  | .zexth _ _ => none
  | .zextw _ _ => none
  | .bswap _ _ => none
  | .addi _ _ _ => none
  | .andi _ _ _ => none
  | .ori _ _ _ => none
  | .xori _ _ _ => none
  | .slti _ _ _ => none
  | .sltni _ _ _ => none
  | .slli _ _ _ => none
  | .srli _ _ _ => none
  | .srai _ _ _ => none
  | .roli _ _ _ => none
  | .lih _ _ => none
  | .pcadd _ _ => none
  | .ldB _ _ _ => none
  | .ldBn _ _ _ => none
  | .ldH _ _ _ => none
  | .ldHn _ _ _ => none
  | .ldW _ _ _ => none
  | .ldWn _ _ _ => none
  | .ldD _ _ _ => none
  | .stB _ _ _ => none
  | .stH _ _ _ => none
  | .stW _ _ _ => none
  | .stD _ _ _ => none
  | .lda _ _ _ _ _ => none
  | .stl _ _ _ _ _ => none
  | .amo _ _ _ _ _ _ _ => none
  | .brEq _ _ _ => none
  | .brNe _ _ _ => none
  | .brLt _ _ _ => none
  | .brGe _ _ _ => none
  | .brLtn _ _ _ => none
  | .brGen _ _ _ => none
  | .jal _ _ => none
  | .jalr _ _ _ => none
  | .fadd _ _ _ => none
  | .fsub _ _ _ => none
  | .fmul _ _ _ => none
  | .fdiv _ _ _ => none
  | .fsqrt _ _ => none
  | .fmin _ _ _ => none
  | .fmax _ _ _ => none
  | .fsgnj _ _ _ => none
  | .fsgnjn _ _ _ => none
  | .fsgnjx _ _ _ => none
  | .fmadd _ _ _ _ => none
  | .fmsub _ _ _ _ => none
  | .fnmadd _ _ _ _ => none
  | .fnmsub _ _ _ _ => none
  | .fcvtF32I32 _ _ => none
  | .fcvtF32N32 _ _ => none
  | .fcvtF32I64 _ _ => none
  | .fcvtF32N64 _ _ => none
  | .fcvtI32F32 _ _ => none
  | .fcvtN32F32 _ _ => none
  | .fcvtI64F32 _ _ => none
  | .fcvtN64F32 _ _ => none
  | .fcvtBf16F32 _ _ => none
  | .fcvtF32Bf16 _ _ => none
  | .feq _ _ _ => none
  | .flt _ _ _ => none
  | .fle _ _ _ => none
  | .fclass _ _ => none
  | .crr _ _ => none
  | .crw _ _ _ => none
  | .movk _ _ _ _ => none
  | .kmov _ _ _ _ => none
  | .strip _ _ => none
  | .wdef c w ga => some (memWdef c w ga)
  | .wget c w gd => some (memWget c w gd)
  | .wcopy c w wsrc => some (memWcopy c w wsrc)
  | .worg c w ga gb => some (memWorg c w ga gb)
  | .wtype c w ty => some (memWtype c w ty)
  | .vcfg c ga gb fields => some (memVcfg c ga gb fields)
  | .vadd c x wd wa wb kn ke => some (memVadd c x wd wa wb kn ke)
  | .vsub c x wd wa wb kn ke => some (memVsub c x wd wa wb kn ke)
  | .vmin c x wd wa wb kn ke => some (memVmin c x wd wa wb kn ke)
  | .vmax c x wd wa wb kn ke => some (memVmax c x wd wa wb kn ke)
  | .vand c wd wa wb kn => some (memVand c wd wa wb kn)
  | .vor c wd wa wb kn => some (memVor c wd wa wb kn)
  | .vxor c wd wa wb kn => some (memVxor c wd wa wb kn)
  | .vandn c wd wa wb kn => some (memVandn c wd wa wb kn)
  | .vshl c wd wa wb kn => some (memVshl c wd wa wb kn)
  | .vshr c wd wa wb kn => some (memVshr c wd wa wb kn)
  | .vsra c wd wa wb kn => some (memVsra c wd wa wb kn)
  | .vrol c wd wa wb kn => some (memVrol c wd wa wb kn)
  | .vmul c x wd wa wb kn ke => some (memVmul c x wd wa wb kn ke)
  | .vmulh c x wd wa wb kn ke => some (memVmulh c x wd wa wb kn ke)
  | .vfma c x wd wa wb kn ke => some (memVfma c x wd wa wb kn ke)
  | .vfms c x wd wa wb kn ke => some (memVfms c x wd wa wb kn ke)
  | .vdiv c x wd wa wb kn ke => some (memVdiv c x wd wa wb kn ke)
  | .vsqrt c x wd wa kn ke => some (memVsqrt c x wd wa kn ke)
  | .vrcp c x wd wa kn ke => some (memVrcp c x wd wa kn ke)
  | .vrsq c x wd wa kn ke => some (memVrsq c x wd wa kn ke)
  | .vexp2 c x wd wa kn ke => some (memVexp2 c x wd wa kn ke)
  | .vlog2 c x wd wa kn ke => some (memVlog2 c x wd wa kn ke)
  | .vabs c x wd wa kn ke => some (memVabs c x wd wa kn ke)
  | .vneg c x wd wa kn ke => some (memVneg c x wd wa kn ke)
  | .vceq c kd wa wb kn => some (memVceq c kd wa wb kn)
  | .vcne c kd wa wb kn => some (memVcne c kd wa wb kn)
  | .vclt c kd wa wb kn => some (memVclt c kd wa wb kn)
  | .vcle c kd wa wb kn => some (memVcle c kd wa wb kn)
  | .vsel c wd wa wb kn => some (memVsel c wd wa wb kn)
  | .vmov c wd wa kn => some (memVmov c wd wa kn)
  | .vmerge c wd wa kn ke => some (memVmerge c wd wa kn ke)
  | .viota c wd kn => some (memViota c wd kn)
  | .vadds c x wd wa ga kn ke => some (memVadds c x wd wa ga kn ke)
  | .vmuls c x wd wa ga kn ke => some (memVmuls c x wd wa ga kn ke)
  | .vbcast c wd ga kn => some (memVbcast c wd ga kn)
  | .vextr c gd wa ga => some (memVextr c gd wa ga)
  | .vredsum c wd wa kn => some (memVredsum c wd wa kn)
  | .vredmax c wd wa kn => some (memVredmax c wd wa kn)
  | .vredmin c wd wa kn => some (memVredmin c wd wa kn)
  | .vscan c wd wa kn => some (memVscan c wd wa kn)
  | .vcvt c x wd wa kn ke => some (memVcvt c x wd wa kn ke)
  | .vperm c wd wa wb kn => some (memVperm c wd wa wb kn)
  | .vslide c wd wa ga kn => some (memVslide c wd wa ga kn)
  | .vcompress c wd wa kn => some (memVcompress c wd wa kn)
  | .kfun c kd ka kb tt => some (memKfun c kd ka kb tt)
  | .kpop c gd ka => some (memKpop c gd ka)
  | .kfirst c gd ka => some (memKfirst c gd ka)
  | .kset c kd ga => some (memKset c kd ga)
  | .kclr c kd ga => some (memKclr c kd ga)
  | .kbit c gd ka ga => some (memKbit c gd ka ga)
  | .vld c x wd ga kn ke => some (memVld c x wd ga kn ke)
  | .vlds c x wd ga kn ke => some (memVlds c x wd ga kn ke)
  | .vldff c x wd ga kn ke => some (memVldff c x wd ga kn ke)
  | .vldb c x wd ga kn ke => some (memVldb c x wd ga kn ke)
  | .vst c ws ga kn => some (memVst c ws ga kn)
  | .vsts c ws ga kn => some (memVsts c ws ga kn)
  | .vstduo c ws ga kn => some (memVstduo c ws ga kn)
  | .vldx c x wd wi ga kn ke => some (memVldx c x wd wi ga kn ke)
  | .vstx c ws wi ga kn => some (memVstx c ws wi ga kn)
  | .vamo c wd wa ga kn op order => some (memVamo c wd wa ga kn op order)
  | .vamoX c wd wa ga kn op order => some (memVamoX c wd wa ga kn op order)
  | .tagset c wa ga kn => some (memTagset c wa ga kn)
  | .satt c ga => some (memSatt c ga)
  | .sdet c => some (memSdet c)
  | .sguard c gw => some (memSguard c gw)
  | .szero c slot => some (memSzero c slot)
  | .sstat c ga => some (memSstat c ga)
  | .sldb c w ga => some (memSldb c w ga)
  | .smul c w ga slot ca cb mode => some (memSmul c w ga slot ca cb mode)
  | .smula c w ga slot ca cb mode => some (memSmula c w ga slot ca cb mode)
  | .sxtr c w ga slot => some (memSxtr c w ga slot)
  | .sxtw c w ga slot => some (memSxtw c w ga slot)
  | .sfin c w ga => some (memSfin c w ga)
  | .vpack c wd wa kn => some (memVpack c wd wa kn)
  | .vpackr c wd wa kn => some (memVpackr c wd wa kn)
  | .vunpk c wd wa kn => some (memVunpk c wd wa kn)
  | .vqnt c x wd wa wb kn ke => some (memVqnt c x wd wa wb kn ke)
  | .vscalc c x wd wa wb kn ke => some (memVscalc c x wd wa wb kn ke)
  | .drift c ch ga gb gc => some (memDrift c ch ga gb gc)
  | .drift2 c ch ga gb gc => some (memDrift2 c ch ga gb gc)
  | .driftx c ch ga gb gc => some (memDriftx c ch ga gb gc)
  | .driftm c ch ga gb gc => some (memDriftm c ch ga gb gc)
  | .dwp c ch gd acq => some (memDwp c ch gd acq)
  | .dlen c ch gd => some (memDlen c ch gd)
  | .dstop c ch => some (memDstop c ch)
  | .dbell c ch ga gb => some (memDbell c ch ga gb)
  | .msgput c wa ga => some (memMsgput c wa ga)
  | .msgget c wd ga => some (memMsgget c wd ga)
  | .nred c wd wa ga => some (memNred c wd wa ga)
  | .sax c gs wa ga kn => some (memSax c gs wa ga kn)
  | .sred c wa ga kn op => some (memSred c wa ga kn op)
  | .sqpush c wa ga kn => some (memSqpush c wa ga kn)
  | .sqpop c wd ga kn => some (memSqpop c wd ga kn)
  | .seqopen c gd gb gc => some (memSeqopen c gd gb gc)
  | .claim c gd gb => some (memClaim c gd gb)
  | .claimn c gd gb gc => some (memClaimn c gd gb gc)
  | .seqfork c gd gb gc => some (memSeqfork c gd gb gc)
  | .seqtrim c gd gb gc => some (memSeqtrim c gd gb gc)
  | .seqclose c gd gb => some (memSeqclose c gd gb)
  | .arrive c bell gc scope => some (memArrive c bell gc scope)
  | .wait c bell gc scope ph => some (memWait c bell gc scope ph)
  | .arrwait c bell gc scope ph => some (memArrwait c bell gc scope ph)
  | .bellset c bell ga => some (memBellset c bell ga)
  | .belltst c bell gd => some (memBelltst c bell gd)
  | .bellrst c bell => some (memBellrst c bell)
  | .fence c scope => some (memFence c scope)
  | .drain c queues => some (memDrain c queues)
  | .trap _ => none
  | .brk => none
  | .trapret => none
  | .retire => none
  | .yield => none
  | .launch _ _ => none
  | .cancel _ => none
  | .cwait _ _ => none
  | .cread _ _ => none
  | .frqpop _ => none
  | .pgmap _ _ => none
  | .pgunmap _ => none
  | .resume _ => none
  | .kill _ => none
  | .pgreq _ => none
  | .tlbinv _ => none
  | .shmap _ _ => none
  | .icinv _ _ => none
  | .dcinv => none
  | .dcwb _ _ => none
  | .convoyBegin => none
  | .issueAging _ _ => none
  | .memoryElementPerform _ _ _ _ => none
  | .homeReturn _ => none
  | .trapEntry _ _ _ _ _ _ => none
  | .waitRelease _ _ => none
  | .cwaitRelease _ _ => none
  | .drainComplete _ _ => none
  | .seamRowPerform _ _ _ _ => none
  | .seamStartAdmit _ => none
  | .adapterFill _ => none
  | .driftBegin _ _ _ => none
  | .driftDeliver _ _ _ => none
  | .driftEnd _ _ _ => none
  | .faultRecordEnqueue _ => none
  | .copyOnWrite _ => none
  | .sampleRecord => none
  | .jobPortWrite _ _ _ => none
  | .jobStart _ => none
  | .launchPlace _ _ _ => none
  | .replacementStrandPlace _ _ _ _ => none
  | .nodeStatusWrite _ => none
  | .statusRecordWrite _ => none
  | .pipelineSample => none
  | .parkedStrandResume _ _ _ => none
  | .preempt _ _ => none
  | .preemptReturn _ _ _ => none
  | .pswapSwapOut _ => none
  | .pswapSwapIn _ => none
  | .swapOutComplete _ => none
  | .crosscutSeverance => none
  | .pageRequestSuccess _ _ => none
  | .pageRequestInvalid _ _ => none
  | .pageRequestResponseFailure _ => none
  | .priResetEnable _ => none
  | .messageApply _ => none
  | .messageAck _ _ => none
  | .nredResult _ _ _ _ => none
  | .hostBarRead _ _ _ _ => none
  | .hostBarWrite _ _ _ => none
  | .claimPoolWrite _ _ _ => none
  | .firmwareGo => none
  | .firmwareVerifyDone => none
  | .didtWrite _ _ => none
  | .telemetryEnable _ => none
  | .telemetrySample _ => none
  | .registerWrite _ _ => none
  | .thermalThrottle _ _ => none
  | .thermalTrip => none
  | .deviceReset => none
  | .functionLevelReset _ => none
  | .ideIntegrityFail _ _ => none
  | .spdmRequest _ => none
  | .softError _ _ _ _ _ => none
  | .crosscutRestore => none

end Sys2Proof.Machine
end

