-- ==== Sys2Proof/Machine/Fetch.lean ====
section
/-!
DEFINITION. The fetching of instruction words (R64, R247) and what the issue of a word does beside its effect: the reset of
a stale stop state (R150), event counts (R405) and sample records (R402).
-/
namespace Sys2Proof.Machine

open Sys2Proof

/-- The fetch of the word at a pc: aligned, executable, not watched, entering no filter. -/
def fetchReq (pc : BitVec 48) : Req := { kind := .fetch, ptr := pc.setWidth 64, len := 4, align := 4, plain := false }

/-- The word at a home, or the one that the core's instruction cache holds where the fetch answers from it (R381). -/
def fetchedWord (s : State) (pc k : Nat) : Nat :=
  match (if s.fetchHits.head?.getD false then smGet none s.icache (fetchKey s.hart.core s.hart.part pc) else none) with
  | some w => w.toNat
  | none => memNat s k 4

/-- The word at a pc, or what stops its fetch. -/
def fetchWord (s : State) (pc : BitVec 48) : Except Check Nat :=
  match check s (fetchReq pc) with
  | .home k _ _ => .ok (fetchedWord s pc.toNat k)
  | c => .error c

/-- R35, R247: a fetch that stops leaves the strand's stop state as it is; the word joins no convoy. -/
def stopFetch (c : Check) (s : State) : State :=
  match c with
  | .trap t => trapAlone t s.hart.pc s
  | .miss m =>
    suspend [m] s.hart.pc (startOf s) (seamDone s) (kdOf s) { s with hart := { s.hart with convoy := .none } }
  | .home .. => s

/-- A word of an extension major (R65). -/
def extensionWord (w : Nat) : Bool := decide (0x30 ≤ bitsAt w 25 7) && decide (bitsAt w 25 7 < 0x60)

/-- R150: the first word after a return, a suspension or a pre-emption; a scalar or system word clears the stop state, and
with it what else stands of the stopped convoy; in a handler it leaves the stop state (R153). -/
def resumePoint (ext : Bool) (s : State) : State :=
  if s.hart.resuming then
    let s := { s with hart := { s.hart with resuming := false } }
    if ext then s
    else if trapActive s then { s with hart := dropStand s.hart.pc s.hart }
    else { s with hart := { s.hart with
             ctrl := { s.hart.ctrl with stidx := 0 }, kd := 0, stands := [] } }
  else s

/-- R77: a word that is no instruction traps ILLEGAL; one of an extension major joins no convoy and keeps the stop state,
as in R35. It counts as a word that issued (R402). -/
def illegalWord (w : Nat) (s : State) : State :=
  let t : Trap := { cause := 1, addr := BitVec.ofNat 48 w }
  if extensionWord w then
    let pos := match s.hart.convoy, bitsAt w 24 1 with | .open _ _ pos _, 1 => pos | _, _ => 0
    let s := countWord s.hart.pc w pos (vl s) true (resumePoint true s)
    trapAlone t s.hart.pc s
  else trapAt t (countWord s.hart.pc w 0 (vl s) false (resumePoint false s))

/-- R253: the fail mark of a suspension ends once the word or convoy at its pc has completed: the strand is past it, or a
scalar word is done that branches to itself. -/
def endFailMark (before : Strand) (scalar : Bool) (s : State) : State :=
  if s.hart.failPages.isEmpty || s.hart.run == .suspended || (s.hart.pc == before.pc && !scalar) then s
  else { s with hart := { s.hart with failPages := [] } }

end Sys2Proof.Machine
end

