-- ==== Sys2Proof/Machine/Events.lean ====
section
/-!
DEFINITION. The steps of the table that have no word and that a core, its queues, the seam or a claim engine makes. An event
whose condition does not hold changes nothing.
-/
namespace Sys2Proof.Machine

open Sys2Proof

/-- The strand is out: pre-empted, swapped or parked. -/
def isOut (h : Strand) : Bool := h.preempted || h.swapped || h.parked

/-- CONVOY_BEGIN: a convoy begins at the strand's word (R33). -/
def execConvoyBegin (s : State) : Res := .next (beginConvoy s.hart.pc s)

/-- R368: a ready strand has not issued for 64 cycles. -/
def hasAged (s : State) (h : Strand) : Bool :=
  h.run == .ready && !isOut h && decide (64 ≤ cycleAt s.tick - cycleAt h.stamp)

/-- ISSUE_AGING: a ready strand not issued for 64 cycles is chosen as if class 0 until it issues (R368). -/
def execIssueAging (core slot : Nat) (s : State) : Res :=
  .next (mapStrands (fun h => if inSlot core slot h && hasAged s h then { h with aged := true } else h) s)

/-- R223: the stop of one element performed by itself. -/
def stopElem (e : Nat) (t : Option Trap) (ms : List Miss) (s : State) : State :=
  let kd := s.hart.kd &&& ~~~(below (e + 1))
  match t with
  | some t => takeTrap t s.hart.pc e false kd s
  | none => suspend ms s.hart.pc e false kd s

/-- MEMORY_ELEMENT_PERFORM: one element of a load into, or of a store from, a window is checked and performed at its home
(R223). -/
def execMemoryElementPerform (store : Bool) (w : Win) (e : Nat) (addr : Word) (s : State) : Res :=
  let d := readW s w
  if malformed d (!store) || !anyData (dType d) then .next s
  else
    let r := if store then storeElem (dType d) addr e (srcBits s d e) (dataError s d e) s
             else loadElem d none addr e s
    match r with
    | .done s' f => .next (countEvent (if store then 7 else 6) 1 (mergeFlags [(e, f)] s'))
    | .deferred s' f => .next (mergeFlags [(e, f)] s')
    | .stop t ms => .next (stopElem e t ms s)

/-- TRAP_ENTRY: a found trap condition writes the trap state and enters the handler, or ends the launch (R142). -/
def execTrapEntry (cause : BitVec 8) (aux : BitVec 16) (key : BitVec 4) (addr : BitVec 48) (ev : Bool)
    (elem : BitVec 11) (s : State) : Res :=
  .next (trapAt { cause := cause, aux := aux, key := key, addr := addr, ev := ev, elem := elem } s)

/-- R134: a blocked wait that a flip has released, or whose bell's phase differs from P. -/
def waitOver (s : State) (h : Strand) : Bool :=
  match h.run with
  | .waiting core n p flipped _ =>
    !isOut h && (flipped || (bellAt s (bellOwner h).1 (bellOwner h).2 core n).phase != p)
  | _ => false

/-- The strand in focus runs on. -/
def makeReady (s : State) : State := { s with hart := { s.hart with run := .ready } }

/-- WAIT_RELEASE: a released wait acquires and completes (R134). -/
def execWaitRelease (core slot : Nat) (s : State) : Res :=
  match focusOn (fun h => inSlot core slot h && waitOver s h) s with
  | some s =>
    match s.hart.run with
    | .waiting _ _ _ _ scope => .next (makeReady (acquire scope s))
    | _ => .next s
  | none => .next s

/-- R379: a blocked `cwait` returns: its node has ended, reached the count, or is no node any more. -/
def cwaitOver (s : State) (h : Strand) : Bool :=
  match h.run with
  | .cwaiting w count =>
    !isOut h && (match nodeOf s h.part w with
                 | some n => cwaitDone s n (BitVec.ofNat 64 count)
                 | none => true)
  | _ => false

/-- CWAIT_RELEASE: a blocked `cwait` completes, an acquire at device scope (R379). -/
def execCwaitRelease (core slot : Nat) (s : State) : Res :=
  match focusOn (fun h => inSlot core slot h && cwaitOver s h) s with
  | some s => .next (makeReady (acquire 3 s))
  | none => .next s

/-- R141, R159: a strand drains, and the queues it waits for are empty. -/
def drainOver (s : State) (h : Strand) : Bool :=
  match h.run with
  | .draining q => !isOut h && !undrained s h q
  | .retiring => !isOut h && !undrained s h allQueues
  | _ => false

/-- DRAIN_COMPLETE: a drain completes, and a `retire` that has drained ends its strand (R141, R159). -/
def execDrainComplete (core slot : Nat) (s : State) : Res :=
  match focusOn (fun h => inSlot core slot h && drainOver s h) s with
  | some s =>
    match s.hart.run with
    | .draining q => .next (makeReady (drained q s))
    | .retiring => .next (finishRetire s)
    | _ => .next s
  | none => .next s

/-- SEAM_ROW_PERFORM: the seam multiplies into one held row of the strand (R275, R282). -/
def execSeamRowPerform (slot mode : BitVec 1) (row : Nat) (a : BitVec 512) (s : State) : Res :=
  if row < s.hart.seam.grant then
    .next (countEvent 8 1 (setSeamRow row (accumulate slot mode a (seamRow s row)) s))
  else .next s

/-- Cycles since a step. -/
def cyclesSince (s : State) (since : Nat) : Nat := cycleAt s.tick - cycleAt since

/-- R373, R412: a start leaves the governor of a die that has held it for `n` cycles. -/
def releaseStart (die n : Nat) (q : List (Nat × Nat × Nat)) (s : State) : State :=
  setDie s die { dieAt s die with govQ := q, delay := (dieAt s die).delay + n }

/-- SEAM_START_ADMIT: the governor of a die admits the oldest start it holds (R373); the cycles that it held it
count as event 15, and towards the die's telemetry (R412). -/
def execSeamStartAdmit (die : Nat) (s : State) : Res :=
  match (dieAt s die).govQ with
  | [] => .next s
  | (core, slot, since) :: rest =>
    let n := cyclesSince s since
    .next (mapStrands (fun h =>
        if inSlot core slot h && h.run == .held && !isOut h then
          countIn 15 n { h with run := .ready, admitted := true }
        else h) (releaseStart die n rest s))

/-- ADAPTER_FILL: the next fill of the `n`-th pending contribution arrives (R288). -/
def execAdapterFill (n : Nat) (s : State) : Res := .next (fillNth n s)

/-- FAULT_RECORD_ENQUEUE: the oldest waiting fault record of a die enters its queue, where there is room (R251). -/
def execFaultRecordEnqueue (die : Nat) (s : State) : Res := .next (enqueueRecord die s)

/-- COPY_ON_WRITE: the claim engine copies or unprotects the shared block of a held write of the strand's partition, or
reports that it finds no block (R332). -/
def execCopyOnWrite (va : Word) (s : State) : Res :=
  if onDeputy s.hart then .next s
  else if cowExhausted s s.hart.part (vaOf va) then
    .next (match cowSite s s.hart.part (vaOf va) with
      | some c => notifyExhausted c.eng s
      | none => s)
  else .next (cowStep s.hart.part (vaOf va) s)

/-- SAMPLE_RECORD: the sample record of the strand's word, if one is due (R402). -/
def execSampleRecord (s : State) : Res :=
  match fetchWord s s.hart.pc with
  | .ok w => .next (sampleWord s.hart.pc w (match s.hart.convoy with | .open _ _ pos _ => pos | _ => 0) (vl s) s)
  | .error _ => .next s

end Sys2Proof.Machine
end

