-- ==== Sys2Proof/Machine/Digest.lean ====
section
/-!
DEFINITION. SHA-384, the digest that R410 names for measurement block 1 and R408 for its signatures, as FIPS 180-4 gives it
(log 16): the constants from their definition by roots of primes, padding, message schedule and compression.
-/
namespace Sys2Proof.Machine

open Sys2Proof

/-- The primes below `n`, ascending. -/
def primesBelow (n : Nat) : List Nat :=
  (List.range n).filter (fun p => decide (2 ≤ p) && (List.range p).all (fun d => decide (d < 2) || p % d != 0))

/-- The greatest `r` of at most `k` more bits whose `n`-th power is at most `x`, by its bits from the top. -/
def rootFrom (n x : Nat) : Nat → Nat → Nat
  | 0, r => r
  | k + 1, r => rootFrom n x k (if (r + 2 ^ k) ^ n ≤ x then r + 2 ^ k else r)

/-- The first 64 bits of the fractional part of the `n`-th root of a number below 2^9. -/
def rootFraction (n p : Nat) : Word := BitVec.ofNat 64 (rootFrom n (p * 2 ^ (64 * n)) 70 0)

/-- The round constants: of the cube roots of the first 80 primes. -/
def digestRounds : List Word := (primesBelow 410).map (rootFraction 3)

/-- The eight working words. -/
structure DigestWords where
  a : Word
  b : Word
  c : Word
  d : Word
  e : Word
  f : Word
  g : Word
  h : Word

/-- The initial words: of the square roots of the ninth to the sixteenth prime. -/
def digestInit : DigestWords where
  a := rootFraction 2 23
  b := rootFraction 2 29
  c := rootFraction 2 31
  d := rootFraction 2 37
  e := rootFraction 2 41
  f := rootFraction 2 43
  g := rootFraction 2 47
  h := rootFraction 2 53

/-- The next words of the message schedule, the newest first. -/
def extendSchedule : Nat → List Word → List Word
  | 0, ws => ws
  | n + 1, ws =>
    let w (i : Nat) : Word := ws.getD (i - 1) 0
    let small0 (x : Word) : Word := x.rotateRight 1 ^^^ x.rotateRight 8 ^^^ (x >>> 7)
    let small1 (x : Word) : Word := x.rotateRight 19 ^^^ x.rotateRight 61 ^^^ (x >>> 6)
    extendSchedule n ((small1 (w 2) + w 7 + small0 (w 15) + w 16) :: ws)

/-- One round, with its constant and schedule word. -/
def digestRound (v : DigestWords) (k w : Word) : DigestWords :=
  let big1 := v.e.rotateRight 14 ^^^ v.e.rotateRight 18 ^^^ v.e.rotateRight 41
  let t1 := v.h + big1 + ((v.e &&& v.f) ^^^ (~~~v.e &&& v.g)) + k + w
  let big0 := v.a.rotateRight 28 ^^^ v.a.rotateRight 34 ^^^ v.a.rotateRight 39
  let t2 := big0 + ((v.a &&& v.b) ^^^ (v.a &&& v.c) ^^^ (v.b &&& v.c))
  { a := t1 + t2, b := v.a, c := v.b, d := v.c, e := v.d + t1, f := v.e, g := v.f, h := v.g }

/-- A number from bytes, the first the most significant. -/
def bigEndian (bs : List Byte) : Nat := bs.foldl (fun n b => n * 256 + b.toNat) 0

/-- The bytes of a number of `n` bytes, the most significant first. -/
def bigBytes : Nat → Nat → List Byte
  | 0, _ => []
  | n + 1, x => BitVec.ofNat 8 (x / 256 ^ n) :: bigBytes n x

/-- One block of 128 bytes. -/
def digestBlock (rounds : List Word) (v : DigestWords) (block : List Byte) : DigestWords :=
  let ws := (List.range 16).map (fun i => BitVec.ofNat 64 (bigEndian ((block.drop (8 * i)).take 8)))
  let x := (rounds.zip (extendSchedule 64 ws.reverse).reverse).foldl (fun v kw => digestRound v kw.1 kw.2) v
  { a := v.a + x.a, b := v.b + x.b, c := v.c + x.c, d := v.d + x.d,
    e := v.e + x.e, f := v.f + x.f, g := v.g + x.g, h := v.h + x.h }

/-- A message padded to whole blocks: a 1 bit, zeros, and its length in bits. -/
def digestPadded (bs : List Byte) : List Byte :=
  bs ++ (0x80 : Byte) :: List.replicate ((239 - bs.length % 128) % 128) 0 ++ bigBytes 16 (8 * bs.length)

/-- Blocks of a padded message, one after the other. -/
def digestBlocks (rounds : List Word) : Nat → List Byte → DigestWords → DigestWords
  | 0, _, v => v
  | n + 1, bs, v => digestBlocks rounds n (bs.drop 128) (digestBlock rounds v (bs.take 128))

/-- SHA-384 of a byte string: 48 bytes. -/
def sha384 (bs : List Byte) : List Byte :=
  let m := digestPadded bs
  let v := digestBlocks digestRounds (m.length / 128) m digestInit
  [v.a, v.b, v.c, v.d, v.e, v.f].flatMap (fun w => bigBytes 8 w.toNat)

end Sys2Proof.Machine
end

