-- ==== Sys2Proof/Machine/Place.lean ====
section
/-!
DEFINITION. Jobs, placement, node statuses and reports (R356–R369, R375, R376): the steps of the headframe.
-/
namespace Sys2Proof.Machine

open Sys2Proof

/-! ### Jobs (R356–R358) -/

/-- R357: jobs of a partition that are accepted and not terminal. -/
def liveJobs (s : State) (part : Nat) : Nat := (s.jobs.filter (fun j => j.part == part && jobUnsettled s j)).length

/-- R376: entries of a partition's status ring. -/
def ringSize (pt : Part) : Nat := bitsW pt.pring 0 12 + 1

/-- R376: the ring is full: the entry after PRTAIL is PRHEAD. -/
def ringFull (pt : Part) : Bool := (pt.prtail.toNat + 1) % ringSize pt == pt.prhead.toNat % 2 ^ 12

/-- R382, R388: a stream of the function is Insecure; one of the two links' is enough (log 69). -/
def insecureFn (s : State) (fn : Nat) : Bool := s.streams.any (fun x => x.1 / 2 == fn && x.2 == .insecure)

/-- R357, R388, R409: a job write is accepted. -/
def jobAccepts (s : State) (part : Nat) : Bool :=
  let pt := partOf s part
  s.fwState == 2 && !insecureFn s part && decide (liveJobs s part < 64) && !ringFull pt && !pt.swapOut && !pt.disabled

/-- R383: the die whose job port lies at an offset of a virtual function's BAR0. -/
def jobPort (off : Nat) : Option Nat := if off = 0x0000 then some 0 else if off = 0x0040 then some 1 else none

/-- JOB_PORT_WRITE: a Deferrable Memory Write to an offset of a virtual function's BAR0: at a job port, of a descriptor, it
is accepted or deferred (R357); at any other address it is unsupported (R382), and so is one of another length (log 44). -/
def execJobPortWrite (part off : Nat) (desc : List Word) (s : State) : Res :=
  match (if desc.length ≠ 8 ∨ 32 ≤ part then none else jobPort off) with
  | none => .next { s with replies := .unsupported :: s.replies }
  | some die =>
  if jobAccepts s part then
    let j : Job := { id := s.accepted, part := part, die := die, desc := desc, started := false, root := 0, cls := 0,
                     phases := 0, written := [], verdict := none, reported := false }
    .next { s with jobs := s.jobs ++ [j], accepted := s.accepted + 1, replies := .accepted :: s.replies }
  else .next { s with replies := .deferred :: s.replies }

/-- A strand that stands for the headframe or the host in translations: it is on no core that runs launches of its own. -/
def headStrand (part die : Nat) : Strand := { Strand.vacant with part := part, core := die * 256 }

/-- The home of a byte of a partition's space for the headframe or the host, which have no pads: its home, whether its page
is tagged, and whether a write must first take the copy-on-write step. -/
def headHome (s : State) (part die va : Nat) (kind : Kind) : Option (Nat × Bool × Bool) :=
  if va < 0x20_0000 ∨ 2 ^ 48 ≤ va then none
  else match locate s (headStrand part die) va kind with
  | .home k tagged _ cow => some (k, tagged, cow)
  | _ => none

/-- R358: one byte of a copy's source, checked for translation, tag (key 0) and error. -/
def imageByte (s : State) (part die va : Nat) : Option Byte :=
  match headHome s part die va .read with
  | some (k, tagged, _) =>
    if (tagged && (tagMismatch s k 1 0).isSome) || (badByte s k 1).isSome then none else some (memByte s k)
  | none => none

/-- R358: the bytes of an image or of the root packet. -/
def imageBytes (s : State) (part die va n : Nat) : Option (List Byte) :=
  (List.range n).mapM (fun i => imageByte s part die (va + i))

/-- R356: the rules of a job descriptor. -/
def descOk (d : List Word) : Bool :=
  let f (i lo n : Nat) : Nat := bitsW (d.getD i 0) lo n
  f 0 48 16 == 0 && f 0 0 7 == 0 && f 2 48 16 == 0 && f 3 20 44 == 0 && decide (f 3 0 20 ≤ Config.padBytes) &&
  f 4 48 16 == 0 && f 5 59 4 == 0 && f 5 27 5 == 0 && f 5 32 8 == 0 && f 6 48 16 == 0 && f 7 59 5 == 0 &&
  f 7 27 5 == 0 && f 7 32 8 == 0

/-- R358: copies the pad image to pad offset 0 of the four pads of each gang. -/
def copyPadImage (s : State) (part die va n : Nat) (gangs : List Nat) : Option State :=
  if n = 0 then some s
  else match imageBytes s part die va n with
  | some bs =>
    if gangs.all (fun g => s.crosscut || g / 64 == die) then
      some ((gangs.flatMap (fun g => (List.range 4).map (fun c => g * 4 + c))).foldl
        (fun s core => memPut s (padBase core) bs) (passGangs part gangs s))
    else none
  | none => none

/-- R358: copies one sump image; none where it breaks a rule or its copy fails. -/
def copySumpImage (s : State) (part die va target off n : Nat) : Option State :=
  if n = 0 then some s
  else if Config.sumpBytes < off + n ∨ Config.frqOffset < off + n ∨ !inWindow (partOf s part) target off ∨
      !inWindow (partOf s part) target (off + n - 1) ∨ (!s.crosscut ∧ target ≠ die) then none
  else match imageBytes s part die va n with
  | some bs => some (memPut s (sumpBase target + off) bs)
  | none => none

/-- R358: a state in which a copy has been attempted, and whether all went well so far. -/
def attempt (r : State × Bool) (f : State → Option State) : State × Bool :=
  if r.2 then match f r.1 with
    | some s => (s, true)
    | none => (r.1, false)
  else r

/-- R358: the copies of a job's images, in order. -/
def copyImages (j : Job) (gangs : List Nat) (s : State) : State × Bool :=
  let f (i lo n : Nat) : Nat := bitsW (j.desc.getD i 0) lo n
  let d := f 5 63 1
  let r := attempt (s, true) (fun s => copyPadImage s j.part j.die (f 2 0 48) (f 3 0 20) gangs)
  let r := attempt r (fun s => copySumpImage s j.part j.die (f 4 0 48) d (f 5 32 27) (f 5 0 27))
  attempt r (fun s => copySumpImage s j.part j.die (f 6 0 48) (1 - d) (f 7 32 27) (f 7 0 27))

/-- R357: a job ends FAULTED with no launch placed. -/
def failJob (id : Nat) (s : State) : State :=
  mapJob id (fun j => { j with verdict := some { status := 3, info := 0, place := 0, aux := 0 }
                               written := j.written ++ [(4, 0, 0, 3)] }) s

/-- R358: a root packet is legal: R361, with no wait entries and no nest. -/
def rootOk (s : State) (part : Nat) (pkt : List Word) : Bool :=
  pktLegal s part pkt && pktNest pkt == 0 && (List.range 4).all (fun i => pktWait pkt i == 0)

/-- R358: starts a job: images, then its root launch in phase 0 and graph 0. A descriptor or root packet that breaks its rules fails
the job before any image is copied (log 78). -/
def startJob (j : Job) (s : State) : State :=
  let root := bitsW (j.desc.getD 0 0) 0 48
  let raw := if bitsW (j.desc.getD 0 0) 0 7 = 0 then imageBytes s j.part j.die root 128 else none
  let pkt := dwordsOf 16 (raw.getD [])
  let s := mapJob j.id (fun j => { j with started := true, cls := if raw.isSome then pktClass pkt else 0 }) s
  if !descOk j.desc || raw.isNone || !rootOk s j.part pkt then failJob j.id s
  else
    let (s, ok) := copyImages j (pktGangs (partOf s j.part).pgang pkt).eraseDups s
    if !ok then failJob j.id s
    else
      let (s, serial) := addLaunch j.part j.id 0 0 j.die (BitVec.ofNat 64 root) pkt s
      mapJob j.id (fun j => { j with root := serial, phases := 1 }) s

/-- JOB_START: the oldest accepted job of a partition that has not started starts (R358). -/
def execJobStart (part : Nat) (s : State) : Res :=
  match s.jobs.find? (fun j => j.part == part && !j.started && j.verdict.isNone) with
  | some j => if (partOf s part).swapOut then .next s else .next (startJob j s)
  | none => .next s

/-! ### Resources (R366, R367) -/

/-- The strand holds its slot, rows and pad allotment on its core. -/
def holdsCore (h : Strand) : Bool := h.run != .vacant && !onDeputy h && !isOut h

/-- The strands that hold resources of a core. -/
def holders (s : State) (core : Nat) : List Strand := (allStrands s).filter (fun h => holdsCore h && h.core == core)

/-- R367: a core's capacity for strands of `rows` rows and `pad` pad bytes. -/
def coreCap (rows pad : Nat) : Nat :=
  Nat.min 4 (Nat.min (if rows = 0 then 4 else 1024 / rows) (if pad = 0 then 4 else Config.padBytes / pad))

/-- R367: a gang's capacity. -/
def gangCap (rows pad macros : Nat) : Nat :=
  Nat.min (4 * coreCap rows pad) (if macros = 0 then 16 else 64 / macros)

/-- The gang set of a launch, as physical gangs. -/
def launchGangs (s : State) (l : Launch) : List Nat := (pktGangs (partOf s l.part).pgang l.pkt).eraseDups

/-- The cores of a list of gangs. -/
def coresOf (gangs : List Nat) : List Nat := gangs.flatMap (fun g => (List.range 4).map (fun c => g * 4 + c))

/-- R367: the strands that a launch places. -/
def strandCount (s : State) (l : Launch) : Nat :=
  Nat.min ((pktN l.pkt + pktGranule l.pkt - 1) / pktGranule l.pkt)
    ((launchGangs s l).length * gangCap (pktRows l.pkt) (pktPad l.pkt) (pktMacros l.pkt))

/-- The slots of a core that no strand holds. -/
def freeSlots (s : State) (core : Nat) : Nat := 4 - (holders s core).length

/-- R270: the macros of a gang that are reserved for the strands that satisfy `f`; a pre-empted strand keeps its own (R272). -/
def gangMacros (s : State) (gang : Nat) (f : Strand → Bool) : Nat :=
  (((allStrands s).filter (fun h => h.run != .vacant && !onDeputy h && gangOf h.core == gang && f h &&
    !(h.parked && h.unbegun))).map (·.seam.macros)).foldl (· + ·) 0

/-- R270, R272: the macros of a gang that are not reserved; those of a swapped-out strand are saved. -/
def freeMacros (s : State) (gang : Nat) : Nat := 64 - gangMacros s gang (fun h => !h.swapped)

/-- The pad allotments of a list of strands, as (offset, length). -/
def allotments (hs : List Strand) : List (Nat × Nat) := (hs.filter (fun h => h.padLen != 0)).map (fun h => (h.padOff, h.padLen))

/-- Two ranges share a byte. -/
def overlaps (a b : Nat × Nat) : Bool := decide (a.1 < b.1 + b.2) && decide (b.1 < a.1 + a.2)

/-- R95: an allotment of `n` bytes lies at `off` in a pad, clear of a list of others. -/
def padFits (taken : List (Nat × Nat)) (off n : Nat) : Bool :=
  off % 256 == 0 && decide (off + n ≤ Config.padBytes) && (n == 0 || !taken.any (overlaps (off, n)))

/-- Inserts a range by its offset. -/
def insertRange (a : Nat × Nat) : List (Nat × Nat) → List (Nat × Nat)
  | [] => [a]
  | b :: t => if a.1 ≤ b.1 then a :: b :: t else b :: insertRange a t

/-- Ranges in the order of their offsets. -/
def sortRanges (rs : List (Nat × Nat)) : List (Nat × Nat) := rs.foldl (fun l a => insertRange a l) []

/-- The allotments of `n` units that fit in the gaps of sorted ranges below `size`, from `lo` on. -/
def gapFit (size n : Nat) : Nat → List (Nat × Nat) → Nat
  | lo, [] => (size - lo) / n
  | lo, (o, len) :: t => (o - lo) / n + gapFit size n (Nat.max lo (o + len)) t

/-- The first place for `n` units in the gaps of sorted ranges, from `lo` on. -/
def firstGap (n : Nat) : Nat → List (Nat × Nat) → Nat
  | lo, [] => lo
  | lo, (o, len) :: t => if lo + n ≤ o then lo else firstGap n (Nat.max lo (o + len)) t

/-- R162: the runs of stope rows of a core that strands hold, in order. -/
def heldRows (s : State) (core : Nat) : List (Nat × Nat) :=
  sortRanges (((holders s core).filter (fun h => h.height != 0)).map (fun h => (h.rowBase, h.height)))

/-- R162: how many further allotments of `rows` contiguous rows a core has room for. -/
def rowsFit (s : State) (core rows : Nat) : Nat := if rows = 0 then 4 else gapFit Config.coreRows rows 0 (heldRows s core)

/-- R162: where an allotment of `rows` rows is placed in a core's stope: the first run that holds it (log 66). -/
def rowPlace (s : State) (core rows : Nat) : Nat := if rows = 0 then 0 else firstGap rows 0 (heldRows s core)

/-- R131, R3: the bells that live launches hold on each core of a gang; a swapped-out partition's are saved (R371). -/
def bellsHeld (s : State) (gang : Nat) : Nat :=
  ((s.launches.filter (fun l => l.placed && l.verdict.isNone && l.gangs.contains gang && !(partOf s l.part).swapOut)).map
    (fun l => pktBells l.pkt)).foldl (· + ·) 0

/-- R131: the bells of a launch fit on each core of a gang. -/
def bellsFit (s : State) (l : Launch) (gang : Nat) : Bool :=
  l.gangs.contains gang || decide (bellsHeld s gang + pktBells l.pkt ≤ Config.coreBells)

/-- Further strands of `rows` and `pad` that fit on a core now. -/
def coreFit (s : State) (core rows pad : Nat) : Nat :=
  Nat.min (freeSlots s core) (Nat.min (rowsFit s core rows)
    (if pad = 0 then 4 else gapFit Config.padBytes pad 0 (sortRanges (allotments (holders s core)))))

/-- R367: how many of a gang's cores can take one strand more than `q`. -/
def gangExtra (s : State) (gang q rows pad macros : Nat) : Nat :=
  let cores := (coresOf [gang]).filter (fun c => decide (q + 1 ≤ coreFit s c rows pad) && decide (q + 1 ≤ coreCap rows pad))
  let m := if macros = 0 then 16 else freeMacros s gang / macros
  Nat.min cores.length (Nat.min m (gangCap rows pad macros) - 4 * q)

/-- R366, R367: the resources that a launch needs are free. -/
def resourcesFree (s : State) (l : Launch) : Bool :=
  let rows := pktRows l.pkt
  let pad := pktPad l.pkt
  let m := pktMacros l.pkt
  let gangs := launchGangs s l
  let n := strandCount s l
  let belled := gangs.filter (bellsFit s l)
  let q := n / (4 * gangs.length)
  if n = 0 then true
  else if q ≠ 0 && belled.length != gangs.length then false
  else if pktPipe l.pkt then
    decide (n ≤ belled.length * Nat.min (4 * (q + 1)) (gangCap rows pad m)) && belled.any (fun g => (m == 0 || decide (m ≤ freeMacros s g)) &&
      (coresOf [g]).any (fun c => decide (1 ≤ coreFit s c rows pad)))
  else
    (coresOf gangs).all (fun c => decide (q ≤ coreFit s c rows pad)) &&
      gangs.all (fun g => m == 0 || decide (4 * q * m ≤ freeMacros s g)) &&
      decide (n % (4 * gangs.length) ≤ (belled.map (fun g => gangExtra s g q rows pad m)).foldl (· + ·) 0)

/-! ### Placement (R366) -/

/-- R362: the phases before a launch's own are terminal. -/
def phaseBegun (s : State) (l : Launch) : Bool :=
  (List.range l.phase).all (fun k =>
    nodeStatus s { level := 3, part := l.part, job := l.job, phase := k, graph := 0, serial := 0 } != 0)

/-- R366: every node that a wait entry names is terminal, or it names no node. -/
def waitsOver (s : State) (l : Launch) : Bool :=
  l.waits.all (fun w => match w.2 with | some n => nodeStatus s n != 0 | none => true)

/-- R365: a strict wait entry names a node that has ended other than DONE, or names no node. -/
def strictFails (s : State) (l : Launch) : Bool :=
  l.waits.any (fun w => w.1 && (match w.2 with | some n => decide (2 ≤ nodeStatus s n) | none => true))

/-- R366: a launch awaits nothing but its resources. -/
def awaitsPlace (s : State) (l : Launch) : Bool :=
  l.verdict.isNone && !l.placed && phaseBegun s l && waitsOver s l && !strictFails s l && !(partOf s l.part).swapOut

/-- R370: the resources of a pre-empted strand are free on its core. -/
def returnFits (s : State) (h : Strand) : Bool :=
  h.preempted && !h.swapped && !(holders s h.core).any (fun x => x.slot == h.slot) &&
  decide (1 ≤ rowsFit s h.core h.height) && padFits (allotments (holders s h.core)) h.padOff h.padLen

/-- R375: the gangs of a launch's home die. -/
def homeGangs (s : State) (l : Launch) : List Nat := (launchGangs s l).filter (fun g => g / 64 == l.home)

/-- Strands of a launch on a core. -/
def launchOn (s : State) (l : Launch) (core : Nat) : Nat :=
  ((allStrands s).filter (fun h => strandsOf l.part l.serial h && h.core == core)).length

/-- R375, R367: a core of the home die has room for a replacement. -/
def replaceFits (s : State) (l : Launch) (core : Nat) : Bool :=
  decide (launchOn s l core < coreCap (pktRows l.pkt) (pktPad l.pkt)) &&
  decide (1 ≤ coreFit s core (pktRows l.pkt) (pktPad l.pkt)) &&
  (pktMacros l.pkt == 0 || decide (pktMacros l.pkt ≤ freeMacros s (gangOf core))) && bellsFit s l (gangOf core)

/-- R375, R366: a replacement strand awaits nothing but its resources, and they are free. -/
def replaceFree (s : State) (l : Launch) : Bool :=
  l.verdict.isNone && !l.replace.isEmpty && !(partOf s l.part).swapOut &&
  (coresOf (homeGangs s l)).any (replaceFits s l)

/-- R366, R370: no launch or replacement that comes before this one has its resources free, and no pre-empted strand of its
class could return. DESIGN CHOICE (log 11): one of a higher-priority class whose resources are not free holds it back no more than
one of its own class. -/
def isNext (s : State) (l : Launch) : Bool :=
  s.launches.all (fun x =>
    !((decide (pktClass x.pkt < pktClass l.pkt) ||
        (pktClass x.pkt == pktClass l.pkt && decide (x.order < l.order))) &&
      ((awaitsPlace s x && resourcesFree s x) || replaceFree s x))) &&
  (allStrands s).all (fun h => !(h.cls == pktClass l.pkt && returnFits s h))

/-- How many entries of a plan lie on a core. -/
def onCore (plan : List Sys2Proof.Place) (core : Nat) : Nat := (plan.filter (fun p => p.core == core)).length

/-- No two ranges of a list share a byte. -/
def rangesApart : List (Nat × Nat) → Bool
  | [] => true
  | a :: t => !t.any (overlaps a) && rangesApart t

/-- No two entries of a list are equal. -/
def noRepeat {α : Type} [BEq α] : List α → Bool
  | [] => true
  | a :: t => !t.contains a && noRepeat t

/-- R367: the entries that begin fit what is free on one core. -/
def corePlanOk (s : State) (now : List Sys2Proof.Place) (rows pad core : Nat) : Bool :=
  let here := now.filter (fun p => p.core == core)
  let taken := allotments (holders s core)
  here.all (fun p => !(holders s core).any (fun h => h.slot == p.slot) && padFits taken p.padOff pad) &&
  decide (here.length ≤ rowsFit s core rows) && (pad == 0 || rangesApart (here.map (fun p => (p.padOff, pad))))

/-- R367: a strand made parked finds no room on its core beside those that begin. -/
def mustPark (s : State) (now : List Sys2Proof.Place) (rows pad macros core : Nat) : Bool :=
  let here := now.filter (fun p => p.core == core)
  let taken := sortRanges (allotments (holders s core) ++ here.map (fun p => (p.padOff, pad)))
  let gangNow := (now.filter (fun p => gangOf p.core == gangOf core)).length
  decide (freeSlots s core ≤ here.length) || (rows != 0 && decide (rowsFit s core rows ≤ here.length)) ||
  (pad != 0 && gapFit Config.padBytes pad 0 taken == 0) || (macros != 0 && decide (freeMacros s (gangOf core) < (gangNow + 1) * macros))

/-- R367: a plan places a launch as the rule says. -/
def planOk (s : State) (l : Launch) (plan : List Sys2Proof.Place) : Bool :=
  let rows := pktRows l.pkt
  let pad := pktPad l.pkt
  let m := pktMacros l.pkt
  let gangs := launchGangs s l
  let cores := coresOf gangs
  let now := plan.filter (fun p => !p.parked)
  let counts := cores.map (onCore plan)
  plan.length == strandCount s l &&
  plan.all (fun p => cores.contains p.core && decide (p.slot < 4) && bellsFit s l (gangOf p.core)) && noRepeat (plan.map (fun p => (p.core, p.slot))) &&
  counts.all (fun a => decide (a ≤ coreCap rows pad) && counts.all (fun b => decide (a ≤ b + 1))) &&
  gangs.all (fun g =>
    decide ((plan.filter (fun p => gangOf p.core == g)).length ≤ gangCap rows pad m) &&
    (m == 0 || decide ((now.filter (fun p => gangOf p.core == g)).length * m ≤ freeMacros s g))) &&
  cores.all (corePlanOk s now rows pad) &&
  (if pktPipe l.pkt then (plan.isEmpty || !now.isEmpty) &&
      (plan.filter (·.parked)).all (fun p => mustPark s now rows pad m p.core)
   else now.length == plan.length)

/-- `n` items of `l` in which those that satisfy `f` come first. -/
def takeFirst {α : Type} (f : α → Bool) (n : Nat) (l : List α) : List α := (l.filter f ++ l.filter (fun x => !f x)).take n

/-- R367: a strand of a launch could begin on a core now. -/
def beginsOn (s : State) (l : Launch) (core : Nat) : Bool :=
  decide (1 ≤ coreFit s core (pktRows l.pkt) (pktPad l.pkt)) &&
  (pktMacros l.pkt == 0 || decide (pktMacros l.pkt ≤ freeMacros s (gangOf core)))

/-- R367: the cores of one gang that may hold a strand more than `q`: of a launch that begins whole those where it fits, of a
pipeline's stage any of them. -/
def extraCores (s : State) (l : Launch) (q gang : Nat) : List Nat :=
  let rows := pktRows l.pkt
  let pad := pktPad l.pkt
  let m := pktMacros l.pkt
  let cap := gangCap rows pad m
  let cores := (coresOf [gang]).filter (fun c => decide (q + 1 ≤ coreCap rows pad) &&
    (pktPipe l.pkt || decide (q + 1 ≤ coreFit s c rows pad)))
  takeFirst (beginsOn s l) ((if pktPipe l.pkt || m == 0 then cap else Nat.min (freeMacros s gang / m) cap) - 4 * q) cores

/-- R367: a spread of a launch's strands over the cores of its gangs: each core with its count. -/
def spread (s : State) (l : Launch) : List (Nat × Nat) :=
  let gangs := launchGangs s l
  let n := strandCount s l
  let q := n / (4 * gangs.length)
  let more := takeFirst (beginsOn s l) (n % (4 * gangs.length)) ((gangs.filter (bellsFit s l)).flatMap (extraCores s l q))
  (coresOf gangs).map (fun c => (c, if more.contains c then q + 1 else q))

/-- R95: places for `n` allotments of `pad` bytes beside sorted others, from the first gap on. -/
def padPlaces (pad : Nat) : Nat → List (Nat × Nat) → List Nat
  | 0, _ => []
  | n + 1, taken => firstGap pad 0 taken :: padPlaces pad n (insertRange (firstGap pad 0 taken, pad) taken)

/-- R367: the places of `n` strands of a core, the first `now` of which begin: free slots come first. -/
def corePlaces (s : State) (pad core n now : Nat) : List Sys2Proof.Place :=
  let slots := takeFirst (fun k => !(holders s core).any (fun h => h.slot == k)) n [0, 1, 2, 3]
  let offs := padPlaces pad now (sortRanges (allotments (holders s core)))
  slots.zipIdx.map (fun x => { core := core, slot := x.1, padOff := offs.getD x.2 0, parked := decide (now ≤ x.2) })

/-- R367: the places of one gang's strands, as many of them beginning as find rows, pad and, within `room`, macros. -/
def gangPlaces (s : State) (l : Launch) : Nat → List (Nat × Nat) → List Sys2Proof.Place
  | _, [] => []
  | room, (core, n) :: t =>
    let now := Nat.min n (Nat.min (coreFit s core (pktRows l.pkt) (pktPad l.pkt)) room)
    corePlaces s (pktPad l.pkt) core n now ++ gangPlaces s l (room - now) t

/-- R366, R367: the plan by which a launch is placed where no turn gives one (log 1). -/
def firstPlan (s : State) (l : Launch) : List Sys2Proof.Place :=
  let m := pktMacros l.pkt
  let counts := spread s l
  (launchGangs s l).flatMap (fun g =>
    gangPlaces s l (if m = 0 then 16 else freeMacros s g / m) (counts.filter (fun x => gangOf x.1 == g)))

/-- R95: g30 for an allotment on a core. -/
def stackTop (core padOff padLen : Nat) : Word := BitVec.ofNat 64 (core % 4 * 2 ^ 19 + padOff + padLen)

/-- R91, R94: a strand of a launch as it is placed. -/
def newStrand (s : State) (l : Launch) (index : Nat) (p : Sys2Proof.Place) : Strand :=
  let h := { Strand.vacant with
    core := p.core, slot := p.slot, part := l.part, serial := l.serial, index := index
    cls := pktClass l.pkt, nodetect := pktField l.pkt 2 17 1 == 1, replay := pktReplay l.pkt
    priv := pktField l.pkt 2 15 1 == 1, pipe := pktPipe l.pkt, bells := pktBells l.pkt
    padOff := p.padOff, padLen := pktPad l.pkt, run := .ready, parked := p.parked, unbegun := p.parked
    born := s.tick, stamp := s.tick, pc := pktEntry l.pkt
    rowBase := if p.parked then 0 else rowPlace s p.core (pktRows l.pkt), height := pktRows l.pkt
    seam := { macros := pktMacros l.pkt, grant := 0, gw := 0, bound0 := 0, bound1 := 0, rows := [] } }
  let gprs : Vector Word 32 := Vector.ofFn (fun r =>
    if r.val = 1 then l.addr
    else if r.val = 2 then BitVec.ofNat 64 (pktN l.pkt)
    else if 3 ≤ r.val ∧ r.val ≤ 8 then l.pkt.getD (r.val + 3) 0
    else if r.val = 9 then BitVec.ofNat 64 index
    else if r.val = 10 then BitVec.ofNat 64 (coreId s h)
    else if r.val = 30 then stackTop p.core p.padOff (pktPad l.pkt)
    else 0)
  { h with gpr := gprs }

/-- A strand joins the device; one that begins acquires at device scope (R358, R377). -/
def addStrand (h : Strand) (s : State) : State :=
  let s := { s with rest := s.rest ++ [h] }
  if h.parked then s else dropCache h.core s

/-- R366: places a launch by a plan. -/
def placeLaunch (l : Launch) (plan : List Sys2Proof.Place) (s : State) : State :=
  let s := passGangs l.part (plan.map (fun p => gangOf p.core)).eraseDups s
  let s := plan.zipIdx.foldl (fun s x => addStrand (newStrand s l x.2 x.1) s) s
  let s := mapLaunch l.part l.serial (fun l => { l with
    placed := true, members := plan.length, gangs := (plan.map (fun p => gangOf p.core)).eraseDups }) s
  if plan.isEmpty then completeLaunch l.part l.serial s else s

/-- LAUNCH_PLACE: a waiting launch's strands are placed as its plan says, once its phase, waits and resources allow; one
whose strict wait fails ends CANCELLED (R365–R367). -/
def execLaunchPlace (part serial : Nat) (plan : List Sys2Proof.Place) (s : State) : Res :=
  match findLaunch s part serial with
  | none => .next s
  | some l =>
    if l.verdict.isSome || l.placed then .next s
    else if strictFails s l then .next (endLaunch part serial { status := 2, info := 0, place := 0, aux := 0 } s)
    else if awaitsPlace s l && isNext s l && planOk s l plan then .next (placeLaunch l plan s)
    else .next s

/-- R375, R366, R367: a replacement may take a place on the home die's part of the gang set: its turn has come, the place is
free, and no core with fewer strands of the launch has room for it. -/
def replaceOk (s : State) (l : Launch) (p : Sys2Proof.Place) : Bool :=
  let cores := coresOf (homeGangs s l)
  cores.contains p.core && decide (p.slot < 4) && !p.parked && isNext s l && replaceFits s l p.core &&
  corePlanOk s [p] (pktRows l.pkt) (pktPad l.pkt) p.core &&
  cores.all (fun c => !replaceFits s l c || decide (launchOn s l p.core ≤ launchOn s l c))

/-- REPLACEMENT_STRAND_PLACE: a replacement takes the index of a strand that severance stopped (R375). -/
def execReplacementStrandPlace (part serial index : Nat) (place : Sys2Proof.Place) (s : State) : Res :=
  match findLaunch s part serial with
  | none => .next s
  | some l =>
    if l.verdict.isNone && l.replace.contains index && replaceOk s l place && !(partOf s part).swapOut then
      .next (mapLaunch part serial (fun l => { l with
          replace := l.replace.erase index, members := l.members + 1
          gangs := if l.gangs.contains (gangOf place.core) then l.gangs else l.gangs ++ [gangOf place.core] })
        (addStrand (newStrand s l index place) (passGang part (gangOf place.core) s)))
    else .next s

/-! ### Node statuses (R364) -/

/-- R364, R44: every accepted work item of the launch's strands has completed: no message of them is still to be performed,
and no `nred` of them still gathers. -/
def workDone (s : State) (l : Launch) : Bool :=
  !s.msgs.any (fun m => m.who.part == l.part && m.who.serial == l.serial)

/-- R364: the status of a node above the launch, from its members in order of making. -/
def statusFrom : List Nat → Nat
  | [] => 1
  | 1 :: t => statusFrom t
  | x :: _ => x

/-- R364: writes the status of a node above the launch; a job's status makes it terminal, and one that a reset has decided
(R387) stands. -/
def writeNode (n : Node) (st : Nat) (s : State) : State :=
  mapJob n.job (fun j =>
    let v : Verdict := if n.level = 4 then j.verdict.getD { status := st, info := 0, place := 0, aux := 0 }
                       else { status := st, info := 0, place := 0, aux := 0 }
    { j with
      written := j.written ++ [(n.level, n.phase, n.graph, v.status)]
      verdict := if n.level = 4 then some v else j.verdict }) s

/-- NODE_STATUS_WRITE: the terminal status of the node that a handle names is written, once, when its work has ended, as a
release at device scope (R364). -/
def execNodeStatusWrite (node : Word) (s : State) : Res :=
  let p := bitsW node 56 5
  if badHandle p node then .next s
  else match nodeOf s p node with
  | none => .next s
  | some n =>
    if nodeStatus s n ≠ 0 then .next s
    else if n.level = 1 then
      match findLaunch s p (bitsW node 0 32) with
      | some l =>
        if l.verdict.isSome && workDone s l then
          .next (mapLaunch p l.serial (fun l => { l with written := true }) s)
        else .next s
      | none => .next s
    else
      let sts := (membersOf s n).map (nodeStatus s)
      if sts.contains 0 then .next s else .next (writeNode n (statusFrom sts) s)

/-! ### Status records (R376) -/

/-- R376: a launch has reported: its record is in the ring, or it ended with no record to make. -/
def launchReported (l : Launch) : Bool :=
  l.reported || (l.written && (match l.verdict with | some v => decide (v.status ≤ 2) | none => false))

/-- R376: an earlier-accepted job or launch of the class has not reported. A job whose packet is not yet read has no class
and holds back every later record. -/
def heldBack (s : State) (part cls order : Nat) : Bool :=
  s.jobs.any (fun j => j.part == part && decide (j.id < order) && !j.reported && (j.cls == cls || !j.started)) ||
  s.launches.any (fun l => l.part == part && decide (l.order < order) && pktClass l.pkt == cls && !launchReported l)

/-- A record that may enter the ring: a job's or a launch's, by its place in acceptance order. -/
inductive Report where
  | job (id : Nat)
  | launch (serial : Nat)
  deriving DecidableEq, Repr

/-- R376: the records that may enter a partition's ring. -/
def reportsReady (s : State) (part : Nat) : List Report :=
  (s.jobs.filter (fun j => j.part == part && j.verdict.isSome && jobSettled s j && !j.reported && !heldBack s part j.cls j.id)).map
    (fun j => .job j.id) ++
  (s.launches.filter (fun l => l.part == part && l.written && !launchReported l &&
    !heldBack s part (pktClass l.pkt) l.order)).map (fun l => .launch l.serial)

/-- Dword 0 of a status record. -/
def recordHead (level status cls part serial : Nat) : Word :=
  BitVec.ofNat 64 (level * 2 ^ 61 + status % 8 * 2 ^ 58 + cls % 4 * 2 ^ 56 + part % 32 * 2 ^ 51 + serial % 2 ^ 32)

/-- R376: the launches of a job that did not end DONE, in order of making. -/
def notDone (s : State) (job part : Nat) : List Launch :=
  s.launches.filter (fun l => l.job == job && l.part == part &&
    (match l.verdict with | some v => v.status != 1 | none => true))

/-- R376: a job's record. -/
def jobRecord (s : State) (j : Job) : List Word :=
  let st := match j.verdict with | some v => v.status | none => 0
  let made := (s.launches.filter (fun l => l.job == j.id && l.part == j.part)).length
  let bad := notDone s j.id j.part
  let first := match bad.head? with | some l => l.serial | none => 0
  [recordHead 4 st j.cls j.part j.root, j.desc.getD 1 0, BitVec.ofNat 64 (first * 2 ^ 32 + made),
   BitVec.ofNat 64 bad.length]

/-- R376: a launch's record. -/
def launchRecord (s : State) (l : Launch) : List Word :=
  let root := match findJob s l.job with | some j => j.root | none => 0
  match l.verdict with
  | some v => [recordHead 1 v.status (pktClass l.pkt) l.part l.serial, v.info, v.place,
               BitVec.ofNat 64 (root * 2 ^ 32 + v.aux.toNat)]
  | none => []

/-- R376, R384: writes one record to the ring, advances PRTAIL, and signals vector 0 of the function. -/
def putRecord (part : Nat) (r : List Word) (s : State) : State :=
  let pt := partOf s part
  let a := pt.pring.toNat / 2 ^ 12 * 2 ^ 12 + 32 * pt.prtail.toNat
  let s := { s with hostMem := smWrite 0 s.hostMem a (dwordBytes r), interrupts := (part, 0) :: s.interrupts }
  setPart s part { pt with prtail := BitVec.ofNat 64 ((pt.prtail.toNat + 1) % ringSize pt) }

/-- R376: a record enters the ring. -/
def putReport (part : Nat) (r : Report) (s : State) : State :=
  match r with
  | .job id =>
    match findJob s id with
    | some j => mapJob id (fun j => { j with reported := true }) (putRecord part (jobRecord s j) s)
    | none => s
  | .launch serial =>
    match findLaunch s part serial with
    | some l => mapLaunch part serial (fun l => { l with reported := true }) (putRecord part (launchRecord s l) s)
    | none => s

/-- R376, R388: the next record of a partition that may enter its ring enters it, unless the ring is full or the function's
stream is insecure. -/
def reportNext (part : Nat) (s : State) : State :=
  let rs := reportsReady s part
  if ringFull (partOf s part) || insecureFn s part then s
  else match rs[Config.reportPick s.tick % rs.length]? with
  | some r => putReport part r s
  | none => s

/-- STATUS_RECORD_WRITE: a status record enters the ring, PRTAIL advances and the interrupt is raised (R376). -/
def execStatusRecordWrite (part : Nat) (s : State) : Res := .next (reportNext part s)

/-! ### Pipelines (R369) -/

/-- R369: the entries of a stage's input queue and its depth, from the header in the sump. -/
def stageCount (s : State) (l : Launch) : Nat × Nat :=
  match sumpAperture (pktQueue l.pkt) with
  | some (d, off) =>
    match queueHead s (sumpBase d + off) (pktQueue l.pkt) false with
    | some q => (q.held, q.depth)
    | none => (1, 2)
  | none => (1, 2)

/-- The stages of pipelines: placed launches with pipe = 1 that have not ended. -/
def stages (s : State) : List Launch := s.launches.filter (fun l => l.placed && l.verdict.isNone && pktPipe l.pkt)

/-- Two launches are in one graph. -/
def sameGraph (a b : Launch) : Bool := a.part == b.part && a.job == b.job && a.phase == b.phase && a.graph == b.graph

/-- R369: a stage whose input queue has no entry. -/
def isDonor (s : State) (l : Launch) : Bool := (stageCount s l).1 == 0

/-- R369: a stage whose input queue is more than half full. -/
def isRecipient (s : State) (l : Launch) : Bool := decide ((stageCount s l).2 < 2 * (stageCount s l).1)

/-- R369: a strand of a donor stage in a recipient's graph. -/
def donates (s : State) (r : Launch) (h : Strand) : Bool :=
  (stages s).any (fun l => strandsOf l.part l.serial h && sameGraph l r && isDonor s l)

/-- Changes the first strand of a list that satisfies `f`. -/
def mapFirst (f : Strand → Bool) (g : Strand → Strand) : List Strand → List Strand
  | [] => []
  | h :: t => if f h then g h :: t else h :: mapFirst f g t

/-- R369: the move for a recipient on a core where it has a parked strand: a donor's strand there, the one in focus or else
the first in the list, will be parked at its next `strip`; no more strands are marked than strands wait (log 28). -/
def moveOn (r : Launch) (core : Nat) (s : State) : State :=
  let f (h : Strand) : Bool := holdsCore h && h.yieldsTo.isNone && h.core == core && donates s r h
  let mark (h : Strand) : Strand := { h with yieldsTo := some r.serial }
  if parkedOn s r.part r.serial core ≤ ((allStrands s).filter (yieldsOn r.part r.serial core)).length then s
  else if f s.hart then { s with hart := mark s.hart }
  else { s with rest := mapFirst f mark s.rest }

/-- R369: the moves of one period for a recipient, at most one on each core. -/
def movesFor (r : Launch) (s : State) : State :=
  (((allStrands s).map (·.core)).eraseDups.filter (fun c =>
    Config.pipeMoves s.tick (c + 1024 * (r.part * 2 ^ 32 + r.serial)))).foldl (fun s c => moveOn r c s) s

/-- PIPELINE_SAMPLE: the headframe samples the stages' queues and makes those moves that it chooses (R369; log 28). -/
def execPipelineSample (s : State) : Res :=
  .next (((stages s).filter (isRecipient s)).foldl (fun s r => movesFor r s) s)

/-- The offsets at which an allotment may find room in a core's pad. -/
def padGaps (s : State) (core : Nat) : List Nat :=
  0 :: (allotments (holders s core)).map (fun a => (a.1 + a.2 + 255) / 256 * 256)

/-- The offsets at which a parked strand may find room in its core's pad. -/
def padStarts (s : State) (h : Strand) : List Nat := if h.unbegun then padGaps s h.core else [h.padOff]

/-- R369: the slot that a parked strand takes: its own where it is free, else the lowest free one (log 66). -/
def resumeSlot (s : State) (h : Strand) : Option Nat :=
  (h.slot :: [0, 1, 2, 3]).find? (fun n => !(holders s h.core).any (fun x => x.slot == n))

/-- R369: a parked strand's allotments fit its core at a pad offset; one that has begun returns to its own. -/
def resumeFits (s : State) (h : Strand) (padOff : Nat) : Bool :=
  h.parked && !h.preempted && !h.swapped && (resumeSlot s h).isSome &&
  decide (1 ≤ rowsFit s h.core h.height) && padFits (allotments (holders s h.core)) padOff h.padLen &&
  (if h.unbegun then h.seam.macros == 0 || decide (h.seam.macros ≤ freeMacros s (gangOf h.core)) else padOff == h.padOff)

/-- R369: a strand has been parked for this one's launch on its core, and none has resumed for it yet. -/
def movesTo (s : State) (h : Strand) : Bool := h.parked && decide (0 < yieldedOn s h.part h.serial h.core)

/-- R369: room on the strand's core belongs to a move that is half made: its parked strand fits. -/
def placeHeld (s : State) (h : Strand) : Bool :=
  (allStrands s).any (fun x => x.core == h.core && movesTo s x && (padStarts s x).any (resumeFits s x))

/-- R369: a parked strand may resume at a pad offset: it fits there, and its core's room belongs to no other's move. -/
def mayResume (s : State) (h : Strand) (padOff : Nat) : Bool := resumeFits s h padOff && (movesTo s h || !placeHeld s h)

/-- R369: a parked strand must resume where it may: a strand has been parked for it, its stage's queue is not empty, or no unparked
strand of the stage is left. -/
def resumeDue (s : State) (h : Strand) : Bool :=
  h.parked &&
  (movesTo s h ||
    (stages s).any (fun l => strandsOf l.part l.serial h &&
      (!isDonor s l || !(allStrands s).any (fun x => strandsOf l.part l.serial x && !x.parked))))

/-- R369: a parked strand resumes: where one has been parked for its launch on its core, that move is made. -/
def endMove (h : Strand) (s : State) : State :=
  { s with rest := mapFirst (fun x => yieldsOn h.part h.serial h.core x && x.parked) (fun x => { x with yieldsTo := none }) s.rest }

/-- R369: the strand in focus takes its allotments; one that has not begun begins at its entry. -/
def resumeParked (padOff : Nat) (s : State) : State :=
  let s := endMove s.hart s
  let h := { s.hart with yieldsTo := none }
  let s := { s with hart := { h with slot := (resumeSlot s h).getD h.slot, rowBase := rowPlace s h.core h.height } }
  let h := s.hart
  if h.unbegun then
    dropCache h.core { s with hart := { h with
      parked := false, unbegun := false, padOff := padOff
      gpr := h.gpr.set 30 (stackTop h.core padOff h.padLen) (by decide) } }
  else
    let s := restoreAllot h s
    { s with hart := { s.hart with parked := false, spilled := 0, resuming := true } }

/-- PARKED_STRAND_RESUME: a parked strand resumes where its allotments fit, and no other's move has the room (R369). -/
def execParkedStrandResume (core slot padOff : Nat) (s : State) : Res :=
  match focusOn (fun h => inSlot core slot h && mayResume s h padOff) s with
  | some s => .next (resumeParked padOff s)
  | none => .next s

end Sys2Proof.Machine
end

