-- ==== Sys2Proof/Machine/Switch.lean ====
section
/-!
DEFINITION. Pre-emption, partition swap (R370–R372), and the loss of the crosscut (R375).
-/
namespace Sys2Proof.Machine

open Sys2Proof

/-! ### Pre-emption (R370) -/

/-- A strand stops where it stands: its next word is a resume point (R150), and a start that the governor held is discarded
and issues again (R44). A convoy that is stopped inside has been left before (R31, R151). -/
def stopStrand (h : Strand) : Strand :=
  { h with resuming := true, aged := false, nstop := h.nstop + 1, run := if h.run = .held then .ready else h.run }

/-- Takes the starts of a strand off its die's governor; the cycles that it held them count (R405, R412). -/
def dropStarts (h : Strand) (s : State) : State :=
  let die := dieOf h.core
  let mine (q : Nat × Nat × Nat) : Bool := q.1 == h.core && q.2.1 == h.slot
  let n := (((dieAt s die).govQ.filter mine).map (fun q => cyclesSince s q.2.2)).foldl (· + ·) 0
  mapStrands (fun x => if whoIs x == whoIs h && x.core == h.core && x.run != .vacant then countIn 15 n x else x)
    (releaseStart die n ((dieAt s die).govQ.filter (fun q => !mine q)) s)

/-- R152: the convoy at a strand's pc has come back from a stop that was no trap, and owes element STIDX before it may stop
again. -/
def owesElement (s : State) (h : Strand) : Bool :=
  (h.run == .ready || h.run == .held) && (standOf h h.pc).owed &&
  match fetchWord { s with hart := h } h.pc with
  | .ok w => extensionWord w
  | .error _ => false

/-- R370: class-0 work waits for resources that this strand holds. -/
def neededByClass0 (s : State) (h : Strand) : Bool :=
  s.launches.any (fun l => awaitsPlace s l && pktClass l.pkt == 0 && !resourcesFree s l &&
    (launchGangs s l).contains (gangOf h.core))

/-- R370: of two strands, the first is stopped before the second: lower priority first, then later placed. -/
def stopsBefore (a b : Strand) : Bool := decide (b.cls < a.cls) || (a.cls == b.cls && decide (b.born < a.born))

/-- R370, R372: a launch fits now, or does once the first of a list of strands are stopped, of which the saves all find room. -/
def fitsAfter (l : Launch) : List Strand → State → Bool
  | [], s => resourcesFree s l
  | h :: t, s =>
    resourcesFree s l ||
    (match saveRoom s (dieOf h.core) (saveSize h) with
     | some excess => fitsAfter l t (mapStrands (fun x =>
         if whoIs x == whoIs h && holdsCore x then { x with preempted := true, spilled := excess } else x) s)
     | none => false)

/-- R370: the headframe holds the stopped strands of a core for class-0 work, which fits or will after further stops. -/
def class0Comes (s : State) (core : Nat) : Bool :=
  s.launches.any (fun l => awaitsPlace s l && pktClass l.pkt == 0 && (launchGangs s l).contains (gangOf core) &&
    fitsAfter l (sortBy stopsBefore ((allStrands s).filter (fun h => holdsCore h && h.cls != 0 &&
      (launchGangs s l).contains (gangOf h.core)))) s)

/-- R370: a pre-empted strand could return to its core now: its resources are free, and no class-0 work for which the headframe
stops strands is still to be placed there. -/
def canReturn (s : State) (h : Strand) : Bool := returnFits s h && !class0Comes s h.core

/-- R370: the strand is the one to stop for class-0 work. -/
def toPreempt (s : State) (h : Strand) : Bool :=
  holdsCore h && h.cls != 0 && neededByClass0 s h &&
  (allStrands s).all (fun x => !(holdsCore x && x.cls != 0 && neededByClass0 s x && stopsBefore x h))

/-- R370: the headframe goes on stopping strands for class-0 work: this one is next, of those that the work needs, and others
stand stopped for it. -/
def stopsOn (s : State) (h : Strand) : Bool :=
  toPreempt s h && class0Comes s h.core && (allStrands s).any (fun x => returnFits s x && class0Comes s x.core)

/-- R370, R372: stops the strand in focus and saves its allotment, `excess` bytes of the save to the spill area. -/
def preemptHart (excess : Nat) (s : State) : State :=
  let s := dropStarts s.hart (saveAllot s.hart s)
  { s with hart := { stopStrand s.hart with preempted := true, spilled := excess } }

/-- PREEMPT: the headframe stops a lower-class strand for class-0 work (R370), once its resumed convoy has gone on (R152);
without room for the save it does not begin (R372). -/
def execPreempt (core slot : Nat) (s : State) : Res :=
  match focusOn (fun h => inSlot core slot h && toPreempt s h && !owesElement s h) s with
  | some s =>
    match saveRoom s (dieOf s.hart.core) (saveSize s.hart) with
    | some excess => .next (preemptHart excess s)
    | none => .next s
  | none => .next s

/-- R63, R135: a strand that comes back performs the wait again that it was blocked in, one too that a flip had released
and whose release had not acted (log 46); any other owes the element at which it stopped (R152). -/
def comeBack (h : Strand) : Strand :=
  match h.run with
  | .waiting c n p _ sc => { h with run := .waiting c n p false sc }
  | _ => owe h

/-- R370: the strand in focus returns. -/
def returnHart (s : State) : State :=
  let s := restoreAllot s.hart s
  { s with hart := comeBack { s.hart with
      preempted := false
      spilled := 0
      rowBase := rowPlace s s.hart.core s.hart.height } }

/-- PREEMPT_RETURN: a pre-empted strand returns to its core and to its own allotment when the resources are free (R370). -/
def execPreemptReturn (core slot padOff : Nat) (s : State) : Res :=
  match focusOn (fun h => inSlot core slot h && canReturn s h && h.padOff == padOff) s with
  | some s => .next (returnHart s)
  | none => .next s

/-! ### Partition swap (R371, R372) -/

/-- The cores of a partition's gangs. -/
def partCores (s : State) (p : Nat) : List Nat :=
  coresOf ([0, 1, 2, 3].filterMap (fun v =>
    let g := bitsW (partOf s p).pgang (8 * v) 8
    if g < 128 then some g else none)).eraseDups

/-- R371: a partition's strand is halted and saved with it. -/
def swapStrand (p : Nat) (h : Strand) : Strand :=
  if h.run != .vacant && !onDeputy h && h.part == p then
    if h.preempted then { h with swapped := true } else { stopStrand h with swapped := true }
  else h

/-- R371, R272: bytes that the save of a partition takes on a die: the pads of its gangs there, and of each of its strands
what is not saved already, with its seam rows (R269). -/
def swapSize (s : State) (p die : Nat) : Nat :=
  ((partCores s p).filter (fun c => dieOf c == die)).length * Config.padBytes +
  (((allStrands s).filter (fun h => h.run != .vacant && !onDeputy h && h.part == p && dieOf h.core == die)).map (fun h =>
    h.seam.macros * 512 * 196 + if allotSaved h then 0 else saveSize h - h.padLen)).foldl (· + ·) 0

/-- R371: the partition is halted and saved, its pads with it, once the fills of its adapter contributions have come
(R272); `excess` are the bytes that go to each die's spill area. -/
def swapOutPart (p over0 over1 : Nat) (s : State) : State :=
  let s := fillAll (fun c => c.who.part == p) s
  let bytes := #v[swapSize s p 0, swapSize s p 1]
  let s := (partCores s p).foldl (fun s c => moveRange (padBase c) (savedPadBase p c) Config.padBytes s) s
  let s := (allStrands s).foldl (fun s h => if h.part = p ∧ !onDeputy h then dropStarts h s else s) s
  let s := mapStrands (swapStrand p) s
  setPart s p { partOf s p with swapReq := true, swapOut := true, swapBytes := bytes, swapSpilled := #v[over0, over1] }

/-- R152: a strand of a partition owes an element before it may stop. -/
def partOwes (s : State) (p : Nat) : Bool :=
  (allStrands s).any (fun h => !onDeputy h && h.part == p && !isOut h && owesElement s h)

/-- R371, R372: a partition that is not swapped out is, where both dies have room for its save, and its strands may stop. -/
def trySwapOut (p : Nat) (s : State) : State :=
  if (partOf s p).swapOut || partOwes s p then s
  else match saveRoom s 0 (swapSize s p 0), saveRoom s 1 (swapSize s p 1) with
  | some a, some b => swapOutPart p a b s
  | _, _ => s

/-- R371, R372: a PSWAP write of 1: with room for the save the partition is swapped out, and otherwise the request waits; of
a partition that is out already it ends a swap-in that waits. -/
def askSwapOut (part : Nat) (s : State) : State :=
  trySwapOut part (setPart s part { partOf s part with swapReq := true })

/-- PSWAP_SWAP_OUT: a PSWAP write of 1 (R371). -/
def execPswapSwapOut (part : Nat) (s : State) : Res := .next (askSwapOut part s)

/-- SWAP_OUT_COMPLETE: a pending swap-out finds room (R372). -/
def execSwapOutComplete (part : Nat) (s : State) : Res :=
  .next (if (partOf s part).swapReq then trySwapOut part s else s)

/-- R371: no strand of another partition holds a core of the partition, its macros are free in the gang, where a strand that is
stopped there keeps its own (R272), and its bells have room (R131). -/
def coresClear (s : State) (p : Nat) : Bool :=
  (partCores s p).all (fun c => (holders s c).all (fun h => h.part == p) &&
    decide (gangMacros s (gangOf c) (fun h => h.part == p) ≤ freeMacros s (gangOf c)) &&
    decide (bellsHeld s (gangOf c) + bellsHeld (setPart { s with launches := s.launches.filter (fun l => l.part == p) } p
      { partOf s p with swapOut := false }) (gangOf c) ≤ Config.coreBells))

/-- R371: a partition's strand returns. -/
def unswapStrand (p : Nat) (h : Strand) : Strand :=
  if h.swapped && h.part == p then comeBack { h with swapped := false } else h

/-- R371: a PSWAP write of 0: the request ends, and a swapped-out partition is restored with its pads, once its cores are
clear (log 46). -/
def swapIn (part : Nat) (s : State) : State :=
  let pt := partOf s part
  if pt.swapOut && coresClear s part then
    let s := (partCores s part).foldl (fun s c =>
      dropRange (savedPadBase part c) Config.padBytes (moveRange (savedPadBase part c) (padBase c) Config.padBytes s))
      (passGangs part ((partCores s part).map gangOf).eraseDups s)
    setPart (mapStrands (unswapStrand part) s) part
      { pt with swapReq := false, swapOut := false, swapBytes := #v[0, 0], swapSpilled := #v[0, 0] }
  else setPart s part { pt with swapReq := false }

/-- R371: a swap-in waits for its cores. -/
def swapInWaits (pt : Part) : Bool := pt.swapOut && !pt.swapReq

/-- PSWAP_SWAP_IN: a PSWAP write of 0, or the end of a swap-in that waits (R371). -/
def execPswapSwapIn (part : Nat) (s : State) : Res := .next (swapIn part s)

/-! ### Severance (R375) -/

/-- The launch's strands on the die other than its home. -/
def farStrand (l : Launch) (h : Strand) : Bool := strandsOf l.part l.serial h && dieOf h.core != l.home

/-- R375: strips granted and not closed, on both dies. -/
def openStrips (s : State) (l : Launch) : Nat :=
  ((allStrands s).filter (fun h => strandsOf l.part l.serial h && h.ctrl.stripLen != 0)).length

/-- R375, R376: the verdict of a severed launch, with its two counts. -/
def severedVerdict (s : State) (l : Launch) : Verdict :=
  { status := 4, info := 0, place := BitVec.ofNat 64 (openStrips s l * 2 ^ 48 + (pktN l.pkt - l.next)), aux := 0 }

/-- R99: the strips that stopped strands held open, returned to the pool by their bases. -/
def returnedStrips (hs : List Strand) (old : List (Nat × Nat)) : List (Nat × Nat) :=
  hs.foldl (fun l h => if h.ctrl.stripLen = 0 then l else insertRange (h.ctrl.stripBase.toNat, h.ctrl.stripLen.toNat) l)
    old

/-- R375, R350: the accepted drift work of the strands that satisfy `f` goes on to its ends before they stop: what needs the
severed crosscut ends with end 2 (log 67). -/
def finishDrifts (f : Strand → Bool) (s : State) : State :=
  ((allStrands s).filter f).foldl (fun s h =>
    match focusOn (fun x => x.run != .vacant && whoIs x == whoIs h) s with
    | some s => [0, 1, 2, 3].foldl (fun s n => finishChan n (2 ^ 50) s) (fillAll (fun c => c.who == whoIs h) s)
    | none => s) s

/-- R375: what severance does to one launch; one with no strand on the far die goes on untouched, with REPLAY clear too (log 67). -/
def severLaunch (l : Launch) (s : State) : State :=
  let far := (allStrands s).filter (farStrand l)
  if l.verdict.isSome || far.isEmpty then s
  else if !pktReplay l.pkt || (launchGangs s l).all (fun g => g / 64 != l.home) ||
      (l.severed && far.any (fun h => h.ctrl.stripLen != 0)) then
    endLaunch l.part l.serial (severedVerdict s l) (finishDrifts (strandsOf l.part l.serial) s)
  else
    let s := finishDrifts (farStrand l) s
    let s := mapLaunch l.part l.serial (fun l => { l with
      severed := true
      ended := l.ended + far.length
      returned := returnedStrips far l.returned
      replace := l.replace ++ (far.filter (fun h => h.ctrl.stripLen != 0)).map (·.index) }) s
    completeLaunch l.part l.serial (removeStrands (farStrand l) s)

/-- CROSSCUT_SEVERANCE: the crosscut fails; messages between the dies are lost (R395), far strands stop, and launches go on
by replay or end SEVERED (R375). -/
def execCrosscutSeverance (s : State) : Res :=
  .next (s.launches.foldl (fun s l => severLaunch l s) (severMsgs { s with crosscut := false }))

/-- CROSSCUT_RESTORE: the crosscut comes back into service (R375). -/
def execCrosscutRestore (s : State) : Res := .next { s with crosscut := true }

end Sys2Proof.Machine
end

