-- ==== Sys2Proof/Machine/HostLink.lean ====
section
/-!
DEFINITION. What the host, the firmware download and the chip's surroundings do (R252, R319, R359, R372, R382–R388,
R406–R413, R219): page-request answers, BAR accesses, registers, resets, telemetry and errors.
-/
namespace Sys2Proof.Machine

open Sys2Proof

/-! ### Page requests (R252, R386) -/

/-- R252: a copy of the record with another kind. -/
def withKind (r : List Word) (kind : Nat) : List Word := setBitsW (r.getD 0 0) 52 4 kind :: r.drop 1

/-- R252: an answer to a request: a stale one is discarded and counted, any other queues its record, as it was taken
(log 68). -/
def answerReq (part : Nat) (r : PageReq) (kind : Nat) (s : State) : State :=
  let pt := partOf s part
  let s := setPart s part { pt with pgreqs := pt.pgreqs.filter (fun x => x.idx != r.idx)
                                    stale := if r.gen = pt.gen then pt.stale else pt.stale + 1 }
  if r.gen = pt.gen then queueRecords r.die [{ words := withKind r.record kind, fresh := false, who := none, chan := none }] s else s

/-- The outstanding request of an index. -/
def reqOf (s : State) (part idx : Nat) : Option PageReq := (partOf s part).pgreqs.find? (fun r => r.idx == idx)

/-- PAGE_REQUEST_SUCCESS: a Success answer queues the record with kind 6 (R252). -/
def execPageRequestSuccess (part idx : Nat) (s : State) : Res :=
  match reqOf s part idx with
  | some r => .next (answerReq part r 6 s)
  | none => .next s

/-- PAGE_REQUEST_INVALID: an Invalid Request answer queues the record with kind 7 (R252). -/
def execPageRequestInvalid (part idx : Nat) (s : State) : Res :=
  match reqOf s part idx with
  | some r => .next (answerReq part r 7 s)
  | none => .next s

/-- PAGE_REQUEST_RESPONSE_FAILURE: every outstanding request of the function queues kind 7, and requests stop (R252,
R386). -/
def execPageRequestResponseFailure (part : Nat) (s : State) : Res :=
  let s := (partOf s part).pgreqs.foldl (fun s r => answerReq part r 7 s) s
  .next (setPart s part { partOf s part with priFailed := true })

/-- PRI_RESET_ENABLE: the driver re-enables page requests (R386). -/
def execPriResetEnable (part : Nat) (s : State) : Res :=
  .next (setPart s part { partOf s part with priFailed := false })

/-! ### BAR accesses (R383, R384, R388, R408) -/

/-- R383: the home of a byte of a virtual BAR2; the host reaches both dies by its own links. -/
def hostHome (s : State) (part va : Nat) (kind : Kind) : Option (Nat × Bool) :=
  (headHome { s with crosscut := true } part 0 va kind).map (fun x => (x.1, x.2.2))

/-- R383: the virtual address of an offset of a virtual BAR2. -/
def barVa (s : State) (part off : Nat) : Nat := bitsW (partOf s part).vwin 36 12 * 2 ^ 36 + off % 2 ^ 36

/-- A reply to the host. -/
def hostReply (r : HostReply) (s : State) : State := { s with replies := r :: s.replies }

/-- R359, R391: a partition register as it reads; PSWAP shows the request and whether the partition is out (R371). -/
def readPart (s : State) (part off : Nat) : Word :=
  let pt := partOf s part
  if off = 0x000 then pt.pgang
  else if off = 0x008 then pt.psump0
  else if off = 0x010 then pt.psump1
  else if 0x018 ≤ off ∧ off ≤ 0x070 then pt.quota[(off - 0x018) / 8 % 12]'(Nat.mod_lt _ (by decide))
  else if off = 0x078 then pt.pring
  else if off = 0x080 then pt.prhead
  else if off = 0x088 then pt.prtail
  else if off = 0x090 then BitVec.ofNat 64 (pt.swapOut.toNat * 2 + pt.swapReq.toNat)
  else if off = 0x098 then pt.ppeer
  else if off = 0x0A0 then pt.ppriv
  else 0

/-- The number of the home whose eviction counter lies at an offset (R406). -/
def counterHome (off : Nat) : Option Nat :=
  if 0x2_0000 ≤ off ∧ off < 0x2_1000 ∧ off % 8 = 0 then some ((off - 0x2_0000) / 8)
  else if 0x2_1000 ≤ off ∧ off < 0x2_1000 + 8 * 192 ∧ off % 8 = 0 then some (1024 + (off - 0x2_1000) / 8)
  else if 0x2_1800 ≤ off ∧ off < 0x2_1800 + 8 * 12 ∧ off % 8 = 0 then some (2048 + (off - 0x2_1800) / 8)
  else none

/-- R17: a register of BAR0 of the physical function as it reads (R319, R359, R372, R406, R407); WO bits, reserved bits and
offsets without a register read zero. -/
def readReg (s : State) (off : Nat) : Word :=
  if off < 0x2_0000 then readPart s (off / 0x1000) (off % 0x1000)
  else match counterHome off with
  | some home => smGet 0 s.evicted home
  | none =>
    if off = 0x3_0000 then s.fwaddr
    else if off = 0x3_0008 then s.fwlen
    else if off = 0x3_0010 then
      BitVec.ofNat 64 (s.fwHalted.toNat * 2 ^ 16 + s.fwReason.toNat * 2 ^ 8 + s.fwState.toNat * 2 ^ 4)
    else if off = 0x3_0020 then (dieAt s 0).didt
    else if off = 0x3_0028 then (dieAt s 1).didt
    else if off = 0x3_0040 then s.telbase
    else if off = 0x3_0048 then s.telctl
    else if off = 0x3_0060 then (dieAt s 0).spillB
    else if off = 0x3_0068 then (dieAt s 0).spillN
    else if off = 0x3_0070 then (dieAt s 1).spillB
    else if off = 0x3_0078 then (dieAt s 1).spillN
    else if 0x3_0100 ≤ off ∧ off < 0x3_0100 + 16 * 12 then
      let e := engineAt s ((off - 0x3_0100) / 16)
      if off % 16 = 0 then e.poolB else if off % 16 = 8 then e.poolN else 0
    else 0

/-- R383: a register of BAR0 of virtual function `part` as it reads. -/
def readVirtReg (s : State) (part off : Nat) : Word :=
  if off = 0x2000 then (partOf s part).prhead
  else if off = 0x2008 then (partOf s part).prtail
  else if off = 0x3000 then (partOf s part).vwin
  else 0

/-- `len` bytes from an offset of a register space on. -/
def regBytes (read : Nat → Word) (addr len : Nat) : List Byte :=
  (List.range len).map (fun i => BitVec.ofNat 8 (bitsW (read ((addr + i) / 8 * 8)) ((addr + i) % 8 * 8) 8))

/-- A completion with data, or Unsupported Request. -/
def completion : Option (List Byte) → HostReply
  | some bs => .data bs
  | none => .unsupported

/-- HOST_BAR_READ: a read of BAR0 or BAR2 of the physical function (32) or of virtual function `fn` (R383, R388, R409).
The physical function too answers Unsupported Request while a stream of its own is Insecure (log 69), and a byte with an
uncorrectable error reads as it is stored (log 44). -/
def execHostBarRead (fn bar addr len : Nat) (s : State) : Res :=
  let refused := (fn != 32 && s.fwState != 2) || insecureFn s fn || decide (32 < fn)
  .next (hostReply (completion (
    if refused then none
    else match bar with
    | 0 => some (regBytes (if fn = 32 then readReg s else readVirtReg s fn) addr len)
    | 2 =>
      if fn = 32 then
        some ((List.range len).map (fun i =>
          if populated ((addr + i) % 2 ^ 42) then memByte s ((addr + i) % 2 ^ 42) else 0xFF))
      else ((List.range len).mapM (fun i => hostHome s fn (barVa s fn (addr + i)) .read)).map
        (fun ks => ks.map (fun k => memByte s k.1))
    | _ => none)) s)

/-- R408: the bytes of physical BAR2 that accept writes: all while the firmware runs, else the first 64 MiB of stack 0. -/
def physWritable (s : State) (k : Nat) : Bool := populated k && (s.fwState == 2 || decide (k < 2 ^ 26))

/-- Writes bytes of physical BAR2; those that no memory takes are dropped (R383). -/
def physWrite : Nat → List Byte → State → State
  | _, [], s => s
  | k, b :: bs, s =>
    let a := k % 2 ^ 42
    physWrite (k + 1) bs (if physWritable s a then memPut s a [b] else s)

/-- R383, R332: every byte of a virtual write has a home, and none waits for a block that the engine does not find. -/
def virtWritable (s : State) (part : Nat) (vas : List Nat) : Bool :=
  vas.all (fun va => match hostHome s part va .write with
    | some (_, cow) => !(cow && cowExhausted s part va)
    | none => false)

/-- Writes bytes through a partition's translation, each after the copy-on-write step it needs. -/
def virtWrite (part : Nat) : List (Nat × Byte) → State → State
  | [], s => s
  | (va, b) :: t, s =>
    let s := match hostHome s part va .write with
      | some (_, true) => cowStep part va s
      | _ => s
    virtWrite part t (match hostHome s part va .write with
      | some (k, _) => memPut s k [b]
      | none => s)

/-- HOST_BAR_WRITE: a write of BAR2 of the physical function (32) or of a virtual function; a virtual write that cannot be
made is dropped and counted (R383), one too whose copy-on-write finds no block, of which no deputy hears; so is every one before
RUNNING, when physical BAR2 alone accepts writes (R408; log 44). -/
def execHostBarWrite (fn addr : Nat) (data : List Byte) (s : State) : Res :=
  if fn = 32 then .next (physWrite addr data s)
  else if 32 < fn then .next s
  else
    let vas := (List.range data.length).map (fun i => barVa s fn (addr + i))
    if s.fwState = 2 ∧ virtWritable s fn vas then .next (virtWrite fn (vas.zip data) s)
    else .next (setPart s fn { partOf s fn with dropped := (partOf s fn).dropped + 1 })

/-! ### Registers (R319, R359, R372, R406, R407) -/

/-- R319: a pool lies wholly in its engine's stack. -/
def poolOk (eng : Nat) (b n : Word) : Bool :=
  let base := bitsW b 16 26 * 2 ^ 16
  bitsW n 0 32 == 0 || (base / 2 ^ 37 == eng && decide (base % 2 ^ 37 + bitsW n 0 32 * 2 ^ 16 ≤ Config.stackBytes))

/-- R319, R320: a write of CPOOLB (or with `count` CPOOLN) of an engine: ignored where it breaks the rule or a sequence is
open, else the free list is rebuilt and every block of the pool zeroed. -/
def writePool (eng : Nat) (count : Bool) (v : Word) (s : State) : State :=
  let e := engineAt s eng
  let b := if count then e.poolB else v &&& 0x3FF_FFFF_0000
  let n := if count then v &&& 0xFFFF_FFFF else e.poolN
  if 12 ≤ eng ∨ !poolOk eng b n ∨ e.seqs.any (fun q => q.2.live) then s
  else
    let lo := bitsW b 16 26 * 2 ^ 16
    let len := bitsW n 0 32 * 2 ^ 16
    setEngine { dropRange lo len s with
      dcache := s.dcache.filter (fun x => !(decide (lo / 8 ≤ x.1 % 2 ^ 46) && decide (x.1 % 2 ^ 46 < (lo + len) / 8))) }
      eng { e with poolB := b, poolN := n, counts := [], used := [] }

/-- CLAIM_POOL_WRITE: a write of a pool register of an engine (R319). -/
def execClaimPoolWrite (eng : Nat) (count : Bool) (v : Word) (s : State) : Res := .next (writePool eng count v s)

/-- R359: the partition holds a job. -/
def holdsJob (s : State) (part : Nat) : Bool := liveJobs s part != 0

/-- R309: a 64 KiB piece of a sump passes to a partition: it is zeroed where another held it last, but for the top 8 KiB of
the sump, which no window includes (R308). -/
def passPiece (part k : Nat) (s : State) : State :=
  let old := smGet 0 s.sumpOwner k
  let s' := { s with sumpOwner := smSet 0 s.sumpOwner k (part + 1) }
  if old = 0 ∨ old = part + 1 then s'
  else dropRange (k * 2 ^ 16) (Nat.min (2 ^ 16) (Config.frqOffset - k * 2 ^ 16 % 2 ^ 27)) s'

/-- R308: the pieces of a window, by physical 64 KiB piece. -/
def windowPieces (die : Nat) (w : Word) : List Nat :=
  ((List.range (Config.sumpBytes / 2 ^ 16)).filter (fun i =>
    decide (bitsW w 0 32 ≤ i * 2 ^ 16) && decide (i * 2 ^ 16 < bitsW w 0 32 + bitsW w 32 32))).map
    (fun i => sumpBase die / 2 ^ 16 + i)

/-- R359: a write of a partition register at an offset. -/
def writePart (part off : Nat) (v : Word) (s : State) : State :=
  let pt := partOf s part
  if off = 0x000 then
    if holdsJob s part then s
    else [0, 1, 2, 3].foldl (fun s i => passGang part (bitsW v (8 * i) 8) s)
      (setPart s part { pt with pgang := v &&& 0xFFFF_FFFF })
  else if off = 0x008 then
    if holdsJob s part ∨ bitsW v 0 16 ≠ 0 ∨ bitsW v 32 16 ≠ 0 then s
    else (windowPieces 0 v).foldl (fun s k => passPiece part k s) (setPart s part { pt with psump0 := v })
  else if off = 0x010 then
    if holdsJob s part ∨ bitsW v 0 16 ≠ 0 ∨ bitsW v 32 16 ≠ 0 then s
    else (windowPieces 1 v).foldl (fun s k => passPiece part k s) (setPart s part { pt with psump1 := v })
  else if 0x018 ≤ off ∧ off ≤ 0x070 ∧ off % 8 = 0 then
    setPart s part { pt with quota := pt.quota.set ((off - 0x018) / 8 % 12) (v &&& 0xFFFF_FFFF)
                                       (Nat.mod_lt _ (by decide)) }
  else if off = 0x078 then setPart s part { pt with pring := v }
  else if off = 0x080 then setPart s part { pt with prhead := v &&& 0xFFF }
  else if off = 0x090 then if bitW v 0 then askSwapOut part s else swapIn part s
  else if off = 0x098 then setPart s part { pt with ppeer := v &&& 0xFFFF }
  else if off = 0x0A0 then if holdsJob s part then s else setPart s part { pt with ppriv := v &&& 1 }
  else s

/-- R372: the spill area of a die holds saved state. -/
def spillBusy (s : State) (die : Nat) : Bool :=
  spillUsed s die != 0

/-- R372: the spill area lies in the stacks of its own die. -/
def spillOk (die : Nat) (b n : Word) : Bool :=
  let base := bitsW b 16 26 * 2 ^ 16
  let len := bitsW n 0 32 * 2 ^ 16
  len == 0 || (base / 2 ^ 37 / 6 == die && decide (base / 2 ^ 37 < 12) &&
    decide (base % 2 ^ 37 + len ≤ Config.stackBytes))

/-- R372: a write of SPILLB or SPILLN. -/
def writeSpill (die : Nat) (b n : Word) (s : State) : State :=
  if spillBusy s die || !spillOk die b n then s
  else setDie s die { dieAt s die with spillB := b, spillN := n }

/-- R407: a write of 1 to go starts the verification of the staged image in LOCKED or REJECTED. DESIGN CHOICE (log 16): it clears
reason. -/
def firmwareGo (s : State) : State :=
  if s.fwState = 0 ∨ s.fwState = 3 then { s with fwState := 1, fwReason := 0 } else s

/-- R411: a write of 16 to 512 sets a die's limit; any other leaves it. -/
def writeDidt (die : Nat) (v : Word) (s : State) : State :=
  if 16 ≤ bitsW v 0 10 ∧ bitsW v 0 10 ≤ 512 then setDie s die { dieAt s die with didt := v &&& 0x3FF } else s

/-- R412: a write of TELCTL; turning sampling on resets n on both dies. -/
def writeTelctl (v : Word) (s : State) : State :=
  let on := bitW v 0 && !bitW s.telctl 0
  { s with telctl := v &&& 0x1F, dies := if on then s.dies.map (fun d => { d with teln := 0 }) else s.dies }

/-- A write of a register at an offset of BAR0 of the physical function (R319, R359, R372, R406, R407). -/
def writeReg (off : Nat) (v : Word) (s : State) : State :=
  if off < 0x2_0000 then writePart (off / 0x1000) (off % 0x1000) v s
  else match counterHome off with
  | some home => { s with evicted := smSet 0 s.evicted home v }
  | none =>
  if off = 0x3_0000 then
    if s.fwState = 0 ∨ s.fwState = 3 then { s with fwaddr := v &&& 0x3FF_FFFF_F000 } else s
  else if off = 0x3_0008 then
    if s.fwState = 0 ∨ s.fwState = 3 then { s with fwlen := v &&& 0x7FF_FFFF } else s
  else if off = 0x3_0010 then if bitW v 0 then firmwareGo s else s
  else if off = 0x3_0020 then writeDidt 0 v s
  else if off = 0x3_0028 then writeDidt 1 v s
  else if off = 0x3_0040 then { s with telbase := v &&& ~~~0xFFF }
  else if off = 0x3_0048 then writeTelctl v s
  else if off = 0x3_0060 then writeSpill 0 (v &&& 0x3FF_FFFF_0000) (dieAt s 0).spillN s
  else if off = 0x3_0068 then writeSpill 0 (dieAt s 0).spillB (v &&& 0xFFFF_FFFF) s
  else if off = 0x3_0070 then writeSpill 1 (v &&& 0x3FF_FFFF_0000) (dieAt s 1).spillN s
  else if off = 0x3_0078 then writeSpill 1 (dieAt s 1).spillB (v &&& 0xFFFF_FFFF) s
  else if 0x3_0100 ≤ off ∧ off < 0x3_0100 + 16 * 12 ∧ off % 8 = 0 then
    writePool ((off - 0x3_0100) / 16) (off % 16 == 8) v s
  else s

/-- R383: a write of a register at an offset of BAR0 of virtual function `part`. -/
def writeVirtReg (part off : Nat) (v : Word) (s : State) : State :=
  if off = 0x2000 then setPart s part { partOf s part with prhead := v &&& 0xFFF }
  else if off = 0x3000 then setPart s part { partOf s part with vwin := v &&& 0xFFF0_0000_0000 }
  else s

/-- REGISTER_WRITE: a write to a device or partition register (R17): offsets below 0x4_0000 are BAR0 of the physical function,
from there on the 16 KiB BAR0 of each virtual function in turn (R383), and then the enables of the virtual functions in the
SR-IOV capability (R382, R357; log 44). -/
def execRegisterWrite (off : Nat) (v : Word) (s : State) : Res :=
  if off < 0x4_0000 then .next (writeReg off v s)
  else if off < 0x4_0000 + 32 * 0x4000 then
    .next (writeVirtReg ((off - 0x4_0000) / 0x4000) ((off - 0x4_0000) % 0x4000) v s)
  else if off < 0xC_0000 + 8 * 32 ∧ off % 8 = 0 then
    let fn := (off - 0xC_0000) / 8
    .next (setPart s fn { partOf s fn with disabled := !bitW v 0 })
  else .next s

/-! ### Firmware (R408, R409) -/

/-- FIRMWARE_GO: a write of 1 to go (R407). -/
def execFirmwareGo (s : State) : Res := .next (firmwareGo s)

/-- R409: a deputy's strand as the firmware starts. DESIGN CHOICE (log 51): without a packet its NODETECT is clear (R59). -/
def deputyStrand (s : State) (die n : Nat) (entry : BitVec 48) : Strand :=
  { Strand.vacant with core := 0x200 + die * 256 + n, run := .ready, pc := entry, born := s.tick, stamp := s.tick }

/-- R408: the staged image. -/
def stagedImage (s : State) : List Byte := memBytes s s.fwaddr.toNat s.fwlen.toNat

/-- R407, R408: the first check that a staged image fails, in the order 3, 1, 2, 4, or 0: its form (its length and place
among it), its two signatures, and its version (log 16). -/
def imageReason (s : State) : BitVec 8 :=
  let n := s.fwlen.toNat
  let bs := stagedImage s
  if n = 0 ∨ 2 ^ 26 < n ∨ !populated s.fwaddr.toNat ∨ sumpBase 0 ≤ s.fwaddr.toNat ∨ !populated (s.fwaddr.toNat + n - 1) ∨
      !Config.imageFormed bs then 3
  else if !Config.imageSigned 0 bs then 1
  else if !Config.imageSigned 1 bs then 2
  else if Config.imageVersion bs < Config.minVersion then 4
  else 0

/-- Writes bytes of HBM, each at its own address; other addresses take none. -/
def putCode : List (Nat × Byte) → State → State
  | [], s => s
  | (k, b) :: t, s => putCode t (if populated k && decide (k < sumpBase 0) then memPut s k [b] else s)

/-- R409, R410: the accepted image starts on the four deputies, its code in memory (log 16); then the staging area is zeroed,
DIDT is 512, and the state is RUNNING. DESIGN CHOICE (log 16): the staging area is the FWLEN bytes from FWADDR. The device has
measured the image. Each deputy's strand begins with an acquire (R50). -/
def startFirmware (s : State) : State :=
  let bs := stagedImage s
  let entry := Config.imageEntry bs &&& ~~~3
  let s := { putCode (Config.imageCode bs) s with measured := some (sha384 bs, Config.imageVersion bs) }
  let s := { s with rest := s.rest ++ [deputyStrand s 0 0 entry, deputyStrand s 0 1 entry, deputyStrand s 1 0 entry,
                                       deputyStrand s 1 1 entry] }
  let s := [0x200, 0x201, 0x300, 0x301].foldl (fun s c => dropCache c s) (dropRange s.fwaddr.toNat s.fwlen.toNat s)
  { s with dies := s.dies.map (fun d => { d with didt := 512 }), fwState := 2, fwReason := 0 }

/-- FIRMWARE_VERIFY_DONE: verification ends: the image is accepted and starts, or is rejected with a reason (R408, R409). -/
def execFirmwareVerifyDone (s : State) : Res :=
  if s.fwState ≠ 1 then .next s
  else if imageReason s = 0 then .next (startFirmware s)
  else .next { s with fwState := 3, fwReason := imageReason s }

/-- R410: a response issued twice, signed under chain 0 and under chain 1. -/
def signTwice (r : Nat → HostReply) (s : State) : State := hostReply (r 1) (hostReply (r 0) s)

/-- The key of the IDE stream of a function and link. -/
def streamKey (fn link : Nat) : Nat := fn * 2 + link % 2

/-- R410: the answer to a request of SPDM while the firmware runs. Keys of an IDE stream need a session whose keys were
exchanged under both algorithms (log 69). -/
def answerSpdm (r : Spdm) (s : State) : State :=
  match r with
  | .certificate alg => hostReply (if alg < 2 then .spdmChain alg else .spdmRefused) s
  | .challenge => signTwice .spdmSigned s
  | .measurements signed =>
    match s.measured with
    | none => hostReply .spdmRefused s
    | some m =>
      if signed then signTwice (fun alg => .spdmMeasured m.1 m.2 (some alg)) s
      else hostReply (.spdmMeasured m.1 m.2 none) s
  | .keyExchange alg =>
    if alg < 2 then hostReply (.spdmSigned alg) { s with session := s.session ||| (1 <<< alg) }
    else hostReply .spdmRefused s
  | .endSession => hostReply .spdmPlain { s with session := 0 }
  | .ideKey fn link =>
    if s.session = 3 ∧ fn ≤ 32 ∧ link < 2 then
      hostReply .spdmPlain { s with streams := smSet .unkeyed s.streams (streamKey fn link) .secure }
    else hostReply .spdmRefused s

/-- R409, R416: attestation is the work of deputy 1 of a die; with both of them halted it waits. -/
def attests (s : State) : Bool := s.fwHalted &&& 0b1010 != 0b1010

/-- SPDM_REQUEST: Busy before RUNNING (R410); a request that no deputy serves waits until the device resets (R416). -/
def execSpdmRequest (req : Spdm) (s : State) : Res :=
  .next (if s.fwState ≠ 2 then hostReply .spdmBusy s else if attests s then answerSpdm req s else s)

/-! ### Power, heat and telemetry (R411–R413) -/

/-- DIDT_WRITE: a write of a die's DIDT (R411). -/
def execDidtWrite (die : Nat) (v : Word) (s : State) : Res := .next (writeDidt die v s)

/-- TELEMETRY_ENABLE: a write of TELCTL (R412). -/
def execTelemetryEnable (v : Word) (s : State) : Res := .next (writeTelctl v s)

/-- R412: the sample of a die: what its sensors read is free, and `held` is the cycles that its governor has held starts
since reset (R413; log 7). -/
def telemetryWords (s : State) (die : Nat) : List Word :=
  let d := dieAt s die
  let t (i : Nat) : Word := Config.telemetry s.tick (2 * i + die % 2)
  [cycleOf s (die % 2), BitVec.ofNat 64 (d.teln % 2 ^ 32 * 2 ^ 32 + die % 2), t 2,
   setBitsW (setBitsW (t 3) 16 16 d.didt.toNat) 0 16 (Nat.min 65535 (d.delay / 1024)), t 4, t 5, BitVec.ofNat 64 d.soft, 0]

/-- TELEMETRY_SAMPLE: a die writes its sample to the host's ring (R412). -/
def execTelemetrySample (die : Nat) (s : State) : Res :=
  if !bitW s.telctl 0 then .next s
  else
    let d := dieAt s die
    let slot := (2 * d.teln + die % 2) % 2 ^ (bitsW s.telctl 1 4 + 6)
    let s' := { s with hostMem := smWrite 0 s.hostMem (s.telbase.toNat + 64 * slot) (dwordBytes (telemetryWords s die)) }
    .next (setDie s' die { d with teln := d.teln + 1 })

/-- THERMAL_THROTTLE: the governor of a die also holds the die's power, or no longer does (R413): timing only. -/
def execThermalThrottle (die : Nat) (hot : Bool) (s : State) : Res := .next (setDie s die { dieAt s die with hot := hot })

/-! ### Resets and errors (R387, R388, R413, R219) -/

/-- R387: the whole device resets. What is outside it stays: host memory, what the host has been sent, the crosscut's
condition, the link's own enables, and the state's own choices. -/
def resetDevice (s : State) : State :=
  { State.reset with
    hostMem := s.hostMem, interrupts := s.interrupts, replies := s.replies, crosscut := s.crosscut, turns := s.turns,
    pageMsgs := s.pageMsgs, hits := s.hits, fetchHits := s.fetchHits, lateFills := s.lateFills, tick := s.tick, resetTick := s.tick }

/-- DEVICE_RESET: power-up, a conventional reset or a Function Level Reset of the physical function (R387, R408). -/
def execDeviceReset (s : State) : Res := .next (resetDevice s)

/-- THERMAL_TRIP: at 115 °C the module stops and resets as a whole (R413). -/
def execThermalTrip (s : State) : Res := .next (resetDevice s)

/-- R387, R364, R44: the messages of a partition's strands that wait at pads of this device are performed, and have nothing to
give back. Those that another device has still to answer, and the contributions to a round, stay out. -/
def finishMsgs (part : Nat) (s : State) : State :=
  let s := s.msgs.zipIdx.foldl (fun s x =>
    if x.1.who.part = part ∧ x.1.toPad ∧ !msgAbroad x.1 ∧ x.1.stage = .sent then applyOwn x.1 x.2 s else s) s
  { s with msgs := s.msgs.filter (fun m => !(m.who.part == part && m.toPad && !(msgAbroad m && m.stage == .sent))) }

/-- R387, R364: after the kill, the statuses of the partition's launches are written whose accepted work has completed, and its
jobs are terminal. A launch that still has work out, and its job, report when that has completed, and the reset with them. -/
def closeJobs (part : Nat) (s : State) : State :=
  let s : State := { s with launches := s.launches.map (fun l =>
    if l.part = part ∧ l.verdict.isSome ∧ workDone s l then { l with written := true } else l) }
  { s with jobs := s.jobs.map (fun j => if j.part = part ∧ j.verdict.isNone then
      { j with
        verdict := some { status := 3, info := 0, place := 0, aux := 0 }
        written := if jobSettled s j then j.written ++ [(4, 0, 0, 3)] else j.written }
      else j) }

/-- Writes up to `n` records of a partition to its ring. -/
def reportMany (part : Nat) : Nat → State → State
  | 0, s => s
  | n + 1, s => reportMany part n (reportNext part s)

/-- FUNCTION_LEVEL_RESET: a virtual function's reset kills its partition and writes every status record of it; those that do
not fit, and those whose launches still have work out, are held (R44, R387; log 49). Its sequences stay; DESIGN CHOICE (log 44):
no event passes a partition to another owner, at which the device would close them. -/
def execFunctionLevelReset (part : Nat) (s : State) : Res :=
  let s := closeJobs part (finishMsgs part (killPart part s))
  .next (reportMany part (s.jobs.length + s.launches.length) s)

/-- IDE_INTEGRITY_FAIL: the TLP is dropped, and the keyed stream of its function and link becomes Insecure (R388). -/
def execIdeIntegrityFail (fn link : Nat) (s : State) : Res :=
  if smGet .unkeyed s.streams (streamKey fn link) = .unkeyed then .next s
  else .next { s with streams := smSet .unkeyed s.streams (streamKey fn link) .insecure }

/-- R219, R309, R412: an error in a cell of HBM (tier 0) or a sump (1), by physical address, or of a pad (2), by
`core * 2^19 + offset`; `none` where the tier has no such cell. -/
def cellKey (tier : BitVec 2) (cell : Nat) : Option Nat :=
  let k := if tier = 2 then 2 ^ 42 + cell else cell
  if tier.toNat = tierOf k ∧ (if tier = 2 then cell < 512 * 2 ^ 19 else populated k) then some k else none

/-- A corrected error counts on its die (R412). -/
def countSoft (die : Nat) (s : State) : State := setDie s die { dieAt s die with soft := (dieAt s die).soft + 1 }

/-- SOFT_ERROR: a cell suffers an error, which ECC corrects and counts, or which stays uncorrectable in a byte of memory or
in bit `cell mod 2048` of row `cell div 2048` of a strand's stope allotment (R219, R146). -/
def execSoftError (tier : BitVec 2) (cell core slot : Nat) (uncorrectable : Bool) (s : State) : Res :=
  if tier = 3 then
    if uncorrectable then
      .next (mapStrands (fun h =>
        if inSlot core slot h && decide (cell / 2048 < h.height) then
          { h with badBits := smSet 0 h.badBits (cell / 2048) (smGet 0 h.badBits (cell / 2048) ||| oneBit (cell % 2048)) }
        else h) s)
    else .next (countSoft (dieOf core) s)
  else match cellKey tier cell with
  | some k =>
    if uncorrectable then .next { s with bad := smSet false s.bad k true } else .next (countSoft (dieOfKey k) s)
  | none => .next s

end Sys2Proof.Machine
end

