-- ==== Sys2Proof/Machine/Dispatch.lean ====
section
/-!
DEFINITION. The one dispatch: every constructor of `Instr` to its meaning.
-/
namespace Sys2Proof.Machine

open Sys2Proof

/-- The effect of an instruction word on the strand in focus, or of an event on the machine. -/
def exec (i : Instr) (s : State) : Host.Outcome State Fault Refusal :=
  match i with
  | .add gd ga gb => Sys2Proof.Machine.execAdd gd ga gb s
  | .sub gd ga gb => Sys2Proof.Machine.execSub gd ga gb s
  | .and gd ga gb => Sys2Proof.Machine.execAnd gd ga gb s
  | .or gd ga gb => Sys2Proof.Machine.execOr gd ga gb s
  | .xor gd ga gb => Sys2Proof.Machine.execXor gd ga gb s
  | .andn gd ga gb => Sys2Proof.Machine.execAndn gd ga gb s
  | .sll gd ga gb => Sys2Proof.Machine.execSll gd ga gb s
  | .srl gd ga gb => Sys2Proof.Machine.execSrl gd ga gb s
  | .sra gd ga gb => Sys2Proof.Machine.execSra gd ga gb s
  | .rol gd ga gb => Sys2Proof.Machine.execRol gd ga gb s
  | .slt gd ga gb => Sys2Proof.Machine.execSlt gd ga gb s
  | .sltn gd ga gb => Sys2Proof.Machine.execSltn gd ga gb s
  | .min gd ga gb => Sys2Proof.Machine.execMin gd ga gb s
  | .max gd ga gb => Sys2Proof.Machine.execMax gd ga gb s
  | .minn gd ga gb => Sys2Proof.Machine.execMinn gd ga gb s
  | .maxn gd ga gb => Sys2Proof.Machine.execMaxn gd ga gb s
  | .addw gd ga gb => Sys2Proof.Machine.execAddw gd ga gb s
  | .subw gd ga gb => Sys2Proof.Machine.execSubw gd ga gb s
  | .mul gd ga gb => Sys2Proof.Machine.execMul gd ga gb s
  | .mulh gd ga gb => Sys2Proof.Machine.execMulh gd ga gb s
  | .mulhn gd ga gb => Sys2Proof.Machine.execMulhn gd ga gb s
  | .div gd ga gb => Sys2Proof.Machine.execDiv gd ga gb s
  | .divn gd ga gb => Sys2Proof.Machine.execDivn gd ga gb s
  | .rem gd ga gb => Sys2Proof.Machine.execRem gd ga gb s
  | .remn gd ga gb => Sys2Proof.Machine.execRemn gd ga gb s
  | .clz gd ga => Sys2Proof.Machine.execClz gd ga s
  | .ctz gd ga => Sys2Proof.Machine.execCtz gd ga s
  | .popc gd ga => Sys2Proof.Machine.execPopc gd ga s
  | .sextb gd ga => Sys2Proof.Machine.execSextb gd ga s
  | .sexth gd ga => Sys2Proof.Machine.execSexth gd ga s
  | .sextw gd ga => Sys2Proof.Machine.execSextw gd ga s
  | .zextb gd ga => Sys2Proof.Machine.execZextb gd ga s
  | .zexth gd ga => Sys2Proof.Machine.execZexth gd ga s
  | .zextw gd ga => Sys2Proof.Machine.execZextw gd ga s
  | .bswap gd ga => Sys2Proof.Machine.execBswap gd ga s
  | .addi gd ga imm => Sys2Proof.Machine.execAddi gd ga imm s
  | .andi gd ga imm => Sys2Proof.Machine.execAndi gd ga imm s
  | .ori gd ga imm => Sys2Proof.Machine.execOri gd ga imm s
  | .xori gd ga imm => Sys2Proof.Machine.execXori gd ga imm s
  | .slti gd ga imm => Sys2Proof.Machine.execSlti gd ga imm s
  | .sltni gd ga imm => Sys2Proof.Machine.execSltni gd ga imm s
  | .slli gd ga sh => Sys2Proof.Machine.execSlli gd ga sh s
  | .srli gd ga sh => Sys2Proof.Machine.execSrli gd ga sh s
  | .srai gd ga sh => Sys2Proof.Machine.execSrai gd ga sh s
  | .roli gd ga sh => Sys2Proof.Machine.execRoli gd ga sh s
  | .lih gd imm => Sys2Proof.Machine.execLih gd imm s
  | .pcadd gd imm => Sys2Proof.Machine.execPcadd gd imm s
  | .ldB gd ga off => Sys2Proof.Machine.execLdB gd ga off s
  | .ldBn gd ga off => Sys2Proof.Machine.execLdBn gd ga off s
  | .ldH gd ga off => Sys2Proof.Machine.execLdH gd ga off s
  | .ldHn gd ga off => Sys2Proof.Machine.execLdHn gd ga off s
  | .ldW gd ga off => Sys2Proof.Machine.execLdW gd ga off s
  | .ldWn gd ga off => Sys2Proof.Machine.execLdWn gd ga off s
  | .ldD gd ga off => Sys2Proof.Machine.execLdD gd ga off s
  | .stB gs ga off => Sys2Proof.Machine.execStB gs ga off s
  | .stH gs ga off => Sys2Proof.Machine.execStH gs ga off s
  | .stW gs ga off => Sys2Proof.Machine.execStW gs ga off s
  | .stD gs ga off => Sys2Proof.Machine.execStD gs ga off s
  | .lda gd ga sz scope off => Sys2Proof.Machine.execLda gd ga sz scope off s
  | .stl gs ga sz scope off => Sys2Proof.Machine.execStl gs ga sz scope off s
  | .amo gd ga gb op order scope sz => Sys2Proof.Machine.execAmo gd ga gb op order scope sz s
  | .brEq ga gb off => Sys2Proof.Machine.execBrEq ga gb off s
  | .brNe ga gb off => Sys2Proof.Machine.execBrNe ga gb off s
  | .brLt ga gb off => Sys2Proof.Machine.execBrLt ga gb off s
  | .brGe ga gb off => Sys2Proof.Machine.execBrGe ga gb off s
  | .brLtn ga gb off => Sys2Proof.Machine.execBrLtn ga gb off s
  | .brGen ga gb off => Sys2Proof.Machine.execBrGen ga gb off s
  | .jal gd off => Sys2Proof.Machine.execJal gd off s
  | .jalr gd ga imm => Sys2Proof.Machine.execJalr gd ga imm s
  | .fadd gd ga gb => Sys2Proof.Machine.execFadd gd ga gb s
  | .fsub gd ga gb => Sys2Proof.Machine.execFsub gd ga gb s
  | .fmul gd ga gb => Sys2Proof.Machine.execFmul gd ga gb s
  | .fdiv gd ga gb => Sys2Proof.Machine.execFdiv gd ga gb s
  | .fsqrt gd ga => Sys2Proof.Machine.execFsqrt gd ga s
  | .fmin gd ga gb => Sys2Proof.Machine.execFmin gd ga gb s
  | .fmax gd ga gb => Sys2Proof.Machine.execFmax gd ga gb s
  | .fsgnj gd ga gb => Sys2Proof.Machine.execFsgnj gd ga gb s
  | .fsgnjn gd ga gb => Sys2Proof.Machine.execFsgnjn gd ga gb s
  | .fsgnjx gd ga gb => Sys2Proof.Machine.execFsgnjx gd ga gb s
  | .fmadd gd ga gb gc => Sys2Proof.Machine.execFmadd gd ga gb gc s
  | .fmsub gd ga gb gc => Sys2Proof.Machine.execFmsub gd ga gb gc s
  | .fnmadd gd ga gb gc => Sys2Proof.Machine.execFnmadd gd ga gb gc s
  | .fnmsub gd ga gb gc => Sys2Proof.Machine.execFnmsub gd ga gb gc s
  | .fcvtF32I32 gd ga => Sys2Proof.Machine.execFcvtF32I32 gd ga s
  | .fcvtF32N32 gd ga => Sys2Proof.Machine.execFcvtF32N32 gd ga s
  | .fcvtF32I64 gd ga => Sys2Proof.Machine.execFcvtF32I64 gd ga s
  | .fcvtF32N64 gd ga => Sys2Proof.Machine.execFcvtF32N64 gd ga s
  | .fcvtI32F32 gd ga => Sys2Proof.Machine.execFcvtI32F32 gd ga s
  | .fcvtN32F32 gd ga => Sys2Proof.Machine.execFcvtN32F32 gd ga s
  | .fcvtI64F32 gd ga => Sys2Proof.Machine.execFcvtI64F32 gd ga s
  | .fcvtN64F32 gd ga => Sys2Proof.Machine.execFcvtN64F32 gd ga s
  | .fcvtBf16F32 gd ga => Sys2Proof.Machine.execFcvtBf16F32 gd ga s
  | .fcvtF32Bf16 gd ga => Sys2Proof.Machine.execFcvtF32Bf16 gd ga s
  | .feq gd ga gb => Sys2Proof.Machine.execFeq gd ga gb s
  | .flt gd ga gb => Sys2Proof.Machine.execFlt gd ga gb s
  | .fle gd ga gb => Sys2Proof.Machine.execFle gd ga gb s
  | .fclass gd ga => Sys2Proof.Machine.execFclass gd ga s
  | .crr gd cr => Sys2Proof.Machine.execCrr gd cr s
  | .crw gd ga cr => Sys2Proof.Machine.execCrw gd ga cr s
  | .movk gd ga kn imm => Sys2Proof.Machine.execMovk gd ga kn imm s
  | .kmov ga gb kn imm => Sys2Proof.Machine.execKmov ga gb kn imm s
  | .strip gd ga => Sys2Proof.Machine.execStrip gd ga s
  | .wdef c w ga => Sys2Proof.Machine.execWdef c w ga s
  | .wget c w gd => Sys2Proof.Machine.execWget c w gd s
  | .wcopy c w wsrc => Sys2Proof.Machine.execWcopy c w wsrc s
  | .worg c w ga gb => Sys2Proof.Machine.execWorg c w ga gb s
  | .wtype c w ty => Sys2Proof.Machine.execWtype c w ty s
  | .vcfg c ga gb fields => Sys2Proof.Machine.execVcfg c ga gb fields s
  | .vadd c x wd wa wb kn ke => Sys2Proof.Machine.execVadd c x wd wa wb kn ke s
  | .vsub c x wd wa wb kn ke => Sys2Proof.Machine.execVsub c x wd wa wb kn ke s
  | .vmin c x wd wa wb kn ke => Sys2Proof.Machine.execVmin c x wd wa wb kn ke s
  | .vmax c x wd wa wb kn ke => Sys2Proof.Machine.execVmax c x wd wa wb kn ke s
  | .vand c wd wa wb kn => Sys2Proof.Machine.execVand c wd wa wb kn s
  | .vor c wd wa wb kn => Sys2Proof.Machine.execVor c wd wa wb kn s
  | .vxor c wd wa wb kn => Sys2Proof.Machine.execVxor c wd wa wb kn s
  | .vandn c wd wa wb kn => Sys2Proof.Machine.execVandn c wd wa wb kn s
  | .vshl c wd wa wb kn => Sys2Proof.Machine.execVshl c wd wa wb kn s
  | .vshr c wd wa wb kn => Sys2Proof.Machine.execVshr c wd wa wb kn s
  | .vsra c wd wa wb kn => Sys2Proof.Machine.execVsra c wd wa wb kn s
  | .vrol c wd wa wb kn => Sys2Proof.Machine.execVrol c wd wa wb kn s
  | .vmul c x wd wa wb kn ke => Sys2Proof.Machine.execVmul c x wd wa wb kn ke s
  | .vmulh c x wd wa wb kn ke => Sys2Proof.Machine.execVmulh c x wd wa wb kn ke s
  | .vfma c x wd wa wb kn ke => Sys2Proof.Machine.execVfma c x wd wa wb kn ke s
  | .vfms c x wd wa wb kn ke => Sys2Proof.Machine.execVfms c x wd wa wb kn ke s
  | .vdiv c x wd wa wb kn ke => Sys2Proof.Machine.execVdiv c x wd wa wb kn ke s
  | .vsqrt c x wd wa kn ke => Sys2Proof.Machine.execVsqrt c x wd wa kn ke s
  | .vrcp c x wd wa kn ke => Sys2Proof.Machine.execVrcp c x wd wa kn ke s
  | .vrsq c x wd wa kn ke => Sys2Proof.Machine.execVrsq c x wd wa kn ke s
  | .vexp2 c x wd wa kn ke => Sys2Proof.Machine.execVexp2 c x wd wa kn ke s
  | .vlog2 c x wd wa kn ke => Sys2Proof.Machine.execVlog2 c x wd wa kn ke s
  | .vabs c x wd wa kn ke => Sys2Proof.Machine.execVabs c x wd wa kn ke s
  | .vneg c x wd wa kn ke => Sys2Proof.Machine.execVneg c x wd wa kn ke s
  | .vceq c kd wa wb kn => Sys2Proof.Machine.execVceq c kd wa wb kn s
  | .vcne c kd wa wb kn => Sys2Proof.Machine.execVcne c kd wa wb kn s
  | .vclt c kd wa wb kn => Sys2Proof.Machine.execVclt c kd wa wb kn s
  | .vcle c kd wa wb kn => Sys2Proof.Machine.execVcle c kd wa wb kn s
  | .vsel c wd wa wb kn => Sys2Proof.Machine.execVsel c wd wa wb kn s
  | .vmov c wd wa kn => Sys2Proof.Machine.execVmov c wd wa kn s
  | .vmerge c wd wa kn ke => Sys2Proof.Machine.execVmerge c wd wa kn ke s
  | .viota c wd kn => Sys2Proof.Machine.execViota c wd kn s
  | .vadds c x wd wa ga kn ke => Sys2Proof.Machine.execVadds c x wd wa ga kn ke s
  | .vmuls c x wd wa ga kn ke => Sys2Proof.Machine.execVmuls c x wd wa ga kn ke s
  | .vbcast c wd ga kn => Sys2Proof.Machine.execVbcast c wd ga kn s
  | .vextr c gd wa ga => Sys2Proof.Machine.execVextr c gd wa ga s
  | .vredsum c wd wa kn => Sys2Proof.Machine.execVredsum c wd wa kn s
  | .vredmax c wd wa kn => Sys2Proof.Machine.execVredmax c wd wa kn s
  | .vredmin c wd wa kn => Sys2Proof.Machine.execVredmin c wd wa kn s
  | .vscan c wd wa kn => Sys2Proof.Machine.execVscan c wd wa kn s
  | .vcvt c x wd wa kn ke => Sys2Proof.Machine.execVcvt c x wd wa kn ke s
  | .vperm c wd wa wb kn => Sys2Proof.Machine.execVperm c wd wa wb kn s
  | .vslide c wd wa ga kn => Sys2Proof.Machine.execVslide c wd wa ga kn s
  | .vcompress c wd wa kn => Sys2Proof.Machine.execVcompress c wd wa kn s
  | .kfun c kd ka kb tt => Sys2Proof.Machine.execKfun c kd ka kb tt s
  | .kpop c gd ka => Sys2Proof.Machine.execKpop c gd ka s
  | .kfirst c gd ka => Sys2Proof.Machine.execKfirst c gd ka s
  | .kset c kd ga => Sys2Proof.Machine.execKset c kd ga s
  | .kclr c kd ga => Sys2Proof.Machine.execKclr c kd ga s
  | .kbit c gd ka ga => Sys2Proof.Machine.execKbit c gd ka ga s
  | .vld c x wd ga kn ke => Sys2Proof.Machine.execVld c x wd ga kn ke s
  | .vlds c x wd ga kn ke => Sys2Proof.Machine.execVlds c x wd ga kn ke s
  | .vldff c x wd ga kn ke => Sys2Proof.Machine.execVldff c x wd ga kn ke s
  | .vldb c x wd ga kn ke => Sys2Proof.Machine.execVldb c x wd ga kn ke s
  | .vst c ws ga kn => Sys2Proof.Machine.execVst c ws ga kn s
  | .vsts c ws ga kn => Sys2Proof.Machine.execVsts c ws ga kn s
  | .vstduo c ws ga kn => Sys2Proof.Machine.execVstduo c ws ga kn s
  | .vldx c x wd wi ga kn ke => Sys2Proof.Machine.execVldx c x wd wi ga kn ke s
  | .vstx c ws wi ga kn => Sys2Proof.Machine.execVstx c ws wi ga kn s
  | .vamo c wd wa ga kn op order => Sys2Proof.Machine.execVamo c wd wa ga kn op order s
  | .vamoX c wd wa ga kn op order => Sys2Proof.Machine.execVamoX c wd wa ga kn op order s
  | .tagset c wa ga kn => Sys2Proof.Machine.execTagset c wa ga kn s
  | .satt c ga => Sys2Proof.Machine.execSatt c ga s
  | .sdet c => Sys2Proof.Machine.execSdet c s
  | .sguard c gw => Sys2Proof.Machine.execSguard c gw s
  | .szero c slot => Sys2Proof.Machine.execSzero c slot s
  | .sstat c ga => Sys2Proof.Machine.execSstat c ga s
  | .sldb c w ga => Sys2Proof.Machine.execSldb c w ga s
  | .smul c w ga slot ca cb mode => Sys2Proof.Machine.execSmul c w ga slot ca cb mode s
  | .smula c w ga slot ca cb mode => Sys2Proof.Machine.execSmula c w ga slot ca cb mode s
  | .sxtr c w ga slot => Sys2Proof.Machine.execSxtr c w ga slot s
  | .sxtw c w ga slot => Sys2Proof.Machine.execSxtw c w ga slot s
  | .sfin c w ga => Sys2Proof.Machine.execSfin c w ga s
  | .vpack c wd wa kn => Sys2Proof.Machine.execVpack c wd wa kn s
  | .vpackr c wd wa kn => Sys2Proof.Machine.execVpackr c wd wa kn s
  | .vunpk c wd wa kn => Sys2Proof.Machine.execVunpk c wd wa kn s
  | .vqnt c x wd wa wb kn ke => Sys2Proof.Machine.execVqnt c x wd wa wb kn ke s
  | .vscalc c x wd wa wb kn ke => Sys2Proof.Machine.execVscalc c x wd wa wb kn ke s
  | .drift c ch ga gb gc => Sys2Proof.Machine.execDrift c ch ga gb gc s
  | .drift2 c ch ga gb gc => Sys2Proof.Machine.execDrift2 c ch ga gb gc s
  | .driftx c ch ga gb gc => Sys2Proof.Machine.execDriftx c ch ga gb gc s
  | .driftm c ch ga gb gc => Sys2Proof.Machine.execDriftm c ch ga gb gc s
  | .dwp c ch gd acq => Sys2Proof.Machine.execDwp c ch gd acq s
  | .dlen c ch gd => Sys2Proof.Machine.execDlen c ch gd s
  | .dstop c ch => Sys2Proof.Machine.execDstop c ch s
  | .dbell c ch ga gb => Sys2Proof.Machine.execDbell c ch ga gb s
  | .msgput c wa ga => Sys2Proof.Machine.execMsgput c wa ga s
  | .msgget c wd ga => Sys2Proof.Machine.execMsgget c wd ga s
  | .nred c wd wa ga => Sys2Proof.Machine.execNred c wd wa ga s
  | .sax c gs wa ga kn => Sys2Proof.Machine.execSax c gs wa ga kn s
  | .sred c wa ga kn op => Sys2Proof.Machine.execSred c wa ga kn op s
  | .sqpush c wa ga kn => Sys2Proof.Machine.execSqpush c wa ga kn s
  | .sqpop c wd ga kn => Sys2Proof.Machine.execSqpop c wd ga kn s
  | .seqopen c gd gb gc => Sys2Proof.Machine.execSeqopen c gd gb gc s
  | .claim c gd gb => Sys2Proof.Machine.execClaim c gd gb s
  | .claimn c gd gb gc => Sys2Proof.Machine.execClaimn c gd gb gc s
  | .seqfork c gd gb gc => Sys2Proof.Machine.execSeqfork c gd gb gc s
  | .seqtrim c gd gb gc => Sys2Proof.Machine.execSeqtrim c gd gb gc s
  | .seqclose c gd gb => Sys2Proof.Machine.execSeqclose c gd gb s
  | .arrive c bell gc scope => Sys2Proof.Machine.execArrive c bell gc scope s
  | .wait c bell gc scope ph => Sys2Proof.Machine.execWait c bell gc scope ph s
  | .arrwait c bell gc scope ph => Sys2Proof.Machine.execArrwait c bell gc scope ph s
  | .bellset c bell ga => Sys2Proof.Machine.execBellset c bell ga s
  | .belltst c bell gd => Sys2Proof.Machine.execBelltst c bell gd s
  | .bellrst c bell => Sys2Proof.Machine.execBellrst c bell s
  | .fence c scope => Sys2Proof.Machine.execFence c scope s
  | .drain c queues => Sys2Proof.Machine.execDrain c queues s
  | .trap ga => Sys2Proof.Machine.execTrap ga s
  | .brk => Sys2Proof.Machine.execBrk s
  | .trapret => Sys2Proof.Machine.execTrapret s
  | .retire => Sys2Proof.Machine.execRetire s
  | .yield => Sys2Proof.Machine.execYield s
  | .launch gd ga => Sys2Proof.Machine.execLaunch gd ga s
  | .cancel ga => Sys2Proof.Machine.execCancel ga s
  | .cwait ga gb => Sys2Proof.Machine.execCwait ga gb s
  | .cread gd ga => Sys2Proof.Machine.execCread gd ga s
  | .frqpop gd => Sys2Proof.Machine.execFrqpop gd s
  | .pgmap ga gb => Sys2Proof.Machine.execPgmap ga gb s
  | .pgunmap ga => Sys2Proof.Machine.execPgunmap ga s
  | .resume ga => Sys2Proof.Machine.execResume ga s
  | .kill ga => Sys2Proof.Machine.execKill ga s
  | .pgreq ga => Sys2Proof.Machine.execPgreq ga s
  | .tlbinv ga => Sys2Proof.Machine.execTlbinv ga s
  | .shmap ga gb => Sys2Proof.Machine.execShmap ga gb s
  | .icinv ga gb => Sys2Proof.Machine.execIcinv ga gb s
  | .dcinv => Sys2Proof.Machine.execDcinv s
  | .dcwb ga gb => Sys2Proof.Machine.execDcwb ga gb s
  | .convoyBegin => Sys2Proof.Machine.execConvoyBegin s
  | .issueAging core slot => Sys2Proof.Machine.execIssueAging core slot s
  | .memoryElementPerform store w e addr => Sys2Proof.Machine.execMemoryElementPerform store w e addr s
  | .homeReturn n => Sys2Proof.Machine.execHomeReturn n s
  | .trapEntry cause aux key addr ev elem => Sys2Proof.Machine.execTrapEntry cause aux key addr ev elem s
  | .waitRelease core slot => Sys2Proof.Machine.execWaitRelease core slot s
  | .cwaitRelease core slot => Sys2Proof.Machine.execCwaitRelease core slot s
  | .drainComplete core slot => Sys2Proof.Machine.execDrainComplete core slot s
  | .seamRowPerform slot mode row a => Sys2Proof.Machine.execSeamRowPerform slot mode row a s
  | .seamStartAdmit die => Sys2Proof.Machine.execSeamStartAdmit die s
  | .adapterFill n => Sys2Proof.Machine.execAdapterFill n s
  | .driftBegin core slot chan => Sys2Proof.Machine.execDriftBegin core slot chan s
  | .driftDeliver core slot chan => Sys2Proof.Machine.execDriftDeliver core slot chan s
  | .driftEnd core slot chan => Sys2Proof.Machine.execDriftEnd core slot chan s
  | .faultRecordEnqueue die => Sys2Proof.Machine.execFaultRecordEnqueue die s
  | .copyOnWrite va => Sys2Proof.Machine.execCopyOnWrite va s
  | .sampleRecord => Sys2Proof.Machine.execSampleRecord s
  | .jobPortWrite part off desc => Sys2Proof.Machine.execJobPortWrite part off desc s
  | .jobStart part => Sys2Proof.Machine.execJobStart part s
  | .launchPlace part serial plan => Sys2Proof.Machine.execLaunchPlace part serial plan s
  | .replacementStrandPlace part serial index place => Sys2Proof.Machine.execReplacementStrandPlace part serial index place s
  | .nodeStatusWrite node => Sys2Proof.Machine.execNodeStatusWrite node s
  | .statusRecordWrite part => Sys2Proof.Machine.execStatusRecordWrite part s
  | .pipelineSample => Sys2Proof.Machine.execPipelineSample s
  | .parkedStrandResume core slot padOff => Sys2Proof.Machine.execParkedStrandResume core slot padOff s
  | .preempt core slot => Sys2Proof.Machine.execPreempt core slot s
  | .preemptReturn core slot padOff => Sys2Proof.Machine.execPreemptReturn core slot padOff s
  | .pswapSwapOut part => Sys2Proof.Machine.execPswapSwapOut part s
  | .pswapSwapIn part => Sys2Proof.Machine.execPswapSwapIn part s
  | .swapOutComplete part => Sys2Proof.Machine.execSwapOutComplete part s
  | .crosscutSeverance => Sys2Proof.Machine.execCrosscutSeverance s
  | .pageRequestSuccess part idx => Sys2Proof.Machine.execPageRequestSuccess part idx s
  | .pageRequestInvalid part idx => Sys2Proof.Machine.execPageRequestInvalid part idx s
  | .pageRequestResponseFailure part => Sys2Proof.Machine.execPageRequestResponseFailure part s
  | .priResetEnable part => Sys2Proof.Machine.execPriResetEnable part s
  | .messageApply origin => Sys2Proof.Machine.execMessageApply origin s
  | .messageAck n reply => Sys2Proof.Machine.execMessageAck n reply s
  | .nredResult group round peers orders => Sys2Proof.Machine.execNredResult group round peers orders s
  | .hostBarRead fn bar addr len => Sys2Proof.Machine.execHostBarRead fn bar addr len s
  | .hostBarWrite fn addr data => Sys2Proof.Machine.execHostBarWrite fn addr data s
  | .claimPoolWrite eng count v => Sys2Proof.Machine.execClaimPoolWrite eng count v s
  | .firmwareGo => Sys2Proof.Machine.execFirmwareGo s
  | .firmwareVerifyDone => Sys2Proof.Machine.execFirmwareVerifyDone s
  | .didtWrite die v => Sys2Proof.Machine.execDidtWrite die v s
  | .telemetryEnable v => Sys2Proof.Machine.execTelemetryEnable v s
  | .telemetrySample die => Sys2Proof.Machine.execTelemetrySample die s
  | .registerWrite off v => Sys2Proof.Machine.execRegisterWrite off v s
  | .thermalThrottle die hot => Sys2Proof.Machine.execThermalThrottle die hot s
  | .thermalTrip => Sys2Proof.Machine.execThermalTrip s
  | .deviceReset => Sys2Proof.Machine.execDeviceReset s
  | .functionLevelReset part => Sys2Proof.Machine.execFunctionLevelReset part s
  | .ideIntegrityFail fn link => Sys2Proof.Machine.execIdeIntegrityFail fn link s
  | .spdmRequest req => Sys2Proof.Machine.execSpdmRequest req s
  | .softError tier cell core slot uncorrectable => Sys2Proof.Machine.execSoftError tier cell core slot uncorrectable s
  | .crosscutRestore => Sys2Proof.Machine.execCrosscutRestore s

end Sys2Proof.Machine
end

