-- ==== Sys2Proof/Machine/Issue.lean ====
section
/-!
DEFINITION. Who acts next and how a word issues (R31–R35, R64, R368): the choice among a core's strands, the reading of a
convoy's consecutive words, the counts of R405 that every step brings, and the turns of agents outside the strands.
-/
namespace Sys2Proof.Machine

open Sys2Proof

/-! ### Choosing (R368) -/

/-- A strand that may issue: ready, present, and its partition not swapped out. -/
def canIssue (s : State) (h : Strand) : Bool :=
  h.run == .ready && !isOut h && (onDeputy h || !(partOf s h.part).swapOut)

/-- R368: a strand that has not issued for 64 cycles is chosen as if it were class 0. -/
def rankOf (s : State) (h : Strand) : Nat :=
  if h.aged || decide (64 ≤ cycleAt s.tick - cycleAt h.stamp) then 0 else h.cls

/-- R368: the lowest class first, then the least recently issued. -/
def goesBefore (s : State) (a b : Strand) : Bool :=
  decide (rankOf s a < rankOf s b) || (rankOf s a == rankOf s b && decide (a.stamp < b.stamp))

/-- R368: the strands of a core that may issue, in the order in which it chooses among them. -/
def choices (s : State) (core : Nat) : List Strand :=
  sortBy (goesBefore s) ((allStrands s).filter (fun h => canIssue s h && h.core == core))

/-- When a core last issued, by the strands that it holds. -/
def coreStamp (s : State) (core : Nat) : Nat :=
  (((allStrands s).filter (fun h => h.run != .vacant && h.core == core)).map (·.stamp)).foldl Nat.max 0

/-- The cores with a strand that may issue, the one that issued least recently first: no core is passed over for ever
(R104). -/
def issuingCores (s : State) : List Nat :=
  sortBy (fun a b => decide (coreStamp s a < coreStamp s b)) (((allStrands s).filter (canIssue s)).map (·.core)).eraseDups

/-! ### Issuing -/

/-- One fetch has used its choice between the cache and the home (log 3). -/
def usedFetch (s : State) : State := { s with fetchHits := s.fetchHits.tail }

/-- R35: what a word bars that is no member: a convoy where it is no instruction of an extension major, and would join. -/
def tailOf (w : Nat) : Tail :=
  if (decodeWord w).isNone && extensionWord w && bitsAt w 24 1 == 1 then .barred (some w) else .clear

/-- R295: a word of majors 0x48 to 0x4B that is no instruction, passed over as the convoy's seam member. -/
def passedWord (w : Nat) : Member where
  word := .satt 0 0
  raw := some w
  c := BitVec.ofNat 1 (bitsAt w 24 1)
  role := .member clSeam
  run := fun _ s => passSeam s
  seam := true
  commit := .chained

/-- The member that a word is; `done` says that the seam has accepted its convoy's member already (R295). -/
def wordMember (done : Bool) (w : Nat) : Option Member :=
  match decodeWord w with
  | some i => memberOf i
  | none => if done && decide (0x48 ≤ bitsAt w 25 7) && decide (bitsAt w 25 7 ≤ 0x4B) then some (passedWord w) else none

/-- The member occupies the convoy's SEAM position (R32). -/
def Member.takesSeam (m : Member) : Bool := match m.role with | .member cl => (cl &&& clSeam) != 0 | _ => false

/-- R31: the words after a convoy's first that join it: consecutive extension words with C = 1 (log 18); and what follows
them (R35). Only the first word of class SEAM stands at the
SEAM position, where the reissue passes a word over (R295). -/
def joining (done : Bool) : Nat → BitVec 48 → State → State × List (Nat × Member) × Tail
  | 0, _, s => (s, [], .clear)
  | n + 1, pc, s =>
    match fetchWord s pc with
    | .error _ => (s, [], .barred none)
    | .ok w =>
      match wordMember done w with
      | some m =>
        if m.c = 1 then
          let (s', l, tail) := joining (done && !m.takesSeam) n (pc + 4) (usedFetch s)
          (s', (w, m) :: l, tail)
        else (s, [], .clear)
      | none => (s, [], tailOf w)

/-- R295: the seam has accepted the member of the convoy that a word with this convoy bit is in, and the convoy's SEAM position is
still free; a word that follows an ended convoy, or one in which a word stands alone, is in none (R31, R32). -/
def passesSeam (s : State) (c : BitVec 1) : Bool :=
  let (first, classes, _, alone, _, ended) := joinState s c
  seamDoneAt first s && !ended && !alone && (classes &&& clSeam) == 0

/-- The words that join the convoy of the strand's word. -/
def gather (m : Member) (s : State) : State × List (Nat × Member) × Tail :=
  match m.role with
  | .alone => (s, [], .clear)
  | _ => joining (passesSeam s m.c && !m.takesSeam) 4096 (s.hart.pc + 4) s

/-- R35: the words that issue with the strand's word: where its convoy has stopped, those that were members then; a later one
issues with no convoy. -/
def reformed (s : State) (l : List (Nat × Member)) (tail : Tail) : List (Nat × Member) × Tail :=
  let n := (standOf s.hart s.hart.pc).words
  if n ≠ 0 ∧ n ≤ l.length then (l.take (n - 1), .apart) else (l, tail)

/-- The convoy of the strand's word at issue: the state, the members after the first, and what follows them. -/
def gathered (m : Member) (s : State) : State × List Member × Tail :=
  let (s, l, tail) := gather m (resumePoint true s)
  let (l, tail) := reformed s l tail
  (s, l.map (·.2), tail)

/-- Issues the words of a convoy from its first on, unless they wait at issue: the first word alone has the effect `act`, which
is what `exec` gives its instruction. -/
def issueConvoy (w : Nat) (act : State → Res) (m : Member) (s : State) : Option Res :=
  let (s, ms, tail) := gathered m s
  let c := issueWords m ms true s
  if c.waits then none
  else match ms, tail with
  | [], .clear =>
    some (act (if c.countsFirst then countWord s.hart.pc w c.pos (vl s) true s else s))
  | _, _ => some (runConvoy (m :: ms) tail true s)

/-- A scalar or system word that waits at issue: for a value (R30, R127), or for the index of a page request (R252). -/
def scalarWaits (i : Instr) (s : State) : Bool :=
  match i with
  | .crr _ cr => (crTrap i cr s).isNone && crPending s cr.toNat
  | .crw _ ga cr =>
    (crwTrap i cr (readG s ga) s).isNone && (crPending s cr.toNat || flushWaits s cr.toNat (readG s ga))
  | .pgreq ga => pgreqWaits ga s
  | _ => false

/-- Issues the word of an instruction, unless it waits at issue. -/
def issueInstr (w : Nat) (i : Instr) (s : State) : Option Res :=
  match memberOf i with
  | some m => issueConvoy w (exec i) m s
  | none =>
    if scalarWaits i s then none
    else some (exec i (countWord s.hart.pc w 0 (vl s) false (resumePoint false s)))

/-- R253: the fail mark ends where the word or convoy that took it has completed. -/
def afterIssue (before : Strand) (scalar : Bool) (r : Res) : Res :=
  match r with
  | .next s => .next (endFailMark before scalar s)
  | .fault f => .fault f
  | .refused f => .refused f

/-- Issues a word that is no instruction: it traps ILLEGAL (R77), but for one that the convoy's reissue passes over (R295). -/
def issueIllegal (w : Nat) (s : State) : Option Res :=
  match wordMember (passesSeam s (BitVec.ofNat 1 (bitsAt w 24 1))) w with
  | some m => (issueConvoy w (runWords [m]) m s).map (afterIssue s.hart false)
  | none => some (.next (illegalWord w s))

/-- The strand in focus as it issues: the most recently issued, and not aged any more (R368). -/
def issuing (s : State) : State := { s with hart := { s.hart with stamp := s.tick, aged := false } }

/-- The strand in focus issues its next word, or the fetch of it stops; none where the word waits at issue, and has not
issued (R29, R30). -/
def issueWord (s : State) : Option Res :=
  let s := issuing s
  match fetchWord s s.hart.pc with
  | .error c => some (.next (stopFetch c (usedFetch s)))
  | .ok w =>
    match decodeWord w with
    | none => issueIllegal w (usedFetch s)
    | some i => (issueInstr w i (usedFetch s)).map (afterIssue s.hart (memberOf i).isNone)

/-! ### Adapter fills before a strand's own younger writes (R55) -/

/-- R55: of the strand in focus at `s`, an adapter fill that is pending at `s` or after its words at `t` reads bytes that they
have changed (log 13). -/
def fillsChange (s t : State) : Bool :=
  (s.contribs ++ t.contribs).any (fun c => c.who == whoIs s.hart && c.changed s t)

/-- The strand's pending fills have come, and none of its next word is late. -/
def fillsFirst (s : State) : State := { fillAll (fun c => c.who == whoIs s.hart) s with lateFills := [] }

/-- A result with the choices of late fills that are left. -/
def withLate (l : List Bool) (r : Res) : Res :=
  match r with
  | .next s => .next { s with lateFills := l }
  | .fault f => .fault f
  | .refused f => .refused f

/-- R55: what a strand does comes after the adapter fills of its own `smula` that would read bytes it changes. -/
def afterFills (f : State → Option Res) (s : State) : Option Res :=
  match f s with
  | some (.next t) => if fillsChange s t then (f (fillsFirst s)).map (withLate t.lateFills) else some (.next t)
  | r => r

/-- The strand in focus issues its next word, after the adapter fills that it would change; none where it waits at issue. -/
def issue (s : State) : Option Res := afterFills issueWord s

/-! ### The turns of other agents -/

/-- An event of the table that an agent of its own raises; the others happen within the step of the word or engine that
brings them. -/
def ownEvent (i : Instr) : Bool :=
  match i with
  | .convoyBegin | .memoryElementPerform .. | .trapEntry .. | .seamRowPerform .. | .copyOnWrite _ | .sampleRecord => false
  | _ => (encodeWord i).isNone

/-- R38, R60: eight aligned bytes of memory enter a core's scalar data cache, in one piece; a full cache gives up a unit
(R3; log 63). -/
def fillData (core addr : Nat) (s : State) : State :=
  let k := addr / 8 * 8
  if populated k && decide (k < 2 ^ 42) then
    let c := makeRoom (core * 2 ^ 46) (2 ^ 46) Config.dataUnits (Config.victim s.tick) s.dcache
    { s with dcache := smSet none c (cacheKey core k) (some (BitVec.ofNat 64 (memNat s k 8))) }
  else s

/-- R381: the word of a partition's code at a virtual address enters a core's instruction cache; a full cache gives up a
word (R3; log 63). -/
def fillCode (core part va : Nat) (s : State) : State :=
  let h : Strand := { Strand.vacant with core := core, part := part }
  match locate s h (va / 4 * 4) .fetch with
  | .home k .. =>
    if part < 32 then
      let c := makeRoom (core * 2 ^ 51) (2 ^ 51) Config.codeWords (Config.victim s.tick) s.icache
      { s with icache := smSet none c (fetchKey core part (va / 4 * 4)) (some (BitVec.ofNat 32 (memNat s k 4))) }
    else s
  | _ => s

/-! ### A stop inside a convoy (R35, R151) -/

/-- The event that comes next, the stops of convoys passed over. -/
def nextEvent : List Turn → Option Instr
  | .event i :: _ => some i
  | .interrupt .. :: l => nextEvent l
  | _ => none

/-- The event that comes next takes the strand out, by pre-emption or swap (R370, R371). -/
def leavesNext (s : State) (h : Strand) : Bool :=
  match nextEvent s.turns with
  | some i =>
    ownEvent i &&
    (match exec i s with
     | .next t => (allStrands t).any (fun x => whoIs x == whoIs h && x.run != .vacant && isOut x)
     | _ => false)
  | none => false

/-- R151: the convoy that the strand in focus would issue stops at an element boundary. -/
def interruptHart (elem : Nat) (s : State) : Option State :=
  match fetchWord s s.hart.pc with
  | .error _ => none
  | .ok w =>
    match wordMember (passesSeam s (BitVec.ofNat 1 (bitsAt w 24 1))) w with
    | some m =>
      let (s, ms, tail) := gathered m (usedFetch s)
      ((issueWords m ms true s).before tail).interrupt elem
    | none => none

/-- R35, R151: a strand that the next event takes out stops its convoy at an element boundary first, where it may. -/
def interruptTurn (core slot elem : Nat) (s : State) : State :=
  match (focusOn (fun h => inSlot core slot h && canIssue s h) s).bind
      (afterFills (fun s => (interruptHart elem s).map .next)) with
  | some (.next t) => if leavesNext t t.hart then t else s
  | _ => s

/-! ### Time (R103, R405) -/

/-- Clock cycles that a step takes (log 5). -/
def stepCycles (s : State) : Nat := 1 + Config.elapsed s.tick

/-- A count that the manual bounds by the cycles of the step and leaves open below it. -/
def freeCycles (s : State) (h : Strand) (ev : Nat) : Nat :=
  Config.eventCycles ev (countKey s h) % (stepCycles s + 1)

/-- R28, R29: a queue of the strand may be full: it has sent as many words there as it takes (log 6). -/
def mayFill (h : Strand) : Bool :=
  decide (16 ≤ h.sent[0]) || decide (16 ≤ h.sent[1]) || decide (8 ≤ h.sent[2]) || decide (8 ≤ h.sent[3]) ||
  decide (8 ≤ h.sent[4]) || h.chans.toList.any (fun c => decide (Config.chanDepth ≤ queuedWords c))

/-- R405: a ready strand may be held by its own claims, by a full queue of its own, or by a rival on its core. -/
def mayHold (s : State) (h : Strand) (ev : Nat) : Bool :=
  match ev with
  | 9 => h.sent[5] != 0
  | 10 => mayFill h
  | _ => (allStrands s).any (fun x => canIssue s x && x.core == h.core && x.slot != h.slot)

/-- A free count of held cycles of a ready strand in a step. -/
def countHeld (s : State) (ev : Nat) (h : Strand) : Strand :=
  if mayHold s h ev then countIn ev (freeCycles s h ev) h else h

/-- R405: the events that count cycles of a strand that holds a slot, over one step. -/
def countCycles (s : State) (h : Strand) : Strand :=
  if h.run == .vacant || isOut h || h.ctrl.pmsel.toList.all (· == 0) then h
  else
    let h := countIn 1 (stepCycles s) h
    match h.run with
    | .ready => countHeld s 17 (countHeld s 10 (countHeld s 9 h))
    | .waiting .. | .cwaiting .. => countIn 11 (stepCycles s) h
    | _ => h

/-- R401: a cycle in which a strand with an open strip stands stopped. -/
def countIdle (s : State) (h : Strand) : Strand :=
  if h.run != .vacant && (isOut h || h.run == .suspended) && h.ctrl.stripLen != 0 then
    { h with stripIdle := h.stripIdle + stepCycles s }
  else h

/-- The machine at the start of a step: the cycles of the step are counted. -/
def beginStep (s : State) : State := mapStrands (fun h => countCycles s (countIdle s h)) s

/-- One step has passed. -/
def passTick (r : Res) : Res :=
  match r with
  | .next s => .next { s with tick := s.tick + 1 }
  | .fault f => .fault f
  | .refused f => .refused f

/-! ### One turn -/

/-- The strand of a slot issues, unless its word waits at issue. -/
def issueFrom (h : Strand) (s : State) : Option Res :=
  (focusOn (fun x => inSlot h.core h.slot x && canIssue s x) s).bind issue

/-- R368: a core issues from the strand it chooses: the first whose word does not wait at issue. -/
def coreIssue (s : State) (core : Nat) : Option Res := (choices s core).findSome? (fun h => issueFrom h s)

/-- R368: the turn of a core; nothing happens where no strand of it can issue. -/
def coreTurn (core : Nat) (s : State) : Res := (coreIssue s core).getD (.next s)

/-- A strand issues that its core chooses, where one can. -/
def anyStrand (s : State) : Res := ((issuingCores s).findSome? (coreIssue s)).getD (.next s)

/-! ### What comes due (R104) -/

/-- R366: the placement of a launch that awaits nothing but its resources, and R365: the end of one whose strict wait fails. -/
def placements (s : State) (l : Launch) : List (State → Res) :=
  if l.verdict.isNone && !l.placed && (strictFails s l || (awaitsPlace s l && resourcesFree s l)) then
    [execLaunchPlace l.part l.serial (firstPlan s l)]
  else []

/-- R375: the placements of the next replacement strand of a launch. -/
def replacements (s : State) (l : Launch) : List (State → Res) :=
  match l.replace with
  | [] => []
  | i :: _ =>
    ((coresOf (homeGangs s l)).filter (replaceFits s l)).flatMap (fun c =>
      ([0, 1, 2, 3] : List Nat).flatMap (fun n => (padGaps s c).map (fun o =>
        execReplacementStrandPlace l.part l.serial i { core := c, slot := n, padOff := o, parked := false })))

/-- The events that a strand waits for and its own units bring. -/
def strandWork (s : State) (h : Strand) : List (State → Res) :=
  (if waitOver s h then [execWaitRelease h.core h.slot] else []) ++
  (if cwaitOver s h then [execCwaitRelease h.core h.slot] else []) ++
  (if drainOver s h then [execDrainComplete h.core h.slot] else []) ++
  (if canReturn s h then [execPreemptReturn h.core h.slot h.padOff] else []) ++
  (if stopsOn s h then [execPreempt h.core h.slot] else []) ++
  (if resumeDue s h then ((padStarts s h).filter (mayResume s h)).map (execParkedStrandResume h.core h.slot) else []) ++
  ([0, 1, 2, 3] : List Nat).flatMap (fun n =>
    (if headIs (fun o => !o.begun && o.ended.isNone) n h then [execDriftBegin h.core h.slot n] else []) ++
    (if headIs (fun o => o.begun && o.ended.isNone) n h then [execDriftDeliver h.core h.slot n] else []) ++
    (if headIs (fun o => o.ended.isSome) n h then [execDriftEnd h.core h.slot n] else []))

/-- The events that the messages and rounds of this device bring, each round folded in the order of its contributions. -/
def messageWork (s : State) : List (State → Res) :=
  if s.msgs.isEmpty then []
  else execMessageApply (.own 0) ::
    (((s.msgs.filter Msg.toPad).zipIdx.filter (fun x => x.1.stage != .sent)).map (fun x => execMessageAck x.2 none) ++
     s.msgs.filterMap (fun m => match m.kind with
       | .nred xs => some (execNredResult (bitsW m.addr 48 16) (bitsW m.addr 0 32) []
           (List.replicate xs.length (List.range (bitsW m.addr 32 16))))
       | _ => none))

/-- R364: the statuses of a launch that has ended and of the nodes above it that are not written yet. -/
def statusWork (s : State) (l : Launch) : List (State → Res) :=
  (([1, 2, 3, 4] : List Nat).filter (fun k =>
    if k = 1 then l.verdict.isSome && !l.written else l.written && nodeStatus s (nodeAbove l k) == 0)).map (fun k =>
      execNodeStatusWrite (BitVec.ofNat 64 (k * 2 ^ 61 + l.part * 2 ^ 56 + l.serial)))

/-- The events that the device's other units bring: held starts, waiting records, adapter fills, statuses of nodes, swaps that
wait, placements, and replacement strands. -/
def deviceWork (s : State) : List (State → Res) :=
  ([0, 1] : List Nat).flatMap (fun d => (if (dieAt s d).govQ.isEmpty then [] else [execSeamStartAdmit d]) ++
    (if (dieAt s d).waiting.isEmpty then [] else [execFaultRecordEnqueue d])) ++
  (if s.contribs.isEmpty then [] else [execAdapterFill 0]) ++ messageWork s ++
  s.launches.flatMap (statusWork s) ++
  (s.parts.filter (fun p => p.2.swapReq && !p.2.swapOut)).map (fun p => execSwapOutComplete p.1) ++
  (s.parts.filter (fun p => swapInWaits p.2)).map (fun p => execPswapSwapIn p.1) ++
  s.launches.flatMap (placements s) ++ s.launches.flatMap (replacements s)

/-- An event that is due changes the machine: the state after it. -/
def comesDue (s : State) (f : State → Res) : Option State :=
  match f s with
  | .next t => if t = s then none else some t
  | _ => none

/-- The state after the first piece of work that is due, of what blocked strands wait for: with no turn listed it goes before
the strands' own words, so that every strand of a launch that can issue again does (R104; log 1). -/
def dueWork (s : State) : Option State :=
  match ((allStrands s).filter (fun h => h.run != .vacant)).findSome? (fun h =>
      (focusOn (fun x => inSlot h.core h.slot x && whoIs x == whoIs h) s).bind (fun u =>
        (strandWork u u.hart).findSome? (comesDue u))) with
  | some t => some t
  | none => (deviceWork s).findSome? (comesDue s)

/-! ### A word that crosses as the crosscut is lost (R317) -/

/-- The bytes of a range as another state has them. -/
def takeRange (k n : Nat) (t s : State) : State :=
  { s with mem := smPut 0 k (smSlice k n t.mem) (smDrop k n s.mem)
           bad := smPut false k (smSlice k n t.bad) (smDrop k n s.bad) }

/-- The state with the far die's memory as another state has it. -/
def takeFar (die : Nat) (t s : State) : State :=
  takeRange (sumpBase die) (2 ^ 27) t (takeRange (die * 6 * 2 ^ 37) (6 * 2 ^ 37) t s)

/-- R317: a strand issues its word as the crosscut is lost: an element addressed to the far die that is not answered takes
PROT, and its far words are either updated or untouched (log 67). -/
def crossStrand (s : State) (x : Nat × Nat) : State :=
  match focusOn (fun h => inSlot x.1 x.2 h && canIssue s h) s with
  | none => s
  | some f =>
    match issue { f with cutting := some false }, issue { f with cutting := some true } with
    | some (.next u), some (.next t) => { takeFar (1 - dieOf f.hart.core) t u with cutting := none }
    | _, _ => s

/-- R317, R375: the crosscut is lost while the words that some strands issue cross it. -/
def crossingTurn (strands : List (Nat × Nat)) (s : State) : Res :=
  if !s.crosscut then .next s else execCrosscutSeverance (strands.eraseDups.foldl crossStrand s)

/-- What the agent of a turn does. -/
def takeTurn (t : Turn) (s : State) : Res :=
  match t with
  | .core c => coreTurn c s
  | .crossing c => crossingTurn c s
  | .event i => if ownEvent i then exec i s else .next s
  | .interrupt core slot elem => .next (interruptTurn core slot elem s)
  | .cacheFill core addr => .next (fillData core addr s)
  | .fetchFill core part va => .next (fillCode core part va s)

/-- The next turn, or where none is given the work that is due, and then the strands' own. -/
def nextTurn (s : State) : Res :=
  match s.turns with
  | [] => match dueWork s with
    | some t => .next t
    | none => anyStrand s
  | t :: rest => takeTurn t { s with turns := rest }

/-- The state whose next step issues the word `w` (log 12): at the strand's own pc where it may issue and fetch; else as a
ready strand of partition 0 on core 0, at the first translated address, in an identity-mapped page. It is the strand that
its core chooses next. -/
def placeWord (s : State) (w : Nat) : State :=
  let bytes := leBytes 4 w
  let s := { s with turns := [.core s.hart.core], fetchHits := [], hart := { s.hart with aged := true, stamp := 0 } }
  match canIssue s s.hart, check s (fetchReq s.hart.pc) with
  | true, .home k _ _ => memPut s k bytes
  | _, _ =>
    let h := { s.hart with
      core := 0, slot := 0, part := 0, run := .ready, preempted := false, swapped := false, parked := false
      pc := 0x1000_0000 }
    let leaf : Word := 0x41C0_0000_0000_0000
    let p := { partOf s 0 with swapOut := false, shaft := smSet 0 (partOf s 0).shaft 0 leaf }
    memPut (setPart { s with hart := h, turns := [.core 0], crosscut := true } 0 p) 0x1000_0000 bytes

end Sys2Proof.Machine
end

