-- ==== Sys2Proof/Machine/Step.lean ====
section
/-!
DEFINITION. One step of the machine: one agent takes its turn (Machine/Issue.lean), and the step counter advances.
-/
namespace Sys2Proof.Machine

/-- One step. -/
def step (s : State) : Host.Outcome State Fault Refusal := passTick (nextTurn (beginStep s))

/-- The state whose next step fetches and issues the word `w` of the opcode table, its bits above `nbits` zero. -/
def State.withFetchWord (s : State) (nbits w : Nat) : State := placeWord s (w % 2 ^ Nat.min nbits 32)

end Sys2Proof.Machine
end

