-- ==== Sys2Proof/Safety.lean ====
section
/-!
DEFINITION. What a safe run is, the invariants of the machine, and the words that the statements share: which parts of a
state an instruction may change, and when a word of a convoy acts by itself over all its elements.
-/
namespace Sys2Proof.Machine

open Sys2Proof

/-- A step of the machine is safe where it answers a next state: no fault, no refusal. -/
def Safe (s : State) : Prop := ∃ t, step s = .next t

/-! ### Invariants -/

/-- The sparse stores of a strand are in canonical form: stope rows, their errors, seam rows, and what its operations have
overwritten. -/
def StrandCanonical (h : Strand) : Prop :=
  smWf 0 h.stope = true ∧ smWf 0 h.badBits = true ∧ smWf SeamRow.zero h.seam.rows = true ∧
  ∀ n, ∀ op ∈ (chanAt h n).ops, smWf none op.undo = true

/-- The sparse stores of a claim engine are in canonical form. -/
def EngineCanonical (e : Engine) : Prop := smWf 0 e.counts = true ∧ smWf 0 e.used = true ∧ smWf Seq.free e.seqs = true

/-- Memory and every other sparse store of the device is in canonical form. -/
structure Canonical (s : State) : Prop where
  mem : Memory.wf s.mem
  tags : smWf 0 s.tags = true
  bad : smWf false s.bad = true
  dcache : smWf none s.dcache = true
  adapter : smWf [] s.adapter = true
  bells : smWf Bell.zero s.bells = true
  slotSusp : smWf 0 s.slotSusp = true
  evicted : smWf 0 s.evicted = true
  parts : smWf Part.reset s.parts = true
  hostMem : smWf (0 : Byte) s.hostMem = true
  icache : smWf none s.icache = true
  gangOwner : smWf 0 s.gangOwner = true
  sumpOwner : smWf 0 s.sumpOwner = true
  streams : smWf Stream.unkeyed s.streams = true
  strands : ∀ h ∈ allStrands s, StrandCanonical h
  engines : ∀ n, EngineCanonical (engineAt s n)
  maps : ∀ p, smWf 0 (partOf s p).shaft = true ∧ smWf 0 (partOf s p).subs = true

/-- R31, R64, R101, R292: the strand's pc and its convoy's first word stand at multiples of 4, VCFG holds no value that R101
makes ILLEGAL, no VL that a stop has left exceeds 2048 (R228), and SGW names one of the three guard widths. -/
def StrandLegal (h : Strand) : Prop :=
  h.pc.toNat % 4 = 0 ∧ bitsW h.ctrl.vcfg 0 12 ≤ 2048 ∧ bitsW h.ctrl.vcfg 12 3 ≤ 5 ∧ bitsW h.ctrl.vcfg 17 3 ≤ 4 ∧
    (∀ x ∈ h.stands, ∀ n, x.cut = some n → n ≤ 2048) ∧ h.seam.gw ≠ 3 ∧
    (∀ first classes pos alone, h.convoy = .open first classes pos alone → first.toNat % 4 = 0)

/-- Every strand of the device is legal, and every launch has an entry at a multiple of 4 and a granule of at most 2048
(R361). -/
def AllLegal (s : State) : Prop :=
  (∀ h ∈ allStrands s, StrandLegal h) ∧
  ∀ l ∈ s.launches, pktField l.pkt 0 0 2 = 0 ∧ pktField l.pkt 2 0 12 ≤ 2048

/-! ### Frames -/

/-- Nothing but general registers, pc and convoy of the strand in focus differs. -/
def OnlyRegs (s t : State) : Prop :=
  t = { s with hart := { s.hart with gpr := t.hart.gpr, pc := t.hart.pc, convoy := t.hart.convoy } }

/-- The convoy of the strand is not open: a scalar or system word has ended it (R31). -/
def ConvoyEnded (t : State) : Prop := ∀ first classes pos alone, t.hart.convoy ≠ .open first classes pos alone

/-- A scalar word whose one effect is to write `v` to `gd`: g0 keeps reading 0, every other register keeps its value, the
next word follows, the convoy has ended, and nothing else changes. -/
def WritesReg (i : Instr) (s : State) (gd : Reg) (v : Word) : Prop :=
  ∃ t, exec i s = .next t ∧
    (∀ r, readG t r = if r = gd ∧ gd ≠ 0 then v else readG s r) ∧
    t.hart.pc = s.hart.pc + 4 ∧ ConvoyEnded t ∧ OnlyRegs s t

/-- A scalar floating-point word that writes `v` to `gd` and merges the flags `f` into VSTAT, and nothing else (R110, R188). -/
def WritesFloat (i : Instr) (s : State) (gd : Reg) (v : Word) (f : Flags) : Prop :=
  ∃ t, exec i s = .next t ∧
    (∀ r, readG t r = if r = gd ∧ gd ≠ 0 then v else readG s r) ∧
    t.hart.pc = s.hart.pc + 4 ∧ ConvoyEnded t ∧
    t = { s with hart := { s.hart with
      gpr := t.hart.gpr, pc := t.hart.pc, convoy := t.hart.convoy
      ctrl := { s.hart.ctrl with vstat := s.hart.ctrl.vstat ||| f.setWidth 64 } } }

/-- Another strand differs in its event counters alone (R405). -/
def CountersOnly (h h' : Strand) : Prop := h' = { h with ctrl := { h.ctrl with pmc := h'.ctrl.pmc } }

/-- Every other strand keeps all but its event counters. -/
def RestCountersOnly (s t : State) : Prop :=
  t.rest.length = s.rest.length ∧
  ∀ (i : Nat) (h : Strand), s.rest[i]? = some h → ∃ h', t.rest[i]? = some h' ∧ CountersOnly h h'

/-- What a scalar memory word may change beside memory: registers, pc, convoy, event counters, caches and the firedamp
filter with its counts. -/
def ScalarAccessFrame (s t : State) : Prop :=
  RestCountersOnly s t ∧
  t = { s with
    hart := { s.hart with gpr := t.hart.gpr, pc := t.hart.pc, convoy := t.hart.convoy,
                          ctrl := { s.hart.ctrl with pmc := t.hart.ctrl.pmc } }
    rest := t.rest, mem := t.mem, bad := t.bad, dcache := t.dcache, hits := t.hits, filter := t.filter, evicted := t.evicted }

/-! ### Traps -/

/-- A trap would be taken in the strand: no handler runs, one is set (R142), and no trap record is written (R403). -/
def HandlerReady (s : State) : Prop :=
  trapActive s = false ∧ s.hart.ctrl.tvec.extractLsb' 2 46 ≠ 0 ∧ bitW s.hart.ctrl.recctl 2 = false

/-- `t` is `s` with a trap taken (R142): the saved address, the cause with act, the handler's address, no convoy, and
nothing else but EINFO, STIDX, kd and the marks of R150 and R253. -/
structure TrapTaken (s t : State) (cause : Nat) (epc : BitVec 48) : Prop where
  pc : t.hart.pc.toNat = bitsW s.hart.ctrl.tvec 2 46 * 4
  saved : t.hart.ctrl.epc = epc.setWidth 64
  cause : bitsW t.hart.ctrl.ecause 0 8 = cause
  act : trapActive t = true
  convoy : t.hart.convoy = .none
  frame : t = { s with hart := { s.hart with
    pc := t.hart.pc, convoy := .none, resuming := false, kd := t.hart.kd, failPages := []
    ctrl := { s.hart.ctrl with
      epc := t.hart.ctrl.epc, ecause := t.hart.ctrl.ecause, einfo := t.hart.ctrl.einfo, stidx := t.hart.ctrl.stidx } } }

/-- A trap of a scalar or system word, or of a word that joins no convoy: EPC is the word, and the stop state is 0 and empty
(R142). -/
def WordTraps (i : Instr) (s : State) (cause : Nat) (aux : BitVec 16) (addr : BitVec 48) : Prop :=
  ∃ t, exec i s = .next t ∧ TrapTaken s t cause s.hart.pc ∧
    bitsW t.hart.ctrl.ecause 16 16 = aux.toNat ∧ bitsW t.hart.ctrl.einfo 16 48 = addr.toNat ∧
    t.hart.ctrl.stidx = 0 ∧ t.hart.kd = 0

/-! ### Words of a convoy -/

/-- How the word of a member stands to the strand's convoy (R31): its first word's address, the classes and positions taken
before it, whether an older member stands alone, whether it joins, whether it follows an ended convoy. -/
abbrev Join := BitVec 48 × BitVec 8 × Nat × Bool × Bool × Bool

/-- The state at the issue of a word: a convoy begins unless the word joins one (R33). -/
def issueState (s : State) (j : Join) : State := atIssue j.1 j.2.2.2.2.1 j.2.2.2.2.2 s

/-- The state from which the member of a word runs, at its position (R35). -/
def memberStart (s : State) (j : Join) : State := atPosition j.2.2.1 (issueState s j)

/-- The extension word `i` is admitted at issue, with `m` the member that it is (R78), it acts on all its elements (no stop
state is left, or a handler runs: R150, R153), and `x` stands of its convoy. -/
structure IssuesAs (i : Instr) (m : Member) (s : State) (x : Stand) : Prop where
  member : memberOf i = some m
  admitted : issueTrap m (joinState s m.c).2.2.2.2.1 (joinState s m.c).2.2.2.2.2 (joinState s m.c).2.1
    (joinState s m.c).2.2.2.1 (issueState s (joinState s m.c)) = none
  fresh : startOf s = 0 ∧ kdOf s = 0 ∧ seamDone s = false
  stand : standOf s.hart (joinState s m.c).1 = x

/-- The extension word is admitted at issue, acts on all its elements, and nothing stands of its convoy. -/
abbrev Issues (i : Instr) (m : Member) (s : State) : Prop := IssuesAs i m s (Stand.fresh (joinState s m.c).1)

/-- The strand goes on after the word, its convoy open; outside a handler no stop state remains (R150, R153). -/
structure ConvoyGoesOn (s t : State) : Prop where
  pc : t.hart.pc = s.hart.pc + 4
  convoy : ∃ first classes pos alone, t.hart.convoy = .open first classes pos alone ∧
    t.hart.stands = if trapActive s then (dropStand first s.hart).stands else []
  stidx : t.hart.ctrl.stidx = if trapActive s then s.hart.ctrl.stidx else 0
  kd : t.hart.kd = if trapActive s then s.hart.kd else 0

/-- No stope bit is in error, no STREAM source waits (R167), and none consumes a pad byte in error (R171; log 21). -/
def SourcesReady (s : State) (srcs : List Win) : Prop :=
  s.hart.badBits = [] ∧ ∀ w ∈ srcs, streamWaits s (readW s w) = false ∧ ∀ e, badSource s (readW s w) e = none

/-- Element `e` is active: below VL and selected by the mask (R20). -/
def Active (s : State) (kn : BitVec 3) (e : Nat) : Prop := e < vl s ∧ (readK s kn).getLsbD e = true

/-- The flags that element `e` of a destination raises: those of its value, and EDGE past a clamp edge (R168). -/
def raisedAt (s : State) (wd : Win) (f : Nat → Nat × Flags) (e : Nat) : Flags :=
  (f e).2 ||| (if pastEdge s.hart.height (readW s wd) e && dEdge (readW s wd) == 0 then flEDGE else 0)

/-- Every active element of the window holds its new value, and no other bit of the stope has changed. -/
structure ElementsWritten (s t : State) (wd : Win) (act : Nat → Prop) (f : Nat → Nat × Flags) : Prop where
  written : ∀ e, act e → pastEdge s.hart.height (readW s wd) e = false →
    stopeBits t.hart (coord (readW s wd) e).1 (coord (readW s wd) e).2 (tyBits (tyOf s wd)) =
      (f e).1 % 2 ^ tyBits (tyOf s wd)
  kept : ∀ r j, j < 2048 →
    (∀ e, act e → pastEdge s.hart.height (readW s wd) e = false →
      ¬((coord (readW s wd) e).1 = r ∧ (coord (readW s wd) e).2 = j / tyBits (tyOf s wd))) →
    (smGet 0 t.hart.stope r).getLsbD j = (smGet 0 s.hart.stope r).getLsbD j

/-- VSTAT gains the classes that some active element raised, and FLIX of each such class names the lowest (R187, R188). -/
structure FlagsMerged (s t : State) (act : Nat → Prop) (raised : Nat → Flags) : Prop where
  vstat : ∀ n, t.hart.ctrl.vstat.getLsbD n = true ↔
    s.hart.ctrl.vstat.getLsbD n = true ∨ ∃ e, act e ∧ (raised e).getLsbD n = true
  raisedFlix : ∀ (n : Fin 8) e, act e → (raised e).getLsbD n = true →
    (∀ e' < e, act e' → (raised e').getLsbD n = false) → t.hart.ctrl.flix[n] = BitVec.ofNat 64 (2 ^ 63 + e)
  keptFlix : ∀ n : Fin 8, (∀ e, act e → (raised e).getLsbD n = false) → t.hart.ctrl.flix[n] = s.hart.ctrl.flix[n]

/-- The bits of active elements in mask `kd` are as given (nothing for k0, R21); every other mask bit is kept. -/
def MaskWritten (s t : State) (kd : BitVec 3) (act : Nat → Prop) (bit : Nat → Prop) : Prop :=
  (∀ e, kd ≠ 0 → act e → ((readK t kd).getLsbD e = true ↔ bit e)) ∧
  ∀ k j, (k ≠ kd ∨ ¬act j ∨ kd = 0) → (readK t k).getLsbD j = (readK s k).getLsbD j

/-- No mask has changed. -/
def MasksKept (s t : State) : Prop := t.hart.masks = s.hart.masks

/-- A lane word changes nothing but the strand's stope, masks, flags, stop state, stream positions, event counters and the
counts of its words and of its strip's work (R401, R405). -/
def PlaneFrame (s t : State) : Prop :=
  t = { s with hart := { s.hart with
    pc := t.hart.pc, convoy := t.hart.convoy, stope := t.hart.stope, masks := t.hart.masks
    kd := t.hart.kd, stands := t.hart.stands
    admitted := t.hart.admitted, sent := t.hart.sent, stripWork := t.hart.stripWork, chans := t.hart.chans
    ctrl := { s.hart.ctrl with
      vstat := t.hart.ctrl.vstat, flix := t.hart.ctrl.flix, stidx := t.hart.ctrl.stidx, pmc := t.hart.ctrl.pmc } } }

/-- Channels keep all but their stream positions, and those too where no source is STREAM (R167). -/
def StreamsOnly (s t : State) (srcs : List Win) : Prop :=
  (∀ n, chanAt t.hart n = { chanAt s.hart n with spos := (chanAt t.hart n).spos }) ∧
  ((∀ w ∈ srcs, dKind (readW s w) ≠ 4) → t.hart.chans = s.hart.chans)

/-- The lane word `i` completes: every active element of `wd` takes the value of `f`, flags merge, kE of a form with X takes
the exceptions (R189), and nothing else changes. -/
def LaneWord (i : Instr) (s : State) (wd : Win) (srcs : List Win) (kn : BitVec 3) (xk : Option (BitVec 3))
    (f : Nat → Nat × Flags) : Prop :=
  Canonical s → ∀ m, Issues i m s → SourcesReady s srcs →
  ∃ t, exec i s = .next t ∧ ConvoyGoesOn s t ∧ ElementsWritten s t wd (Active s kn) f ∧
    FlagsMerged s t (Active s kn) (raisedAt s wd f) ∧
    (match xk with
     | some ke => MaskWritten s t ke (Active s kn) (fun e => raisedAt s wd f e &&& ~~~flNX ≠ 0)
     | none => MasksKept s t) ∧
    StreamsOnly s t srcs ∧ PlaneFrame s t

/-- The word `i` completes with the bits of the active elements of `kd` as given, and nothing else changed but flags. -/
def LaneMaskWord (i : Instr) (s : State) (kd : BitVec 3) (srcs : List Win) (kn : BitVec 3) (f : Nat → Bool × Flags) : Prop :=
  ∀ m, Issues i m s → SourcesReady s srcs →
  ∃ t, exec i s = .next t ∧ ConvoyGoesOn s t ∧ MaskWritten s t kd (Active s kn) (fun e => (f e).1 = true) ∧
    FlagsMerged s t (Active s kn) (fun e => (f e).2) ∧ t.hart.stope = s.hart.stope ∧ StreamsOnly s t srcs ∧ PlaneFrame s t

/-- The extension word `i` completes with `v` in `gd` and nothing else changed but stop state and stream positions. -/
def ConvoyWritesReg (i : Instr) (s : State) (srcs : List Win) (gd : Reg) (v : Word) : Prop :=
  ∀ m, Issues i m s → SourcesReady s srcs →
  ∃ t, exec i s = .next t ∧ ConvoyGoesOn s t ∧ (∀ r, readG t r = if r = gd ∧ gd ≠ 0 then v else readG s r) ∧
    StreamsOnly s t srcs ∧
    t = { s with hart := { s.hart with
      gpr := t.hart.gpr, pc := t.hart.pc, convoy := t.hart.convoy, kd := t.hart.kd, stands := t.hart.stands
      admitted := t.hart.admitted, sent := t.hart.sent, stripWork := t.hart.stripWork, chans := t.hart.chans
      ctrl := { s.hart.ctrl with stidx := t.hart.ctrl.stidx, pmc := t.hart.ctrl.pmc } } }

/-! ### Vector memory -/

/-- A vector memory word changes nothing but the strand's stope, masks, flags, stop state, stream positions and counts, and
memory with its errors, tags, caches and filter. -/
def VectorFrame (s t : State) : Prop :=
  RestCountersOnly s t ∧
  t = { s with
    hart := { s.hart with
      pc := t.hart.pc, convoy := t.hart.convoy, stope := t.hart.stope, masks := t.hart.masks
      kd := t.hart.kd, stands := t.hart.stands
      admitted := t.hart.admitted, sent := t.hart.sent, stripWork := t.hart.stripWork, chans := t.hart.chans
      ctrl := { s.hart.ctrl with
        vstat := t.hart.ctrl.vstat, flix := t.hart.ctrl.flix, stidx := t.hart.ctrl.stidx, pmc := t.hart.ctrl.pmc } }
    rest := t.rest, mem := t.mem, bad := t.bad, tags := t.tags, dcache := t.dcache, filter := t.filter
    evicted := t.evicted }

/-- The home of an access that passes its checks. -/
def Check.at (c : Check) : Nat := match c with | .home k .. => k | _ => 0

/-- The access passes its checks (R108, R223). -/
def Check.Passes (c : Check) : Prop := ∃ k translated cow, c = .home k translated cow

/-- Every home's filter has room for one entry of each element below VL, so that none is evicted (R58). -/
def FilterRoom (s : State) : Prop :=
  ∀ home, (s.filter.filter (fun x => x.home == home)).length + vl s ≤ Config.filterDepth

/-- The access stops at a trap condition, whatever older elements of the word enter in the filter. -/
def Check.Traps (c : Check) (s : State) : Prop := ∃ x, c = .trap x ∧ (x.cause ≠ 8 ∨ FilterRoom s)

/-- The access does not pass, whatever older elements of the word enter in the filter. -/
def Check.Stops (c : Check) (s : State) : Prop := ¬c.Passes ∧ ∀ x, c = .trap x → x.cause ≠ 8 ∨ FilterRoom s

/-- The accesses of the active elements pass at the given homes, none of them by copy-on-write, and still do whatever the
bytes they store become: no store of the word changes the translation of another. -/
def StoresPass (s : State) (act : Nat → Prop) (req : Nat → Req) (home : Nat → Nat) : Prop :=
  ∀ m, Memory.wf m →
    (∀ a, (∀ e, act e → ¬(home e ≤ a ∧ a < home e + (req e).len)) → smGet 0 m a = memByte s a) →
    ∀ e, act e → ∃ translated, check { s with mem := m } (req e) = .home (home e) translated false

/-- Nibble `n` of memory: the low nibble of a byte comes first (R15, R221). -/
def nibbleAt (s : State) (n : Nat) : Nat := (memByte s (n / 2)).toNat / 16 ^ (n % 2) % 16

/-- The first nibble that element `e` of type `t` at home `k` covers, and their number (R221). -/
def elemNibbles (t e k : Nat) : Nat × Nat := if tyBits t = 4 then (2 * k + e % 2, 1) else (2 * k, tyBits t / 4)

/-- Element `e` covers nibble `n`. -/
def CoversNibble (t e k n : Nat) : Prop := (elemNibbles t e k).1 ≤ n ∧ n < (elemNibbles t e k).1 + (elemNibbles t e k).2

/-- Memory after the stores of the active elements in ascending order: a nibble holds its part of the value of the last
element that covers it, and one that none covers is unchanged (R225, R230). -/
structure NibblesStored (s t : State) (ty : Nat) (act : Nat → Prop) (home value : Nat → Nat) : Prop where
  stored : ∀ e n, act e → CoversNibble ty e (home e) n → (∀ e' > e, act e' → ¬CoversNibble ty e' (home e') n) →
    nibbleAt t n = value e / 16 ^ (n - (elemNibbles ty e (home e)).1) % 16
  kept : ∀ n, (∀ e, act e → ¬CoversNibble ty e (home e) n) → nibbleAt t n = nibbleAt s n

/-! ### Rounding -/

/-- R181, R183: of two adjacent magnitudes `lo < x < hi`, the mode picks `hi`, the one farther from zero; `odd` tells that the
last place of `lo` is odd. -/
def picksFarther (m : Mode) (neg : Bool) (x lo hi : Nat) (odd : Bool) : Bool :=
  match m.rm with
  | 0 => decide (lo + hi < 2 * x) || (decide (lo + hi = 2 * x) && odd)
  | 1 => false
  | 2 => neg
  | 3 => !neg
  | 4 => decide (lo + hi ≤ 2 * x)
  | _ =>
    let d : Nat := ((List.range 12).map (fun i => if m.k.testBit i then 2 ^ (15 - i) else 0)).sum + m.k % 16
    decide (2 ^ 16 ≤ (x - lo) * 2 ^ 16 / (hi - lo) + d)

/-- R182, R303: the magnitudes of a k4 type by index, extended beyond the largest by its spacing. -/
def codeMagnitude (t j : Nat) : Nat :=
  match t with
  | 0 => j
  | 1 => if j ≤ 7 then [0, 1, 2, 3, 4, 6, 8, 12].getD j 0 else 12 + (j - 7) * 4
  | 2 => if j ≤ 7 then [0, 1, 2, 4, 8, 16, 32, 64].getD j 0 else 64 + (j - 7) * 32
  | _ => if j ≤ 7 then [0, 1, 2, 3, 4, 5, 6, 8].getD j 0 else 8 + (j - 7) * 2

/-- R182: the image of a code of type `t`. -/
def codeImage (t code : Nat) : Int :=
  if t = 0 then sextN 4 code
  else (if code / 8 % 2 = 1 then -1 else 1) * (codeMagnitude t (code % 8) : Nat)

/-- R182, R304: the exponent of the factor of a scale byte. -/
def factorExp (b : Nat) : Int := (b % 64 : Nat) - 31 - (if b / 64 = 1 then 1 else 0)

/-- R303: `r` is the code, with its flags, that value `v` takes under the scale byte `b`. -/
def IsQuantCode (b : Nat) (m : Mode) (v : Machine.Num) (r : Nat × Flags) : Prop :=
  let t := b / 64
  let limit (neg : Bool) : Nat × Flags := (if neg then (if t = 0 then 8 else 15) else 7, flSAT ||| flNX)
  match v with
  | .nan _ => r = (0, flNV)
  | .inf neg => r = limit neg
  | .fin neg mag exp _ =>
    let e := exp - factorExp b
    let x := mag * 2 ^ e.toNat
    let point (j : Nat) : Nat := codeMagnitude t j * 2 ^ (-e).toNat
    ∃ j, point j ≤ x ∧ x < point (j + 1) ∧
      let i := if x ≠ point j ∧ picksFarther m neg x (point j) (point (j + 1)) (j % 2 == 1) = true then j + 1 else j
      r = if (if t = 0 ∧ neg = true then 8 else 7) < i then limit neg
          else (if neg ∧ i ≠ 0 then (if t = 0 then 16 - i else 8 + i) else i, if x = point j then 0 else flNX)

/-! ### Seam, tensor forms and queues -/

/-- Rows `base` to `base + VL - 1` of the strand's holding: those that a row operand names (R273). -/
def NamedRow (s : State) (ga : Reg) (r : Nat) : Prop := rowBase s ga ≤ r ∧ r < rowBase s ga + vl s

/-- A seam word changes nothing but the strand's seam, stope, flags, stop state, stream positions and counts, the
adapter cache with its pending contributions, and the decisions of the dies' governors. -/
def SeamFrame (s t : State) : Prop :=
  t = { s with
    hart := { s.hart with
      pc := t.hart.pc, convoy := t.hart.convoy, stope := t.hart.stope, seam := t.hart.seam
      kd := t.hart.kd, stands := t.hart.stands
      admitted := t.hart.admitted, sent := t.hart.sent, stripWork := t.hart.stripWork, chans := t.hart.chans
      ctrl := { s.hart.ctrl with
        vstat := t.hart.ctrl.vstat, flix := t.hart.ctrl.flix, stidx := t.hart.ctrl.stidx, pmc := t.hart.ctrl.pmc } }
    dies := t.dies, adapter := t.adapter, contribs := t.contribs, lateFills := t.lateFills }

/-- No flag has been raised. -/
def FlagsKept (s t : State) : Prop := t.hart.ctrl.vstat = s.hart.ctrl.vstat ∧ t.hart.ctrl.flix = s.hart.ctrl.flix

/-- No stope bit is in error, and no STREAM element that an element below VL reads is awaited (R167) or in error (log 21). -/
def ElementsReady (s : State) (srcs : Nat → List (Word × Nat)) : Prop :=
  s.hart.badBits = [] ∧ ∀ e < vl s, ∀ x ∈ srcs e, badSource s x.1 x.2 = none ∧
    (dKind x.1 = 4 → readStream s x.1 (streamPos s x.1) x.2 ≠ .notYet)

/-- The flags of the `per` window elements that element `e` of a form writes (R300, R302). -/
def raisedIn (s : State) (wd : Win) (per : Nat) (f : Nat → Nat × Flags) (e : Nat) : Flags :=
  ((List.range per).map (fun j => raisedAt s wd f (e * per + j))).foldl (· ||| ·) 0

/-- The tensor word `i` completes: its active element `e` writes elements `e * per` to `e * per + per - 1` of `wd` with the
values of `f`, flags merge by `e`, kE of a form with X takes the exceptions, and nothing else changes. -/
def TensorWord (i : Instr) (s : State) (wd : Win) (srcs : Nat → List (Word × Nat)) (ds : List Win) (kn : BitVec 3)
    (xk : Option (BitVec 3)) (per : Nat) (f : Nat → Nat × Flags) : Prop :=
  ∀ m, Issues i m s → ElementsReady s srcs →
  ∃ t, exec i s = .next t ∧ ConvoyGoesOn s t ∧ ElementsWritten s t wd (fun x => Active s kn (x / per)) f ∧
    FlagsMerged s t (Active s kn) (raisedIn s wd per f) ∧
    (match xk with
     | some ke => MaskWritten s t ke (Active s kn) (fun e => raisedIn s wd per f e &&& ~~~flNX ≠ 0)
     | none => MasksKept s t) ∧
    StreamsOnly s t ds ∧ PlaneFrame s t

/-- What a queue word may change beside memory: stope, flags, VL, stop state, stream positions and counts. -/
def QueueFrame (s t : State) : Prop :=
  t = { s with
    hart := { s.hart with
      pc := t.hart.pc, convoy := t.hart.convoy, stope := t.hart.stope
      kd := t.hart.kd, stands := t.hart.stands
      admitted := t.hart.admitted, sent := t.hart.sent, stripWork := t.hart.stripWork, chans := t.hart.chans
      ctrl := { s.hart.ctrl with
        vcfg := t.hart.ctrl.vcfg, vstat := t.hart.ctrl.vstat, flix := t.hart.ctrl.flix, stidx := t.hart.ctrl.stidx
        pmc := t.hart.ctrl.pmc } }
    mem := t.mem, bad := t.bad, dcache := t.dcache }

/-- The lowest active element. -/
def LowestActive (s : State) (kn : BitVec 3) (e : Nat) : Prop := Active s kn e ∧ ∀ e' < e, ¬Active s kn e'

/-- The active elements in ascending order. -/
def activeList (s : State) (kn : BitVec 3) : List Nat := (List.range (vl s)).filter ((readK s kn).getLsbD ·)

/-! ### Claims, channels, bells and messages -/

/-- The strand's part of what an extension word may change: general registers, pc, convoy, flags and stop state. -/
def strandAfter (s t : State) : Strand :=
  { s.hart with
    gpr := t.hart.gpr, pc := t.hart.pc, convoy := t.hart.convoy, kd := t.hart.kd, stands := t.hart.stands
    admitted := t.hart.admitted, sent := t.hart.sent
    ctrl := { s.hart.ctrl with
      vstat := t.hart.ctrl.vstat, flix := t.hart.ctrl.flix, stidx := t.hart.ctrl.stidx, pmc := t.hart.ctrl.pmc } }

/-- `gd` takes `v`, and every other general register keeps its value. -/
def RegIs (s t : State) (gd : Reg) (v : Word) : Prop := ∀ r, readG t r = if r = gd ∧ gd ≠ 0 then v else readG s r

/-- A claim form that closes no page changes nothing but the strand, the engines, memory with its errors, tags and the data
caches. -/
def ClaimFrame (s t : State) : Prop :=
  t = { s with
    hart := strandAfter s t, engines := t.engines, mem := t.mem, bad := t.bad, tags := t.tags, dcache := t.dcache }

/-- The channels of a strand differ in nothing but the pages that the copies of a sequence still reach (R344). -/
def ReachOnly (h h' : Strand) : Prop :=
  h'.chans.map (fun (c : Chan) => { c with ops := c.ops.map (fun (o : DriftOp) => { o with pages := 0 }) }) =
    h.chans.map (fun (c : Chan) => { c with ops := c.ops.map (fun (o : DriftOp) => { o with pages := 0 }) })

/-- A claim form that takes pages away changes, beside that, nothing but which pages copies still reach. -/
def TrimFrame (s t : State) : Prop :=
  ReachOnly s.hart t.hart ∧ t.rest.length = s.rest.length ∧
  (∀ (i : Nat) (h : Strand), s.rest[i]? = some h → ∃ h', t.rest[i]? = some h' ∧ h' = { h with chans := h'.chans } ∧
    ReachOnly h h') ∧
  t = { s with
    hart := { strandAfter s t with chans := t.hart.chans }, rest := t.rest, engines := t.engines, mem := t.mem
    bad := t.bad, tags := t.tags, dcache := t.dcache }

/-- The leaves of `n` pages share no byte. -/
def LeavesApart (n : Nat) (leaf : Nat → Nat) : Prop :=
  ∀ i < n, ∀ j < n, i ≠ j → leaf i + 8 ≤ leaf j ∨ leaf j + 8 ≤ leaf i

/-- Leaf `i` holds `e i` for `i < n`, and no other byte of memory has changed. -/
def LeavesWritten (s t : State) (n : Nat) (leaf : Nat → Nat) (e : Nat → Word) : Prop :=
  (∀ i < n, tableEntry t (leaf i) = e i) ∧
  ∀ a, (∀ i < n, a < leaf i ∨ leaf i + 8 ≤ a) → memByte t a = memByte s a

/-- Every descriptor slot but one of an engine is as before. -/
def OtherSeqs (s t : State) (eng slot : Nat) : Prop :=
  ∀ e < 12, ∀ x, (e ≠ eng ∨ x ≠ slot) → seqAt t e x = seqAt s e x

/-- A bell word changes nothing but the strands' run states, the strand's own progress, bells, filter and data cache. -/
def BellFrame (s t : State) : Prop :=
  t.rest.map (fun h => { h with run := .ready }) = s.rest.map (fun h => { h with run := .ready }) ∧
  t = { s with
    hart := { strandAfter s t with run := t.hart.run }
    rest := t.rest, bells := t.bells, filter := t.filter, dcache := t.dcache }

/-- The bell of a core has become `b`, and every other bell is as before. -/
def BellIs (s t : State) (core : Nat) (n : BitVec 11) (b : Bell) : Prop :=
  bellAt t (bellOwner s.hart).1 (bellOwner s.hart).2 core n.toNat = b ∧
  ∀ k, k ≠ bellKey (bellOwner s.hart).1 (bellOwner s.hart).2 core n.toNat →
    smGet Bell.zero t.bells k = smGet Bell.zero s.bells k

/-- R58: the strand's own filter entries have ended, and no other. -/
def Released (s t : State) : Prop := ∀ e, e ∈ t.filter ↔ e ∈ s.filter ∧ e.who ≠ whoIs s.hart

end Sys2Proof.Machine
end

