-- ==== Sys2Proof/Certificates/Slice0/Obligations.lean ====
section
/-!
DEFINITION. The statements: what the manual's rules say of the machine, as propositions over `exec`, `step` and the state.
Each names the rules it formalises; a clause that rests on a choice of the model names its log entry.
-/
open Sys2Proof Sys2Proof.Machine

/-! ### Scalar arithmetic -/

/-- R111, with R106: each register–register form writes the value its row gives, in unsigned or two's complement
arithmetic, and changes nothing else. -/
def Obligations.RegisterArithmetic : Prop := ∀ (gd ga gb : Reg) (s : State),
  let a := readG s ga
  let b := readG s gb
  let n := b.toNat % 64
  WritesReg (.add gd ga gb) s gd (BitVec.ofNat 64 (a.toNat + b.toNat)) ∧
  WritesReg (.sub gd ga gb) s gd (ofInt ((a.toNat : Int) - b.toNat)) ∧
  WritesReg (.and gd ga gb) s gd (a &&& b) ∧
  WritesReg (.or gd ga gb) s gd (a ||| b) ∧
  WritesReg (.xor gd ga gb) s gd (a ^^^ b) ∧
  WritesReg (.andn gd ga gb) s gd (a &&& ~~~b) ∧
  WritesReg (.sll gd ga gb) s gd (BitVec.ofNat 64 (a.toNat * 2 ^ n)) ∧
  WritesReg (.srl gd ga gb) s gd (BitVec.ofNat 64 (a.toNat / 2 ^ n)) ∧
  WritesReg (.sra gd ga gb) s gd (ofInt (a.toInt / 2 ^ n)) ∧
  WritesReg (.rol gd ga gb) s gd ((a <<< n) ||| (a >>> (64 - n))) ∧
  WritesReg (.slt gd ga gb) s gd (if a.toInt < b.toInt then 1 else 0) ∧
  WritesReg (.sltn gd ga gb) s gd (if a.toNat < b.toNat then 1 else 0) ∧
  WritesReg (.min gd ga gb) s gd (ofInt (min a.toInt b.toInt)) ∧
  WritesReg (.max gd ga gb) s gd (ofInt (max a.toInt b.toInt)) ∧
  WritesReg (.minn gd ga gb) s gd (BitVec.ofNat 64 (min a.toNat b.toNat)) ∧
  WritesReg (.maxn gd ga gb) s gd (BitVec.ofNat 64 (max a.toNat b.toNat)) ∧
  WritesReg (.addw gd ga gb) s gd (ofInt (sextN 32 (a.toNat + b.toNat))) ∧
  WritesReg (.subw gd ga gb) s gd (ofInt (sextN 32 (a.toNat + (2 ^ 64 - b.toNat))))

/-- R112: products, quotients toward zero and remainders of the dividend's sign, with the stated results of a division by
zero and of the one signed overflow. R113: counts of leading, trailing and set bits by what they count, sign and zero
extension, and the byte swap. -/
def Obligations.MultiplyDivideAndBits : Prop :=
  (∀ (gd ga gb : Reg) (s : State),
    let a := readG s ga
    let b := readG s gb
    let wraps := a.toInt = -(2 ^ 63) ∧ b.toInt = -1
    WritesReg (.mul gd ga gb) s gd (BitVec.ofNat 64 (a.toNat * b.toNat)) ∧
    WritesReg (.mulh gd ga gb) s gd (ofInt (a.toInt * b.toInt / 2 ^ 64)) ∧
    WritesReg (.mulhn gd ga gb) s gd (BitVec.ofNat 64 (a.toNat * b.toNat / 2 ^ 64)) ∧
    WritesReg (.div gd ga gb) s gd
      (if b = 0 then BitVec.ofNat 64 (2 ^ 64 - 1) else if wraps then ofInt (-(2 ^ 63)) else ofInt (a.toInt.tdiv b.toInt)) ∧
    WritesReg (.divn gd ga gb) s gd
      (if b = 0 then BitVec.ofNat 64 (2 ^ 64 - 1) else BitVec.ofNat 64 (a.toNat / b.toNat)) ∧
    WritesReg (.rem gd ga gb) s gd
      (if b = 0 then a else if wraps then 0 else ofInt (a.toInt - b.toInt * a.toInt.tdiv b.toInt)) ∧
    WritesReg (.remn gd ga gb) s gd
      (if b = 0 then a else BitVec.ofNat 64 (a.toNat - b.toNat * (a.toNat / b.toNat)))) ∧
  (∀ (gd ga : Reg) (s : State),
    let a := readG s ga
    (∃ n ≤ 64, WritesReg (.clz gd ga) s gd (BitVec.ofNat 64 n) ∧
      (∀ i, 64 - n ≤ i → a.getLsbD i = false) ∧ (n < 64 → a.getLsbD (63 - n) = true)) ∧
    (∃ n ≤ 64, WritesReg (.ctz gd ga) s gd (BitVec.ofNat 64 n) ∧
      (∀ i < n, a.getLsbD i = false) ∧ (n < 64 → a.getLsbD n = true)) ∧
    WritesReg (.popc gd ga) s gd (BitVec.ofNat 64 ((List.range 64).countP (fun i => a.getLsbD i))) ∧
    WritesReg (.sextb gd ga) s gd (ofInt (sextN 8 a.toNat)) ∧
    WritesReg (.sexth gd ga) s gd (ofInt (sextN 16 a.toNat)) ∧
    WritesReg (.sextw gd ga) s gd (ofInt (sextN 32 a.toNat)) ∧
    WritesReg (.zextb gd ga) s gd (BitVec.ofNat 64 (a.toNat % 2 ^ 8)) ∧
    WritesReg (.zexth gd ga) s gd (BitVec.ofNat 64 (a.toNat % 2 ^ 16)) ∧
    WritesReg (.zextw gd ga) s gd (BitVec.ofNat 64 (a.toNat % 2 ^ 32)) ∧
    (∃ v, WritesReg (.bswap gd ga) s gd v ∧
      ∀ i < 8, v.extractLsb' (8 * (7 - i)) 8 = a.extractLsb' (8 * i) 8))

/-- R114, R115, R116: immediate forms, whose immediates extend by sign or by zero as their rows say. -/
def Obligations.ImmediateOperations : Prop := ∀ (gd ga : Reg) (imm : BitVec 15) (sh : BitVec 6) (up : BitVec 20) (s : State),
  let a := readG s ga
  let i := imm.toInt
  WritesReg (.addi gd ga imm) s gd (ofInt (a.toNat + i)) ∧
  WritesReg (.andi gd ga imm) s gd (a &&& BitVec.ofNat 64 imm.toNat) ∧
  WritesReg (.ori gd ga imm) s gd (a ||| BitVec.ofNat 64 imm.toNat) ∧
  WritesReg (.xori gd ga imm) s gd (a ^^^ BitVec.ofNat 64 imm.toNat) ∧
  WritesReg (.slti gd ga imm) s gd (if a.toInt < i then 1 else 0) ∧
  WritesReg (.sltni gd ga imm) s gd (if (a.toNat : Int) < i % 2 ^ 64 then 1 else 0) ∧
  WritesReg (.slli gd ga sh) s gd (BitVec.ofNat 64 (a.toNat * 2 ^ sh.toNat)) ∧
  WritesReg (.srli gd ga sh) s gd (BitVec.ofNat 64 (a.toNat / 2 ^ sh.toNat)) ∧
  WritesReg (.srai gd ga sh) s gd (ofInt (a.toInt / 2 ^ sh.toNat)) ∧
  WritesReg (.roli gd ga sh) s gd ((a <<< sh.toNat) ||| (a >>> (64 - sh.toNat))) ∧
  WritesReg (.lih gd up) s gd (ofInt (up.toInt * 2 ^ 12)) ∧
  WritesReg (.pcadd gd up) s gd (ofInt (s.hart.pc.toNat + up.toInt * 2 ^ 12))

/-! ### Traps and strand words -/

/-- R156, R157, with R142–R146: `trap` saves the next word's address and splits g[ga] into detail and address, so that g0
gives detail 0; `break` saves its own address with no detail. The words of the two rules' examples stand for them. -/
def Obligations.SoftwareTraps : Prop := (∀ (ga : Reg) (s : State), HandlerReady s → StrandLegal s.hart →
  (∃ t, exec (.trap ga) s = .next t ∧ TrapTaken s t 15 (s.hart.pc + 4) ∧
    bitsW t.hart.ctrl.ecause 16 16 = bitsW (readG s ga) 48 16 ∧
    t.hart.ctrl.einfo = BitVec.ofNat 64 (bitsW (readG s ga) 0 48 * 2 ^ 16) ∧
    t.hart.ctrl.stidx = 0 ∧ t.hart.kd = 0) ∧
  (∃ t, exec .brk s = .next t ∧ TrapTaken s t 14 s.hart.pc ∧
    t.hart.ctrl.ecause = 0x10E ∧ t.hart.ctrl.einfo = 0 ∧ t.hart.ctrl.stidx = 0 ∧ t.hart.kd = 0)) ∧
  decodeWord 0xC002_8000 = some (.trap 5) ∧ decodeWord 0xC000_0001 = some .brk

/-- R148, R376, R416: a trap of any cause while a handler runs, or with none set, ends the strand's launch FAULTED with the
status its trap would have left, and no strand of the launch remains (at once, as log 49 has it); a deputy halts and its bit of
FWCTL.halted is set. So it is for a trap of a word or a convoy at its return address, and for the words and the step that are
traps by themselves. -/
def Obligations.UnhandledTrapEndsLaunch : Prop := ∀ (s : State),
  (trapActive s = true ∨ s.hart.ctrl.tvec.extractLsb' 2 46 = 0) → StrandLegal s.hart →
  let ends (t : State) (x : Trap) (epc : BitVec 48) : Prop :=
    (onDeputy s.hart = false → ∀ l, findLaunch s s.hart.part s.hart.serial = some l → l.verdict = none →
      ∃ l', findLaunch t s.hart.part s.hart.serial = some l' ∧
        l'.verdict = some { status := 3, info := x.einfo, aux := x.aux,
                            place := BitVec.ofNat 64 (x.key.toNat * 2 ^ 56 + x.cause.toNat * 2 ^ 48 + epc.toNat) } ∧
        ∀ h ∈ allStrands t, strandsOf s.hart.part s.hart.serial h = false) ∧
    (onDeputy s.hart = true → t.hart.run = .halted ∧
      t.fwHalted = s.fwHalted ||| (1 <<< (2 * dieOf s.hart.core + s.hart.core % 2))) ∧
    (bitW s.hart.ctrl.recctl 2 = false → t.mem = s.mem)
  (∀ (x : Trap) epc start sa kd, epc.toNat % 4 = 0 → ends (takeTrap x epc start sa kd s) x epc) ∧
  (∃ t, exec .brk s = .next t ∧ ends t { cause := 14 } s.hart.pc) ∧
  (∀ ga, ∃ t, exec (.trap ga) s = .next t ∧
    ends t { cause := 15, aux := (readG s ga).extractLsb' 48 16, addr := (readG s ga).setWidth 48 } (s.hart.pc + 4)) ∧
  ∀ cause aux key addr ev elem, ∃ t, exec (.trapEntry cause aux key addr ev elem) s = .next t ∧
    ends t { cause := cause, aux := aux, key := key, addr := addr, ev := ev, elem := elem } s.hart.pc

/-- R158: the return clears act alone in ECAUSE, continues at EPC with no convoy, and leaves STIDX and kd for the resume
point; without act it traps PRIV with its word. -/
def Obligations.TrapReturn : Prop := ∀ (s : State),
  (trapActive s = true → ∃ t, exec .trapret s = .next t ∧
    t.hart.pc.toNat = bitsW s.hart.ctrl.epc 2 46 * 4 ∧ trapActive t = false ∧
    (∀ i, i ≠ 8 → bitW t.hart.ctrl.ecause i = bitW s.hart.ctrl.ecause i) ∧ t.hart.convoy = .none ∧
    t = { s with hart := { s.hart with
      pc := t.hart.pc, convoy := .none, resuming := true, ctrl := { s.hart.ctrl with ecause := t.hart.ctrl.ecause } } }) ∧
  (HandlerReady s → StrandLegal s.hart → WordTraps .trapret s 13 0 0xC000_0002)

/-- R97, R159, R160: `retire` waits for the strand's queues, then ends the strand: its slot is free, its live filter entries are
gone, and its launch counts one more strand ended, DONE when it was the last, with nothing else of it changed (DONE takes off
what strands of it a state no run reaches would still hold); on a deputy core it traps PRIV. `yield` makes the strand the most
recently issued, and changes no architectural state. -/
def Obligations.RetireAndYield : Prop :=
  (∀ (s : State),
    (onDeputy s.hart = false → undrained s s.hart allQueues = false → ∀ l,
      findLaunch s s.hart.part s.hart.serial = some l → l.verdict = none →
      let done := l.placed && l.ended + 1 == l.members && l.replace.isEmpty
      let gone (h : Strand) : Bool := whoIs h == whoIs s.hart && h.core == s.hart.core && h.slot == s.hart.slot
      let others := ((allStrands s).filter (fun h => strandsOf s.hart.part s.hart.serial h && !gone h)).length
      ∃ t, exec .retire s = .next t ∧
        (∀ h ∈ allStrands t, h.run ≠ .vacant → whoIs h = whoIs s.hart → h.core = s.hart.core → h.slot ≠ s.hart.slot) ∧
        (∀ e ∈ t.filter, e.who ≠ whoIs s.hart) ∧
        findLaunch t s.hart.part s.hart.serial = some { l with
          ended := l.ended + 1 + if done then others else 0
          verdict := if done then some { status := 1, info := 0, place := 0, aux := 0 } else none }) ∧
    (onDeputy s.hart = false → undrained s s.hart allQueues = true →
      ∃ t, exec .retire s = .next t ∧ t.hart.run = .retiring ∧ t.hart.pc = s.hart.pc ∧ t.mem = s.mem ∧ t.rest = s.rest) ∧
    (onDeputy s.hart = true → HandlerReady s → StrandLegal s.hart → WordTraps .retire s 13 0 0xC000_0003)) ∧
  (∀ (s : State),
    ∃ t, exec .yield s = .next t ∧ t.hart.pc = s.hart.pc + 4 ∧ t.hart.stamp = s.tick ∧ ConvoyEnded t ∧
      t = { s with hart := { s.hart with
        pc := t.hart.pc, convoy := t.hart.convoy, stamp := t.hart.stamp, aged := t.hart.aged } })

/-! ### Control flow -/

/-- R121: each branch continues at `P + 4 × off` where its condition holds and at `P + 4` otherwise. -/
def Obligations.ConditionalBranches : Prop := ∀ (ga gb : Reg) (off : BitVec 12) (s : State),
  let a := readG s ga
  let b := readG s gb
  let goes (i : Instr) (taken : Bool) : Prop :=
    ∃ t, exec i s = .next t ∧ ConvoyEnded t ∧ OnlyRegs s t ∧ t.hart.gpr = s.hart.gpr ∧
      t.hart.pc = BitVec.ofInt 48 (s.hart.pc.toNat + (if taken then 4 * off.toInt else 4))
  goes (.brEq ga gb off) (decide (a = b)) ∧ goes (.brNe ga gb off) (decide (a ≠ b)) ∧
  goes (.brLt ga gb off) (decide (a.toInt < b.toInt)) ∧ goes (.brGe ga gb off) (decide (b.toInt ≤ a.toInt)) ∧
  goes (.brLtn ga gb off) (decide (a.toNat < b.toNat)) ∧ goes (.brGen ga gb off) (decide (b.toNat ≤ a.toNat))

/-- R122: the jumps link the next word; `jalr` reads its base before it links, and a misaligned target traps ALIGN, one
above 48 bits PROT, with gd unwritten. -/
def Obligations.Jumps : Prop := ∀ (gd ga : Reg) (off : BitVec 20) (imm : BitVec 15) (s : State),
  let links (i : Instr) (target : BitVec 48) : Prop :=
    ∃ t, exec i s = .next t ∧ t.hart.pc = target ∧ ConvoyEnded t ∧ OnlyRegs s t ∧
      ∀ r, readG t r = if r = gd ∧ gd ≠ 0 then s.hart.pc.setWidth 64 + 4 else readG s r
  let target := ofInt ((readG s ga).toNat + imm.toInt)
  links (.jal gd off) (BitVec.ofInt 48 (s.hart.pc.toNat + 4 * off.toInt)) ∧
  (target.toNat % 4 = 0 → bitsW target 48 16 = 0 → links (.jalr gd ga imm) (target.setWidth 48)) ∧
  (HandlerReady s → StrandLegal s.hart →
    (target.toNat % 4 ≠ 0 → WordTraps (.jalr gd ga imm) s 5 2 (target.setWidth 48)) ∧
    (target.toNat % 4 = 0 → bitsW target 48 16 ≠ 0 → WordTraps (.jalr gd ga imm) s 6 2 (target.setWidth 48)))

/-! ### Scalar memory -/

/-- R106, R108, R109, R117: each load form, where the checks pass, takes its bytes from their home (or, where the load
answers from the core's cache, from the cached copy if there is one; log 3), extends them as its row says, and leaves memory as
it was. -/
def Obligations.ScalarLoads : Prop := ∀ (gd ga : Reg) (off : BitVec 12) (s : State),
  let forms : List (Instr × Nat × Bool) :=
    [(.ldB gd ga off, 1, true), (.ldBn gd ga off, 1, false), (.ldH gd ga off, 2, true), (.ldHn gd ga off, 2, false),
     (.ldW gd ga off, 4, true), (.ldWn gd ga off, 4, false), (.ldD gd ga off, 8, false)]
  let ea := ofInt ((readG s ga).toNat + off.toInt)
  ∀ f ∈ forms, ∀ k translated cow, check s (scalarReq .read ea f.2.1 true) = .home k translated cow →
    ∃ t bs, exec f.1 s = .next t ∧ bs.length = f.2.1 ∧
      (∀ j < f.2.1, bs[j]? = some
        (match (if translated && s.hits.head? == some true then smGet none s.dcache (cacheKey s.hart.core k) else none) with
         | some w => w.extractLsb' (8 * (k % 8 + j)) 8
         | none => memByte s (k + j))) ∧
      (∀ r, readG t r = if r = gd ∧ gd ≠ 0 then
          (if f.2.2 then ofInt (sextN (8 * f.2.1) (leNat bs)) else BitVec.ofNat 64 (leNat bs)) else readG s r) ∧
      t.hart.pc = s.hart.pc + 4 ∧ ConvoyEnded t ∧ t.mem = s.mem ∧ t.dcache = s.dcache ∧ ScalarAccessFrame s t

/-- R108, R109, R118, R332: each store form, where the checks pass, writes the low bytes of its register at the home that the
copy-on-write step leaves, and no other byte of memory; the core's cached copies follow. -/
def Obligations.ScalarStores : Prop := ∀ (gs ga : Reg) (off : BitVec 12) (s : State), Canonical s →
  let forms : List (Instr × Nat) := [(.stB gs ga off, 1), (.stH gs ga off, 2), (.stW gs ga off, 4), (.stD gs ga off, 8)]
  let ea := ofInt ((readG s ga).toNat + off.toInt)
  ∀ f ∈ forms, ∀ k translated cow, check s (scalarReq .write ea f.2 true) = .home k translated cow →
    let s' := (settle s (scalarReq .write ea f.2 true) k cow).1
    let k' := (settle s (scalarReq .write ea f.2 true) k cow).2
    (cow = false → s' = s ∧ k' = k) ∧
    ∃ t, exec f.1 s = .next t ∧
      (∀ j < f.2, memByte t (k' + j) = (readG s gs).extractLsb' (8 * j) 8) ∧
      (∀ a, a < k' ∨ k' + f.2 ≤ a → memByte t a = memByte s' a) ∧
      (∀ j < f.2, ∀ w, smGet none t.dcache (cacheKey s.hart.core (k' + j)) = some w →
        w.extractLsb' (8 * ((k' + j) % 8)) 8 = (readG s gs).extractLsb' (8 * j) 8) ∧
      t.hart.pc = s.hart.pc + 4 ∧ ConvoyEnded t ∧ t.hart.gpr = s.hart.gpr ∧ ScalarAccessFrame s' t

/-- R47, R50, R109, R119: `lda` reads its home whatever the cache holds, drops its lines from the cache, and at gang scope or
wider drops the whole cache; `stl` ends the strand's filter entries and writes its home alone. -/
def Obligations.AcquireLoadReleaseStore : Prop := ∀ (gd ga : Reg) (sz scope : BitVec 3) (off : BitVec 9) (s : State),
  Canonical s → scope.toNat ≤ 4 →
  let ea := ofInt ((readG s ga).toNat + off.toInt)
  ∀ n signed, sizeOfCode sz = some (n, signed) →
  (∀ k translated cow, check s (scalarReq .read ea n false) = .home k translated cow →
    ∃ t, exec (.lda gd ga sz scope off) s = .next t ∧
      (∀ r, readG t r = if r = gd ∧ gd ≠ 0 then
          (if signed then ofInt (sextN (8 * n) (memNat s k n)) else BitVec.ofNat 64 (memNat s k n)) else readG s r) ∧
      (∀ j < n, smGet none t.dcache (cacheKey s.hart.core (k + j)) = none) ∧
      (vcfgObs s = false → scope ≠ 0 → ∀ a < 2 ^ 46, smGet none t.dcache (cacheKey s.hart.core a) = none) ∧
      t.hart.pc = s.hart.pc + 4 ∧ ConvoyEnded t ∧ t.filter = s.filter ∧ t.mem = s.mem ∧ ScalarAccessFrame s t) ∧
  (sz.toNat % 2 = 0 → ∀ k translated, check s (scalarReq .write ea n false) = .home k translated false →
    ∃ t, exec (.stl gd ga sz scope off) s = .next t ∧
      (∀ j < n, memByte t (k + j) = (readG s gd).extractLsb' (8 * j) 8) ∧
      (∀ a, a < k ∨ k + n ≤ a → memByte t a = memByte s a) ∧
      (∀ j < n, smGet none t.dcache (cacheKey s.hart.core (k + j)) = none) ∧
      (∀ e, e ∈ t.filter ↔ e ∈ s.filter ∧ e.who ≠ whoIs s.hart) ∧
      t.hart.pc = s.hart.pc + 4 ∧ ConvoyEnded t ∧ t.hart.gpr = s.hart.gpr ∧ ScalarAccessFrame s t)

/-- R120: an atomic's old value goes to gd sign-extended, its new value to its home alone, and a `cas` that does not hold
writes nothing; only `fadd` raises flags, in VSTAT. -/
def Obligations.ScalarAtomics : Prop :=
  ∀ (gd ga gb : Reg) (op : BitVec 4) (order : BitVec 2) (scope : BitVec 3) (sz : BitVec 1) (s : State),
  Canonical s → op.toNat ≤ 10 → scope.toNat ≤ 4 → (op = 10 → sz = 0) →
  let n := if sz = 0 then 4 else 8
  let m := 8 * n
  ∀ k translated, check s (scalarReq .atomic (readG s ga) n false) = .home k translated false →
  let old := memNat s k n
  let b := (readG s gb).toNat % 2 ^ m
  let cmp := (readG s gd).toNat % 2 ^ m
  let sum := addN 0 (readF f32 false old) (readF f32 false b)
  let new : Nat :=
    match op.toNat with
    | 0 => b
    | 1 => (old + b) % 2 ^ m
    | 2 => old &&& b
    | 3 => old ||| b
    | 4 => old ^^^ b
    | 5 => if sextN m b < sextN m old then b else old
    | 6 => if sextN m old < sextN m b then b else old
    | 7 => min old b
    | 8 => max old b
    | 9 => if old = cmp then b else old
    | _ => (roundF f32 homeMode sum.1).1
  let flags : Flags := if op = 10 then sum.2 ||| (roundF f32 homeMode sum.1).2 else 0
  ∃ t, exec (.amo gd ga gb op order scope sz) s = .next t ∧
    memNat t k n = new ∧ (∀ a, a < k ∨ k + n ≤ a → memByte t a = memByte s a) ∧
    (∀ r, readG t r = if r = gd ∧ gd ≠ 0 then ofInt (sextN m old) else readG s r) ∧
    t.hart.ctrl.vstat = s.hart.ctrl.vstat ||| flags.setWidth 64 ∧
    t.hart.ctrl = { s.hart.ctrl with vstat := t.hart.ctrl.vstat } ∧
    (∀ e, e ∈ t.filter ↔ e ∈ s.filter ∧ (order.getLsbD 1 = true → e.who ≠ whoIs s.hart)) ∧
    t.hart.pc = s.hart.pc + 4 ∧ ConvoyEnded t ∧
    t = { s with
      hart := { s.hart with gpr := t.hart.gpr, pc := t.hart.pc, convoy := t.hart.convoy, ctrl := t.hart.ctrl }
      mem := t.mem, bad := t.bad, dcache := t.dcache, filter := t.filter }

/-- R108, in its order, for every scalar access: a misaligned access traps ALIGN; an aligned one with ea[59:48] set PROT; a
missing translation suspends the strand with the missing page recorded, or traps MEMFAIL where the page was resumed with fail;
an access outside the page's permissions traps PROT. On bytes at their home, a granule of a TAGGED page with another tag than
the key traps TAG (R236), a watchpoint that the access hits WATCH with one bit for each (R254), a live entry of another strand
CONFLICT, for `ld` and `st` alone (R58), and an error in a byte read MEMERR (R146). None of them changes a register. Of several
entries that conflict, the oldest is reported (log 71), and MEMERR goes by the home (log 3). -/
def Obligations.ScalarAccessStops : Prop := ∀ (g ga gb : Reg) (off : BitVec 12) (off9 : BitVec 9) (sz scope : BitVec 3)
  (op : BitVec 4) (order : BitVec 2) (asz : BitVec 1) (s : State),
  HandlerReady s → StrandLegal s.hart → scope.toNat ≤ 4 → op.toNat ≤ 10 → (op = 10 → asz = 0) →
  let stops (entered : Bool) (ea : Word) (i : Instr) (kind : Kind) (n : Nat) : Prop :=
    let va := bitsW ea 0 48
    let at_ (j : Nat) : BitVec 48 := BitVec.ofNat 48 (va + j)
    (ea.toNat % n ≠ 0 → WordTraps i s 5 kind.aux (at_ 0)) ∧
    (ea.toNat % n = 0 → bitsW ea 48 12 ≠ 0 → WordTraps i s 6 kind.aux (at_ 0)) ∧
    (ea.toNat % n = 0 → bitsW ea 48 12 = 0 →
      (locate s s.hart va kind = .prot → WordTraps i s 6 kind.aux (at_ 0)) ∧
      (∀ a b c, locate s s.hart va kind = .missing a b c →
        (pageFailed s va = true → WordTraps i s 11 0 (at_ 0)) ∧
        (pageFailed s va = false → bitW s.hart.ctrl.recctl 3 = false →
          ∃ t, exec i s = .next t ∧ t.hart.run = .suspended ∧ t.hart.pc = s.hart.pc ∧ t.hart.gpr = s.hart.gpr ∧
            t.hart.ctrl.epc = s.hart.ctrl.epc ∧ t.hart.ctrl.ecause = s.hart.ctrl.ecause ∧
            t.hart.recs = [{ page := va / 2 ^ 16, resumed := false, failed := false }])) ∧
      (∀ k tagged translated, locate s s.hart va kind = .home k tagged translated false →
        let mismatch (x : Nat) : Prop := tagged = true ∧ x * 32 < k + n ∧ k < x * 32 + 32 ∧
          (smGet 0 s.tags x).toNat % 16 ≠ bitsW ea 60 4
        let hit (j : Fin 8) : Prop :=
          let w := s.hart.ctrl.watch[j]
          let size := 2 ^ bitsW w 58 4
          let lo := bitsW w 0 48 / size * size
          lo < va + n ∧ va < lo + size ∧
            (match kind with | .read => bitsW w 62 2 % 2 = 1 | .write => 2 ≤ bitsW w 62 2 | _ => bitsW w 62 2 ≠ 0)
        let conflicts (e : FilterEntry) : Prop := entered = true ∧ s.hart.nodetect = false ∧ vcfgDet s = true ∧
          e.home = homeOf k ∧ e.who ≠ whoIs s.hart ∧ (kind = .write ∨ e.write = true) ∧ e.addr < k + n ∧ k < e.addr + e.len
        (∀ x, mismatch x → (∀ y < x, ¬mismatch y) → ∃ t, exec i s = .next t ∧ TrapTaken s t 7 s.hart.pc ∧
          bitsW t.hart.ctrl.ecause 16 16 = (smGet 0 s.tags x).toNat ∧ bitsW t.hart.ctrl.ecause 32 4 = bitsW ea 60 4 ∧
          bitsW t.hart.ctrl.einfo 16 48 = va ∧ t.hart.ctrl.stidx = 0 ∧ t.hart.kd = 0) ∧
        ((∀ x, ¬mismatch x) →
          ((∃ j, hit j) → ∃ aux : BitVec 16, WordTraps i s 10 aux (at_ 0) ∧ aux.toNat < 256 ∧
            ∀ j : Fin 8, aux.getLsbD j = true ↔ hit j) ∧
          ((∀ j, ¬hit j) →
            (∀ older e newer, s.filter = older ++ e :: newer → conflicts e → (∀ x ∈ older, ¬conflicts x) →
              ∀ h, findWho s e.who = some h →
              WordTraps i s 8 (BitVec.ofNat 16 (coreId s h + h.slot * 2 ^ 10 + e.write.toNat * 2 ^ 12)) (at_ (e.addr - k))) ∧
            ((∀ e ∈ s.filter, ¬conflicts e) → kind ≠ .write → ∀ j < n, smGet false s.bad (k + j) = true →
              (∀ q < j, smGet false s.bad (k + q) = false) →
              WordTraps i s 12 (BitVec.ofNat 16 (tierOf k)) (BitVec.ofNat 48 ((va + j) / 32 * 32)))))))
  let forms : List (Instr × Kind × Nat) :=
    [(.ldB g ga off, .read, 1), (.ldBn g ga off, .read, 1), (.ldH g ga off, .read, 2), (.ldHn g ga off, .read, 2),
     (.ldW g ga off, .read, 4), (.ldWn g ga off, .read, 4), (.ldD g ga off, .read, 8),
     (.stB g ga off, .write, 1), (.stH g ga off, .write, 2), (.stW g ga off, .write, 4), (.stD g ga off, .write, 8)]
  let a := readG s ga
  let near := ofInt (a.toNat + off9.toInt)
  (∀ f ∈ forms, stops true (ofInt (a.toNat + off.toInt)) f.1 f.2.1 f.2.2) ∧
  (∀ n signed, sizeOfCode sz = some (n, signed) → stops false near (.lda g ga sz scope off9) .read n ∧
    (sz.toNat % 2 = 0 → stops false near (.stl g ga sz scope off9) .write n)) ∧
  stops false a (.amo g ga gb op order scope asz) .atomic (if asz = 0 then 4 else 8)

/-! ### Scalar floating point -/

/-- R110, R123, R124: each form rounds the exact result once to f32 under VCFG.rm (5 as 0), zero-extends it, and merges its
flags into VSTAT; the sign forms are bit operations without flags. -/
def Obligations.FloatArithmetic : Prop := ∀ (gd ga gb gc : Reg) (s : State),
  let m : Mode := { rm := if vcfgRm s = 5 then 0 else vcfgRm s, sat := false, ftz := vcfgFtz s, k := 0 }
  let val (r : Reg) : Machine.Num := readF f32 (vcfgFtz s) (bitsW (readG s r) 0 32)
  let x := val ga
  let y := val gb
  let z := val gc
  let rounds (i : Instr) (p : Machine.Num × Flags) : Prop :=
    WritesFloat i s gd (BitVec.ofNat 64 (roundF f32 m p.1).1) (p.2 ||| (roundF f32 m p.1).2)
  let fused (p z : Machine.Num) : Machine.Num × Flags :=
    ((fmaN m.rm p y z).1, (fmaN m.rm p y z).2 ||| snanFlag [p, y, z])
  let signed (neg : Bool) : Word := BitVec.ofNat 64 (bitsW (readG s ga) 0 31 + if neg then 2 ^ 31 else 0)
  rounds (.fadd gd ga gb) (addN m.rm x y) ∧ rounds (.fsub gd ga gb) (addN m.rm x y.negate) ∧
  rounds (.fmul gd ga gb) (mulN x y) ∧ rounds (.fdiv gd ga gb) (divN x y) ∧ rounds (.fsqrt gd ga) (sqrtN x) ∧
  rounds (.fmin gd ga gb) (pickN minFirst x y) ∧ rounds (.fmax gd ga gb) (pickN maxFirst x y) ∧
  rounds (.fmadd gd ga gb gc) (fused x z) ∧ rounds (.fmsub gd ga gb gc) (fused x z.negate) ∧
  rounds (.fnmadd gd ga gb gc) (fused x.negate z.negate) ∧ rounds (.fnmsub gd ga gb gc) (fused x.negate z) ∧
  WritesReg (.fsgnj gd ga gb) s gd (signed (bitW (readG s gb) 31)) ∧
  WritesReg (.fsgnjn gd ga gb) s gd (signed (!bitW (readG s gb) 31)) ∧
  WritesReg (.fsgnjx gd ga gb) s gd (signed (bitW (readG s ga) 31 != bitW (readG s gb) 31))

/-- R110, R123: the canonical NaN and NV of NaN operands and of the invalid operations, DZ of a division of a normal number
by zero, the square roots of −0 and of negative numbers, and `fmin` and `fmax` of zeros and of a NaN and a normal number.
R125: integers round once to f32; an f32 rounds to an integer of the form's width, a NaN to 0 and a value out of range
to the nearest limit, both with NV; bf16 widens exactly. -/
def Obligations.FloatSpecialValuesAndConversions : Prop :=
  (∀ (gd ga gb : Reg) (s : State),
    let x := bitsW (readG s ga) 0 32
    let y := bitsW (readG s gb) 0 32
    let nan (b : Nat) : Prop := 0x7F80_0000 < b % 2 ^ 31
    let signalling (b : Nat) : Prop := 0x7F80_0000 < b % 2 ^ 31 ∧ b % 2 ^ 31 < 0x7FC0_0000
    let zero (b : Nat) : Prop := b % 2 ^ 31 = 0
    let infinite (b : Nat) : Prop := b % 2 ^ 31 = 0x7F80_0000
    let normal (b : Nat) : Prop := 0x0080_0000 ≤ b % 2 ^ 31 ∧ b % 2 ^ 31 < 0x7F80_0000
    let both : List Instr := [.fadd gd ga gb, .fsub gd ga gb, .fmul gd ga gb, .fdiv gd ga gb]
    let gives (i : Instr) (v : Nat) (f : Flags) : Prop := WritesFloat i s gd (BitVec.ofNat 64 v) f
    let sign (b : Nat) : Nat := b / 2 ^ 31
    (nan x ∨ nan y → ∀ i ∈ both,
      ((signalling x ∨ signalling y) → gives i 0x7FC0_0000 flNV) ∧ (¬(signalling x ∨ signalling y) → gives i 0x7FC0_0000 0)) ∧
    (infinite x → infinite y → sign x ≠ sign y → gives (.fadd gd ga gb) 0x7FC0_0000 flNV) ∧
    (infinite x → infinite y → sign x = sign y → gives (.fsub gd ga gb) 0x7FC0_0000 flNV) ∧
    ((infinite x ∧ zero y) ∨ (zero x ∧ infinite y) → gives (.fmul gd ga gb) 0x7FC0_0000 flNV) ∧
    ((infinite x ∧ infinite y) ∨ (zero x ∧ zero y) → gives (.fdiv gd ga gb) 0x7FC0_0000 flNV) ∧
    (normal x → zero y → gives (.fdiv gd ga gb) ((sign x + sign y) % 2 * 2 ^ 31 + 0x7F80_0000) flDZ) ∧
    (x = 0x8000_0000 → gives (.fsqrt gd ga) 0x8000_0000 0) ∧
    (sign x = 1 → (normal x ∨ infinite x) → gives (.fsqrt gd ga) 0x7FC0_0000 flNV) ∧
    (zero x → zero y → gives (.fmin gd ga gb) (max (sign x) (sign y) * 2 ^ 31) 0 ∧
      gives (.fmax gd ga gb) (min (sign x) (sign y) * 2 ^ 31) 0) ∧
    (nan x → normal y → (signalling x → gives (.fmin gd ga gb) y flNV ∧ gives (.fmax gd ga gb) y flNV) ∧
      (¬signalling x → gives (.fmin gd ga gb) y 0 ∧ gives (.fmax gd ga gb) y 0))) ∧
  (∀ (gd ga : Reg) (s : State),
    let m : Mode := { rm := if vcfgRm s = 5 then 0 else vcfgRm s, sat := false, ftz := vcfgFtz s, k := 0 }
    let a := readG s ga
    let x := readF f32 (vcfgFtz s) (bitsW a 0 32)
    let h := readF bf16 (vcfgFtz s) (bitsW a 0 16)
    let fromInt (i : Instr) (z : Int) : Prop :=
      WritesFloat i s gd (BitVec.ofNat 64 (roundF f32 m (ofIntN z)).1) (roundF f32 m (ofIntN z)).2
    let toInt (i : Instr) (signed : Bool) (b : Nat) : Prop :=
      let lo : Int := if signed then -(2 ^ (b - 1) : Int) else 0
      let hi : Int := if signed then 2 ^ (b - 1) - 1 else 2 ^ b - 1
      (∀ q, x = .nan q → WritesFloat i s gd 0 flNV) ∧
      (∀ n, x = .inf n → WritesFloat i s gd (ofInt (if n then lo else hi)) flNV) ∧
      (∀ z inexact, roundInt m x = some (z, inexact) →
        WritesFloat i s gd (ofInt (max lo (min hi z)))
          (if lo ≤ z ∧ z ≤ hi then (if inexact then flNX else 0) else flNV))
    fromInt (.fcvtF32I32 gd ga) (sextN 32 a.toNat) ∧ fromInt (.fcvtF32N32 gd ga) (bitsW a 0 32) ∧
    fromInt (.fcvtF32I64 gd ga) a.toInt ∧ fromInt (.fcvtF32N64 gd ga) a.toNat ∧
    toInt (.fcvtI32F32 gd ga) true 32 ∧ toInt (.fcvtN32F32 gd ga) false 32 ∧
    toInt (.fcvtI64F32 gd ga) true 64 ∧ toInt (.fcvtN64F32 gd ga) false 64 ∧
    WritesFloat (.fcvtBf16F32 gd ga) s gd (BitVec.ofNat 64 (roundF bf16 m x).1)
      ((roundF bf16 m x).2 ||| snanFlag [x]) ∧
    WritesFloat (.fcvtF32Bf16 gd ga) s gd (BitVec.ofNat 64 (roundF f32 homeMode h).1) (snanFlag [h]))

/-- R110, R126, R186: the compares write 1 where neither operand is a NaN and the relation holds, and raise NV as stated; `fclass` writes
exactly the bit of its operand's class, whatever VCFG.ftz holds; that it raises NV for a signalling NaN is R110's rule for every
scalar form. -/
def Obligations.FloatCompares : Prop := ∀ (gd ga gb : Reg) (s : State),
  let x := readF f32 (vcfgFtz s) (bitsW (readG s ga) 0 32)
  let y := readF f32 (vcfgFtz s) (bitsW (readG s gb) 0 32)
  let ordered := x.isNan = false ∧ y.isNan = false
  let bits := bitsW (readG s ga) 0 32
  let e := bits / 2 ^ 23 % 256
  let f := bits % 2 ^ 23
  let neg := bits / 2 ^ 31 = 1
  let cls : Nat :=
    if e = 255 then (if f = 0 then (if neg then 0 else 7) else if f < 2 ^ 22 then 8 else 9)
    else if e = 0 then (if f = 0 then (if neg then 3 else 4) else if neg then 2 else 5)
    else if neg then 1 else 6
  WritesFloat (.feq gd ga gb) s gd (if ordered ∧ ltN x y = false ∧ ltN y x = false then 1 else 0) (snanFlag [x, y]) ∧
  WritesFloat (.flt gd ga gb) s gd (if ordered ∧ ltN x y = true then 1 else 0) (if ordered then 0 else flNV) ∧
  WritesFloat (.fle gd ga gb) s gd (if ordered ∧ ltN y x = false then 1 else 0) (if ordered then 0 else flNV) ∧
  WritesFloat (.fclass gd ga) s gd (BitVec.ofNat 64 (2 ^ cls)) (if cls = 8 then flNV else 0)

/-- R179, R181, R183–R185: every number of a format that is not a NaN rounds to itself without a flag, in every mode that does
not flush. Any other finite value lies between two adjacent magnitudes of the format's grid, extended without a limit above, and
takes the one that its mode picks, exact, nearest, directed or stochastic, with ties as the mode says; NX tells that it is
inexact, UF that it is also tiny, an overflow takes the value and the flags of R184, and where the mode flushes a tiny one becomes
a zero. So an integer takes one of the two integers next to the value. Under rounding to nearest no number of the format is
nearer than the result. Values are compared as multiples of a common power of two. -/
def Obligations.RoundingIsExactAndNearest : Prop :=
  (∀ (m : Mode), m.ftz = false →
    ∀ f ∈ [f32, bf16, hf16, e5m2, e4m3], ∀ b < 2 ^ (1 + f.eb + f.mb), (readF f false b).isNan = false →
      roundF f m (readF f false b) = (b, 0)) ∧
  (∀ (m : Mode) (neg : Bool) (mag : Nat) (exp : Int), m.rm ≤ 5 → ∀ f ∈ [f32, bf16, hf16, e5m2, e4m3],
    let q := min exp f.qmin - 1
    let x := mag * 2 ^ (exp - q).toNat
    let val (c : Nat) : Nat :=
      (if c < 2 ^ f.mb then c else (2 ^ f.mb + c % 2 ^ f.mb) * 2 ^ (c / 2 ^ f.mb - 1)) * 2 ^ (f.qmin - q).toNat
    let least := val (2 ^ f.mb)
    let below := least - val 1 / 2
    let tiny := decide (x < least) && !(decide (below < x) && picksFarther m neg x below least true)
    let flushes := m.ftz && decide (f = f32 ∨ f = bf16 ∨ f = hf16)
    let sign := if neg then 2 ^ (f.eb + f.mb) else 0
    let largest := if f = e4m3 then 0x7E else (2 ^ f.eb - 1) * 2 ^ f.mb - 1
    let away := match m.rm with | 1 => false | 2 => neg | 3 => !neg | _ => true
    ∀ c, val c ≤ x → x < val (c + 1) →
      let pick := if x ≠ val c ∧ picksFarther m neg x (val c) (val (c + 1)) (c % 2 == 1) = true then c + 1 else c
      roundF f m (.fin neg mag exp false) =
        if largest < pick then
          (if m.sat then (sign + largest, flSAT ||| flNX)
           else if f = e4m3 then (0x7F, flOF ||| flNX)
           else (sign + (if away then largest + 1 else largest), flOF ||| flNX))
        else if flushes = true ∧ tiny = true ∧ x ≠ 0 then (sign, flUF ||| flNX)
        else (sign + pick, if x = val c then 0 else if tiny then flUF ||| flNX else flNX)) ∧
  (∀ (m : Mode) (neg : Bool) (mag : Nat) (exp : Int), m.rm ≤ 5 →
    let q := min exp 0
    let x := mag * 2 ^ (exp - q).toNat
    let unit := 2 ^ (-q).toNat
    ∀ c, c * unit ≤ x → x < (c + 1) * unit →
      let pick := if x ≠ c * unit ∧ picksFarther m neg x (c * unit) ((c + 1) * unit) (c % 2 == 1) = true then c + 1 else c
      roundInt m (.fin neg mag exp false) = some (if neg then -(pick : Int) else pick, decide (x ≠ c * unit))) ∧
  (∀ (m : Mode) (neg : Bool) (mag : Nat) (exp : Int),
    m.rm = 0 → m.sat = false → m.ftz = false → ∀ f ∈ [f32, bf16, hf16, e5m2, e4m3],
    let r := roundF f m (.fin neg mag exp false)
    let at_ (q : Int) (x : Machine.Num) : Int :=
      match x with
      | .fin n k e _ => (if n then -1 else 1) * (k * 2 ^ (e - q).toNat : Nat)
      | _ => 0
    r.2 &&& flOF = 0 → ∀ b < 2 ^ (1 + f.eb + f.mb), ∀ n k e, readF f false b = .fin n k e false →
      let q := min exp f.qmin
      (at_ q (readF f false r.1) - at_ q (.fin neg mag exp false)).natAbs ≤
        (at_ q (readF f false b) - at_ q (.fin neg mag exp false)).natAbs)

/-! ### Control registers, masks and strips -/

/-- R100, R102, R103, R396: what `crr` reads of each number; OBS only from privileged code; an unassigned number traps
ILLEGAL. R30: a `crr` of DLEN0 to DLEN3 waits while the channel has an operation that will write it. -/
def Obligations.ControlRegisterReads : Prop := ∀ (gd : Reg) (s : State),
  let h := s.hart
  let c := h.ctrl
  let reads (cr : Nat) (v : Word) : Prop := WritesReg (.crr gd (BitVec.ofNat 12 cr)) s gd v
  reads 0x000 c.vcfg ∧ reads 0x001 c.vstat ∧ (∀ i : Fin 8, reads (0x008 + i) c.flix[i]) ∧
  reads 0x010 c.stidx ∧ reads 0x011 c.epc ∧ reads 0x012 c.ecause ∧ reads 0x013 c.einfo ∧ reads 0x014 c.tvec ∧
  reads 0x018 c.stripBase ∧ reads 0x019 c.stripLen ∧
  reads 0x01A (BitVec.ofNat 64 (h.part % 32 * 2 ^ 32 + h.serial % 2 ^ 32)) ∧
  reads 0x01B (BitVec.ofNat 64 (h.slot % 4 * 2 ^ 11 + h.index % 2048)) ∧ reads 0x01C (BitVec.ofNat 64 (coreId s h)) ∧
  reads 0x020 (BitVec.ofNat 64 h.seam.grant) ∧ reads 0x021 (h.seam.gw.setWidth 64) ∧ reads 0x022 c.sadp ∧
  reads 0x023 h.seam.bound0 ∧ reads 0x024 h.seam.bound1 ∧ reads 0x028 c.vloss ∧
  (∀ i : Fin 4, reads (0x030 + i) h.chans[i].dwp ∧
    (h.chans[i].ops = [] → reads (0x034 + i) h.chans[i].dlen) ∧
    (h.chans[i].ops ≠ [] → exec (.crr gd (BitVec.ofNat 12 (0x034 + i))) s = .next s)) ∧
  (privileged s = true → reads 0x040 c.obs) ∧ (∀ i : Fin 8, reads (0x050 + i) c.watch[i]) ∧
  reads 0x060 (cycleOf s (dieOf h.core)) ∧ reads 0x070 c.recctl ∧ reads 0x071 c.recbase ∧ reads 0x072 c.rechead ∧
  reads 0x073 c.reclost ∧ (∀ i : Fin 4, reads (0x078 + i) c.pmsel[i] ∧ reads (0x07C + i) c.pmc[i]) ∧
  (HandlerReady s → StrandLegal h →
    (∀ cr, crAssigned cr.toNat = false →
      WordTraps (.crr gd cr) s 1 0 (BitVec.ofNat 48 ((encodeWord (.crr gd cr)).getD 0))) ∧
    (privileged s = false → WordTraps (.crr gd 0x040) s 13 0 (BitVec.ofNat 48 (0x3200_0040 + gd.toNat * 2 ^ 20))))

/-- R17, R18, R100, R127: `crw` writes the RW fields of its register, returns the prior value, and leaves every other
control register; a write of EPC also clears STIDX.sa and kd (R153), and a read-only register keeps its value. R30, R289: it
waits for an older write of DLEN0 to DLEN3, and a flush of SADP for the strand's contributions; the flush drops every line of
the strand's partition from its gang's adapter cache, and no other. A number that R100 does not assign traps ILLEGAL, then
privilege counts, then the value. -/
def Obligations.ControlRegisterWrites : Prop := ∀ (gd ga : Reg) (cr : BitVec 12) (s : State),
  let v := readG s ga
  let n := cr.toNat
  let fields : Word :=
    if n = 0x000 then 0x3F_FFFF else if n = 0x001 then 0xFF
    else if 0x008 ≤ n ∧ n ≤ 0x00F then 0x8000_0000_0000_07FF
    else if n = 0x010 then 0xFFF else if n = 0x011 then 0xFFFF_FFFF_FFFC else if n = 0x012 then 0xF_FFFF_01FF
    else if n = 0x013 then 0xFFFF_FFFF_FFFF_F7FF else if n = 0x014 then 0xFFFF_FFFF_FFFC
    else if n = 0x022 then 0xF000_FFFF_FFFF_FFF8 else if n = 0x028 then 0xFFFF_FFFF else if n = 0x040 then 0x1F
    else if 0x050 ≤ n ∧ n ≤ 0x057 then 0xFC00_FFFF_FFFF_FFFF else if n = 0x070 then 0xFFCF
    else if n = 0x071 then 0xFFFF_FFFF_FFC0 else if n = 0x072 then 0xFFFF_FFFF_FFFF_FFFF
    else if n = 0x073 then 0xFFFF_FFFF else if 0x078 ≤ n ∧ n ≤ 0x07B then 0xFF
    else if 0x07C ≤ n ∧ n ≤ 0x07F then 0xFFFF_FFFF_FFFF_FFFF else 0
  let refused := (n = 0x000 ∧ (2048 < bitsW v 0 12 ∨ 5 < bitsW v 12 3 ∨ 4 < bitsW v 17 3)) ∨
    (n = 0x070 ∧ (20 < bitsW v 11 5 ∨ (bitW v 1 = true ∧ bitsW v 6 5 < 4))) ∨ (0x078 ≤ n ∧ n ≤ 0x07B ∧ 17 < bitsW v 0 8)
  let needs := n = 0x040 ∨ (n = 0x000 ∧ bitW v 21 = true)
  let waits := (0x034 ≤ n ∧ n ≤ 0x037 ∧ (chanAt s.hart n).ops ≠ []) ∨
    (n = 0x022 ∧ bitW v 0 = true ∧ ∃ c ∈ s.contribs, c.who = whoIs s.hart)
  (crAssigned n = true → (needs → privileged s = true) → ¬refused → waits → exec (.crw gd ga cr) s = .next s) ∧
  (crAssigned n = true → (needs → privileged s = true) → ¬refused → ¬waits →
    ∃ t, exec (.crw gd ga cr) s = .next t ∧
      (∀ r, readG t r = if r = gd ∧ gd ≠ 0 then readCR s n else readG s r) ∧
      readCR t n = (if fields = 0 then readCR s n else v &&& fields) ∧
      (∀ q, q ≠ n → ¬(n = 0x011 ∧ q = 0x010) → readCR t q = readCR s q) ∧
      (n = 0x011 → t.hart.kd = 0 ∧ t.hart.stands = [] ∧ t.hart.ctrl.stidx = s.hart.ctrl.stidx &&& ~~~0x800) ∧
      t.hart.pc = s.hart.pc + 4 ∧ ConvoyEnded t ∧ t.mem = s.mem ∧ t.rest = s.rest ∧ t.hart.stope = s.hart.stope ∧
      t.hart.win = s.hart.win ∧ t.hart.masks = s.hart.masks ∧ (n ≠ 0x022 → t.adapter = s.adapter) ∧
      (Canonical s → ∀ key, smGet [] t.adapter key =
        if n = 0x022 ∧ bitW v 0 = true ∧ key / 2 ^ 41 = gangOf s.hart.core * 32 + s.hart.part then [] else smGet [] s.adapter key)) ∧
  (crAssigned n = false → HandlerReady s → StrandLegal s.hart →
    WordTraps (.crw gd ga cr) s 1 0 (BitVec.ofNat 48 ((encodeWord (.crw gd ga cr)).getD 0))) ∧
  (crAssigned n = true → HandlerReady s → StrandLegal s.hart →
    (needs → privileged s = false →
      WordTraps (.crw gd ga cr) s 13 0 (BitVec.ofNat 48 ((encodeWord (.crw gd ga cr)).getD 0))) ∧
    ((needs → privileged s = true) → refused →
      WordTraps (.crw gd ga cr) s 1 0 (BitVec.ofNat 48 ((encodeWord (.crw gd ga cr)).getD 0))))

/-- R21, R128: `movk` reads one 64-bit word of a mask, all ones for k0; `kmov` replaces one and keeps the other 31, and is
discarded for k0. R214, R215: the mask words of a convoy: any function of two masks over the elements below VL, the count
and the place of set bits there, and one bit set, cleared or read anywhere. -/
def Obligations.MaskForms : Prop :=
  (∀ (gd ga gb : Reg) (kn : BitVec 3) (imm : BitVec 5) (s : State),
    let i := ((readG s ga).toNat + imm.toNat) % 32
    (∃ v, WritesReg (.movk gd ga kn imm) s gd v ∧
      ∀ j < 64, v.getLsbD j = if kn = 0 then true else (readK s kn).getLsbD (64 * i + j)) ∧
    (∃ t, exec (.kmov ga gb kn imm) s = .next t ∧ t.hart.pc = s.hart.pc + 4 ∧ ConvoyEnded t ∧
      (∀ k j, j < 2048 → (readK t k).getLsbD j =
        if k = kn ∧ kn ≠ 0 ∧ j / 64 = i then (readG s gb).getLsbD (j % 64) else (readK s k).getLsbD j) ∧
      t = { s with hart := { s.hart with masks := t.hart.masks, pc := t.hart.pc, convoy := t.hart.convoy } })) ∧
  (∀ (c : BitVec 1) (kd ka kb : BitVec 3) (tt : BitVec 4) (gd ga : Reg) (s : State), StrandLegal s.hart →
    let n := (readG s ga).toNat
    let bit (k : BitVec 3) (e : Nat) : Bool := (readK s k).getLsbD e
    let mask (i : Instr) (act : Nat → Prop) (f : Nat → Bool) : Prop := ∀ m, Issues i m s →
      ∃ t, exec i s = .next t ∧ ConvoyGoesOn s t ∧ MaskWritten s t kd act (fun e => f e = true) ∧
        t.hart.stope = s.hart.stope ∧ t.hart.ctrl.vstat = s.hart.ctrl.vstat ∧ t.hart.ctrl.flix = s.hart.ctrl.flix ∧
        PlaneFrame s t
    let set := (List.range (vl s)).filter (bit ka)
    mask (.kfun c kd ka kb tt) (fun e => e < vl s) (fun e => tt.getLsbD (2 * (bit ka e).toNat + (bit kb e).toNat)) ∧
    mask (.kset c kd ga) (fun e => e = n ∧ n < 2048) (fun _ => true) ∧
    mask (.kclr c kd ga) (fun e => e = n ∧ n < 2048) (fun _ => false) ∧
    (s.hart.badBits = [] → ConvoyWritesReg (.kpop c gd ka) s [] gd (BitVec.ofNat 64 set.length) ∧
      ConvoyWritesReg (.kfirst c gd ka) s [] gd (BitVec.ofNat 64 (set.head?.getD (vl s))) ∧
      ConvoyWritesReg (.kbit c gd ka ga) s [] gd (if n < 2048 ∧ bit ka n = true then 1 else 0)))

/-- R96, R97, R129, R369: `strip` grants at most the rounded request, from the returned range of lowest base or else from the
fresh elements, and writes the grant to gd, VL, STRIPBASE and STRIPLEN; on a deputy core it writes zeros; a strand being
parked stops before the grant where its save has room (R370, R372). How much room a save needs, and in which order its bytes fill
the shadow store and the spill area, is the model's (log 23). -/
def Obligations.StripGrants : Prop := ∀ (gd ga : Reg) (s : State),
  (onDeputy s.hart = false → parkRoom s = none → bitW s.hart.ctrl.recctl 0 = false → ∀ l,
    findLaunch s s.hart.part s.hart.serial = some l →
    let q := min (readG s ga).toNat 2048
    let g := bitsW (l.pkt.getD 2 0) 0 12
    let q := if q = 0 then 0 else max g (q - q % g)
    let grant (base n : Nat) (l' : Launch) : Prop :=
      ∃ t, exec (.strip gd ga) s = .next t ∧
        (∀ r, readG t r = if r = gd ∧ gd ≠ 0 then BitVec.ofNat 64 n else readG s r) ∧ vl t = n % 4096 ∧
        t.hart.ctrl.stripBase = (if n = 0 then 0 else BitVec.ofNat 64 base) ∧
        t.hart.ctrl.stripLen = BitVec.ofNat 64 n ∧ findLaunch t s.hart.part s.hart.serial = some l' ∧
        t.hart.pc = s.hart.pc + 4 ∧ ConvoyEnded t ∧ t.mem = s.mem ∧ t.rest = s.rest
    (q = 0 → grant 0 0 l) ∧
    (q ≠ 0 → ∀ b len more, l.returned = (b, len) :: more → (∀ x ∈ more, b ≤ x.1) →
      grant b (min q len) { l with returned := if min q len = len then more else (b + min q len, len - min q len) :: more }) ∧
    (q ≠ 0 → l.returned = [] →
      let n := min q (bitsW (l.pkt.getD 1 0) 0 48 - l.next)
      grant l.next n { l with next := l.next + n })) ∧
  (onDeputy s.hart = true → ∃ t, exec (.strip gd ga) s = .next t ∧
    (∀ r, readG t r = if r = gd ∧ gd ≠ 0 then 0 else readG s r) ∧ vl t = 0 ∧ t.hart.ctrl.stripBase = 0 ∧
    t.hart.ctrl.stripLen = 0 ∧ t.launches = s.launches ∧ t.mem = s.mem ∧ t.hart.pc = s.hart.pc + 4) ∧
  (onDeputy s.hart = false → bitW s.hart.ctrl.recctl 0 = false → ∀ excess, parkRoom s = some excess →
    ∃ t, exec (.strip gd ga) s = .next t ∧ t.hart.parked = true ∧ t.hart.spilled = excess ∧ t.hart.pc = s.hart.pc ∧ t.hart.gpr = s.hart.gpr ∧
      t.launches = s.launches)

/-! ### Convoys and the plane engine -/

/-- R31–R35, R150: every extension word that is admitted, whose member finds no stop and has nothing to wait for, completes:
the convoy is open with the word's classes, what the member did stands, its register results and the shortened VL take
effect, its acquire comes last (R235), and the next word follows. -/
def Obligations.ExtensionWordsComplete : Prop := ∀ (i : Instr) (m : Member) (s : State), Issues i m s →
  let j := joinState s m.c
  let r := m.run onesMask (memberStart s j)
  m.stall (issueState s j) = false → r.trap = none → r.block = none →
  ∃ t, exec i s = .next t ∧ t.hart.pc = s.hart.pc + 4 ∧
    t.hart.convoy = .open j.1
      (match m.role with | .member cl => j.2.1 ||| cl | _ => j.2.1)
      (match m.role with | .member _ => j.2.2.1 + 1 | _ => j.2.2.1)
      (match m.role with | .alone => true | _ => j.2.2.2.1) ∧
    (∀ q, readG t q = match r.gw with
      | some (gd, v) => if q = gd ∧ gd ≠ 0 then v else readG r.st q
      | none => readG r.st q) ∧
    vl t = (match r.newVl with | some n => n % 4096 | none => vl r.st) ∧
    (trapActive r.st = false → t.hart.ctrl.stidx = 0 ∧ t.hart.kd = 0) ∧
    t = { r.st with
      hart := { r.st.hart with
        gpr := t.hart.gpr, pc := t.hart.pc, convoy := t.hart.convoy, kd := t.hart.kd, stands := t.hart.stands
        admitted := t.hart.admitted, sent := t.hart.sent, chans := t.hart.chans
        ctrl := { r.st.hart.ctrl with vcfg := t.hart.ctrl.vcfg, stidx := t.hart.ctrl.stidx } }
      dcache := if r.acquires then (dropCache r.st.hart.core r.st).dcache else r.st.dcache }

/-- R31, R32, R78, R150: a word that may not join the open convoy, or follows an ended one with C = 1, and that no earlier
issue of its convoy has completed (R349), traps CONVOY with its word and its own address; an ILLEGAL word traps ILLEGAL first, and then a privileged one PRIV (R78). The window `w` words stand
for the table words, `vadd` for the lane words, `fence` for the words that stand alone, and `vcfg` of OBS for the privileged. -/
def Obligations.ConvoyRules : Prop := ∀ (s : State) (w : Win) (ga : Reg) (k : BitVec 3),
  HandlerReady s → StrandLegal s.hart → (standOf s.hart (joinState s 1).1).ahead = 0 →
  let trapsWith (cause : Nat) (i : Instr) : Prop := ∃ t, exec i s = .next t ∧ TrapTaken s t cause s.hart.pc ∧
    bitsW t.hart.ctrl.einfo 16 48 = (encodeWord i).getD 0
  let traps (i : Instr) : Prop := trapsWith 2 i
  (s.hart.convoy = .ended → traps (.wdef 1 w ga) ∧ traps (.vadd 1 0 w w w k 0)) ∧
  (k.toNat ≤ 4 → ∀ first classes pos alone, s.hart.convoy = .open first classes pos alone →
    traps (.fence 1 k) ∧ (alone = true → traps (.wdef 1 w ga) ∧ traps (.vadd 1 0 w w w k 0)) ∧
    (classes.getLsbD 0 = true → traps (.vadd 1 0 w w w k 0))) ∧
  (4 < k.toNat → trapsWith 1 (.fence 1 k)) ∧
  (∀ gb fields, fields.getLsbD 6 = true → privileged s = false →
    (s.hart.convoy = .ended ∨ ∃ first classes pos, s.hart.convoy = .open first classes pos true) →
    trapsWith 13 (.vcfg 1 ga gb fields))

/-- R164, R194: the window-table words write one entry, unchecked: whole, a copy, the origin's low bits, or the type code;
`wget` reads one. R195: `vcfg` replaces the fields its mask names, all of VCFG if they satisfy R101, and returns the old
value. -/
def Obligations.WindowTableWords : Prop := ∀ (c : BitVec 1) (w src : Win) (ga gb gd : Reg) (ty : BitVec 5) (s : State),
  let entry (i : Instr) (v : Word) : Prop := ∀ m, Issues i m s → ∃ t, exec i s = .next t ∧ ConvoyGoesOn s t ∧
    (∀ q, readW t q = if q = w then v else readW s q) ∧
    t = { s with hart := { s.hart with
      win := t.hart.win, pc := t.hart.pc, convoy := t.hart.convoy, kd := t.hart.kd, stands := t.hart.stands
      admitted := t.hart.admitted, sent := t.hart.sent
      ctrl := { s.hart.ctrl with stidx := t.hart.ctrl.stidx, pmc := t.hart.ctrl.pmc } } }
  let field (lo n : Nat) (v : Nat) (x : Word) : Word :=
    BitVec.ofNat 64 (x.toNat - bitsW x lo n * 2 ^ lo + v % 2 ^ n * 2 ^ lo)
  entry (.wdef c w ga) (readG s ga) ∧ entry (.wcopy c w src) (readW s src) ∧
  entry (.worg c w ga gb) (field 38 9 (readG s gb).toNat (field 47 10 (readG s ga).toNat (readW s w))) ∧
  (ty.toNat ≤ 15 → entry (.wtype c w ty) (field 57 4 ty.toNat (readW s w))) ∧
  (∀ m, Issues (.wget c w gd) m s → ∃ t, exec (.wget c w gd) s = .next t ∧ ConvoyGoesOn s t ∧
    (∀ r, readG t r = if r = gd ∧ gd ≠ 0 then readW s w else readG s r) ∧ t.hart.win = s.hart.win ∧ t.mem = s.mem ∧
    t.hart.stope = s.hart.stope) ∧
  (∀ fields m, Issues (.vcfg c ga gd fields) m s → ∃ t, exec (.vcfg c ga gd fields) s = .next t ∧ ConvoyGoesOn s t ∧
    (∀ r, readG t r = if r = gd ∧ gd ≠ 0 then s.hart.ctrl.vcfg else readG s r) ∧
    (∀ p ∈ [(0, 0, 12), (1, 12, 3), (2, 15, 1), (3, 16, 1), (4, 17, 3), (5, 20, 1), (6, 21, 1)],
      bitsW t.hart.ctrl.vcfg p.2.1 p.2.2 =
        bitsW (if fields.getLsbD p.1 then readG s ga else s.hart.ctrl.vcfg) p.2.1 p.2.2) ∧
    t.hart.win = s.hart.win ∧ t.mem = s.mem ∧ t.hart.stope = s.hart.stope)

/-- R192, R196, R199, R200, R201, R206: the element-wise arithmetic forms: each active element of wd takes the exact result
on the elements of its sources, fitted once to wd's type under VCFG, with the flags of R186 and, with X, kE: a fused form the
product added to the old element of wd, `vabs` and `vneg` the bits with another sign within one float type and the fitted value
otherwise, `vcvt` a float the nearest limit of an integer type that it leaves (R178). For `vexp2` and `vlog2` the exact result
is that of `exp2N` and `log2N` (log 17). -/
def Obligations.LaneArithmetic : Prop := ∀ (c x : BitVec 1) (wd wa wb : Win) (ga : Reg) (kn ke : BitVec 3) (s : State),
  let xk := xMask x ke
  let rm := vcfgRm s
  let fit (e : Nat) (p : Machine.Num × Flags) : Nat × Flags := fitAt s wd e p
  let two (i : Instr) (f : Nat → Nat × Flags) : Prop := LaneWord i s wd [wa, wb] kn xk f
  let one (i : Instr) (f : Nat → Nat × Flags) : Prop := LaneWord i s wd [wa] kn xk f
  let g := scalarAt s wa (readG s ga)
  let fused (x : Machine.Num) (e : Nat) : Nat × Flags :=
    let p := mulN x (valAt s wb e)
    let r := addN rm p.1 (valAt s wd e)
    fit e (r.1, p.2 ||| r.2 ||| snanFlag [valAt s wa e, valAt s wb e, valAt s wd e])
  let half := 2 ^ (tyBits (tyOf s wa) - 1)
  let signed (bits : Nat) (y : Machine.Num) (e : Nat) : Nat × Flags :=
    if isFloat (tyOf s wa) = true ∧ tyOf s wa = tyOf s wd then (bits, 0) else fit e (y, snanFlag [valAt s wa e])
  let magnitude (y : Machine.Num) : Machine.Num :=
    match y with
    | .nan q => .nan q
    | .inf _ => .inf false
    | .fin _ n k sticky => .fin false n k sticky
  let limited (e : Nat) : Nat × Flags :=
    let b := tyBits (tyOf s wd)
    let lo : Int := if isSigned (tyOf s wd) then -(2 ^ (b - 1) : Int) else 0
    let hi : Int := if isSigned (tyOf s wd) then 2 ^ (b - 1) - 1 else 2 ^ b - 1
    match valAt s wa e with
    | .nan _ => (0, flNV)
    | .inf n => (((if n then lo else hi) % 2 ^ b).toNat, flNV)
    | y =>
      match roundInt (laneMode s (readW s wd) e) y with
      | some (z, inexact) =>
        ((max lo (min hi z) % 2 ^ b).toNat, if lo ≤ z ∧ z ≤ hi then (if inexact then flNX else 0) else flNV)
      | none => (0, 0)
  two (.vadd c x wd wa wb kn ke) (fun e => fit e (addN rm (valAt s wa e) (valAt s wb e))) ∧
  two (.vsub c x wd wa wb kn ke) (fun e => fit e (addN rm (valAt s wa e) (valAt s wb e).negate)) ∧
  two (.vmin c x wd wa wb kn ke) (fun e => fit e (pickN minFirst (valAt s wa e) (valAt s wb e))) ∧
  two (.vmax c x wd wa wb kn ke) (fun e => fit e (pickN maxFirst (valAt s wa e) (valAt s wb e))) ∧
  two (.vmul c x wd wa wb kn ke) (fun e => fit e (mulN (valAt s wa e) (valAt s wb e))) ∧
  two (.vmulh c x wd wa wb kn ke) (fun e =>
    ((intAt s wa e * intAt s wb e / 2 ^ tyBits (tyOf s wd) % 2 ^ tyBits (tyOf s wd)).toNat, 0)) ∧
  two (.vfma c x wd wa wb kn ke) (fun e => fused (valAt s wa e) e) ∧
  two (.vfms c x wd wa wb kn ke) (fun e => fused (valAt s wa e).negate e) ∧
  two (.vdiv c x wd wa wb kn ke) (fun e =>
    if isFloat (tyOf s wd) then fit e (divN (valAt s wa e) (valAt s wb e))
    else if intAt s wb e = 0 then (2 ^ tyBits (tyOf s wd) - 1, flDZ)
    else fit e (ofIntN ((intAt s wa e).tdiv (intAt s wb e)), 0)) ∧
  one (.vsqrt c x wd wa kn ke) (fun e => fit e (sqrtN (valAt s wa e))) ∧
  one (.vrcp c x wd wa kn ke) (fun e => fit e (divN (ofIntN 1) (valAt s wa e))) ∧
  one (.vrsq c x wd wa kn ke) (fun e => fit e (rsqN (valAt s wa e))) ∧
  one (.vexp2 c x wd wa kn ke) (fun e => fit e (exp2N (valAt s wa e))) ∧
  one (.vlog2 c x wd wa kn ke) (fun e => fit e (log2N (valAt s wa e))) ∧
  one (.vabs c x wd wa kn ke) (fun e => signed (srcBits s (readW s wa) e % half) (magnitude (valAt s wa e)) e) ∧
  one (.vneg c x wd wa kn ke) (fun e => signed ((srcBits s (readW s wa) e + half) % (2 * half))
    (if isFloat (tyOf s wa) then (valAt s wa e).negate else ofIntN (-(intAt s wa e))) e) ∧
  one (.vadds c x wd wa ga kn ke) (fun e => fit e (addN rm (valAt s wa e) g)) ∧
  one (.vmuls c x wd wa ga kn ke) (fun e => fit e (mulN (valAt s wa e) g)) ∧
  one (.vcvt c x wd wa kn ke) (fun e =>
    if isFloat (tyOf s wa) = true ∧ isInt (tyOf s wd) = true then limited e
    else fit e (valAt s wa e, snanFlag [valAt s wa e]))

/-- R197, R198: the bitwise and shift forms work on the elements' bits, and no value of theirs raises a flag; a shift counts
modulo the width. That an element past a clamp edge raises EDGE in these forms too (R168) is the model's reading (log 37). -/
def Obligations.LaneBitOperations : Prop := ∀ (c : BitVec 1) (wd wa wb : Win) (kn : BitVec 3) (s : State),
  let b := tyBits (tyOf s wd)
  let x (e : Nat) := srcBits s (readW s wa) e
  let y (e : Nat) := srcBits s (readW s wb) e
  let n (e : Nat) : Nat := (intAt s wb e % tyBits (tyOf s wa)).toNat
  let lane (i : Instr) (f : Nat → Nat) : Prop := LaneWord i s wd [wa, wb] kn none (fun e => (f e, 0))
  lane (.vand c wd wa wb kn) (fun e => x e &&& y e) ∧ lane (.vor c wd wa wb kn) (fun e => x e ||| y e) ∧
  lane (.vxor c wd wa wb kn) (fun e => x e ^^^ y e) ∧
  lane (.vandn c wd wa wb kn) (fun e => x e &&& (2 ^ b - 1 - y e)) ∧
  lane (.vshl c wd wa wb kn) (fun e => x e * 2 ^ n e) ∧ lane (.vshr c wd wa wb kn) (fun e => x e / 2 ^ n e) ∧
  lane (.vsra c wd wa wb kn) (fun e => (sextN b (x e) / 2 ^ n e % 2 ^ b).toNat) ∧
  lane (.vrol c wd wa wb kn) (fun e => x e * 2 ^ n e + x e / 2 ^ (b - n e))

/-- R203, R204, R205, R207, R212: selection, moves, merge, element numbers, broadcast, permutation and slide: the bits that
each active element takes. That an element past a clamp edge raises EDGE in these forms too (R168) is the model's reading
(log 37). R155: a `vmerge` whose lowest element with both mask bits set carries a deferred cause traps with
that cause there, and with PROT where the value is none of the seven, before it writes anything; while a STREAM source has not
delivered that element the word waits (R167). -/
def Obligations.LaneMovesAndMerge : Prop :=
  (∀ (c : BitVec 1) (wd wa wb : Win) (ga : Reg) (kn ke : BitVec 3) (s : State),
    let bits (w : Win) (e : Nat) : Nat := srcBits s (readW s w) e
    let at_ (z : Int) : Nat := if 0 ≤ z ∧ z < vl s then bits wa z.toNat else 0
    let lane (i : Instr) (srcs : List Win) (k : BitVec 3) (f : Nat → Nat) : Prop :=
      LaneWord i s wd srcs k none (fun e => (f e, 0))
    lane (.vsel c wd wa wb kn) [wa, wb] 0 (fun e => if (readK s kn).getLsbD e then bits wa e else bits wb e) ∧
    lane (.vmov c wd wa kn) [wa] kn (fun e => bits wa e) ∧ lane (.vmerge c wd wa kn ke) [wa] kn (fun e => bits wa e) ∧
    LaneWord (.viota c wd kn) s wd [] kn none (fun e => fitAt s wd e (ofIntN e, 0)) ∧
    lane (.vbcast c wd ga kn) [] kn (fun _ => (readG s ga).toNat) ∧
    lane (.vperm c wd wa wb kn) [wa, wb] kn (fun e => at_ (intAt s wb e)) ∧
    lane (.vslide c wd wa ga kn) [wa] kn (fun e => at_ (e + (readG s ga).toInt))) ∧
  (∀ (wd wa : Win) (kn ke : BitVec 3) (s : State),
    HandlerReady s → StrandLegal s.hart → (standOf s.hart s.hart.pc).ahead = 0 → ke ≠ 0 →
    s.hart.ctrl.stidx = 0 → s.hart.kd = 0 →
    (∀ d ∈ [wd, wa], windowReason s.hart.height (vl s) (readW s d) (d == wd) = none) →
    sameWidth (tyOf s wd) (tyOf s wa) = true → wd ≠ wa →
    ∀ e, e < vl s → (readK s kn).getLsbD e = true → (readK s ke).getLsbD e = true →
    (∀ q < e, ¬((readK s kn).getLsbD q = true ∧ (readK s ke).getLsbD q = true)) →
    let v := srcBits s (readW s wa) e % 16
    (mergeStall wa kn ke s = true → exec (.vmerge 0 wd wa kn ke) s = .next s) ∧
    (mergeStall wa kn ke s = false → ∃ t, exec (.vmerge 0 wd wa kn ke) s = .next t ∧
      TrapTaken s t (if v ∈ [5, 6, 7, 8, 10, 11, 12] then v else 6) s.hart.pc ∧
      t.hart.ctrl.einfo = BitVec.ofNat 64 (2 ^ 12 + e % 2048)))

/-- R202: the compares write a mask bit for each active element; the order relations raise NV for any NaN, equality for a
signalling one. -/
def Obligations.LaneCompares : Prop := ∀ (c : BitVec 1) (kd : BitVec 3) (wa wb : Win) (kn : BitVec 3) (s : State),
  let x (e : Nat) := valAt s wa e
  let y (e : Nat) := valAt s wb e
  let nan (e : Nat) : Bool := (x e).isNan || (y e).isNan
  let quiet (e : Nat) : Flags := snanFlag [x e, y e]
  let any (e : Nat) : Flags := if nan e then flNV else 0
  LaneMaskWord (.vceq c kd wa wb kn) s kd [wa, wb] kn (fun e => (!nan e && !ltN (x e) (y e) && !ltN (y e) (x e), quiet e)) ∧
  LaneMaskWord (.vcne c kd wa wb kn) s kd [wa, wb] kn (fun e => (nan e || ltN (x e) (y e) || ltN (y e) (x e), quiet e)) ∧
  LaneMaskWord (.vclt c kd wa wb kn) s kd [wa, wb] kn (fun e => (!nan e && ltN (x e) (y e), any e)) ∧
  LaneMaskWord (.vcle c kd wa wb kn) s kd [wa, wb] kn (fun e => (!nan e && !ltN (y e) (x e), any e))

/-- R190, R193, R208, R209, R210, R213: reductions write element 0 with the tree of the active elements, scans a tree for each
element, `vcompress` packs the active elements from element 0, and `vextr` reads one element into a register. Over integers the
tree is the exact sum, the greatest or the least of the present elements, fitted once, and with none present 0 or the type's
lowest or highest value. -/
def Obligations.Reductions : Prop := ∀ (c : BitVec 1) (wd wa : Win) (gd ga : Reg) (kn : BitVec 3) (s : State),
  let b := tyBits (tyOf s wd)
  let whole (op : RedOp) (xs : List Int) (e : Nat) : Nat × Flags :=
    let fitted (z : Int) : Nat × Flags := fitAt s wd e (ofIntN z, 0)
    match op with
    | .sum => fitted xs.sum
    | .max => (xs.max?.map fitted).getD (if isSigned (tyOf s wd) then 2 ^ (b - 1) else 0, 0)
    | .min => (xs.min?.map fitted).getD (if isSigned (tyOf s wd) then 2 ^ (b - 1) - 1 else 2 ^ b - 1, 0)
  let tree (op : RedOp) (e n : Nat) : Nat × Flags :=
    if isInt (tyOf s wa) = true ∧ isInt (tyOf s wd) = true then
      whole op (((List.range n).filter ((readK s kn).getLsbD ·)).map (intAt s wa)) e
    else
      reduce op (tyOf s wd) (laneMode s (readW s wd) e)
        ((List.range n).map (fun j => if (readK s kn).getLsbD j then some (valAt s wa j) else none))
  let first : Nat → Prop := fun e => e = 0 ∧ 0 < vl s
  let writes (i : Instr) (act : Nat → Prop) (f : Nat → Nat × Flags) : Prop :=
    Canonical s → ∀ m, Issues i m s → SourcesReady s [wa] →
    ∃ t, exec i s = .next t ∧ ConvoyGoesOn s t ∧ ElementsWritten s t wd act f ∧ FlagsMerged s t act (raisedAt s wd f) ∧
      MasksKept s t ∧ StreamsOnly s t [wa] ∧ PlaneFrame s t
  let chosen := (List.range (vl s)).filter (fun e => (readK s kn).getLsbD e)
  writes (.vredsum c wd wa kn) first (fun e => tree .sum e (vl s)) ∧
  writes (.vredmax c wd wa kn) first (fun e => tree .max e (vl s)) ∧
  writes (.vredmin c wd wa kn) first (fun e => tree .min e (vl s)) ∧
  writes (.vscan c wd wa kn) (Active s kn) (fun e => tree .sum e (e + 1)) ∧
  writes (.vcompress c wd wa kn) (fun e => e < chosen.length)
    (fun e => (srcBits s (readW s wa) (chosen.getD e 0), 0)) ∧
  ConvoyWritesReg (.vextr c gd wa ga) s [wa] gd
    (if vl s ≤ (readG s ga).toNat then 0
     else if isSigned (tyOf s wa) then ofInt (sextN (tyBits (tyOf s wa)) (srcBits s (readW s wa) (readG s ga).toNat))
     else BitVec.ofNat 64 (srcBits s (readW s wa) (readG s ga).toNat))

/-! ### Vector memory -/

/-- R154, R223, R227, R233: `vld`, `vlds` and `vldx` load each active element from the address of its form. With `s:kE` an
element that would trap instead takes the cause of its trap and sets its bit of kE, and the others clear theirs. That an
element past a clamp edge raises EDGE is log 37. -/
def Obligations.VectorLoads : Prop := ∀ (c x : BitVec 1) (wd wi : Win) (ga : Reg) (kn ke : BitVec 3) (s : State),
  Canonical s →
  let ty := tyOf s wd
  let base := readG s ga
  let key := bitsW base 60 4 * 2 ^ 60
  let address (off : Int) : Word := BitVec.ofNat 64 (key + ((bitsW base 0 60 + off) % 2 ^ 60).toNat)
  let loads (i : Instr) (srcs : List Win) (off : Nat → Int) : Prop := ∀ m, Issues i m s → SourcesReady s srcs →
    let chk (e : Nat) : Check := check s (elemReq .read ty (address (off e)) e)
    let f (e : Nat) : Nat × Flags :=
      (match chk e with
       | .home k .. => bitsOfBytes ty e (memBytes s k (accLen ty))
       | .trap t => t.cause.toNat
       | .miss _ => 0, 0)
    (∀ e, Active s kn e → (chk e).Passes ∨ (x = 1 ∧ (chk e).Traps s)) →
    ∃ t, exec i s = .next t ∧ ConvoyGoesOn s t ∧ ElementsWritten s t wd (Active s kn) f ∧
      FlagsMerged s t (Active s kn) (raisedAt s wd f) ∧
      (if x = 1 then MaskWritten s t ke (Active s kn) (fun e => (chk e).Traps s) else MasksKept s t) ∧
      t.mem = s.mem ∧ t.tags = s.tags ∧ t.dcache = s.dcache ∧ VectorFrame s t
  loads (.vld c x wd ga kn ke) [] (fun e => if tyBits ty = 4 then (e / 2 : Nat) else (e * (tyBits ty / 8) : Nat)) ∧
  loads (.vlds c x wd ga kn ke) [] (fun e => e * (readG s (ga + 1)).toInt) ∧
  loads (.vldx c x wd wi ga kn ke) [wi] (fun e => intAt s wi e * (accLen ty : Nat))

/-- R227, R228, R229: `vldb` makes one access at its lowest active element and gives its value to all, and with `s:kE` either
clears their bits of kE, or where the access would trap gives them the cause and sets their bits; `vldff` loads up to the first
condition above its lowest active element and shortens VL to it, and with `s:kE` a trap at that lowest element is deferred as
`vld` defers it. The low nibble that a 4-bit `vldb` gives, and EDGE past a
clamp edge, are log 37. -/
def Obligations.BroadcastAndFirstFaultLoads : Prop := ∀ (c : BitVec 1) (wd : Win) (ga : Reg) (kn : BitVec 3) (s : State),
  Canonical s → StrandLegal s.hart →
  let ty := tyOf s wd
  let base := readG s ga
  let address (off : Nat) : Word :=
    BitVec.ofNat 64 (bitsW base 60 4 * 2 ^ 60 + (bitsW base 0 60 + off) % 2 ^ 60)
  let off (e : Nat) : Nat := if tyBits ty = 4 then e / 2 else e * (tyBits ty / 8)
  let chk (e : Nat) : Check := check s (elemReq .read ty (address (off e)) e)
  (∀ (x : BitVec 1) (ke : BitVec 3) m, Issues (.vldb c x wd ga kn ke) m s → ∀ e0, LowestActive s kn e0 →
    let chk := check s (elemReq .read ty (address 0) e0)
    let f (_ : Nat) : Nat × Flags :=
      (match chk with
       | .home k .. => bitsOfBytes ty 0 (memBytes s k (accLen ty))
       | .trap u => u.cause.toNat
       | .miss _ => 0, 0)
    chk.Passes ∨ (x = 1 ∧ ∃ u, chk = .trap u) →
    ∃ t, exec (.vldb c x wd ga kn ke) s = .next t ∧ ConvoyGoesOn s t ∧ ElementsWritten s t wd (Active s kn) f ∧
      FlagsMerged s t (Active s kn) (raisedAt s wd f) ∧
      (if x = 1 then MaskWritten s t ke (Active s kn) (fun _ => ∃ u, chk = .trap u) else MasksKept s t) ∧
      t.mem = s.mem ∧ VectorFrame s t) ∧
  (∀ (x : BitVec 1) (ke : BitVec 3) m, Issues (.vldff c x wd ga kn ke) m s → ∀ e0, LowestActive s kn e0 →
    ∀ cut ≤ vl s, e0 < cut → (chk e0).Passes ∨ (x = 1 ∧ ∃ u, chk e0 = .trap u) →
    (∀ e, e0 < e → e < cut → Active s kn e → (chk e).Passes) → (cut < vl s → Active s kn cut ∧ (chk cut).Stops s) →
    let f (e : Nat) : Nat × Flags :=
      (match chk e with
       | .home k .. => bitsOfBytes ty e (memBytes s k (accLen ty))
       | .trap u => u.cause.toNat
       | .miss _ => 0, 0)
    let act (e : Nat) : Prop := Active s kn e ∧ e < cut
    ∃ t, exec (.vldff c x wd ga kn ke) s = .next t ∧ vl t = cut ∧ t.hart.pc = s.hart.pc + 4 ∧ ElementsWritten s t wd act f ∧
      (if x = 1 then MaskWritten s t ke act (fun e => ∃ u, chk e = .trap u) else MasksKept s t) ∧ t.mem = s.mem)

/-- R150, R224, R226, R247: an ordered load that meets a trap condition commits the elements below it alone: EPC is the word,
STIDX the element, kd empty, EINFO names element and address. -/
def Obligations.OrderedLoadStops : Prop := ∀ (wd : Win) (ga : Reg) (kn : BitVec 3) (m : Member) (s : State),
  Canonical s → HandlerReady s → StrandLegal s.hart → Issues (.vld 0 0 wd ga kn 0) m s →
  let ty := tyOf s wd
  let base := readG s ga
  let off (e : Nat) : Nat := if tyBits ty = 4 then e / 2 else e * (tyBits ty / 8)
  let chk (e : Nat) : Check := check s (elemReq .read ty
    (BitVec.ofNat 64 (bitsW base 60 4 * 2 ^ 60 + (bitsW base 0 60 + off e) % 2 ^ 60)) e)
  ∀ stop x, Active s kn stop → chk stop = .trap x → x.exhausted = 0 → (x.cause ≠ 8 ∨ FilterRoom s) →
    (∀ e, e ≠ stop → Active s kn e → (chk e).Passes) →
    ∃ t, exec (.vld 0 0 wd ga kn 0) s = .next t ∧
      t.hart.ctrl.epc = s.hart.pc.setWidth 64 ∧ t.hart.ctrl.stidx = BitVec.ofNat 64 stop ∧ t.hart.kd = 0 ∧
      bitsW t.hart.ctrl.ecause 0 8 = x.cause.toNat ∧ trapActive t = true ∧
      bitsW t.hart.ctrl.einfo 0 13 = 2 ^ 12 + stop ∧ bitsW t.hart.ctrl.einfo 16 48 = x.addr.toNat ∧
      t.hart.pc.toNat = bitsW s.hart.ctrl.tvec 2 46 * 4 ∧
      ElementsWritten s t wd (fun e => Active s kn e ∧ e < stop)
        (fun e => (bitsOfBytes ty e (memBytes s (chk e).at (accLen ty)), 0)) ∧
      t.hart.gpr = s.hart.gpr ∧ t.mem = s.mem

/-- R221, R225, R230, R231, R233: `vst`, `vsts` and `vstx` store each active element at the address of its form, the highest
element last, and touch no other nibble; `vstduo` stores each element twice, in row and in column order. -/
def Obligations.VectorStores : Prop := ∀ (c : BitVec 1) (ws wi : Win) (ga : Reg) (kn : BitVec 3) (s : State),
  Canonical s →
  let ty := tyOf s ws
  let d := readW s ws
  let address (base : Word) (off : Int) : Word :=
    BitVec.ofNat 64 (bitsW base 60 4 * 2 ^ 60 + ((bitsW base 0 60 + off) % 2 ^ 60).toNat)
  let val (e : Nat) : Nat := srcBits s d e
  let stores (i : Instr) (srcs : List Win) (off : Nat → Int) : Prop := ∀ m, Issues i m s → SourcesReady s srcs →
    let req (e : Nat) : Req := elemReq .write ty (address (readG s ga) (off e)) e
    ∀ home : Nat → Nat, StoresPass s (Active s kn) req home →
    ∃ t, exec i s = .next t ∧ ConvoyGoesOn s t ∧ NibblesStored s t ty (Active s kn) home val ∧
      t.hart.stope = s.hart.stope ∧ MasksKept s t ∧ t.hart.ctrl.vstat = s.hart.ctrl.vstat ∧
      t.hart.ctrl.flix = s.hart.ctrl.flix ∧ t.tags = s.tags ∧ VectorFrame s t
  let plain (e : Nat) : Int := if tyBits ty = 4 then (e / 2 : Nat) else (e * (tyBits ty / 8) : Nat)
  stores (.vst c ws ga kn) [ws] plain ∧
  stores (.vsts c ws ga kn) [ws] (fun e => e * (readG s (ga + 1)).toInt) ∧
  stores (.vstx c ws wi ga kn) [ws, wi] (fun e => intAt s wi e * (accLen ty : Nat)) ∧
  (∀ m, Issues (.vstduo c ws ga kn) m s → SourcesReady s [ws] →
    let h := dHeight d
    let w := dWidth d
    let turned (e : Nat) : Int := ((e % w * h + e / w) * (tyBits ty / 8) : Nat)
    let req (n : Nat) : Req :=
      elemReq .write ty (if n % 2 = 0 then address (readG s ga) (plain (n / 2))
                         else address (readG s (ga + 1)) (turned (n / 2))) (n / 2)
    let act (n : Nat) : Prop := Active s kn (n / 2)
    ∀ home : Nat → Nat, StoresPass s act req home →
    ∃ t, exec (.vstduo c ws ga kn) s = .next t ∧ ConvoyGoesOn s t ∧
      NibblesStored s t ty act home (fun n => val (n / 2)) ∧ t.hart.stope = s.hart.stope ∧ MasksKept s t ∧
      t.tags = s.tags ∧ VectorFrame s t)

/-- R226, R234, R235: `vamo`, contiguous or indexed, on elements that do not overlap: each active element takes the old
value, its home the operation's, and no other byte changes; an order with release ends the strand's filter entries. That FLIX
names the lowest element of the flags that the homes credit is log 74. -/
def Obligations.VectorAtomics : Prop :=
  ∀ (c : BitVec 1) (wd wa : Win) (ga : Reg) (kn op : BitVec 3) (order : BitVec 2) (s : State), Canonical s →
  let ty := tyOf s wd
  let n := accLen ty
  let b := tyBits ty
  let base := readG s ga
  let address (off : Nat) : Word := BitVec.ofNat 64 (bitsW base 60 4 * 2 ^ 60 + (bitsW base 0 60 + off) % 2 ^ 60)
  let atomics (i : Instr) (off : Nat → Nat) : Prop := ∀ m, Issues i m s → SourcesReady s [wa] →
    let req (e : Nat) : Req := elemReq .atomic ty (address (off e)) e
    ∀ home : Nat → Nat, StoresPass s (Active s kn) req home →
    (∀ e e', Active s kn e → Active s kn e' → e ≠ e' → home e + n ≤ home e' ∨ home e' + n ≤ home e) →
    let old (e : Nat) : Nat := memNat s (home e) n
    let v (e : Nat) : Nat := srcBits s (readW s wa) e
    let sum (e : Nat) : Machine.Num × Flags := addN 0 (readF (fmtOf ty) false (old e)) (readF (fmtOf ty) false (v e))
    let new (e : Nat) : Nat :=
      match op.toNat with
      | 0 => v e
      | 1 => if isFloat ty then (roundF (fmtOf ty) homeMode (sum e).1).1 else (old e + v e) % 2 ^ b
      | 2 => old e &&& v e
      | 3 => old e ||| v e
      | 4 => old e ^^^ v e
      | 5 => if intVal ty (v e) < intVal ty (old e) then v e else old e
      | 6 => if intVal ty (old e) < intVal ty (v e) then v e else old e
      | _ => if old e = srcBits s (readW s wd) e then v e else old e
    let f (e : Nat) : Nat × Flags :=
      (old e, if op = 1 ∧ isFloat ty = true then (sum e).2 ||| (roundF (fmtOf ty) homeMode (sum e).1).2 else 0)
    ∃ t, exec i s = .next t ∧ ConvoyGoesOn s t ∧ ElementsWritten s t wd (Active s kn) f ∧
      FlagsMerged s t (Active s kn) (raisedAt s wd f) ∧ (∀ e, Active s kn e → memNat t (home e) n = new e) ∧
      (∀ a, (∀ e, Active s kn e → a < home e ∨ home e + n ≤ a) → memByte t a = memByte s a) ∧
      (∀ e, e ∈ t.filter ↔ e ∈ s.filter ∧ (order.getLsbD 1 = true → e.who ≠ whoIs s.hart)) ∧
      MasksKept s t ∧ t.tags = s.tags ∧ VectorFrame s t
  atomics (.vamo c wd wa ga kn op order) (fun e => e * (b / 8)) ∧
  atomics (.vamoX c wd wa ga kn op order) (fun e => srcBits s (readW s wd) e * n)

/-- R236, R237: `tagset` assigns the low four bits of each active element as the tag of its granule, pushes the tag before it
into the granule's history, and changes no byte of memory. -/
def Obligations.TagAssignment : Prop := ∀ (c : BitVec 1) (wa : Win) (ga : Reg) (kn : BitVec 3) (m : Member) (s : State),
  Canonical s → Issues (.tagset c wa ga kn) m s → SourcesReady s [wa] →
  let base := readG s ga
  let req (e : Nat) : Req :=
    { kind := .write, len := 32, align := 32, tagged := false, plain := false, consumes := false, elem := some e
      needTag := true
      ptr := BitVec.ofNat 64 (bitsW base 60 4 * 2 ^ 60 + (bitsW base 0 60 + 32 * e) % 2 ^ 60) }
  ∀ home : Nat → Nat, (∀ e, Active s kn e → ∃ translated, check s (req e) = .home (home e) translated false) →
  (∀ e e', Active s kn e → Active s kn e' → e ≠ e' → home e / 32 ≠ home e' / 32) →
  ∃ t, exec (.tagset c wa ga kn) s = .next t ∧ ConvoyGoesOn s t ∧
    (∀ e, Active s kn e → (smGet 0 t.tags (home e / 32)).toNat =
      (smGet 0 s.tags (home e / 32)).toNat * 16 % 2 ^ 16 + srcBits s (readW s wa) e % 16) ∧
    (∀ g, (∀ e, Active s kn e → home e / 32 ≠ g) → smGet 0 t.tags g = smGet 0 s.tags g) ∧
    t.mem = s.mem ∧ t.hart.stope = s.hart.stope ∧ MasksKept s t ∧ t.filter = s.filter ∧ VectorFrame s t

/-! ### The seam, the tensor forms and the sump -/

/-- R270, R273, R282, R288, R296–R298: the control forms and `sldb`: what SGRANT, SGW, the bounds and every row hold after them,
and the status that `sstat` reads. `satt`, `sdet` and `sstat` complete once no contribution of an older `smula` of the strand
is pending, and wait as they stand while one is. -/
def Obligations.SeamControl : Prop := ∀ (c slot : BitVec 1) (gw : BitVec 2) (w : Win) (ga : Reg) (s : State),
  Canonical s → StrandLegal s.hart → seamDone s = false →
  let h := s.hart.seam
  let acts (i : Instr) (srcs : List Win) (grant : Nat) (width : BitVec 2) (b0 b1 : Word) (row : Nat → SeamRow) : Prop :=
    ∀ m, Issues i m s → (srcs = [] ∨ SourcesReady s srcs) →
    ∃ t, exec i s = .next t ∧ ConvoyGoesOn s t ∧
      t.hart.seam.grant = grant ∧ t.hart.seam.gw = width ∧ t.hart.seam.bound0 = b0 ∧ t.hart.seam.bound1 = b1 ∧
      (∀ r, seamRow t r = row r) ∧ t.hart.seam.macros = h.macros ∧ t.hart.stope = s.hart.stope ∧ FlagsKept s t ∧
      StreamsOnly s t srcs ∧ SeamFrame s t
  let both : Prop := joinedSlots s slot = true
  let settled : Prop := pendingRow (fun _ => true) s = false
  let b (e : Nat) : BitVec 512 := BitVec.ofNat 512 (srcBits s (readW s w) e)
  (settled → acts (.satt c ga) [] (512 * Nat.min (readG s ga).toNat h.macros) h.gw 0 0 (fun _ => .zero)) ∧
  (settled → acts (.sdet c) [] 0 h.gw 0 0 (fun _ => .zero)) ∧
  acts (.sguard c gw) [] h.grant gw 0 0
    (fun r => { seamRow s r with s0 := 0, s1 := 0, chain0 := false, chain1 := false }) ∧
  (both → acts (.szero c slot) [] h.grant h.gw 0 0
    (fun r => { seamRow s r with s0 := 0, s1 := 0, chain0 := false, chain1 := false })) ∧
  (¬both → slot = 0 → acts (.szero c slot) [] h.grant h.gw 0 h.bound1
    (fun r => { seamRow s r with s0 := 0, chain0 := false })) ∧
  (¬both → slot = 1 → acts (.szero c slot) [] h.grant h.gw h.bound0 0
    (fun r => { seamRow s r with s1 := 0, chain1 := false })) ∧
  acts (.sldb c w ga) [w] h.grant h.gw h.bound0 h.bound1
    (fun r => if rowBase s ga ≤ r ∧ r < rowBase s ga + vl s
              then { seamRow s r with b := b (r - rowBase s ga) } else seamRow s r) ∧
  (settled → ConvoyWritesReg (.sstat c ga) s [] ga (seamStatus s)) ∧
  (¬settled → ∀ i ∈ [Instr.satt c ga, .sdet c, .sstat c ga], ∀ m, Issues i m s → exec i s = .next s)

/-- R297: the word that `sstat` writes: bits 15:0 are SGRANT, 17:16 SGW, 18 tells that the slot pair is joined, 19 that some
held row's delta is not +0, 20 that some is a NaN, and 63:21 are 0. It reads it where no contribution is pending. -/
def Obligations.SeamStatus : Prop := ∀ (c : BitVec 1) (ga : Reg) (s : State), Canonical s → seamDone s = false →
  pendingRow (fun _ => true) s = false → ∃ v, ConvoyWritesReg (.sstat c ga) s [] ga v ∧
    bitsW v 0 16 = s.hart.seam.grant % 2 ^ 16 ∧ bitsW v 16 2 = s.hart.seam.gw.toNat ∧
    bitW v 18 = joinedSlots s 0 ∧
    (bitW v 19 = true ↔ ∃ r < s.hart.seam.grant, (seamRow s r).delta ≠ 0) ∧
    (bitW v 20 = true ↔ ∃ r < s.hart.seam.grant, (readF f32 false (seamRow s r).delta.toNat).isNan = true) ∧ bitsW v 21 43 = 0

/-- R275, R278, R279, R290, R299: an admitted `smul` or `smula` adds the product into the slot, or into the joined pair, of
every named row and of no other, and raises the bound by n × Ma × Mb; the chaining bits stay (log 56). A row of `smula` with
identifier 0 keeps its delta, and each one whose directory entry cannot be read takes the f32 NaN and raises GRD, at once where
no fill is late (log 13). R286, R287: where the lines of all its rows are in the gang's cache, with legal entries and pointers,
each row of finite numbers adds the exact sum of the products of the digits with U and V to its delta at once, with one
rounding to f32. -/
def Obligations.SeamProducts : Prop :=
  ∀ (c slot : BitVec 1) (w : Win) (ga : Reg) (ca cb : BitVec 2) (mode : BitVec 1) (s : State),
  Canonical s → StrandLegal s.hart → seamDone s = false → governorHolds s = false →
  let base := rowBase s ga
  let elem (r : Nat) : Nat := if bitW (readG s ga) 15 then 0 else r - base
  let a (r : Nat) : BitVec 512 := BitVec.ofNat 512 (srcBits s (readW s w) (elem r))
  let step := 512 / guardBits s * classBound ca * classBound cb
  let wide (x : SeamRow) : Nat := x.s1.toNat * 2 ^ 512 + x.s0.toNat
  let product (t : State) (r : Nat) : Prop :=
    let x := seamRow s r
    let y := seamRow t r
    y.b = x.b ∧ y.chain0 = x.chain0 ∧ y.chain1 = x.chain1 ∧
    (¬NamedRow s ga r → y = x) ∧
    (NamedRow s ga r → mode = 0 →
      y.s0 = (if slot = 0 then x.s0 + a r * x.b else x.s0) ∧ y.s1 = (if slot = 1 then x.s1 + a r * x.b else x.s1)) ∧
    (NamedRow s ga r → mode = 1 → wide y = (wide x + (a r).toNat * x.b.toNat) % 2 ^ 1024)
  let bounds (t : State) : Prop :=
    (vl s = 0 → t.hart.seam.bound0 = s.hart.seam.bound0 ∧ t.hart.seam.bound1 = s.hart.seam.bound1) ∧
    (vl s ≠ 0 → ∀ x : BitVec 1,
      (mode = 1 ∨ x = slot → headroom t x = headroom s x + step ∧ joinedSlots t x = decide (mode = 1)) ∧
      (mode = 0 → x ≠ slot → boundOf t x = boundOf s x))
  let adds (i : Instr) (srcs : List Win) (more : State → Prop) : Prop := ∀ m, Issues i m s → SourcesReady s srcs →
    ∃ t, exec i s = .next t ∧ ConvoyGoesOn s t ∧ (∀ r, product t r) ∧ bounds t ∧ t.hart.seam.grant = s.hart.seam.grant ∧
      t.hart.seam.gw = s.hart.seam.gw ∧ t.hart.seam.macros = s.hart.seam.macros ∧ t.hart.stope = s.hart.stope ∧
      more t ∧ StreamsOnly s t srcs ∧ SeamFrame s t
  let ident (r : Nat) : Nat := srcBits s (readW s (adapterWin s)) (elem r)
  let sadp := s.hart.ctrl.sadp
  let entry (r : Nat) : Nat := bitsW sadp 8 40 * 256 + 16 * ident r
  let line (va : Nat) : List Byte := smGet [] s.adapter (adapterKey (gangOf s.hart.core) s.hart.part va)
  let dword (r i : Nat) : Word := BitVec.ofNat 64 (leNat (((line (entry r)).drop (entry r % 128 + 8 * i)).take 8))
  let rank (r : Nat) : Nat := bitsW (dword r 0) 0 6
  let n := 512 / guardBits s
  let u (r m : Nat) : Nat := bitsW (dword r 0) 7 41 * 128 + 128 * (rowSel s ga * n + m)
  let v (r : Nat) : Nat := bitsW (dword r 1) 7 41 * 128 + 128 * r
  let present (r : Nat) : Prop :=
    entry r < 2 ^ 48 ∧ line (entry r) ≠ [] ∧ 1 ≤ rank r ∧ rank r ≤ 32 ∧ bitW (dword r 0) 6 = false ∧
    bitsW (dword r 0) 48 12 = 0 ∧ bitsW (dword r 1) 0 7 = 0 ∧ bitsW (dword r 1) 48 12 = 0 ∧ v r < 2 ^ 48 ∧ line (v r) ≠ [] ∧
    ∀ m < n, u r m < 2 ^ 48 ∧ line (u r m) ≠ []
  let bits (va q : Nat) : Nat := leNat (((line va).drop (4 * q)).take 4)
  let units (b : Nat) : Int :=
    (if b / 2 ^ 31 % 2 = 1 then -1 else 1) *
      ((if b / 2 ^ 23 % 256 = 0 then b % 2 ^ 23 else (2 ^ 23 + b % 2 ^ 23) * 2 ^ (b / 2 ^ 23 % 256 - 1) : Nat))
  let finite (b : Nat) : Prop := b / 2 ^ 23 % 256 ≠ 255
  adds (.smul c w ga slot ca cb mode) [w]
    (fun t => (∀ r, (seamRow t r).delta = (seamRow s r).delta) ∧ FlagsKept s t ∧ t.adapter = s.adapter) ∧
  adds (.smula c w ga slot ca cb mode) [w, adapterWin s]
    (fun t => (∀ r, ident r = 0 → (seamRow t r).delta = (seamRow s r).delta) ∧
      (∀ r, NamedRow s ga r → ident r ≠ 0 → line (entry r) = [] → s.contribs = [] → s.lateFills = [] →
        (∀ key, readLine s s.hart.core s.hart.part key (entry r / 128 * 128) = none) →
        (seamRow t r).delta = 0x7FC0_0000 ∧ t.hart.ctrl.vstat.setWidth 8 &&& flGRD = flGRD) ∧
      (s.contribs = [] → (∀ r, NamedRow s ga r → ident r = 0 ∨ present r) →
        ∀ r, NamedRow s ga r → ident r ≠ 0 →
        let old := (seamRow s r).delta.toNat
        finite old → (∀ q < rank r, finite (bits (v r) q) ∧ ∀ m < n, finite (bits (u r m) q)) →
        let total : Int := units old * 2 ^ 149 + ((List.range (rank r)).map (fun q => ((List.range n).map (fun m =>
          digit (guardBits s) m (a r).toNat * units (bits (u r m) q))).sum * units (bits (v r) q))).sum
        ∃ neg mag exp, -298 ≤ exp ∧ total = (if neg then -1 else 1) * (mag * 2 ^ (exp + 298).toNat : Nat) ∧
          let x := roundF f32 homeMode (.fin neg mag exp false)
          (seamRow t r).delta = BitVec.ofNat 32 x.1 ∧ t.hart.ctrl.vstat.setWidth 8 &&& x.2 = x.2))

/-- R276, R288, R300: `sxtr` writes digit k of each named row, `sxtw` all the digits of each, both leaving the rows as they are,
and `sfin` the delta of each, which is then +0, once no contribution to a named row is pending: it waits while one is. -/
def Obligations.SeamResults : Prop := ∀ (c slot : BitVec 1) (w : Win) (ga : Reg) (s : State),
  Canonical s → StrandLegal s.hart → s.hart.badBits = [] →
  let d := readW s w
  let base := rowBase s ga
  let n := if joinedSlots s slot then 2 * (512 / guardBits s) else 512 / guardBits s
  let p (e : Nat) : Nat :=
    let x := seamRow s (base + e)
    if joinedSlots s slot then x.s1.toNat * 2 ^ 512 + x.s0.toNat else if slot = 0 then x.s0.toNat else x.s1.toNat
  let fit (e k x : Nat) : Nat × Flags := fitTo (dType d) (laneMode s d x) (ofIntN (digit (guardBits s) k (p e)))
  let writes (i : Instr) (per : Nat) (f : Nat → Nat × Flags) (row : Nat → SeamRow) : Prop := ∀ m, Issues i m s →
    ∃ t, exec i s = .next t ∧ ConvoyGoesOn s t ∧ ElementsWritten s t w (fun x => x / per < vl s) f ∧
      FlagsMerged s t (· < vl s) (raisedIn s w per f) ∧ (∀ r, seamRow t r = row r) ∧
      t.hart.seam = { s.hart.seam with rows := t.hart.seam.rows } ∧ t.hart.chans = s.hart.chans ∧ SeamFrame s t
  writes (.sxtr c w ga slot) 1 (fun e => fit e (rowSel s ga) e) (seamRow s) ∧
  writes (.sxtw c w ga slot) n (fun x => fit (x / n) (x % n) x) (seamRow s) ∧
  let late := pendingRow (fun r => decide (base ≤ r) && decide (r < base + vl s)) s
  (late = false → writes (.sfin c w ga) 1
    (fun e => fitTo (dType d) (laneMode s d e) (readF f32 false (seamRow s (base + e)).delta.toNat))
    (fun r => if base ≤ r ∧ r < base + vl s then { seamRow s r with delta := 0 } else seamRow s r)) ∧
  (late = true → ∀ m, Issues (.sfin c w ga) m s → exec (.sfin c w ga) s = .next s)

/-- R182, R274, R276, R301, R302: packing sums the images, each scaled by its place, mod 2^512; unpacking gives the images of
codes, or the digits of words. R303, R304: `vqnt` writes the code of each active element under its block's scale; where every
scale is closed it writes nothing else, and an open one takes the least scale that fits, or 62 (windows on rows of their own).
`vscalc` adds the scaled partial with one rounding; in which order the factors of an invalid product meet is log 38. -/
def Obligations.TensorForms : Prop :=
  (∀ (c : BitVec 1) (wd wa : Win) (kn : BitVec 3) (s : State),
    Canonical s → StrandLegal s.hart →
    let g := guardBits s
    let n := 512 / g
    let scale (x : Nat) : Nat := srcBits s (readW s (scaleWin wa)) (x / 32)
    let closed (x : Nat) : Bool := tyOf s wa == 7 && scale x % 64 == 63
    let image (x : Nat) : Int :=
      if closed x then 0 else if tyOf s wa = 7 then codeImage (scale x / 64) (srcBits s (readW s wa) x) else intAt s wa x
    let broken (j : Nat) : Bool := (List.range n).any (fun m => closed (j * n + m))
    let fit (x : Nat) (v : Machine.Num) : Nat × Flags := fitTo (tyOf s wd) (laneMode s (readW s wd) x) v
    let whole := isInt (tyOf s wd)
    let code (x : Nat) : Nat × Flags :=
      if closed x then (if whole then 0 else (fmtOf (tyOf s wd)).nan, flGRD)
      else if whole then fit x (ofIntN (image x))
      else fit x (.fin (decide (image x < 0)) (image x).natAbs (factorExp (scale x)) false)
    let pack (j : Nat) (place : Nat → Nat) : Nat × Flags :=
      ((((List.range n).map (fun m => image (j * n + place m) * (2 : Int) ^ (g * m))).sum % 2 ^ 512).toNat,
        if broken j then flGRD else 0)
    let wins : List Win := if tyOf s wa = 7 then [wa, scaleWin wa] else [wa]
    TensorWord (.vpack c wd wa kn) s wd (packSrcs s wa) wins kn none 1 (fun j => pack j id) ∧
    TensorWord (.vpackr c wd wa kn) s wd (packSrcs s wa) wins kn none 1 (fun j => pack j (fun m => n - 1 - m)) ∧
    (tyOf s wa = 7 → TensorWord (.vunpk c wd wa kn) s wd (imageSrcs s wa) wins kn none 1 code) ∧
    (tyOf s wa = 14 → TensorWord (.vunpk c wd wa kn) s wd (imageSrcs s wa) wins kn none n
      (fun x => fit x (ofIntN (digit g (x % n) (srcBits s (readW s wa) (x / n))))))) ∧
  (∀ (c x : BitVec 1) (wd wa wb : Win) (kn ke : BitVec 3) (s : State),
    Canonical s → StrandLegal s.hart →
    let scale (m : Nat) : Nat := srcBits s (readW s wb) m
    let srcs (e : Nat) : List (Word × Nat) := [(readW s wa, e), (readW s wb, e / 32)]
    let i : Instr := .vqnt c x wd wa wb kn ke
    let quantised (e b : Nat) (r : Nat × Flags) : Prop := IsQuantCode b (laneMode s (readW s wd) e) (quantVal s wa e) r
    let fits (m b : Nat) : Prop := ∀ e, Active s kn e → e / 32 = m →
      match quantVal s wa e with
      | .nan _ => True
      | .inf _ => False
      | .fin _ mag exp _ => mag * 2 ^ (exp + 200).toNat ≤ codeMagnitude (b / 64) 7 * 2 ^ (factorExp b + 200).toNat
    (∀ r : Nat → Nat × Flags, (∀ e, Active s kn e → scale (e / 32) % 64 ≠ 63 ∧ quantised e (scale (e / 32)) (r e)) →
      TensorWord i s wd srcs [wa] kn (xMask x ke) 1 r) ∧
    (∀ m, Issues i m s → ElementsReady s (quantSrcs s wa wb (activeList s kn)) → vl s ≤ 2048 →
      (∀ e, Active s kn e → ∀ b, (coord (readW s wd) e).1 ≠ (coord (readW s wb) b).1) →
      ∃ (t : State) (after : Nat → Nat), exec i s = .next t ∧ ConvoyGoesOn s t ∧
        ∀ e, Active s kn e →
          let m := e / 32
          (scale m % 64 ≠ 63 → after m = scale m) ∧
          (scale m % 64 = 63 → after m / 64 = scale m / 64 ∧ after m % 64 ≠ 63 ∧
            (after m % 64 = 62 ∨ fits m (after m)) ∧ ∀ y < after m % 64, ¬fits m (scale m / 64 * 64 + y)) ∧
          (pastEdge s.hart.height (readW s wd) e = false → ∃ r, quantised e (after m) r ∧
            stopeBits t.hart (coord (readW s wd) e).1 (coord (readW s wd) e).2 4 = r.1) ∧
          (pastEdge s.hart.height (readW s wb) m = false →
            stopeBits t.hart (coord (readW s wb) m).1 (coord (readW s wb) m).2 8 = after m)) ∧
    (let factor (y : Nat) : Machine.Num × Flags :=
       if tyOf s wb = 13 then
         if scale y % 64 = 63 then (.nan false, flGRD) else (.fin false 1 (factorExp (scale y)) false, 0)
       else (valAt s wb y, 0)
     let scaled (e : Nat) : Nat × Flags :=
       let f := factor (2 * e)
       let g := factor (2 * e + 1)
       let p := mulN (valAt s wa e) f.1
       let q := mulN p.1 g.1
       let l := mulN q.1 (readF f32 (vcfgFtz s) (bitsW s.hart.ctrl.vloss 0 32))
       let sum := addN (vcfgRm s) (valAt s wd e) l.1
       fitAt s wd e (sum.1, f.2 ||| g.2 ||| p.2 ||| q.2 ||| l.2 ||| sum.2)
     TensorWord (.vscalc c x wd wa wb kn ke) s wd (scaleSrcs s wd wa wb) [wa, wb] kn (xMask x ke) 1 scaled))

/-- R310–R312: `sax` adds g × v to each active element's word in the sump, once and with its own rounding, and `sred` folds
the active elements into one word, over integers by the plain sum, least, greatest or bits; no other byte changes. R313, R314: a push appends the active elements that there is room
for and a pop takes as many as are held, in element order, each with VL shortened to the first element that did not move;
the header's counts move with them. That a ring position counts modulo 2^32 is log 40, that FLIX of `sax` names the lowest
element log 74, and that a pop past a clamp edge raises EDGE logs 37 and 65. -/
def Obligations.SumpUpdatesAndQueues : Prop :=
  (∀ (c : BitVec 1) (gs ga : Reg) (wa : Win) (kn op : BitVec 3) (s : State),
    Canonical s → StrandLegal s.hart →
    let ty := tyOf s wa
    let n := accLen ty
    let base := readG s ga
    let address (off : Nat) : Word := BitVec.ofNat 64 (bitsW base 60 4 * 2 ^ 60 + (bitsW base 0 60 + off) % 2 ^ 60)
    let v (e : Nat) : Nat := srcBits s (readW s wa) e
    let g := (readG s gs).toNat % 2 ^ tyBits ty
    (∀ m, Issues (.sax c gs wa ga kn) m s → SourcesReady s [wa] →
      let req (e : Nat) : Req := bankReq (address (e * n)) n n e
      ∀ home : Nat → Nat, StoresPass s (Active s kn) req home →
      (∀ e e', Active s kn e → Active s kn e' → e ≠ e' → home e + n ≤ home e' ∨ home e' + n ≤ home e) →
      let old (e : Nat) : Nat := memNat s (home e) n
      let num (b : Nat) : Machine.Num := readF (fmtOf ty) false b
      let sum (e : Nat) : Machine.Num × Flags := fmaN 0 (num g) (num (v e)) (num (old e))
      let new (e : Nat) : Nat :=
        if isFloat ty then (roundF (fmtOf ty) homeMode (sum e).1).1
        else ((old e + intVal ty g * intVal ty (v e)) % 2 ^ tyBits ty).toNat
      let flags (e : Nat) : Flags :=
        if isFloat ty then (sum e).2 ||| (roundF (fmtOf ty) homeMode (sum e).1).2 ||| snanFlag [num g, num (v e), num (old e)]
        else 0
      ∃ t, exec (.sax c gs wa ga kn) s = .next t ∧ ConvoyGoesOn s t ∧
        (∀ e, Active s kn e → memNat t (home e) n = new e) ∧
        (∀ a, (∀ e, Active s kn e → a < home e ∨ home e + n ≤ a) → memByte t a = memByte s a) ∧
        FlagsMerged s t (Active s kn) flags ∧ t.hart.stope = s.hart.stope ∧ MasksKept s t ∧ t.tags = s.tags ∧
        t.filter = s.filter ∧ VectorFrame s t) ∧
    (∀ m, Issues (.sred c wa ga kn op) m s → SourcesReady s [wa] →
      ∀ e0, LowestActive s kn e0 → ∀ k translated, check s (bankReq (address 0) n n e0) = .home k translated false →
      let old := memNat s k n
      let es := activeList s kn
      let b := tyBits ty
      let bits := es.map v
      let ints := bits.map (intVal ty)
      let low (z : Int) : Nat × Flags := ((z % 2 ^ b).toNat, 0)
      let r : Nat × Flags :=
        match op.toNat with
        | 0 => if isFloat ty then sredNew s wa op es old else low (old + ints.sum)
        | 1 => low (ints.foldl min (intVal ty old))
        | 2 => low (ints.foldl max (intVal ty old))
        | 3 => (bits.foldl (· &&& ·) old, 0)
        | 4 => (bits.foldl (· ||| ·) old, 0)
        | _ => (bits.foldl (· ^^^ ·) old, 0)
      ∃ t, exec (.sred c wa ga kn op) s = .next t ∧ ConvoyGoesOn s t ∧ memNat t k n = r.1 % 2 ^ tyBits ty ∧
        (∀ a, a < k ∨ k + n ≤ a → memByte t a = memByte s a) ∧ FlagsMerged s t (· = 0) (fun _ => r.2) ∧
        t.hart.stope = s.hart.stope ∧ MasksKept s t ∧ t.tags = s.tags ∧ t.filter = s.filter ∧ VectorFrame s t)) ∧
  (∀ (c : BitVec 1) (w : Win) (ga : Reg) (kn : BitVec 3) (s : State),
    Canonical s → StrandLegal s.hart →
    let es := activeList s kn
    let ptr : Word := elemAddr (readG s ga) 0
    let word (t : State) (a : Nat) : Nat := memNat t a 4
    ∀ e0 k translated q, LowestActive s kn e0 → check s (bankReq ptr 64 64 e0) = .home k translated false →
    queueHead s k (vaOf ptr) translated = some q →
    let entry (i : Nat) : Nat := 64 + 4 * (i % 2 ^ 32 % q.depth)
    let opens (i : Nat) : Prop := ∃ k' translated' cow', check s (bankReq (elemAddr ptr (entry i : Nat)) 4 4 e0) =
      .home k' translated' cow'
    let shortened (t : State) (n : Nat) : Prop := vl t = if n < es.length then es.getD n 0 else vl s
    (∀ m, Issues (.sqpush c w ga kn) m s → SourcesReady s [w] →
      let n := Nat.min es.length (q.depth - q.held)
      (∀ i < n, opens (q.pushed + i)) →
      ∃ t, exec (.sqpush c w ga kn) s = .next t ∧ ConvoyGoesOn s t ∧
        word t k = q.popped ∧ word t (k + 4) = (q.pushed + n) % 2 ^ 32 ∧
        (∀ i < n, (∀ j < n, i < j → entry (q.pushed + j) ≠ entry (q.pushed + i)) →
          word t (k + entry (q.pushed + i)) = srcBits s (readW s w) (es.getD i 0)) ∧
        (∀ a, (a < k ∨ k + 8 ≤ a) → (∀ i < n, a < k + entry (q.pushed + i) ∨ k + entry (q.pushed + i) + 4 ≤ a) →
          memByte t a = memByte s a) ∧
        shortened t n ∧ t.hart.stope = s.hart.stope ∧ FlagsKept s t ∧ QueueFrame s t) ∧
    (∀ m, Issues (.sqpop c w ga kn) m s → s.hart.badBits = [] →
      let n := Nat.min es.length q.held
      (∀ i < n, opens (q.popped + i)) →
      let act (e : Nat) : Prop := e ∈ es.take n
      let f (e : Nat) : Nat × Flags := (word s (k + entry (q.popped + es.idxOf e)), 0)
      ∃ t, exec (.sqpop c w ga kn) s = .next t ∧ ConvoyGoesOn s t ∧
        word t k = (q.popped + n) % 2 ^ 32 ∧ word t (k + 4) = q.pushed ∧
        (∀ a, a < k ∨ k + 8 ≤ a → memByte t a = memByte s a) ∧ ElementsWritten s t w act f ∧
        FlagsMerged s t act (raisedAt s w f) ∧ shortened t n ∧ QueueFrame s t))

/-! ### Claims, channels, bells and messages -/

/-- R321, R322, R324, R327–R331: the claim forms: the handle or pointer that gd takes, the sequence after it, and for
`seqopen`, `claim` and `claimn` the leaves, counts, quota and tags. A claim that finds too little writes 0, raises SAT and
changes no page; one of no live handle traps PROT with aux 3. -/
def Obligations.ClaimForms : Prop := ∀ (c : BitVec 1) (gd gb gc : Reg) (s : State), Canonical s → StrandLegal s.hart →
  let h := readG s gb
  let p := s.hart.part
  let ends (frame : State → Prop) (i : Instr) (v : Word) (after : State → Prop) : Prop := ∀ m, Issues i m s →
    ∃ t, exec i s = .next t ∧ ConvoyGoesOn s t ∧ RegIs s t gd v ∧ after t ∧ FlagsKept s t ∧ frame t
  let answers := ends (ClaimFrame s)
  let claims (i : Instr) (n : Nat) : Prop := ∀ eng slot, liveSeq s h = some (eng, slot) → 1 ≤ n →
    let q := seqAt s eng slot
    let e := engineAt s eng
    let first := q.base + q.len * 2 ^ 16
    let blocks := freeBlocks e.counts (poolOf e).1 (poolOf e).2 n
    let tag := if q.tagged then claimTag s blocks e.tag else 0
    q.len + n ≤ q.cap →
    (blocks.length = n → n ≤ quotaLeft s p eng → ∀ leaf, (∀ i < n, q.leafAt (q.len + i) = some (leaf i)) →
      LeavesApart n leaf → answers i (BitVec.ofNat 64 (tag * 2 ^ 60 + first % 2 ^ 48)) (fun t =>
        LeavesWritten s t n leaf (fun i => leafClaimed (blocks.getD i 0) q false) ∧
        seqAt t eng slot = { q with len := q.len + n } ∧ OtherSeqs s t eng slot ∧
        (∀ b, smGet 0 (engineAt t eng).counts b = if b ∈ blocks then 1 else smGet 0 e.counts b) ∧
        smGet 0 (engineAt t eng).used p = smGet 0 e.used p + n ∧
        (∀ g, smGet 0 t.tags g = if q.tagged = true ∧ g / 2048 ∈ blocks
                                 then pushTag (smGet 0 s.tags g) (BitVec.ofNat 4 tag) else smGet 0 s.tags g))) ∧
    (blocks.length < n ∨ quotaLeft s p eng < n → ∀ m, Issues i m s →
      ∃ t, exec i s = .next t ∧ ConvoyGoesOn s t ∧ RegIs s t gd 0 ∧ FlagsMerged s t (· = 0) (fun _ => flSAT) ∧
        t.mem = s.mem ∧ t.tags = s.tags ∧ t.engines = s.engines)
  let refuses (i : Instr) : Prop := HandlerReady s → ∀ m, Issues i m s →
    ∃ t, exec i s = .next t ∧ bitsW t.hart.ctrl.ecause 0 8 = 6 ∧ bitsW t.hart.ctrl.ecause 16 16 = 3 ∧
      trapActive t = true ∧ t.hart.ctrl.epc = s.hart.pc.setWidth 64 ∧ t.hart.gpr = s.hart.gpr ∧ t.mem = s.mem ∧
      t.engines = s.engines ∧ t.tags = s.tags
  (let w := readG s gc
   let pages := bitsW w 0 17
   let eng := if bitsW w 28 4 = 15 then bestEngine s p (6 * dieOf s.hart.core) else bitsW w 28 4
   controlOk w = true → rangeOk s h pages = true → ∀ slot, freeSlotOf s eng = some slot →
   ∀ leaf, (∀ i < pages, leafAddr s p (h.toNat + i * 2 ^ 16) = some (leaf i)) → LeavesApart pages leaf →
   answers (.seqopen c gd gb gc) (seqHandle p eng (seqAt s eng slot).gen slot) (fun t =>
     LeavesWritten s t pages leaf (fun _ => 0x0200_0000_0000_0000) ∧
     seqAt t eng slot = { live := true, gen := (seqAt s eng slot).gen, part := p, base := h.toNat, cap := pages, len := 0
                          wr := bitW w 17, tagged := bitW w 18, tables := rangeTables s p h.toNat pages } ∧
     OtherSeqs s t eng slot ∧ t.tags = s.tags)) ∧
  claims (.claim c gd gb) 1 ∧
  ((readG s gc).toNat ≤ 8 → claims (.claimn c gd gb gc) (readG s gc).toNat) ∧
  (∀ eng slot, liveSeq s h = some (eng, slot) →
    let q := seqAt s eng slot
    (∀ new, rangeOk s (readG s gc) q.cap = true → freeSlotOf s eng = some new →
      (∀ i < q.len, smGet 0 (engineAt s eng).counts (pageBlock s q i) ≠ 0xFFFF) →
      answers (.seqfork c gd gb gc) (seqHandle p eng (seqAt s eng new).gen new) (fun t =>
        seqAt t eng new = { q with gen := (seqAt s eng new).gen, base := (readG s gc).toNat
                                   tables := rangeTables s p (readG s gc).toNat q.cap } ∧
        OtherSeqs s t eng new ∧ t.tags = s.tags)) ∧
    (let n := Nat.min (readG s gc).toNat q.len
     ends (TrimFrame s) (.seqtrim c gd gb gc) (BitVec.ofNat 64 (q.len - n)) (fun t =>
       seqAt t eng slot = { q with len := q.len - n } ∧ OtherSeqs s t eng slot ∧ t.tags = s.tags)) ∧
    ends (TrimFrame s) (.seqclose c gd gb) (BitVec.ofNat 64 q.len) (fun t =>
      seqAt t eng slot = { Seq.free with gen := if q.gen = 2047 then 1 else q.gen + 1 } ∧ OtherSeqs s t eng slot ∧
      t.tags = s.tags)) ∧
  (liveSeq s h = none → refuses (.claim 0 gd gb) ∧ refuses (.claimn 0 gd gb gc) ∧ refuses (.seqfork 0 gd gb gc) ∧
    refuses (.seqtrim 0 gd gb gc) ∧ refuses (.seqclose 0 gd gb))

/-- R28, R29, R335–R338, R342, R346–R349: a copy, `dstop` or `dbell` takes its place in its channel's queue of four words,
and waits while the queue is full. A copy takes its operands and the binding, and the stream position becomes 0; `dstop` ends
every operation not yet ended with end 5; `dbell` binds; `dwp` and `dlen` read. -/
def Obligations.ChannelWords : Prop := ∀ (c acq : BitVec 1) (ch : BitVec 2) (gd ga gb gc : Reg) (s : State),
  let j := joinState s c
  let cn := chanAt s.hart ch.toNat
  let ahead := (cn.ops.filter (fun o => !o.begun && o.ended.isNone)).length
  let takes (i : Instr) (after : Chan) : Prop := ∀ m, Issues i m s →
    (ahead + cn.binds.length < 4 → ∃ t, exec i s = .next t ∧ ConvoyGoesOn s t ∧
      (∀ n < 4, chanAt t.hart n = if n = ch.toNat then after else chanAt s.hart n) ∧
      t.hart.gpr = s.hart.gpr ∧ FlagsKept s t ∧ t = { s with hart := { strandAfter s t with chans := t.hart.chans } }) ∧
    (4 ≤ ahead + cn.binds.length → exec i s = .next s)
  let copies (i : Instr) (form : DriftForm) : Prop := takes i { cn with
    spos := 0
    ops := cn.ops ++ [{ form := form, dst := readG s ga, src := readG s gb, arg := readG s gc, bell := cn.bell
                        begun := false, serial := 0, count := 0, total := 0, shape := [], ended := none, epc := j.1
                        member := j.2.2.1, pages := 2 ^ 16, undo := [] }] }
  let a := readG s ga
  let behind : List Nat := if ahead = 0 then cn.binds else cn.binds ++ [ahead]
  copies (.drift c ch ga gb gc) .drift ∧ copies (.drift2 c ch ga gb gc) .drift2 ∧
  copies (.driftx c ch ga gb gc) .driftx ∧ copies (.driftm c ch ga gb gc) .driftm ∧
  takes (.dstop c ch)
    { cn with binds := [], ops := cn.ops.map (fun o => if o.ended = none then { o with ended := some 5 } else o) } ∧
  (bitW a 63 = true → takes (.dbell c ch ga gb) { cn with bell := none, binds := behind }) ∧
  (bitW a 63 = false →
    takes (.dbell c ch ga gb) { cn with bell := some ((readG s gb).toNat % 4, bitsW a 0 11), binds := behind }) ∧
  ConvoyWritesReg (.dlen c ch gd) s [] gd cn.dlen ∧
  (∀ m, Issues (.dwp c ch gd acq) m s →
    ∃ t, exec (.dwp c ch gd acq) s = .next t ∧ ConvoyGoesOn s t ∧ RegIs s t gd cn.dwp ∧
      t.dcache = (if acq = 1 then (acquire 0 s).dcache else s.dcache) ∧
      t = { s with hart := strandAfter s t, dcache := t.dcache })

/-- R47, R50, R130, R133, R134, R137, R138, R140, R141: arrivals, waits, the forms that arm, read and reset a bell, fences and
drains. A release ends the strand's filter entries, an acquire of gang scope or wider drops the core's data cache, and a wait
or a drain that cannot complete blocks the strand, which stands at the next word with its convoy open (log 35). -/
def Obligations.SynchronisationWords : Prop :=
  ∀ (c ph : BitVec 1) (bell : BitVec 11) (ga gd gc : Reg) (scope : BitVec 3) (queues : BitVec 9) (s : State),
  let core := bellCore s gc
  let own := s.hart.core
  let at_ (k : Nat) : Bell := bellAt s (bellOwner s.hart).1 (bellOwner s.hart).2 k bell.toNat
  let arrived (b : Bell) : Bell :=
    if b.expect = 0 then
      if b.count = 0xFFFF then { b with overrun := true } else { b with count := b.count + 1 }
    else if b.count + 1 = b.expect then { b with count := 0, phase := !b.phase }
    else { b with count := b.count + 1 }
  let n := ((readG s ga).setWidth 16).toNat
  let armed (b : Bell) : Bell :=
    let b' : Bell := { b with expect := BitVec.ofNat 16 n, short := false, overrun := false }
    if n = 0 ∨ b.count.toNat < n then b'
    else { b' with count := BitVec.ofNat 16 (b.count.toNat % n)
                   phase := if b.count.toNat / n % 2 = 1 then !b.phase else b.phase }
  let flips (b b' : Bell) : Prop := b.phase ≠ b'.phase
  let does (i : Instr) (after : State → Prop) : Prop := ∀ m, Issues i m s →
    ∃ t, exec i s = .next t ∧ ConvoyGoesOn s t ∧ after t ∧ t.mem = s.mem ∧ FlagsKept s t ∧ BellFrame s t
  let waits (t : State) (b : Bell) : Prop :=
    (b.phase ≠ (ph == 1) → t.hart.run = s.hart.run ∧ t.dcache = (acquire scope s).dcache) ∧
    (b.phase = (ph == 1) → t.hart.run = .waiting core bell.toNat (ph == 1) false scope ∧ t.dcache = s.dcache)
  ((∀ a b d e f, s.hart.run ≠ .waiting a b d e f) →
    does (.arrive c bell gc scope) (fun t =>
      BellIs s t core bell (arrived (at_ core)) ∧ Released s t ∧ t.hart.run = s.hart.run ∧ t.dcache = s.dcache ∧
      t.hart.gpr = s.hart.gpr ∧ (¬flips (at_ core) (arrived (at_ core)) → t.rest = s.rest)) ∧
    does (.wait c bell gc scope ph) (fun t =>
      t.bells = s.bells ∧ t.filter = s.filter ∧ waits t (at_ core) ∧ t.hart.gpr = s.hart.gpr ∧ t.rest = s.rest) ∧
    does (.arrwait c bell gc scope ph) (fun t =>
      BellIs s t core bell (arrived (at_ core)) ∧ Released s t ∧ waits t (arrived (at_ core)) ∧
      t.hart.gpr = s.hart.gpr ∧ (¬flips (at_ core) (arrived (at_ core)) → t.rest = s.rest)) ∧
    does (.bellset c bell ga) (fun t =>
      BellIs s t own bell (armed (at_ own)) ∧ t.filter = s.filter ∧ t.hart.run = s.hart.run ∧ t.dcache = s.dcache ∧
      t.hart.gpr = s.hart.gpr)) ∧
  (∀ m, Issues (.belltst c bell gd) m s → ∃ t v, exec (.belltst c bell gd) s = .next t ∧ ConvoyGoesOn s t ∧
    RegIs s t gd v ∧ bitsW v 0 16 = (at_ own).count.toNat ∧ bitsW v 16 16 = (at_ own).expect.toNat ∧
    bitW v 32 = (at_ own).phase ∧ bitW v 33 = (at_ own).short ∧ bitW v 34 = (at_ own).overrun ∧ bitsW v 35 29 = 0 ∧
    t = { s with hart := strandAfter s t }) ∧
  does (.bellrst c bell) (fun t =>
    BellIs s t own bell { count := 0, expect := 0, phase := (at_ own).phase, short := false, overrun := false } ∧
    t.rest = s.rest ∧ t.filter = s.filter ∧ t.hart.gpr = s.hart.gpr ∧ t.dcache = s.dcache ∧ t.hart.run = s.hart.run) ∧
  does (.fence c scope) (fun t =>
    Released s t ∧ t.dcache = (acquire scope s).dcache ∧ t.bells = s.bells ∧ t.hart.gpr = s.hart.gpr ∧
    t.rest = s.rest ∧ t.hart.run = s.hart.run) ∧
  does (.drain c queues) (fun t =>
    t.bells = s.bells ∧ t.filter = s.filter ∧ t.hart.gpr = s.hart.gpr ∧ t.rest = s.rest ∧
    (undrained s s.hart queues = true → t.hart.run = .draining queues ∧ t.dcache = s.dcache) ∧
    (undrained s s.hart queues = false → t.hart.run = s.hart.run ∧
      t.dcache = if queues.extractLsb' 3 4 = 0 then s.dcache else (acquire 0 s).dcache))

/-- R27, R390, R394: an admitted message form sends its message once and waits; when what comes back has come, it completes:
`msgput` changes nothing more, and `msgget` and `nred` write the elements that came, without a flag but EDGE of an element
past a clamp edge (the model's reading: log 65). With VL = 0 it sends nothing. How elements are packed into the message's
bytes, and that the strand waits at the word and runs it again with what came, are log 48. -/
def Obligations.MessageForms : Prop := ∀ (c : BitVec 1) (wa wd : Win) (ga : Reg) (s : State),
  Canonical s → StrandLegal s.hart →
  let j := joinState s c
  let sends (i : Instr) (srcs : List Win) (kind : MsgKind) : Prop := ∀ m, Issues i m s → SourcesReady s srcs → vl s ≠ 0 →
    ∃ t, exec i s = .next t ∧
      standOf t.hart j.1 = { Stand.fresh j.1 with begun := true, tallied := 1 } ∧
      (∀ first, first ≠ j.1 → standOf t.hart first = standOf s.hart first) ∧
      t = { s with
        hart := { s.hart with
          run := .messaging j.1, stands := t.hart.stands, ctrl := { s.hart.ctrl with pmc := t.hart.ctrl.pmc } }
        msgs := s.msgs ++
          [{ who := whoIs s.hart, core := s.hart.core, addr := readG s ga, kind := kind, stage := .sent }] }
  let completes (i : Instr) (srcs : List Win) (bs : List Byte) (after : State → Prop) : Prop :=
    ∀ m, IssuesAs i m s { Stand.fresh j.1 with reply := some (.ok bs), begun := true, tallied := 1 } → s.hart.badBits = [] → vl s ≠ 0 →
    ∃ t, exec i s = .next t ∧ ConvoyGoesOn s t ∧ after t ∧ StreamsOnly s t srcs ∧ MasksKept s t ∧
      t = { s with hart := { strandAfter s t with
        stope := t.hart.stope, stripWork := t.hart.stripWork, chans := t.hart.chans } } ∧
      t.hart.gpr = s.hart.gpr
  let gets (w : Win) (bs : List Byte) (t : State) : Prop :=
    let f (e : Nat) : Nat × Flags :=
      (if tyBits (tyOf s w) = 4 then leNat ((bs.drop (e / 2)).take 1) / 16 ^ (e % 2) % 16
       else leNat ((bs.drop (e * (tyBits (tyOf s w) / 8))).take (tyBits (tyOf s w) / 8)), 0)
    ElementsWritten s t w (· < vl s) f ∧ FlagsMerged s t (· < vl s) (raisedAt s w f)
  let idle (i : Instr) : Prop := ∀ m, Issues i m s → vl s = 0 →
    ∃ t, exec i s = .next t ∧ ConvoyGoesOn s t ∧ t = { s with hart := strandAfter s t } ∧ t.hart.gpr = s.hart.gpr
  sends (.msgput c wa ga) [wa] (.put (packedBytes s wa) (vl s * tyBits (tyOf s wa) % 8 == 4)) ∧
  sends (.msgget c wd ga) [] (.get ((vl s * tyBits (tyOf s wd) + 7) / 8)) ∧
  sends (.nred c wd wa ga) [wa] (.nred ((List.range (vl s)).map (contributionBits s wa))) ∧
  (∀ bs, completes (.msgput c wa ga) [wa] bs (fun t => t.hart.stope = s.hart.stope ∧ FlagsKept s t) ∧
    completes (.msgget c wd ga) [] bs (gets wd bs) ∧ completes (.nred c wd wa ga) [wa] bs (gets wd bs)) ∧
  idle (.msgput c wa ga) ∧ idle (.msgget c wd ga) ∧ idle (.nred c wd wa ga)

/-! ### Launches, caches and deputies -/

/-- R362–R364, R377–R380: a legal `launch` makes its launch and answers its handle, and one at the limit of 65536 answers 0 with
SAT; `cancel` ends the launches of a node that have not ended, `cwait` returns with an acquire or blocks, and traps PROT
where it would wait with a count of 0 for the strand's own node; `cread` reads the fields of the node's counter; on a deputy
core the four headframe forms trap PRIV. R381: `icinv` drops every instruction word of a range from the caches of its partition and
no other word (word by word: log 22), `dcinv` the core's data cache, and `dcwb`, with every older store performed, changes
nothing. A blocked `cwait` stands at the next word (log 35), and the address and code that the traps of a malformed handle and
of an illegal packet report are log 30, FLIX after a launch at the limit log 43. -/
def Obligations.LaunchAndCacheWords : Prop :=
  (∀ (gd ga gb : Reg) (s : State),
    let h := readG s ga
    let count := readG s gb
    let p := s.hart.part
    let pkt (k : Nat) : List Word := dwordsOf 16 (memBytes s k 128)
    let waits (t : State) (run : Run) : Prop := t.hart.run = run ∧ t.dcache = s.dcache
    let returns (t : State) : Prop := t.hart.run = s.hart.run ∧ t.dcache = (acquire 3 s).dcache
    let cwaits (after : State → Prop) : Prop := ∃ t, exec (.cwait ga gb) s = .next t ∧ t.hart.pc = s.hart.pc + 4 ∧
      ConvoyEnded t ∧ after t ∧
      t = { s with hart := { s.hart with pc := t.hart.pc, convoy := t.hart.convoy, run := t.hart.run }, dcache := t.dcache }
    let forms : List Instr := [.launch gd ga, .cancel ga, .cwait ga gb, .cread gd ga]
    let status (n : Node) : Nat :=
      if n.level = 1 then match s.launches.find? n.holds with
        | some l => if l.written then (l.verdict.map (·.status)).getD 0 else 0
        | none => 0
      else match s.jobs.find? (·.id == n.job) with
        | some j => ((j.written.find? (fun w => w.1 == n.level && w.2.1 == n.phase && w.2.2.1 == n.graph)).map (·.2.2.2)).getD 0
        | none => 0
    let inside (n : Node) : List Node := ((s.launches.filter n.holds).map (nodeAbove · (n.level - 1))).eraseDups
    let counter (n : Node) (v : Word) : Prop :=
      bitsW v 61 3 = status n % 8 ∧ bitsW v 48 13 = 0 ∧
      (n.level = 1 → ∀ l, s.launches.find? n.holds = some l →
        bitsW v 24 24 = l.members % 2 ^ 24 ∧ bitsW v 0 24 = l.ended % 2 ^ 24) ∧
      (n.level ≠ 1 → bitsW v 24 24 = (inside n).length % 2 ^ 24 ∧
        bitsW v 0 24 = ((inside n).filter (fun m => status m != 0)).length % 2 ^ 24)
    (onDeputy s.hart = false →
      (∀ k translated cow, check s (packetReq h) = .home k translated cow → pktLegal s p (pkt k) = true →
        liveLaunches s p < 65536 →
        ∃ t l, exec (.launch gd ga) s = .next t ∧ RegIs s t gd (launchHandle p (partOf s p).nextSerial) ∧
          findLaunch t p (partOf s p).nextSerial = some l ∧ l.pkt = pkt k ∧ l.addr = h &&& 0xFFFF_FFFF_FFFF ∧
          l.placed = false ∧ l.verdict = none ∧ l.home = dieOf s.hart.core ∧ t.hart.pc = s.hart.pc + 4 ∧ ConvoyEnded t ∧
          Released s t ∧ t.mem = s.mem ∧ t.rest = s.rest ∧
          t.hart = { s.hart with gpr := t.hart.gpr, pc := t.hart.pc, convoy := t.hart.convoy }) ∧
      (∀ k translated cow, check s (packetReq h) = .home k translated cow → pktLegal s p (pkt k) = true →
        65536 ≤ liveLaunches s p →
        ∃ t, exec (.launch gd ga) s = .next t ∧ RegIs s t gd 0 ∧ t.hart.pc = s.hart.pc + 4 ∧ ConvoyEnded t ∧ Released s t ∧
          t.hart.ctrl.vstat = s.hart.ctrl.vstat ||| flSAT.setWidth 64 ∧
          t = { s with filter := t.filter, hart := { s.hart with
            gpr := t.hart.gpr, pc := t.hart.pc, convoy := t.hart.convoy
            ctrl := { s.hart.ctrl with vstat := t.hart.ctrl.vstat, flix := t.hart.ctrl.flix } } }) ∧
      (∀ k translated cow, check s (packetReq h) = .home k translated cow → pktLegal s p (pkt k) = false →
        HandlerReady s → StrandLegal s.hart → WordTraps (.launch gd ga) s 6 0 (h.setWidth 48)) ∧
      (badHandle p h = false →
        (∀ n, nodeOf s p h = some n → ∃ t, exec (.cancel ga) s = .next t ∧ t.mem = s.mem ∧
          (∀ part serial l, findLaunch s part serial = some l → n.holds l = true → ∃ l', findLaunch t part serial = some l' ∧
            (l.verdict = none → l'.verdict = some { status := 2, info := 0, place := 0, aux := 0 }) ∧
            (l.verdict ≠ none → l'.verdict = l.verdict))) ∧
        (nodeOf s p h = none → ∃ t, exec (.cancel ga) s = .next t ∧ t.hart.pc = s.hart.pc + 4 ∧ OnlyRegs s t ∧
          t.hart.gpr = s.hart.gpr) ∧
        (nodeOf s p h = none → cwaits returns) ∧
        (∀ n, nodeOf s p h = some n → (count ≠ 0 ∨ holdsStrand s n = false) →
          cwaits (fun t => if cwaitDone s n count then returns t else waits t (.cwaiting h (bitsW count 0 24)))) ∧
        (∀ n, nodeOf s p h = some n → count = 0 → holdsStrand s n = true → HandlerReady s → StrandLegal s.hart →
          WordTraps (.cwait ga gb) s 6 0 0) ∧
        ∃ v, WritesReg (.cread gd ga) s gd v ∧
          match nodeOf s p h with | some n => counter n v | none => bitsW v 61 3 = 7) ∧
      (badHandle p h = true → HandlerReady s → StrandLegal s.hart →
        WordTraps (.cancel ga) s 6 0 0 ∧ WordTraps (.cwait ga gb) s 6 0 0 ∧ WordTraps (.cread gd ga) s 6 0 0)) ∧
    (onDeputy s.hart = true → HandlerReady s → StrandLegal s.hart →
      ∀ i ∈ forms, WordTraps i s 13 0 (BitVec.ofNat 48 ((encodeWord i).getD 0)))) ∧
  (∀ (ga gb : Reg) (s : State),
    let does (i : Instr) (after : State → Prop) : Prop := ∃ t, exec i s = .next t ∧ t.hart.pc = s.hart.pc + 4 ∧
      ConvoyEnded t ∧ after t ∧
      t = { s with hart := { s.hart with pc := t.hart.pc, convoy := t.hart.convoy }, icache := t.icache, dcache := t.dcache }
    let lo := (readG s ga).toNat % 2 ^ 48
    let n := (readG s gb).toNat
    does (.icinv ga gb) (fun t => t.dcache = s.dcache ∧
      ∀ x, x ∈ t.icache ↔ x ∈ s.icache ∧
        ¬((0x200 ≤ x.1 / 2 ^ 51 ↔ onDeputy s.hart = true) ∧ (onDeputy s.hart = true ∨ x.1 / 2 ^ 46 % 32 = s.hart.part) ∧
          n ≠ 0 ∧ lo / 4 ≤ x.1 % 2 ^ 46 ∧ x.1 % 2 ^ 46 < (lo + n + 3) / 4)) ∧
    (Canonical s → does .dcinv (fun t => t.icache = s.icache ∧
      ∀ k, smGet none t.dcache k = if k / 2 ^ 46 = s.hart.core then none else smGet none s.dcache k)) ∧
    does (.dcwb ga gb) (fun t => t.icache = s.icache ∧ t.dcache = s.dcache))

/-- R76, R252–R262: the eight deputy forms trap PRIV with their word on every other core. On a deputy: `frqpop` gives the
oldest record's place, `pgmap` and `pgunmap` write one map entry, `shmap` one shaft entry, `resume` makes a strand ready when
its last record is resumed, `kill` advances the generation and ends the partition's launches FAULTED, their strands leaving at
once (log 49), `pgreq` queues a request for a slot that this deputy holds (log 50), and `tlbinv` drops what its partition's
caches have fetched (log 22). -/
def Obligations.DeputyForms : Prop := ∀ (gd ga gb : Reg) (s : State),
  let w := readG s ga
  let e := readG s gb
  let p := bitsW w 53 5
  let va := bitsW w 0 48
  let die := dieOf s.hart.core
  let d := dieAt s die
  let forms : List Instr :=
    [.frqpop gd, .pgmap ga gb, .pgunmap ga, .resume ga, .kill ga, .pgreq ga, .tlbinv ga, .shmap ga gb]
  let goes (i : Instr) (after : State → Prop) : Prop :=
    ∃ t, exec i s = .next t ∧ t.hart.pc = s.hart.pc + 4 ∧ ConvoyEnded t ∧ after t
  let entryIs (t : State) (a : Nat) (v : Word) : Prop :=
    tableEntry t a = v ∧ (∀ b, b < a ∨ a + 8 ≤ b → memByte t b = memByte s b) ∧ t.parts = s.parts ∧ t.rest = s.rest
  (onDeputy s.hart = false → HandlerReady s → StrandLegal s.hart →
    ∀ i ∈ forms, WordTraps i s 13 0 (BitVec.ofNat 48 ((encodeWord i).getD 0))) ∧
  (onDeputy s.hart = true → Canonical s →
    (d.frHead ≠ d.frTail → goes (.frqpop gd) (fun t =>
      RegIs s t gd (BitVec.ofNat 64 ((if die = 0 then 0x09FF_E000 else 0x0FFF_E000) + 32 * (d.frHead % 256))) ∧
      (dieAt t die).frHead = d.frHead + 1 ∧ (dieAt t die).frTail = d.frTail ∧ t.mem = s.mem)) ∧
    (d.frHead = d.frTail → goes (.frqpop gd) (fun t => RegIs s t gd 0 ∧ (dieAt t die).frHead = d.frHead ∧ t.mem = s.mem)) ∧
    (badPlace w 0 = false → ∀ a, mapTarget s p va (entryKind e) = some a → bitW (tableEntry s a) 57 = false →
      bitW e 57 = false → (bitW e 61 = true → walkedOk e = true) → goes (.pgmap ga gb) (fun t => entryIs t a e)) ∧
    (badPlace w 0 = false → ∀ a1, levelOne s p va = some a1 →
      let a := (leafAddr s p va).getD a1
      let x := tableEntry s a
      bitW x 57 = false → goes (.pgunmap ga) (fun t =>
        if bitW x 61 = true ∧ entryKind x = (if a ≠ a1 then 0 else 1) then entryIs t a 0
        else t.mem = s.mem ∧ t.parts = s.parts ∧ t.rest = s.rest)) ∧
    goes (.resume ga) (fun t => t.mem = s.mem ∧ t.rest = s.rest.map (fun h =>
      if handleMatches s h w && recOpen h (bitsW w 27 5) then resumeRec (bitsW w 27 5) (bitW w 38) h else h)) ∧
    (bitsW w 5 59 = 0 → goes (.kill ga) (fun t =>
      (partOf t (w.toNat % 32)).gen = (partOf s (w.toNat % 32)).gen + 1 ∧
      (∀ serial l, findLaunch s (w.toNat % 32) serial = some l → l.verdict = none →
        ∃ l', findLaunch t (w.toNat % 32) serial = some l' ∧
          l'.verdict = some { status := 3, info := 0, place := 0, aux := 0 }) ∧
      (∀ h ∈ t.rest, strandsOf (w.toNat % 32) h.serial h = true →
        ∀ l, findLaunch s (w.toNat % 32) h.serial = some l → l.verdict ≠ none) ∧ t.mem = s.mem)) ∧
    (∀ i, heldSlot s w = some i →
      let r := dwordsOf 4 (memBytes s (frqKey die i) 32)
      let q := bitsW (r.getD 1 0) 11 5
      bitW (r.getD 3 0) 0 = true → bitsW (r.getD 0 0) 52 4 ≤ 2 → (partOf s q).priFailed = false →
      ∀ n, freeIndex (partOf s q) = some n → goes (.pgreq ga) (fun t =>
        (partOf t q).pgreqs = (partOf s q).pgreqs ++
          [{ idx := n, die := die, record := r, gen := (r.getD 1 0).setWidth 11 }] ∧
        t.pageMsgs = { part := q, idx := n, page := bitsW (r.getD 0 0) 16 32
                       write := decide (bitsW (r.getD 0 0) 52 4 ∈ [1, 2, 5]) } :: s.pageMsgs ∧ t.mem = s.mem)) ∧
    (bitsW w 58 6 ≤ 3 → bitsW w 48 5 = 0 → goes (.tlbinv ga) (fun t =>
      t.mem = s.mem ∧ t.parts = s.parts ∧ t.rest = s.rest ∧
      ∀ x ∈ t.icache, x ∈ s.icache ∧ (0x200 ≤ x.1 / 2 ^ 51 ∨ x.1 / 2 ^ 46 % 32 ≠ p))) ∧
    (badPlace w 32 = false → bitsW w 48 5 = 0 → shaftOk e = true →
      ¬(entryKind e = 2 ∧ entryKind (smGet 0 (partOf s p).shaft (va / 2 ^ 35)) ≠ 2 ∧ 256 ≤ splitCount (partOf s p)) →
      goes (.shmap ga gb) (fun t => t.mem = s.mem ∧
        (∀ n, smGet 0 (partOf t p).shaft n = if n = va / 2 ^ 35 then e else smGet 0 (partOf s p).shaft n) ∧
        ∀ q, q ≠ p → partOf t q = partOf s q)) ∧
    (badPlace w 32 = false → bitsW w 48 5 ≠ 0 → entryKind (smGet 0 (partOf s p).shaft (va / 2 ^ 35)) = 2 →
      subOk e = true → goes (.shmap ga gb) (fun t => t.mem = s.mem ∧
        (∀ n, smGet 0 (partOf t p).subs n =
          if n = va / 2 ^ 35 * 32 + (bitsW w 48 5 - 1) then e else smGet 0 (partOf s p).subs n) ∧
        (partOf t p).shaft = (partOf s p).shaft ∧ ∀ q, q ≠ p → partOf t q = partOf s q)))

/-! ### Steps of the other agents -/

/-- R33, R45, R134, R141, R142, R159, R223, R251, R275, R288, R332, R368, R373, R379, R402: the steps that a core, its queues, the
seam and the claim engines make beside a word: what each changes where its condition holds. The model's own: when a strand
ages is log 46, the cycles that a start is held logs 7 and 14, what a fill brings log 13, the time and generation that a
queued record takes log 68, and whose release its arrival is log 75. -/
def Obligations.CoreEvents : Prop := ∀ (core slot die row e : Nat) (sl mode : BitVec 1) (w : Win) (ptr va : Word)
  (a : BitVec 512) (cause : BitVec 8) (aux : BitVec 16) (key : BitVec 4) (addr : BitVec 48) (ev : Bool)
  (elem : BitVec 11) (s : State), Canonical s →
  let d := readW s w
  let ty := dType d
  let x := seamRow s row
  let q := dieAt s die
  (∃ t, exec .convoyBegin s = .next t ∧ t.hart.convoy = .open s.hart.pc 0 0 false ∧
    t = { s with hart := { s.hart with
      convoy := t.hart.convoy, ctrl := { s.hart.ctrl with pmc := t.hart.ctrl.pmc } } }) ∧
  (let f (h : Strand) : Strand := if inSlot core slot h && hasAged s h then { h with aged := true } else h
   exec (.issueAging core slot) s = .next { s with hart := f s.hart, rest := s.rest.map f }) ∧
  (malformed d true = false → ty ≤ 14 → s.hart.badBits = [] → ∀ k translated cow,
    check s (elemReq .read ty ptr e) = .home k translated cow →
    ∃ t, exec (.memoryElementPerform false w e ptr) s = .next t ∧
      ElementsWritten s t w (· = e) (fun _ => (bitsOfBytes ty e (memBytes s k (accLen ty)), 0)) ∧ t.mem = s.mem ∧
      t.hart.pc = s.hart.pc ∧ t.hart.gpr = s.hart.gpr) ∧
  (malformed d false = false → ty ≤ 14 → badSource s d e = none → ∀ k translated,
    check s (elemReq .write ty ptr e) = .home k translated false →
    ∃ t, exec (.memoryElementPerform true w e ptr) s = .next t ∧
      NibblesStored s t ty (· = e) (fun _ => k) (fun _ => srcBits s d e) ∧ t.hart.stope = s.hart.stope ∧
      t.hart.pc = s.hart.pc ∧ t.hart.gpr = s.hart.gpr) ∧
  (HandlerReady s → StrandLegal s.hart →
    WordTraps (.trapEntry cause aux key addr ev elem) s cause.toNat aux addr) ∧
  (∀ u, focusOn (fun h => inSlot core slot h && waitOver s h) s = some u → ∀ c n p flipped scope,
    u.hart.run = .waiting c n p flipped scope →
    exec (.waitRelease core slot) s =
      .next { u with hart := { u.hart with run := .ready }, dcache := (acquire scope u).dcache }) ∧
  (∀ u, focusOn (fun h => inSlot core slot h && cwaitOver s h) s = some u →
    exec (.cwaitRelease core slot) s =
      .next { u with hart := { u.hart with run := .ready }, dcache := (acquire 3 u).dcache }) ∧
  (∀ u, focusOn (fun h => inSlot core slot h && drainOver s h) s = some u →
    (∀ m, u.hart.run = .draining m → exec (.drainComplete core slot) s = .next { u with
      hart := { u.hart with run := .ready }
      dcache := if m.extractLsb' 3 4 = 0 then u.dcache else (acquire 0 u).dcache }) ∧
    (u.hart.run = .retiring → ∃ t, exec (.drainComplete core slot) s = .next t ∧
      ∀ h ∈ allStrands t, h.run ≠ .vacant → whoIs h = whoIs u.hart → h.core = u.hart.core → h.slot ≠ u.hart.slot)) ∧
  (row < s.hart.seam.grant → ∃ t, exec (.seamRowPerform sl mode row a) s = .next t ∧
    (mode = 0 → seamRow t row =
      if sl = 0 then { x with s0 := x.s0 + a * x.b } else { x with s1 := x.s1 + a * x.b }) ∧
    (mode = 1 → (seamRow t row).s1.toNat * 2 ^ 512 + (seamRow t row).s0.toNat =
      (x.s1.toNat * 2 ^ 512 + x.s0.toNat + a.toNat * x.b.toNat) % 2 ^ 1024) ∧
    (∀ r, r ≠ row → seamRow t r = seamRow s r) ∧ SeamFrame s t) ∧
  (∀ c n since rest, q.govQ = (c, n, since) :: rest → ∃ t, exec (.seamStartAdmit die) s = .next t ∧
    (dieAt t die).govQ = rest ∧ (dieAt t die).delay = q.delay + (cycleAt s.tick - cycleAt since) ∧
    ∀ h ∈ allStrands t, inSlot c n h = true → isOut h = false → h.run ≠ .held) ∧
  (∀ x lineKey at_ bs, s.contribs[e]? = some x → x.needs s = .line lineKey at_ →
    readLine s x.core x.who.part lineKey at_ = some bs → s.contribs.length = 1 →
    ∃ t, exec (.adapterFill e) s = .next t ∧ smGet [] t.adapter (adapterKey (gangOf x.core) x.who.part at_) = bs ∧
      t.mem = s.mem) ∧
  (∀ r rest, q.waiting = r :: rest → r.words.length = 4 → frqRoom q = true →
    ∃ t, exec (.faultRecordEnqueue die) s = .next t ∧
      (dieAt t die).waiting = rest ∧ (dieAt t die).frTail = q.frTail + 1 ∧
      (r.who = none → t.filter = s.filter) ∧ (∀ w, r.who = some w → ∀ f ∈ t.filter, f ∈ s.filter ∧ f.who ≠ w) ∧
      let out (i : Nat) : Nat := memNat t (frqKey (die % 2) q.frTail + 8 * i) 8
      let was (i : Nat) : Word := r.words.getD i 0
      out 0 = (was 0).toNat ∧ out 2 = (was 2).toNat ∧
      (r.fresh = false → out 1 = (was 1).toNat ∧ out 3 = (was 3).toNat) ∧
      (r.fresh = true → out 1 = (was 1).toNat / 2 ^ 11 * 2 ^ 11 + (partOf s (bitsW (was 1) 11 5)).gen.toNat ∧
        out 3 = (cycleOf s die).toNat % 2 ^ 32 * 2 ^ 32 + (was 3).toNat % 2 ^ 32)) ∧
  (onDeputy s.hart = false → ∀ site, cowSite s s.hart.part (va.toNat % 2 ^ 48) = some site →
    let g := engineAt s site.eng
    let n := smGet 0 g.counts site.block
    (n.toNat ≤ 1 → ∃ t, exec (.copyOnWrite va) s = .next t ∧
      tableEntry t site.leafAt = setBitsW site.leaf 58 1 0 ∧
      ∀ b, b < site.leafAt ∨ site.leafAt + 8 ≤ b → memByte t b = memByte s b) ∧
    (1 < n.toNat → ∀ b, freeBlock g = some b → quotaLeft s site.part site.eng ≠ 0 → site.leafAt / 2 ^ 16 ≠ b →
      site.eng < 12 → site.leafAt % 8 = 0 →
      let shares (l : Nat) : Prop := n.toNat = 2 ∧ ∃ x i, (seqAt s site.eng x).live = true ∧ i < (seqAt s site.eng x).len ∧
        (seqAt s site.eng x).leafAt i = some l
      (∀ l, shares l → l % 8 = 0 ∧ l / 2 ^ 16 ≠ b) →
      ∃ t, exec (.copyOnWrite va) s = .next t ∧
        tableEntry t site.leafAt = setBitsW (setBitsW site.leaf 8 34 (b * 2 ^ 8)) 58 1 0 ∧
        (∀ l, shares l → l ≠ site.leafAt → tableEntry t l =
          if bitW (tableEntry s l) 61 = true ∧ entryPa (tableEntry s l) = site.block * 2 ^ 16
          then setBitsW (tableEntry s l) 58 1 0 else tableEntry s l) ∧
        (∀ i < 2 ^ 16, memByte t (b * 2 ^ 16 + i) = memByte s (site.block * 2 ^ 16 + i)) ∧
        (∀ a, a / 2 ^ 16 ≠ b → (a < site.leafAt ∨ site.leafAt + 8 ≤ a) → (∀ l, shares l → a < l ∨ l + 8 ≤ a) →
          memByte t a = memByte s a) ∧
        smGet 0 (engineAt t site.eng).counts b = 1 ∧ smGet 0 (engineAt t site.eng).counts site.block = n - 1 ∧
        smGet 0 (engineAt t site.eng).used site.part = smGet 0 g.used site.part + 1)) ∧
  (∀ word, fetchWord s s.hart.pc = .ok word →
    (sampleDue s.hart = false → exec .sampleRecord s = .next s) ∧
    (sampleDue s.hart = true → ∃ t, exec .sampleRecord s = .next t ∧ t.hart.sampled = s.hart.issued ∧
      (∀ k tagged translated, recordPlace s = .home k tagged translated false →
        memNat t k 8 = 2 * 2 ^ 60 + s.hart.pc.toNat ∧ memNat t (k + 16) 8 / 2 ^ 32 = word ∧
        memNat t (k + 16) 8 % 2 ^ 12 = vl s ∧ memNat t (k + 24) 8 = s.hart.ctrl.stidx.toNat % 2048 ∧
        memNat t (k + 32) 8 = (cycleOf s (dieOf s.hart.core)).toNat ∧
        t.hart.ctrl.rechead = s.hart.ctrl.rechead + 1)))

/-- R398, R399, R400, R401, R403: a record of RECCTL's kind takes its 64 bytes at RECBASE plus the slot that RECHEAD names, and
RECHEAD advances; one whose place is none is lost, which RECLOST alone tells. `strip` closes an open strip with a strip record,
`retire` with one of how = 1; a trap's entry writes a trap record, handled or not, and a suspension's begin a suspension record.
A busy count takes at least one cycle of a unit that did work for the strip, and no more than the strip ran, of the seam no more
than the rows advanced; none of a unit that did no work for it; how many between these is free (log 6). -/
def Obligations.RecordsWritten : Prop := ∀ (gd ga : Reg) (off : BitVec 12) (cause : BitVec 8) (aux : BitVec 16) (key : BitVec 4)
  (addr : BitVec 48) (ev : Bool) (elem : BitVec 11) (s : State), Canonical s → StrandLegal s.hart →
  let h := s.hart
  let c := h.ctrl
  let die := dieOf h.core
  let now := (cycleOf s die).toNat
  let va := bitsW c.recbase 6 42 * 64 + 64 * (c.rechead.toNat % 2 ^ bitsW c.recctl 11 5)
  let header := h.serial % 2 ^ 32 * 2 ^ 32 + h.index % 2048 * 2 ^ 11 + h.slot % 4 * 2 ^ 9 + coreId s h % 512
  let holds (t : State) (k : Nat) (ws : List Nat) : Prop := ∀ j < 8, memNat t (k + 8 * j) 8 = ws.getD j 0
  let keeps (t : State) (k : Nat) : Prop := ∀ a, a < k ∨ k + 64 ≤ a → memByte t a = memByte s a
  let trap : Instr := .trapEntry cause aux key addr ev elem
  (∀ k tagged translated, va < 2 ^ 48 → locate s h va .write = .home k tagged translated false →
    (bitW c.recctl 0 = true → c.stripLen ≠ 0 → onDeputy h = false →
      let elapsed := (cycleOf s die - h.stripStart).toNat
      let strip (how : Nat) (t : State) : Prop := keeps t k ∧ ∃ busy : Nat → Nat,
        (∀ u : Fin 4, busy u < 2 ^ 32 ∧ (h.stripWork[u] = 0 → busy u = 0) ∧
          (h.stripWork[u] ≠ 0 → 1 ≤ busy u ∧ (h.stripIdle < elapsed → busy u ≤ elapsed - h.stripIdle))) ∧
        busy 3 ≤ h.stripWork[3] ∧
        holds t k [2 ^ 60 + how * 2 ^ 56 + c.stripBase.toNat % 2 ^ 48, header, c.stripLen.toNat, elapsed,
          busy 0 * 2 ^ 32 + busy 1, busy 2 * 2 ^ 32 + busy 3, h.nsusp.toNat * 2 ^ 32 + h.nstop.toNat, h.stripStart.toNat]
      (parkRoom s = none → ∃ t, exec (.strip gd ga) s = .next t ∧ strip 0 t ∧ t.hart.ctrl.rechead = c.rechead + 1) ∧
      (undrained s h allQueues = false → ∃ t, exec .retire s = .next t ∧ strip 1 t)) ∧
    (bitW c.recctl 2 = true → ∃ t, exec trap s = .next t ∧ keeps t k ∧
      (trapActive s = false → c.tvec.extractLsb' 2 46 ≠ 0 → t.hart.ctrl.rechead = c.rechead + 1) ∧
      holds t k [3 * 2 ^ 60 + h.pc.toNat, header, key.toNat * 2 ^ 32 + aux.toNat * 2 ^ 16 + 2 ^ 8 + cause.toNat,
        addr.toNat * 2 ^ 16 + ev.toNat * 2 ^ 12 + elem.toNat, 0, 0, 0, now]) ∧
    (let ea := ofInt ((readG s ga).toNat + off.toInt)
     bitW c.recctl 3 = true → ea.toNat % 8 = 0 → bitsW ea 48 12 = 0 → pageFailed s (bitsW ea 0 48) = false →
     (∀ i < 256, frqKey die i + 32 ≤ k ∨ k + 64 ≤ frqKey die i) →
     ∀ x y z, locate s h (bitsW ea 0 48) .read = .missing x y z →
       ∃ t, exec (.ldD gd ga off) s = .next t ∧ t.hart.run = .suspended ∧ t.hart.ctrl.rechead = c.rechead + 1 ∧
         holds t k [4 * 2 ^ 60 + h.pc.toNat, header, t.hart.susp.toNat * 2 ^ 48 + 2 ^ 32, 0, 0, 0, 0, now] ∧
         ∀ a, a < k ∨ k + 64 ≤ a → (∀ i < 256, a < frqKey die i ∨ frqKey die i + 32 ≤ a) → memByte t a = memByte s a)) ∧
  (bitW c.recctl 2 = true → (2 ^ 48 ≤ va ∨ ∀ k tagged translated cow, locate s h va .write ≠ .home k tagged translated cow) →
    trapActive s = false → c.tvec.extractLsb' 2 46 ≠ 0 →
    ∃ t, exec trap s = .next t ∧ t.mem = s.mem ∧ t.dies = s.dies ∧ t.hart.ctrl.rechead = c.rechead ∧
      bitsW t.hart.ctrl.ecause 0 8 = cause.toNat ∧
      t.hart.ctrl.reclost = BitVec.ofNat 64 (if c.reclost.toNat < 2 ^ 32 - 1 then c.reclost.toNat + 1 else c.reclost.toNat))

/-- R44, R336, R338–R340, R342–R345, R390–R394: a channel begins, delivers and ends a copy of the strand in focus, of every
form, and a message is applied at its destination, stopped there by an uncorrectable error (R219), acknowledged, or folded with
its round: what came back stands with the strand that sent it, which is ready again. A pad that a message reaches before
anything else of its partition does is zero first (R219). The arrival of a copy that has a bell is a release of the strand
(R58, R63). That a delivered byte is the source as the delivering step reads it, and that a unit whose source the copy itself
has overwritten reads the old or the new value, are logs 10 and 42; what a round folds, and in which order, logs 15 and 48. -/
def Obligations.ChannelAndMessageEvents : Prop := ∀ (core slot chan n : Nat) (s : State), Canonical s → chan < 4 →
  let cn := chanAt s.hart chan
  let word (serial : BitVec 16) (e k : Nat) : Word := BitVec.ofNat 64 (serial.toNat * 2 ^ 48 + e * 2 ^ 40 + k)
  (∀ op rest, cn.ops = op :: rest → inSlot core slot s.hart = true →
    (op.begun = false → op.ended = none →
      let begins (x : DriftOp) : Prop := ∃ t, exec (.driftBegin core slot chan) s = .next t ∧
        chanAt t.hart chan = { cn with
          ops := { x with begun := true, serial := cn.serial + 1, count := 0 } :: rest
          serial := cn.serial + 1, dwp := word (cn.serial + 1) 0 0, binds := (cn.binds.map (· - 1)).filter (· != 0) } ∧
        t.hart.gpr = s.hart.gpr ∧ (x.ended ≠ some 1 → t.mem = s.mem)
      let length (k : Nat) (shape : List Word) : DriftOp :=
        { op with total := k, shape := shape, ended := if k = 0 then some 0 else none }
      (op.form = .drift ∨ op.form = .driftm → begins (length (bitsW op.arg 0 32) op.shape)) ∧
      (op.form = .driftx → begins (length (bitsW op.arg 48 16 * 2 ^ bitsW op.arg 43 5) op.shape)) ∧
      (op.form = .drift2 →
        let read := driftBytes s .read ((List.range 32).map (fun (i : Nat) => ptrAdd op.arg i))
        (∀ e, read = .error e → begins { op with ended := some (if e.code = 1 then 1 else 9) }) ∧
        ∀ ks, read = .ok ks →
          let dword (w : Nat) : Nat := leNat (((ks.map (memByte s)).drop (8 * w)).take 8)
          let d (w lo k : Nat) : Nat := dword w / 2 ^ lo % 2 ^ k
          let legal : Prop := d 0 60 2 = 0 ∧ d 0 16 16 ≠ 0 ∧ d 0 0 16 ≠ 0 ∧
            (d 0 32 28 = 0 ∨ d 0 0 16 * 2 ^ d 0 62 2 ≤ d 0 32 28) ∧ d 1 48 16 = 0 ∧ d 2 48 16 = 0 ∧
            d 3 48 16 = 0 ∧ d 3 16 16 = 0
          (¬legal → begins { op with ended := some 9 }) ∧
          (legal → begins (length (d 0 16 16 * d 0 0 16 * 2 ^ d 0 62 2)
            (([0, 1, 2, 3] : List Nat).map (fun w => BitVec.ofNat 64 (dword w))))))) ∧
    (op.begun = true → op.ended = none →
      let d (w lo k : Nat) : Nat := bitsW (op.shape.getD w 0) lo k
      let stride (w : Nat) : Int := ((op.shape.getD w 0).extractLsb' 0 48).toInt
      let u := if op.form = .drift2 then 2 ^ d 0 62 2 else 1
      let row := op.count / u / d 0 0 16
      let column := op.count / u % d 0 0 16
      let least (i bound whole : Nat) : Int := (Nat.min i ((if bound = 0 then whole else bound) - 1) : Nat)
      let source (i : Nat) : Word :=
        if op.form = .drift2 then ptrAdd op.src
          (least row (d 3 32 16) (d 0 16 16) * stride 1 + least column (d 3 0 16) (d 0 0 16) * stride 2 + (i : Nat))
        else ptrAdd op.src (op.count : Nat)
      let target (i : Nat) : Word :=
        if op.form = .drift2 then ptrAdd op.dst
          ((row * (if d 0 32 28 = 0 then d 0 0 16 * u else d 0 32 28) + column * u + i : Nat) : Int)
        else ptrAdd op.dst (op.count : Nat)
      let delivers (srcs : List Nat) (dsts : List (List Nat)) : Prop := ∃ t undo,
        exec (.driftDeliver core slot chan) s = .next t ∧
        (∀ i < u, ∀ k ∈ (dsts.getD i []), memByte t k = memByte s (srcs.getD i 0) ∨
          ∃ old, smGet none op.undo (srcs.getD i 0) = some old ∧ memByte t k = old) ∧
        (∀ b, (∀ i < u, b ∉ dsts.getD i []) → memByte t b = memByte s b) ∧ t.hart.gpr = s.hart.gpr ∧
        chanAt t.hart chan = { cn with
          ops := { op with count := op.count + u, undo := undo
                           ended := if op.total ≤ op.count + u then some 0 else none } :: rest
          dwp := word op.serial 0 ((op.count + u) % 2 ^ 40) }
      let short (code : Nat) : Prop := ∃ t, exec (.driftDeliver core slot chan) s = .next t ∧
        chanAt t.hart chan = { cn with
          ops := { op with ended := some code } :: rest, dwp := word op.serial 0 (op.count % 2 ^ 40) } ∧
        t.hart.gpr = s.hart.gpr ∧ (code ≠ 1 → t.mem = s.mem)
      let stops (p : Word) (kind : Kind) (code : Nat) : Prop := match driftPlace s p kind with
        | .missing .. => code = 1
        | .home k tagged _ cow =>
          if cow = true ∧ cowExhausted s s.hart.part (vaOf p) = true then code = 7
          else if tagged = true ∧ (tagMismatch s k 1 (bitsW p 60 4)).isSome = true then code = 3
          else kind = .read ∧ (badByte s k 1).isSome = true ∧ code = 4
        | _ => code = 2
      let sources := driftBytes s .read ((List.range u).map source)
      let targets := driftBytes s .write ((List.range u).map target)
      (op.form ≠ .driftx → (∀ e, sources = .error e → short e.code) ∧
        ∀ ks, sources = .ok ks →
          (op.form ≠ .driftm → (∀ e, targets = .error e → short e.code) ∧
            ∀ ds, targets = .ok ds → ds.Nodup →
              (∀ i < u, ∃ k tagged translated, driftPlace s (target i) .write = .home k tagged translated false) →
              delivers ks (ds.map (fun k => [k]))) ∧
          (op.form = .driftm → delivers ks [((List.range 4).filter (fun c => op.arg.getLsbD (32 + c))).map (fun c =>
            padKey s s.hart (s.hart.core / 4 * 4 + c) (bitsW op.dst 0 19 + op.count))])) ∧
      (u = 1 → op.form ≠ .driftx → (∀ code, stops (source 0) .read code → short code) ∧
        ∀ ks, sources = .ok ks → op.form ≠ .driftm → ∀ code, stops (target 0) .write code → short code) ∧
      (op.form = .driftx → (liveSeq s op.src = none → short 8) ∧ ∀ eng seq, liveSeq s op.src = some (eng, seq) →
        let q := seqAt s eng seq
        let o := bitsW op.arg 0 32 * 2 ^ bitsW op.arg 43 5 + op.count
        let k := pageBlock s q (o / 2 ^ 16) * 2 ^ 16 + o % 2 ^ 16
        (q.len ≤ o / 2 ^ 16 ∨ op.pages ≤ o / 2 ^ 16 → short 8) ∧
        (o / 2 ^ 16 < q.len → o / 2 ^ 16 < op.pages →
          (severedFrom s s.hart.core k .read 0 = true → short 2) ∧
          (severedFrom s s.hart.core k .read 0 = false →
            ((badByte s k 1).isSome = true → short 4) ∧
            (badByte s k 1 = none → (∀ e, targets = .error e → short e.code) ∧
              ∀ ds, targets = .ok ds →
                (∃ h tagged translated, driftPlace s (target 0) .write = .home h tagged translated false) →
                delivers [k] (ds.map (fun k => [k]))))))) ∧
    (op.begun = true → ∀ e, op.ended = some e → e < 16 → op.count < 2 ^ 40 → cn.serial = op.serial → recordWaits chan s = false →
      ∃ t, exec (.driftEnd core slot chan) s = .next t ∧ (chanAt t.hart chan).ops = rest ∧
        (chanAt t.hart chan).dlen = word op.serial e op.count ∧ t.mem = s.mem ∧
        (op.bell = none → t.bells = s.bells ∧ t.filter = s.filter) ∧ (op.bell ≠ none → Released s t))) ∧
  (∀ m i, nthMsg s (fun m => m.stage == .sent && m.toPad && !msgAbroad m) n = some (m, i) →
    let part := bitsW m.addr 47 5
    let off := bitsW m.addr 0 19
    let bell := bitsW m.addr 27 11
    let reach := peerReach s m.addr ((partOf s m.who.part).ppeer.setWidth 16) (some (dieOf m.core))
    (reach = none → ∃ t, exec (.messageApply (.own n)) s = .next t ∧
      t = { s with msgs := s.msgs.set i { m with stage := .refused } }) ∧
    ∀ c, reach = some c →
      let key (j : Nat) : Nat := destKey s part c (off + j)
      let inGang (a : Nat) : Prop := padBase (c / 4 * 4) ≤ a ∧ a < padBase (c / 4 * 4 + 4)
      let owner := smGet 0 s.gangOwner (gangOf c)
      let passes : Prop := (partOf s part).swapOut = false ∧ gangOf c < 128 ∧ owner ≠ 0 ∧ owner ≠ part + 1
      (∀ len, m.kind = .get len → ∃ t, exec (.messageApply (.own n)) s = .next t ∧
        (¬passes →
          let stage : MsgStage := match padError s part c off len with
            | none => .applied (getPad s part c off len)
            | some o => .failed o
          t = { s with msgs := s.msgs.set i { m with stage := stage }, gangOwner := t.gangOwner }) ∧
        (passes → (∀ j < len, inGang (key j)) →
          t.msgs = s.msgs.set i { m with stage := .applied (List.replicate len 0) } ∧
          (∀ a, inGang a → memByte t a = 0) ∧ ∀ a, ¬inGang a → memByte t a = memByte s a)) ∧
      (∀ bs half, m.kind = .put bs half → off + bs.length ≤ Config.padBytes → (half = true → bs ≠ []) →
        (∀ j k, j < bs.length → k < bs.length → key j = key k → j = k) →
        ∃ t, exec (.messageApply (.own n)) s = .next t ∧
          (∀ j < bs.length, ¬(half = true ∧ j + 1 = bs.length) → memByte t (key j) = bs.getD j 0) ∧
          (half = true → bs ≠ [] →
            nibbleAt t (2 * key (bs.length - 1)) = (bs.getLastD 0).toNat % 16 ∧
            (¬passes → nibbleAt t (2 * key (bs.length - 1) + 1) = nibbleAt s (2 * key (bs.length - 1) + 1))) ∧
          (∀ a, (∀ j < bs.length, a ≠ key j) →
            (passes → inGang a → memByte t a = 0) ∧ (¬passes ∨ ¬inGang a → memByte t a = memByte s a)) ∧
          t.msgs = s.msgs.set i { m with stage := .applied [] } ∧
          (bell = 0x7FF ∨ bellHolder s part c = none → t.bells = s.bells) ∧
          ∀ l, bellHolder s part c = some l → bell ≠ 0x7FF →
            let b := bellAt s part l.serial c bell
            (pktField l.pkt 3 20 12 ≤ bell → t.bells = s.bells) ∧
            (bell < pktField l.pkt 3 20 12 → bellAt t part l.serial c bell =
              if b.expect = 0 then (if b.count = 0xFFFF then { b with overrun := true } else { b with count := b.count + 1 })
              else if b.count + 1 = b.expect then { b with count := 0, phase := !b.phase }
              else { b with count := b.count + 1 }))) ∧
  (let settled (i : Instr) (ms : List Msg) (left : List Msg) (r : Reply) : Prop :=
     let gives (h h' : Strand) : Prop :=
       (∀ first, h.run = .messaging first → (∃ m ∈ ms, whoIs h = m.who ∧ h.core = m.core) →
         standOf h' first = { standOf h first with reply := some r } ∧
         (∀ x, x ≠ first → standOf h' x = standOf h x) ∧ h' = { h with run := .ready, stands := h'.stands }) ∧
       ((∀ first, h.run = .messaging first → ∀ m ∈ ms, ¬(whoIs h = m.who ∧ h.core = m.core)) → h' = h)
     ∃ t, exec i s = .next t ∧ gives s.hart t.hart ∧ t.rest.length = s.rest.length ∧
       (∀ (k : Nat) (h : Strand), s.rest[k]? = some h → ∃ h', t.rest[k]? = some h' ∧ gives h h') ∧
       t = { s with hart := t.hart, rest := t.rest, msgs := left }
   (∀ m j, nthMsg s Msg.toPad n = some (m, j) →
     let back (reply : Option (List Byte)) (r : Reply) : Prop :=
       settled (.messageAck n reply) [m] (s.msgs.eraseIdx j) r
     (∀ bs, m.stage = .applied bs → back none (.ok bs)) ∧
     (m.stage = .refused → back none .prot) ∧
     (∀ o, m.stage = .failed o → back none (.bad o)) ∧
     (m.stage = .sent → msgAbroad m = true → back none .prot ∧
       (∀ bs len, m.kind = .get len → bs.length = len → back (some bs) (.ok bs)) ∧
       ∀ bs xs half, m.kind = .put xs half → back (some bs) (.ok []))) ∧
   (∀ m j bs len, nthMsg s (fun m => match m.stage, m.kind with | .applied _, .get _ => true | _, _ => false) n =
       some (m, j) → m.stage = .applied bs → m.kind = .get len →
     settled (.homeReturn n) [m] (s.msgs.eraseIdx j) (.ok bs)) ∧
   ∀ group round peers orders m xs rest, roundOf s group round = (m, xs) :: rest →
    let own := (roundOf s group round).map (·.1)
    let all := (roundOf s group round).map (·.2) ++ peers
    let returns (r : Reply) : Prop :=
      settled (.nredResult group round peers orders) own (s.msgs.filter (fun m => !own.contains m)) r
    all.length = bitsW m.addr 32 16 →
    ((∃ ys ∈ all, ys.length ≠ xs.length) → returns .prot) ∧
    ((∀ ys ∈ all, ys.length = xs.length) → orders.length = xs.length → (∀ o ∈ orders, o.Perm (List.range all.length)) →
      let val (e j : Nat) : Nat := ((all.getD j []).getD e 0).toNat
      let add (a b : Nat) : Nat := (roundF f32 homeMode (addN 0 (readF f32 false a) (readF f32 false b)).1).1
      ∃ bs : List Byte, bs.length = 4 * xs.length ∧ returns (.ok bs) ∧ ∀ e < xs.length,
        ∀ i is, orders.getD e [] = i :: is → leNat ((bs.drop (4 * e)).take 4) = is.foldl (fun a j => add a (val e j)) (val e i)))

/-- R219, R355–R372, R375, R376: the headframe's steps: a job is accepted or deferred, started with its images or failed, its
launches placed, their nodes' statuses written once and reported in records of R376's layout, and strands parked, pre-empted,
swapped and severed with their pads saved and brought back. A strand that returns owes the element at which it stopped, and one
that owes it is not stopped again before (R152); a swap-out waits for room, and a swap-in for its cores. A sample marks donors
for the strands that wait parked, and a parked strand resumes where no other's move has the room (R369). The model's own: which
of the moves are made and for which strands is log 28, the place and room of a saved pad are log 23, what a strand keeps while
it is parked or pre-empted, and that a swap-in waits, log 46, and the plan of a placement with its pad offsets log 11. -/
def Obligations.HeadframeEvents : Prop := ∀ (part die serial index core slot padOff : Nat) (desc : List Word)
  (plan : List Sys2Proof.Place) (place : Sys2Proof.Place) (node : Word) (s : State), Canonical s →
  let pt := partOf s part
  (desc.length = 8 → part < 32 → die < 2 →
    (jobAccepts s part = true → ∃ t j, exec (.jobPortWrite part (die * 0x40) desc) s = .next t ∧ t.jobs = s.jobs ++ [j] ∧
      j.part = part ∧ j.die = die ∧ j.desc = desc ∧ j.id = s.accepted ∧ j.started = false ∧ j.verdict = none ∧
      t.replies = .accepted :: s.replies ∧ t = { s with
        jobs := t.jobs, accepted := s.accepted + 1, replies := t.replies }) ∧
    (jobAccepts s part = false →
      exec (.jobPortWrite part (die * 0x40) desc) s = .next { s with replies := .deferred :: s.replies }) ∧
    ∀ off, off ≠ 0 → off ≠ 0x40 →
      exec (.jobPortWrite part off desc) s = .next { s with replies := .unsupported :: s.replies }) ∧
  (∀ j, s.jobs.find? (fun j => j.part == part && !j.started && j.verdict.isNone) = some j → pt.swapOut = false →
    findJob s j.id = some j →
    ∃ t j', exec (.jobStart part) s = .next t ∧ findJob t j.id = some j' ∧ j'.started = true ∧
      (descOk j.desc = false → j'.verdict = some { status := 3, info := 0, place := 0, aux := 0 } ∧ t.mem = s.mem ∧
        t.launches = s.launches) ∧
      let d (i lo n : Nat) : Nat := bitsW (j.desc.getD i 0) lo n
      ∀ bs, descOk j.desc = true → imageBytes s part j.die (d 0 0 48) 128 = some bs → rootOk s part (dwordsOf 16 bs) = true →
        let gangs := (pktGangs pt.pgang (dwordsOf 16 bs)).eraseDups
        let target (w : Nat) : Nat := if w = 4 then d 5 63 1 else 1 - d 5 63 1
        let off (w : Nat) : Nat := d (w + 1) 32 27
        let len (w : Nat) : Nat := d (w + 1) 0 27
        let fits (w : Nat) : Prop := off w + len w ≤ Config.frqOffset ∧ inWindow pt (target w) (off w) = true ∧
          inWindow pt (target w) (off w + len w - 1) = true ∧ (s.crosscut = true ∨ target w = j.die)
        let reaches : Prop := s.crosscut = true ∨ ∀ g ∈ gangs, g / 64 = j.die
        let starts : Prop := j'.verdict = none ∧ j'.root = pt.nextSerial ∧ ∃ l, findLaunch t part pt.nextSerial = some l ∧
          l.job = j.id ∧ l.pkt = dwordsOf 16 bs ∧ l.placed = false ∧ l.verdict = none
        let fails : Prop := j'.verdict = some { status := 3, info := 0, place := 0, aux := 0 } ∧ t.mem = s.mem ∧
          t.launches = s.launches
        (d 3 0 20 = 0 → len 4 = 0 → len 6 = 0 → starts ∧ t.mem = s.mem) ∧
        (d 3 0 20 ≠ 0 → len 4 = 0 → len 6 = 0 →
          (imageBytes s part j.die (d 2 0 48) (d 3 0 20) = none ∨ ¬reaches → fails) ∧
          ∀ xs, imageBytes s part j.die (d 2 0 48) (d 3 0 20) = some xs → reaches → starts ∧
            (∀ g ∈ gangs, ∀ c < 4, ∀ i < d 3 0 20, memByte t (padBase (g * 4 + c) + i) = xs.getD i 0) ∧
            ∀ a, (∀ g ∈ gangs, a < padBase (g * 4) ∨ padBase (g * 4 + 4) ≤ a) → memByte t a = memByte s a) ∧
        ∀ w ∈ [4, 6], d 3 0 20 = 0 → len w ≠ 0 → len (10 - w) = 0 →
          (imageBytes s part j.die (d w 0 48) (len w) = none ∨ ¬fits w → fails) ∧
          ∀ xs, imageBytes s part j.die (d w 0 48) (len w) = some xs → fits w → starts ∧
            (∀ i < len w, memByte t (sumpBase (target w) + off w + i) = xs.getD i 0) ∧
            ∀ a, a < sumpBase (target w) + off w ∨ sumpBase (target w) + off w + len w ≤ a → memByte t a = memByte s a) ∧
  (∀ l, findLaunch s part serial = some l → l.verdict = none →
    (l.placed = false → strictFails s l = true → ∃ t l', exec (.launchPlace part serial plan) s = .next t ∧
      findLaunch t part serial = some l' ∧ l'.verdict = some { status := 2, info := 0, place := 0, aux := 0 }) ∧
    (awaitsPlace s l = true → isNext s l = true → planOk s l plan = true → plan ≠ [] →
      ∃ t l', exec (.launchPlace part serial plan) s = .next t ∧ findLaunch t part serial = some l' ∧
        l'.placed = true ∧ l'.members = plan.length ∧ t.hart = s.hart ∧
        (∀ a, (∀ p ∈ plan, smGet 0 s.gangOwner (gangOf p.core) ≠ 0 → smGet 0 s.gangOwner (gangOf p.core) ≠ l.part + 1 →
          a < padBase (gangOf p.core * 4) ∨ padBase (gangOf p.core * 4 + 4) ≤ a) → memByte t a = memByte s a) ∧
        ∃ new, t.rest = s.rest ++ new ∧ new.length = plan.length ∧
          ∀ (i : Nat) h p, new[i]? = some h → plan[i]? = some p →
            h.core = p.core ∧ h.slot = p.slot ∧ h.part = l.part ∧ h.serial = l.serial ∧ h.index = i ∧
            h.pc = pktEntry l.pkt ∧ h.height = pktRows l.pkt ∧ h.ctrl = Ctrl.entry ∧ h.run = .ready) ∧
    (l.replace.contains index = true → replaceOk s l place = true → pt.swapOut = false →
      ∃ t l', exec (.replacementStrandPlace part serial index place) s = .next t ∧ findLaunch t part serial = some l' ∧
        l'.replace = l.replace.erase index ∧ l'.members = l.members + 1 ∧
        ∃ h, t.rest = s.rest ++ [h] ∧ h.index = index ∧ h.core = place.core ∧ h.slot = place.slot)) ∧
  (let p := bitsW node 56 5
   badHandle p node = false → ∀ nd, nodeOf s p node = some nd → nodeStatus s nd = 0 →
   (nd.level = 1 → ∀ l, findLaunch s p (bitsW node 0 32) = some l → l.verdict ≠ none → workDone s l = true →
     ∃ t l', exec (.nodeStatusWrite node) s = .next t ∧ findLaunch t p (bitsW node 0 32) = some l' ∧ l'.written = true) ∧
   (nd.level ≠ 1 → (∀ m ∈ membersOf s nd, nodeStatus s m ≠ 0) → (findJob s nd.job).isSome = true →
     (∀ j, findJob s nd.job = some j → ∀ x ∈ j.written, x.2.2.2 ≠ 0) →
     ∃ t, exec (.nodeStatusWrite node) s = .next t ∧
       nodeStatus t nd = statusFrom ((membersOf s nd).map (nodeStatus s)))) ∧
  (ringFull pt = false → insecureFn s part = false →
    let word (t : State) (k : Nat) : Word :=
      BitVec.ofNat 64 (leNat (smRead 0 t.hostMem (pt.pring.toNat / 2 ^ 12 * 2 ^ 12 + 32 * pt.prtail.toNat + 8 * k) 8))
    let writes (level st cls ser : Nat) (more : State → Prop) : Prop := ∃ t, exec (.statusRecordWrite part) s = .next t ∧
      bitsW (word t 0) 61 3 = level ∧ bitsW (word t 0) 58 3 = st % 8 ∧ bitsW (word t 0) 56 2 = cls % 4 ∧
      bitsW (word t 0) 51 5 = part % 32 ∧ bitsW (word t 0) 32 19 = 0 ∧ bitsW (word t 0) 0 32 = ser % 2 ^ 32 ∧ more t ∧
      (partOf t part).prtail = BitVec.ofNat 64 ((pt.prtail.toNat + 1) % ringSize pt) ∧
      t.interrupts = (part, 0) :: s.interrupts
    (∀ id j v, reportsReady s part = [.job id] → findJob s id = some j → j.part = part → j.verdict = some v →
      let made := s.launches.filter (fun l => l.job == j.id && l.part == part)
      let bad := made.filter (fun l => match l.verdict with | some v => v.status != 1 | none => true)
      writes 4 v.status j.cls j.root (fun t => word t 1 = j.desc.getD 1 0 ∧
        bitsW (word t 2) 32 32 = (bad.head?.map (·.serial)).getD 0 % 2 ^ 32 ∧ bitsW (word t 2) 0 32 = made.length % 2 ^ 32 ∧
        bitsW (word t 3) 0 32 = bad.length % 2 ^ 32)) ∧
    (∀ ser l v, reportsReady s part = [.launch ser] → findLaunch s part ser = some l → l.verdict = some v →
      writes 1 v.status (pktClass l.pkt) ser (fun t => word t 1 = v.info ∧ word t 2 = v.place ∧
        bitsW (word t 3) 32 32 = ((findJob s l.job).map (·.root)).getD 0 % 2 ^ 32 ∧
        bitsW (word t 3) 0 16 = v.aux.toNat % 2 ^ 16 ∧ bitsW (word t 3) 16 16 = 0))) ∧
  (∃ t, exec .pipelineSample s = .next t ∧
    t = { s with hart := { s.hart with yieldsTo := t.hart.yieldsTo }, rest := t.rest } ∧ t.rest.length = s.rest.length ∧
    let marks (h h' : Strand) : Prop := h' = { h with yieldsTo := h'.yieldsTo } ∧
      (h'.yieldsTo = h.yieldsTo ∨ (h.yieldsTo = none ∧ holdsCore h = true ∧ ∃ l ∈ stages s, ∃ r ∈ stages s,
        h'.yieldsTo = some r.serial ∧
        strandsOf l.part l.serial h = true ∧ sameGraph l r = true ∧ (stageCount s l).1 = 0 ∧
        (stageCount s r).2 < 2 * (stageCount s r).1 ∧ ∃ x ∈ allStrands s, x.parked = true ∧ x.core = h.core ∧
          strandsOf r.part r.serial x = true))
    marks s.hart t.hart ∧ ∀ (i : Nat) (h : Strand), s.rest[i]? = some h → ∃ h', t.rest[i]? = some h' ∧ marks h h') ∧
  (∀ u, focusOn (fun h => inSlot core slot h && mayResume s h padOff) s = some u →
    let ends (h h' : Strand) : Prop := h' = h ∨ (h' = { h with yieldsTo := none } ∧ h.parked = true ∧
      h.part = u.hart.part ∧ h.core = u.hart.core ∧ h.yieldsTo = some u.hart.serial)
    ∃ t, exec (.parkedStrandResume core slot padOff) s = .next t ∧ t.hart.parked = false ∧ t.hart.yieldsTo = none ∧
      t.rest.length = u.rest.length ∧
      (∀ (i : Nat) (h : Strand), u.rest[i]? = some h → ∃ h', t.rest[i]? = some h' ∧ ends h h') ∧
      (u.hart.unbegun = true → t.hart.padOff = padOff ∧ t.hart.unbegun = false ∧ t.mem = s.mem) ∧
      (u.hart.unbegun = false → u.hart.core < 1024 → ∀ i < u.hart.padLen, memByte t (padBase u.hart.core + padOff + i) =
        memByte s (savedAllotBase u.hart + padOff + i))) ∧
  (∀ u, focusOn (fun h => inSlot core slot h && toPreempt s h && !owesElement s h) s = some u →
    (saveRoom u (dieOf u.hart.core) (saveSize u.hart) = none → exec (.preempt core slot) s = .next u) ∧
    ∀ excess, saveRoom u (dieOf u.hart.core) (saveSize u.hart) = some excess →
    ∃ t, exec (.preempt core slot) s = .next t ∧ t.hart.preempted = true ∧ t.hart.spilled = excess ∧
      t.hart.convoy = u.hart.convoy ∧ t.hart.resuming = true ∧ t.hart.gpr = u.hart.gpr ∧ t.hart.pc = u.hart.pc ∧
      RestCountersOnly u t ∧ ∀ i < u.hart.padLen, memByte t (savedAllotBase u.hart + u.hart.padOff + i) =
        memByte s (padBase u.hart.core + u.hart.padOff + i)) ∧
  (∀ u, focusOn (fun h => inSlot core slot h && canReturn s h && h.padOff == padOff) s = some u →
    ∃ t, exec (.preemptReturn core slot padOff) s = .next t ∧ t.hart.preempted = false ∧ t.hart.gpr = u.hart.gpr ∧
      t.hart.pc = u.hart.pc ∧ t.rest = u.rest ∧
      (u.hart.core < 1024 → ∀ i < u.hart.padLen, memByte t (padBase u.hart.core + padOff + i) =
        memByte s (savedAllotBase u.hart + padOff + i)) ∧
      (u.hart.run = .ready → (standOf t.hart t.hart.pc).owed = true)) ∧
  (pt.swapOut = false →
    let halted (t : State) : Prop := (partOf t part).swapOut = true ∧
      (∀ h ∈ allStrands t, h.run ≠ .vacant → onDeputy h = false → h.part = part → h.swapped = true) ∧
      ∀ c ∈ partCores s part, ∀ i < Config.padBytes, memByte t (savedPadBase part c + i) = memByte s (padBase c + i)
    let room : Bool := [0, 1].all (fun d => (saveRoom s d (swapSize s part d)).isSome) && !partOwes s part
    (∃ t, exec (.pswapSwapOut part) s = .next t ∧ (partOf t part).swapReq = true ∧ (room = true → halted t) ∧
      (room = false → t = { s with parts := t.parts } ∧ (partOf t part).swapOut = false)) ∧
    (pt.swapReq = true → room = true → ∃ t, exec (.swapOutComplete part) s = .next t ∧ halted t) ∧
    (room = false → exec (.swapOutComplete part) s = .next s) ∧
    (∃ t, exec (.pswapSwapIn part) s = .next t ∧ (partOf t part).swapReq = false ∧ t.mem = s.mem)) ∧
  (pt.swapOut = true → coresClear s part = true → ∃ t, exec (.pswapSwapIn part) s = .next t ∧
    (partOf t part).swapOut = false ∧ (∀ h ∈ allStrands t, h.part = part → h.swapped = false) ∧
    (∀ c ∈ partCores s part, ∀ i < Config.padBytes, memByte t (padBase c + i) = memByte s (savedPadBase part c + i)) ∧
    ∀ a, (∀ c ∈ partCores s part, (a < padBase c ∨ padBase c + Config.padBytes ≤ a) ∧
      (a < savedPadBase part c ∨ savedPadBase part c + Config.padBytes ≤ a)) → memByte t a = memByte s a) ∧
  (pt.swapOut = true → coresClear s part = false → ∃ t, exec (.pswapSwapIn part) s = .next t ∧
    partOf t part = { pt with swapReq := false } ∧ t = { s with parts := t.parts }) ∧
  (pt.swapOut = true → ∃ t, exec (.pswapSwapOut part) s = .next t ∧
    partOf t part = { pt with swapReq := true } ∧ t = { s with parts := t.parts }) ∧
  (∃ t, exec .crosscutSeverance s = .next t ∧ t.crosscut = false ∧
    ∀ l ∈ s.launches, findLaunch s l.part l.serial = some l → l.verdict = none →
      ∀ h ∈ allStrands t, farStrand l h = false) ∧
  exec .crosscutRestore s = .next { s with crosscut := true }

/-- R219, R252, R319, R320, R359, R383, R386–R388, R406–R413: what the host, the firmware download and the surroundings do:
page-request answers, BAR accesses, registers, firmware, power, telemetry, resets and errors. R410, R416: what SPDM answers,
and that attestation waits where both of its deputies are halted. The model's own: the entry and the version of an image are
log 16, the byte that a soft error strikes log 25, what a device reset keeps and which virtual writes are dropped log 44, and
the form of SPDM's answers and the way out of Insecure log 69. -/
def Obligations.HostEvents : Prop := ∀ (part idx eng die fn addr len cell core slot : Nat) (data : List Byte) (v : Word)
  (off link : Nat) (hot hard : Bool) (req : Spdm) (s : State), Canonical s →
  let pt := partOf s part
  (∀ r, reqOf s part idx = some r →
    let answered (i : Instr) : Prop := ∃ t, exec i s = .next t ∧
      (partOf t part).pgreqs = pt.pgreqs.filter (fun x => x.idx != r.idx) ∧
      (partOf t part).stale = (if r.gen = pt.gen then pt.stale else pt.stale + 1)
    answered (.pageRequestSuccess part idx) ∧ answered (.pageRequestInvalid part idx)) ∧
  (∃ t, exec (.pageRequestResponseFailure part) s = .next t ∧ (partOf t part).priFailed = true ∧
    ∀ x ∈ (partOf t part).pgreqs, ∀ y ∈ pt.pgreqs, x.idx ≠ y.idx) ∧
  (∃ t, exec (.priResetEnable part) s = .next t ∧ partOf t part = { pt with priFailed := false } ∧
    t = { s with parts := t.parts }) ∧
  (insecureFn s 32 = false → ∃ t, exec (.hostBarRead 32 2 addr len) s = .next t ∧ t = { s with replies := .data ((List.range len).map (fun i =>
    if populated ((addr + i) % 2 ^ 42) then memByte s ((addr + i) % 2 ^ 42) else 0xFF)) :: s.replies }) ∧
  (fn < 32 → (s.fwState ≠ 2 ∨ insecureFn s fn = true) → ∀ bar,
    exec (.hostBarRead fn bar addr len) s = .next { s with replies := .unsupported :: s.replies }) ∧
  (let reads (fn at_ : Nat) (w : Word) : Prop :=
     exec (.hostBarRead fn 0 at_ 8) s = .next { s with replies := .data (leBytes 8 w.toNat) :: s.replies }
   (insecureFn s 32 = false →
     (part < 32 → reads 32 (part * 0x1000) pt.pgang ∧ reads 32 (part * 0x1000 + 0x078) pt.pring ∧
       reads 32 (part * 0x1000 + 0x088) pt.prtail ∧ reads 32 (part * 0x1000 + 0x098) pt.ppeer) ∧
     reads 32 0x3_0000 s.fwaddr ∧ reads 32 0x3_0008 s.fwlen ∧ reads 32 0x3_0020 (dieAt s 0).didt ∧
     reads 32 0x3_0040 s.telbase ∧ reads 32 0x3_0048 s.telctl ∧
     reads 32 0x3_0010 (BitVec.ofNat 64 (s.fwHalted.toNat * 2 ^ 16 + s.fwReason.toNat * 2 ^ 8 + s.fwState.toNat * 2 ^ 4))) ∧
   (fn < 32 → s.fwState = 2 → insecureFn s fn = false → reads fn 0x2000 (partOf s fn).prhead ∧
     reads fn 0x2008 (partOf s fn).prtail ∧ reads fn 0x3000 (partOf s fn).vwin)) ∧
  (addr + data.length ≤ 2 ^ 42 → ∃ t, exec (.hostBarWrite 32 addr data) s = .next t ∧
    (∀ i < data.length, memByte t (addr + i) =
      if physWritable s (addr + i) then data.getD i 0 else memByte s (addr + i)) ∧
    (∀ a, a < addr ∨ addr + data.length ≤ a → memByte t a = memByte s a) ∧ t = { s with mem := t.mem, bad := t.bad }) ∧
  (fn < 32 → (s.fwState ≠ 2 ∨ virtWritable s fn ((List.range data.length).map (fun i => barVa s fn (addr + i))) = false) →
    ∃ t, exec (.hostBarWrite fn addr data) s = .next t ∧ (partOf t fn).dropped = (partOf s fn).dropped + 1 ∧
      t.mem = s.mem) ∧
  (eng < 12 → (∀ q ∈ (engineAt s eng).seqs, q.2.live = false) →
    poolOk eng (v &&& 0x3FF_FFFF_0000) (engineAt s eng).poolN = true →
    ∃ t, exec (.claimPoolWrite eng false v) s = .next t ∧ (engineAt t eng).poolB = v &&& 0x3FF_FFFF_0000 ∧
      (engineAt t eng).counts = [] ∧ (engineAt t eng).used = [] ∧
      (∀ a, bitsW v 16 26 * 2 ^ 16 ≤ a → a < bitsW v 16 26 * 2 ^ 16 + bitsW (engineAt s eng).poolN 0 32 * 2 ^ 16 →
        memByte t a = 0)) ∧
  (s.fwState = 0 ∨ s.fwState = 3 → exec .firmwareGo s = .next { s with fwState := 1, fwReason := 0 }) ∧
  (s.fwState = 1 → imageReason s ≠ 0 →
    exec .firmwareVerifyDone s = .next { s with fwState := 3, fwReason := imageReason s }) ∧
  (s.fwState = 1 → imageReason s = 0 → ∃ t new, exec .firmwareVerifyDone s = .next t ∧ t.fwState = 2 ∧ t.fwReason = 0 ∧
    t.rest = s.rest ++ new ∧ new.map (·.core) = [0x200, 0x201, 0x300, 0x301] ∧
    (∀ h ∈ new, h.pc = Config.imageEntry (stagedImage s) &&& ~~~3 ∧ h.run = .ready) ∧ (∀ d, (dieAt t d).didt = 512) ∧
    t.measured = some (sha384 (stagedImage s), Config.imageVersion (stagedImage s)) ∧
    ∀ a, s.fwaddr.toNat ≤ a → a < s.fwaddr.toNat + s.fwlen.toNat → memByte t a = 0) ∧
  (16 ≤ bitsW v 0 10 → bitsW v 0 10 ≤ 512 → ∃ t, exec (.didtWrite die v) s = .next t ∧
    (dieAt t die).didt = v &&& 0x3FF ∧ t = { s with dies := t.dies }) ∧
  (∃ t, exec (.telemetryEnable v) s = .next t ∧ t.telctl = v &&& 0x1F ∧ t = { s with telctl := t.telctl, dies := t.dies } ∧
    (bitW v 0 = true → bitW s.telctl 0 = false → ∀ d, (dieAt t d).teln = 0)) ∧
  (bitW s.telctl 0 = true → ∃ t, exec (.telemetrySample die) s = .next t ∧
    (dieAt t die).teln = (dieAt s die).teln + 1 ∧ t.mem = s.mem ∧ t = { s with hostMem := t.hostMem, dies := t.dies } ∧
    ∃ ws : List Word, ws.length = 8 ∧ ws.getD 0 0 = cycleOf s (die % 2) ∧
      ws.getD 1 0 = BitVec.ofNat 64 ((dieAt s die).teln % 2 ^ 32 * 2 ^ 32 + die % 2) ∧
      bitsW (ws.getD 3 0) 16 16 = (dieAt s die).didt.toNat % 2 ^ 16 ∧ ws.getD 6 0 = BitVec.ofNat 64 (dieAt s die).soft ∧
      ws.getD 7 0 = 0 ∧
      smRead 0 t.hostMem
        (s.telbase.toNat + 64 * ((2 * (dieAt s die).teln + die % 2) % 2 ^ (bitsW s.telctl 1 4 + 6))) 64 = dwordBytes ws) ∧
  (part < 32 → off = part * 0x1000 + 0x078 → ∃ t, exec (.registerWrite off v) s = .next t ∧
    partOf t part = { pt with pring := v } ∧ t = { s with parts := t.parts }) ∧
  (∃ t, exec (.thermalThrottle die hot) s = .next t ∧ dieAt t die = { dieAt s die with hot := hot } ∧
    t = { s with dies := t.dies }) ∧
  (∀ i ∈ [Instr.thermalTrip, .deviceReset], exec i s = .next { State.reset with
    hostMem := s.hostMem, interrupts := s.interrupts, replies := s.replies, crosscut := s.crosscut, turns := s.turns
    pageMsgs := s.pageMsgs, hits := s.hits, fetchHits := s.fetchHits, lateFills := s.lateFills, tick := s.tick
    resetTick := s.tick }) ∧
  (∃ t, exec (.functionLevelReset part) s = .next t ∧ (partOf t part).gen = pt.gen + 1 ∧
    ((∀ m ∈ s.msgs, m.who.part ≠ part) → t.mem = s.mem) ∧ (∀ j ∈ t.jobs, j.part = part → j.verdict ≠ none) ∧
    ∀ l, findLaunch s part l.serial = some l → ∀ h ∈ allStrands t, strandsOf part l.serial h = true → l.verdict ≠ none) ∧
  (let key := fn * 2 + link % 2
   let stream : Stream := smGet .unkeyed s.streams key
   ∃ t, exec (.ideIntegrityFail fn link) s = .next t ∧ t = { s with streams := t.streams } ∧
     ∀ k, smGet .unkeyed t.streams k =
       if k = key ∧ stream ≠ .unkeyed then .insecure else smGet .unkeyed s.streams k) ∧
  (s.fwState ≠ 2 → exec (.spdmRequest req) s = .next { s with replies := .spdmBusy :: s.replies }) ∧
  (s.fwState = 2 → s.fwHalted.getLsbD 1 = true → s.fwHalted.getLsbD 3 = true →
    exec (.spdmRequest req) s = .next s) ∧
  (s.fwState = 2 → (s.fwHalted.getLsbD 1 = false ∨ s.fwHalted.getLsbD 3 = false) →
    exec (.spdmRequest .challenge) s = .next { s with replies := [.spdmSigned 1, .spdmSigned 0] ++ s.replies } ∧
    (∀ m, s.measured = some m →
      exec (.spdmRequest (.measurements false)) s = .next { s with replies := .spdmMeasured m.1 m.2 none :: s.replies } ∧
      exec (.spdmRequest (.measurements true)) s = .next { s with
        replies := [.spdmMeasured m.1 m.2 (some 1), .spdmMeasured m.1 m.2 (some 0)] ++ s.replies }) ∧
    (s.session = 3 → fn ≤ 32 → link < 2 → ∃ t, exec (.spdmRequest (.ideKey fn link)) s = .next t ∧
      smGet .unkeyed t.streams (fn * 2 + link) = .secure) ∧
    (s.session ≠ 3 → ∃ t, exec (.spdmRequest (.ideKey fn link)) s = .next t ∧ t.streams = s.streams)) ∧
  (∀ k, cellKey 0 cell = some k → ∃ t, exec (.softError 0 cell core slot hard) s = .next t ∧ t.mem = s.mem ∧
    (hard = true → smGet false t.bad k = true ∧ ∀ a, a ≠ k → smGet false t.bad a = smGet false s.bad a) ∧
    (hard = false → t.bad = s.bad ∧ (dieAt t (dieOfKey k)).soft = (dieAt s (dieOfKey k)).soft + 1))

/-! ### Encoding, steps and invariants -/

/-- R66, R129, with the examples of R156–R159, R195, R209, R270, R296–R301 and R321: the words that the manual writes out
decode to the instructions they stand for. -/
def Obligations.DecodeWords : Prop :=
  (decodeWord 0x08427FFF = some (.addi 4 4 0x7FFF) ∧ decodeWord 0x1463C003 = some (.srai 6 7 3) ∧
    decodeWord 0x16512345 = some (.lih 5 0x12345) ∧ decodeWord 0x1C6F6FF8 = some (.stD 6 30 0xFF8) ∧
    decodeWord 0x1E314208 = some (.lda 3 2 4 1 8) ∧ decodeWord 0x22539862 = some (.amo 5 7 6 1 2 1 0) ∧
    decodeWord 0x24532005 = some (.brLt 5 6 5) ∧ decodeWord 0x280F8000 = some (.jalr 0 31 0) ∧
    decodeWord 0x2C110C80 = some (.fmadd 1 2 3 4) ∧ decodeWord 0x2E428004 = some (.fcvtI32F32 4 5) ∧
    decodeWord 0x32500001 = some (.crr 5 1) ∧ decodeWord 0x34030000 = some (.crw 0 6 0) ∧
    decodeWord 0x36700043 = some (.movk 7 0 2 3) ∧ decodeWord 0x3803987F = some (.kmov 7 6 3 31) ∧
    decodeWord 0x3AC58000 = some (.strip 12 11)) ∧
  (decodeWord 0x90014000 = some (.satt 0 5) ∧ decodeWord 0x921A4000 = some (.sldb 0 3 9) ∧
    decodeWord 0xA8286380 = some (.seqopen 0 20 6 7) ∧ decodeWord 0xC0000002 = some .trapret) ∧
  decodeWord 0 = none

/-- R66, R68, R77: decoding what a well-formed instruction encodes to gives it back, with every operand at every value; and a
word that decodes is a well-formed instruction's own word. -/
def Obligations.EncodingRoundTrip : Prop :=
  (∀ (i : Instr) (w : Nat), i.wf = true → encodeWord i = some w → w < 2 ^ 32 ∧ decodeWord w = some i) ∧
  (∀ (w : Nat) (i : Instr), decodeWord w = some i → i.wf = true ∧ encodeWord i = some w)

/-- R31, R64, R77, R104, R368, R405: where the strand in focus is the one that its core chooses (its core has the turn, or no
turn is given, no other work is due, and its core comes first), a step fetches the word at its pc, counts it, and runs the
decoded instruction; an extension word runs with the consecutive words that join its convoy, counted as they issue; a word
that is no instruction traps ILLEGAL, but for one of majors 0x48 to 0x4B that its convoy's reissue passes over (R295). One that
waits at issue has not issued (log 35): the strand that comes next issues, if one can. Where what the strand does would change
bytes that a pending adapter fill of its own reads, the fills come first (log 13). The turns are the model's (log 1). -/
def Obligations.StepRunsInstruction : Prop := ∀ (s : State) (rest : List Turn),
  let b : State := { beginStep s with turns := rest }
  let core := b.hart.core
  ((s.turns = [] ∧ rest = [] ∧ dueWork b = none ∧ (issuingCores b).head? = some core) ∨ s.turns = .core core :: rest) →
  (choices b core).head? = some b.hart →
  let others : Option (Host.Outcome State Fault Refusal) :=
    ((choices b core).tail.findSome? (fun h => issueFrom h b)).or
      ((if s.turns = [] then (issuingCores b).tail else []).findSome? (coreIssue b))
  let waits : Prop := step s = passTick (others.getD (.next b))
  let runs (x : State) (after : Host.Outcome State Fault Refusal → Host.Outcome State Fault Refusal) : Prop :=
    let u := issuing x
    let v := usedFetch u
    let gives (r : Host.Outcome State Fault Refusal) : Prop := step s = passTick (after r)
    (∀ w, fetchWord u u.hart.pc = .ok w →
      let member := wordMember (passesSeam v (BitVec.ofNat 1 (bitsAt w 24 1))) w
      (decodeWord w = none → member = none → gives (.next (illegalWord w v))) ∧
      (∀ i, decodeWord w = some i →
        member = memberOf i ∧
        (memberOf i = none →
          (scalarWaits i v = true → waits) ∧
          (scalarWaits i v = false → gives
            (afterIssue u.hart true (exec i (countWord u.hart.pc w 0 (vl v) false (resumePoint false v))))))) ∧
      (∀ m, member = some m →
        let act (t : State) : Host.Outcome State Fault Refusal :=
          match decodeWord w with | some i => exec i t | none => runWords [m] t
        let (g, ms, tail) := gathered m v
        let c := issueWords m ms true g
        (c.waits = true → waits) ∧
        (c.waits = false → ms = [] → tail = .clear → gives (afterIssue u.hart false (act
          (if c.countsFirst then countWord g.hart.pc w c.pos (vl g) true g else g)))) ∧
        (c.waits = false → (ms ≠ [] ∨ tail ≠ .clear) → gives (afterIssue u.hart false (runConvoy (m :: ms) tail true g))))) ∧
    (∀ c, fetchWord u u.hart.pc = .error c → gives (.next (stopFetch c v)))
  ((∀ t, issueWord b = some (.next t) → fillsChange b t = false) → runs b id) ∧
  (∀ t, issueWord b = some (.next t) → fillsChange b t = true → runs (fillsFirst b) (withLate t.lateFills))

/-- Every instruction with every operand answers a next state in every state, and so does every step: the manual gives each
word and each step of the table an effect (an exception it takes is a next state). -/
def Obligations.EveryInstructionAnswers : Prop := (∀ (i : Instr) (s : State), ∃ t, exec i s = .next t) ∧ ∀ s, Safe s

/-- R76, R297, R320, R387, R407, R408: reset leaves no strand, no work and no firmware, memory and the claim engines' counts at
zero, and the crosscut up; every sparse store in canonical form. Values the manual does not give are in log 4. -/
def Obligations.ResetState : Prop := Canonical State.reset ∧ AllLegal State.reset ∧
  (∀ h ∈ allStrands State.reset, h.run = .vacant) ∧ State.reset.fwState = 0 ∧ State.reset.launches = [] ∧
  State.reset.jobs = [] ∧ State.reset.crosscut = true ∧ (∀ a, memByte State.reset a = 0) ∧
  (∀ e b, smGet 0 (engineAt State.reset e).counts b = 0) ∧ ∀ e k, (seqAt State.reset e k).live = false

/-- Every step keeps memory and every other sparse store of the device in canonical form, so that equal contents are equal
data. -/
def Obligations.StepKeepsCanonical : Prop := ∀ s t, Canonical s → step s = .next t → Canonical t

/-- R31, R64, R101, R228, R292: every step keeps every strand's pc and its convoy's first word at a multiple of 4, VCFG within
the values R101 admits, a shortened VL at most 2048, SGW one of the three guard widths, and of every launch's packet the entry
at a multiple of 4 and the granule at most 2048 (two of R361's conditions). -/
def Obligations.StepKeepsLegal : Prop := ∀ s t, AllLegal s → step s = .next t → AllLegal t
end

