-- ==== Sys2Proof/Laws/Access.lean ====
section
/-!
SUPPORT. The laws of access checks: a page whose entry lies in the shaft is found and checked alike whatever memory holds.
-/
namespace Sys2Proof.Machine

/-- A walk that ends at a grand page, or at none, reads no memory. -/
theorem walk_grand (s : State) (m : List Host.Cell) (p va : Nat)
    (h : entryKind (smGet 0 (partOf s p).shaft (va / 2 ^ 35)) < 2) : walk { s with mem := m } p va = walk s p va := by
  have hp : partOf { s with mem := m } p = partOf s p := rfl
  have : entryKind (smGet 0 (partOf s p).shaft (va / 2 ^ 35)) = 0 ∨
    entryKind (smGet 0 (partOf s p).shaft (va / 2 ^ 35)) = 1 := by omega
  unfold walk
  rw [hp]
  dsimp only
  rcases this with h | h <;> rw [h] <;> rfl

/-- An access through a grand page, or none, is checked alike whatever memory holds. -/
theorem check_grand (s : State) (r : Req) (m : List Host.Cell)
    (hw : entryKind (smGet 0 (partOf s s.hart.part).shaft (vaOf r.ptr / 2 ^ 35)) < 2) :
    check { s with mem := m } r = check s r := by
  have h0 : walk { s with mem := m } s.hart.part (vaOf r.ptr) = walk s s.hart.part (vaOf r.ptr) := walk_grand s m _ _ hw
  have hl : locate { s with mem := m } s.hart (vaOf r.ptr) r.kind (r.elem.getD 0) =
      locate s s.hart (vaOf r.ptr) r.kind (r.elem.getD 0) := by
    unfold locate; rw [h0]; rfl
  have h1 : ∀ a b c, tagMismatch { s with mem := m } a b c = tagMismatch s a b c := fun _ _ _ => rfl
  have h2 : ∀ a b c, watchHits { s with mem := m } a b c = watchHits s a b c := fun _ _ _ => rfl
  have h3 : detecting { s with mem := m } = detecting s := rfl
  have h4 : ∀ a b c, conflictWith { s with mem := m } a b c = conflictWith s a b c := fun _ _ _ => rfl
  have h5 : ∀ a b, badByte { s with mem := m } a b = badByte s a b := fun _ _ => rfl
  have h6 : ∀ a, findWho { s with mem := m } a = findWho s a := fun _ => rfl
  have h7 : ∀ a, coreId { s with mem := m } a = coreId s a := fun _ => rfl
  have h8 : ∀ a, pageFailed { s with mem := m } a = pageFailed s a := fun _ => rfl
  have h9 : cowSite { s with mem := m } s.hart.part (vaOf r.ptr) = cowSite s s.hart.part (vaOf r.ptr) := by
    unfold cowSite; rw [h0]; rfl
  have h10 : cowExhausted { s with mem := m } s.hart.part (vaOf r.ptr) = cowExhausted s s.hart.part (vaOf r.ptr) := by
    unfold cowExhausted; rw [h9]; rfl
  have h11 : ∀ k, cowHome { s with mem := m } s.hart.part (vaOf r.ptr) k = cowHome s s.hart.part (vaOf r.ptr) k :=
    fun _ => by unfold cowHome; rw [h9]; rfl
  unfold check
  simp only [h1, h2, h3, h4, h5, h6, h7, h8, h9, h10, h11, hl]

end Sys2Proof.Machine
end

