-- ==== Sys2Proof/Laws/Headframe.lean ====
section
/-!
SUPPORT. What the changes of one strand in a list can do, on which the moves of R369 rest.
-/
namespace Sys2Proof.Machine

open Sys2Proof

@[simp] theorem mapFirst_length (f : Strand → Bool) (g : Strand → Strand) (l : List Strand) :
    (mapFirst f g l).length = l.length := by
  induction l with
  | nil => rfl
  | cons h t ih => unfold mapFirst; split <;> simp [ih]

/-- Each strand of the list stands as it was, or satisfies `f` and is changed by `g`. -/
theorem mapFirst_getElem? (f : Strand → Bool) (g : Strand → Strand) (l : List Strand) (i : Nat) (h : Strand)
    (hl : l[i]? = some h) : (mapFirst f g l)[i]? = some h ∨ ((mapFirst f g l)[i]? = some (g h) ∧ f h = true) := by
  induction l generalizing i with
  | nil => simp at hl
  | cons x t ih =>
    unfold mapFirst
    cases i with
    | zero => simp only [List.getElem?_cons_zero, Option.some.injEq] at hl; subst hl; split <;> simp_all
    | succ i => simp only [List.getElem?_cons_succ] at hl; split <;> simp [hl, ih i hl]

/-- A strand resumes, and the strand in focus stands as it was. -/
@[simp] theorem endMove_hart (h : Strand) (s : State) : (endMove h s).hart = s.hart := rfl
@[simp] theorem endMove_mem (h : Strand) (s : State) : (endMove h s).mem = s.mem := rfl
@[simp] theorem endMove_length (h : Strand) (s : State) : (endMove h s).rest.length = s.rest.length := by simp [endMove]

end Sys2Proof.Machine
end

