-- ==== Sys2Proof/Laws/Sparse.lean ====
section
/-!
SUPPORT. The laws of sparse contents: reading after writing, and that every operation keeps the canonical form.
-/
namespace Sys2Proof.Machine

variable {α : Type}

/-- Below the first key a sparse list reads the value of unlisted keys. -/
theorem smGet_of_lt [DecidableEq α] (d : α) : ∀ (m : List (Nat × α)) (lo k : Nat), smWfFrom d lo m = true → k < lo →
    smGet d m k = d
  | [], _, _, _, _ => rfl
  | (k', v) :: t, lo, k, h, hk => by
    simp only [smWfFrom, Bool.and_eq_true, decide_eq_true_eq] at h
    have hlt : k < k' := by omega
    simp [smGet, hlt, Nat.ne_of_lt hlt]

/-- The canonical form from a bound holds from every lower one. -/
theorem smWfFrom_mono [DecidableEq α] (d : α) : ∀ (m : List (Nat × α)) {lo lo' : Nat}, lo' ≤ lo → smWfFrom d lo m = true →
    smWfFrom d lo' m = true
  | [], _, _, _, _ => rfl
  | (k, v) :: t, lo, lo', hle, h => by
    simp only [smWfFrom, Bool.and_eq_true, decide_eq_true_eq] at h ⊢
    exact ⟨⟨Nat.le_trans hle h.1.1, h.1.2⟩, h.2⟩

/-- Writing one key keeps the canonical form. -/
theorem smSet_wfFrom [DecidableEq α] (d : α) : ∀ (m : List (Nat × α)) (lo k : Nat) (v : α), smWfFrom d lo m = true →
    lo ≤ k → smWfFrom d lo (smSet d m k v) = true
  | [], lo, k, v, _, hk => by
    unfold smSet
    split
    · rfl
    · simp_all [smWfFrom]
  | (k', v') :: t, lo, k, v, h, hk => by
    simp only [smWfFrom, Bool.and_eq_true, decide_eq_true_eq] at h
    obtain ⟨⟨hlo, hv'⟩, ht⟩ := h
    unfold smSet
    split
    · split
      · simp [smWfFrom, hlo, hv', ht]
      · have : k + 1 ≤ k' := by omega
        simp_all [smWfFrom]
    · split
      · split
        · exact smWfFrom_mono d t (by omega) ht
        · simp_all [smWfFrom]
      · have := smSet_wfFrom d t (k' + 1) k v ht (by omega)
        simp [smWfFrom, hlo, hv', this]

/-- Writing one key keeps the canonical form. -/
theorem smSet_wf [DecidableEq α] (d : α) (m : List (Nat × α)) (k : Nat) (v : α) (h : smWf d m = true) :
    smWf d (smSet d m k v) = true := smSet_wfFrom d m 0 k v h (Nat.zero_le k)

/-- A key reads the value just written to it. -/
theorem smGet_smSet_self [DecidableEq α] (d : α) : ∀ (m : List (Nat × α)) (lo k : Nat) (v : α), smWfFrom d lo m = true →
    smGet d (smSet d m k v) k = v
  | [], _, k, v, _ => by
    unfold smSet
    split <;> simp_all [smGet]
  | (k', v') :: t, lo, k, v, h => by
    simp only [smWfFrom, Bool.and_eq_true, decide_eq_true_eq] at h
    obtain ⟨⟨hlo, hv'⟩, ht⟩ := h
    unfold smSet
    split
    · rename_i hlt
      split
      · simp_all [smGet, Nat.ne_of_lt hlt]
      · simp [smGet]
    · split
      · rename_i heq
        subst heq
        split
        · rename_i hv
          subst hv
          exact smGet_of_lt v t (k + 1) k ht (by omega)
        · simp [smGet]
      · rename_i hge hne
        simp only [smGet, if_neg hne, if_neg hge]
        exact smGet_smSet_self d t (k' + 1) k v ht

/-- Every other key reads as before. -/
theorem smGet_smSet_ne [DecidableEq α] (d : α) : ∀ (m : List (Nat × α)) (lo k j : Nat) (v : α), smWfFrom d lo m = true →
    j ≠ k → smGet d (smSet d m k v) j = smGet d m j
  | [], _, k, j, v, _, hj => by
    unfold smSet
    split <;> simp_all [smGet]
  | (k', v') :: t, lo, k, j, v, h, hj => by
    simp only [smWfFrom, Bool.and_eq_true, decide_eq_true_eq] at h
    obtain ⟨⟨hlo, hv'⟩, ht⟩ := h
    unfold smSet
    split
    · rename_i hlt
      split
      · rfl
      · simp only [smGet, if_neg hj]
        split
        · rename_i hjk
          simp [Nat.ne_of_lt (Nat.lt_trans hjk hlt), Nat.lt_trans hjk hlt]
        · rfl
    · split
      · rename_i heq
        subst heq
        split
        · simp only [smGet, if_neg hj]
          split
          · rename_i hjk
            exact smGet_of_lt d t (k + 1) j ht (by omega)
          · rfl
        · simp [smGet, hj]
      · simp only [smGet]
        split
        · rfl
        · split
          · rfl
          · exact smGet_smSet_ne d t (k' + 1) k j v ht hj

/-- Dropping a range keeps the canonical form. -/
theorem smDrop_wfFrom [DecidableEq α] (d : α) (lo n : Nat) : ∀ (m : List (Nat × α)) (b : Nat), smWfFrom d b m = true →
    smWfFrom d b (smDrop lo n m) = true
  | [], _, _ => rfl
  | (k, v) :: t, b, h => by
    simp only [smWfFrom, Bool.and_eq_true, decide_eq_true_eq] at h
    obtain ⟨⟨hlo, hv⟩, ht⟩ := h
    unfold smDrop
    split
    · exact smWfFrom_mono d _ (by omega) (smDrop_wfFrom d lo n t (k + 1) ht)
    · simp [smWfFrom, hlo, hv, smDrop_wfFrom d lo n t (k + 1) ht]

/-- Dropping a range keeps the canonical form. -/
theorem smDrop_wf [DecidableEq α] (d : α) (lo n : Nat) (m : List (Nat × α)) (h : smWf d m = true) :
    smWf d (smDrop lo n m) = true := smDrop_wfFrom d lo n m 0 h

/-- Writing the entries of a list keeps the canonical form. -/
theorem smPut_wf [DecidableEq α] (d : α) (lo : Nat) : ∀ (e m : List (Nat × α)), smWf d m = true →
    smWf d (smPut d lo e m) = true
  | [], _, h => h
  | (k, v) :: t, m, h => smPut_wf d lo t _ (smSet_wf d m (lo + k) v h)

/-- Writing values from a key on keeps the canonical form. -/
theorem smWrite_wf [DecidableEq α] (d : α) : ∀ (vs : List α) (m : List (Nat × α)) (k : Nat), smWf d m = true →
    smWf d (smWrite d m k vs) = true
  | [], _, _, h => h
  | v :: vs, m, k, h => smWrite_wf d vs _ (k + 1) (smSet_wf d m k v h)

/-- A key outside the range written reads as before. -/
theorem smGet_smWrite_of_not_mem [DecidableEq α] (d : α) : ∀ (vs : List α) (m : List (Nat × α)) (k j : Nat),
    smWf d m = true → (j < k ∨ k + vs.length ≤ j) → smGet d (smWrite d m k vs) j = smGet d m j
  | [], _, _, _, _, _ => rfl
  | v :: vs, m, k, j, h, hj => by
    have hl : (v :: vs).length = vs.length + 1 := rfl
    rw [smWrite, smGet_smWrite_of_not_mem d vs _ (k + 1) j (smSet_wf d m k v h) (by omega)]
    exact smGet_smSet_ne d m 0 k j v h (by omega)

/-- Reading back the values just written. -/
theorem smRead_smWrite [DecidableEq α] (d : α) : ∀ (vs : List α) (m : List (Nat × α)) (k : Nat), smWf d m = true →
    smRead d (smWrite d m k vs) k vs.length = vs
  | [], _, _, _ => rfl
  | v :: vs, m, k, h => by
    have hk : smGet d (smWrite d (smSet d m k v) (k + 1) vs) k = v := by
      rw [smGet_smWrite_of_not_mem d vs _ (k + 1) k (smSet_wf d m k v h) (by omega)]
      exact smGet_smSet_self d m 0 k v h
    simp only [List.length_cons, smWrite, smRead, hk, smRead_smWrite d vs _ (k + 1) (smSet_wf d m k v h)]

end Sys2Proof.Machine
end

