-- ==== Sys2Proof/Laws/State.lean ====
section
/-!
SUPPORT. What each elementary update of the state leaves as it was, and what it makes of the field it writes.
-/
namespace Sys2Proof.Machine

open Sys2Proof

/-! ### `writeG` -/

@[simp] theorem writeG_rest (s : State) (r : Reg) (v : Word) : (writeG s r v).rest = s.rest := by unfold writeG; split <;> rfl
@[simp] theorem writeG_mem (s : State) (r : Reg) (v : Word) : (writeG s r v).mem = s.mem := by unfold writeG; split <;> rfl
@[simp] theorem writeG_tags (s : State) (r : Reg) (v : Word) : (writeG s r v).tags = s.tags := by unfold writeG; split <;> rfl
@[simp] theorem writeG_bad (s : State) (r : Reg) (v : Word) : (writeG s r v).bad = s.bad := by unfold writeG; split <;> rfl
@[simp] theorem writeG_dcache (s : State) (r : Reg) (v : Word) : (writeG s r v).dcache = s.dcache := by unfold writeG; split <;> rfl
@[simp] theorem writeG_icache (s : State) (r : Reg) (v : Word) : (writeG s r v).icache = s.icache := by unfold writeG; split <;> rfl
@[simp] theorem writeG_adapter (s : State) (r : Reg) (v : Word) : (writeG s r v).adapter = s.adapter := by unfold writeG; split <;> rfl
@[simp] theorem writeG_contribs (s : State) (r : Reg) (v : Word) : (writeG s r v).contribs = s.contribs := by unfold writeG; split <;> rfl
@[simp] theorem writeG_bells (s : State) (r : Reg) (v : Word) : (writeG s r v).bells = s.bells := by unfold writeG; split <;> rfl
@[simp] theorem writeG_slotSusp (s : State) (r : Reg) (v : Word) : (writeG s r v).slotSusp = s.slotSusp := by unfold writeG; split <;> rfl
@[simp] theorem writeG_filter (s : State) (r : Reg) (v : Word) : (writeG s r v).filter = s.filter := by unfold writeG; split <;> rfl
@[simp] theorem writeG_evicted (s : State) (r : Reg) (v : Word) : (writeG s r v).evicted = s.evicted := by unfold writeG; split <;> rfl
@[simp] theorem writeG_gangOwner (s : State) (r : Reg) (v : Word) : (writeG s r v).gangOwner = s.gangOwner := by unfold writeG; split <;> rfl
@[simp] theorem writeG_sumpOwner (s : State) (r : Reg) (v : Word) : (writeG s r v).sumpOwner = s.sumpOwner := by unfold writeG; split <;> rfl
@[simp] theorem writeG_parts (s : State) (r : Reg) (v : Word) : (writeG s r v).parts = s.parts := by unfold writeG; split <;> rfl
@[simp] theorem writeG_engines (s : State) (r : Reg) (v : Word) : (writeG s r v).engines = s.engines := by unfold writeG; split <;> rfl
@[simp] theorem writeG_dies (s : State) (r : Reg) (v : Word) : (writeG s r v).dies = s.dies := by unfold writeG; split <;> rfl
@[simp] theorem writeG_jobs (s : State) (r : Reg) (v : Word) : (writeG s r v).jobs = s.jobs := by unfold writeG; split <;> rfl
@[simp] theorem writeG_launches (s : State) (r : Reg) (v : Word) : (writeG s r v).launches = s.launches := by unfold writeG; split <;> rfl
@[simp] theorem writeG_accepted (s : State) (r : Reg) (v : Word) : (writeG s r v).accepted = s.accepted := by unfold writeG; split <;> rfl
@[simp] theorem writeG_msgs (s : State) (r : Reg) (v : Word) : (writeG s r v).msgs = s.msgs := by unfold writeG; split <;> rfl
@[simp] theorem writeG_crosscut (s : State) (r : Reg) (v : Word) : (writeG s r v).crosscut = s.crosscut := by unfold writeG; split <;> rfl
@[simp] theorem writeG_cutting (s : State) (r : Reg) (v : Word) : (writeG s r v).cutting = s.cutting := by unfold writeG; split <;> rfl
@[simp] theorem writeG_fwaddr (s : State) (r : Reg) (v : Word) : (writeG s r v).fwaddr = s.fwaddr := by unfold writeG; split <;> rfl
@[simp] theorem writeG_fwlen (s : State) (r : Reg) (v : Word) : (writeG s r v).fwlen = s.fwlen := by unfold writeG; split <;> rfl
@[simp] theorem writeG_fwState (s : State) (r : Reg) (v : Word) : (writeG s r v).fwState = s.fwState := by unfold writeG; split <;> rfl
@[simp] theorem writeG_fwReason (s : State) (r : Reg) (v : Word) : (writeG s r v).fwReason = s.fwReason := by unfold writeG; split <;> rfl
@[simp] theorem writeG_fwHalted (s : State) (r : Reg) (v : Word) : (writeG s r v).fwHalted = s.fwHalted := by unfold writeG; split <;> rfl
@[simp] theorem writeG_measured (s : State) (r : Reg) (v : Word) : (writeG s r v).measured = s.measured := by unfold writeG; split <;> rfl
@[simp] theorem writeG_session (s : State) (r : Reg) (v : Word) : (writeG s r v).session = s.session := by unfold writeG; split <;> rfl
@[simp] theorem writeG_streams (s : State) (r : Reg) (v : Word) : (writeG s r v).streams = s.streams := by unfold writeG; split <;> rfl
@[simp] theorem writeG_telbase (s : State) (r : Reg) (v : Word) : (writeG s r v).telbase = s.telbase := by unfold writeG; split <;> rfl
@[simp] theorem writeG_telctl (s : State) (r : Reg) (v : Word) : (writeG s r v).telctl = s.telctl := by unfold writeG; split <;> rfl
@[simp] theorem writeG_hostMem (s : State) (r : Reg) (v : Word) : (writeG s r v).hostMem = s.hostMem := by unfold writeG; split <;> rfl
@[simp] theorem writeG_pageMsgs (s : State) (r : Reg) (v : Word) : (writeG s r v).pageMsgs = s.pageMsgs := by unfold writeG; split <;> rfl
@[simp] theorem writeG_interrupts (s : State) (r : Reg) (v : Word) : (writeG s r v).interrupts = s.interrupts := by unfold writeG; split <;> rfl
@[simp] theorem writeG_replies (s : State) (r : Reg) (v : Word) : (writeG s r v).replies = s.replies := by unfold writeG; split <;> rfl
@[simp] theorem writeG_turns (s : State) (r : Reg) (v : Word) : (writeG s r v).turns = s.turns := by unfold writeG; split <;> rfl
@[simp] theorem writeG_hits (s : State) (r : Reg) (v : Word) : (writeG s r v).hits = s.hits := by unfold writeG; split <;> rfl
@[simp] theorem writeG_fetchHits (s : State) (r : Reg) (v : Word) : (writeG s r v).fetchHits = s.fetchHits := by unfold writeG; split <;> rfl
@[simp] theorem writeG_lateFills (s : State) (r : Reg) (v : Word) : (writeG s r v).lateFills = s.lateFills := by unfold writeG; split <;> rfl
@[simp] theorem writeG_tick (s : State) (r : Reg) (v : Word) : (writeG s r v).tick = s.tick := by unfold writeG; split <;> rfl
@[simp] theorem writeG_resetTick (s : State) (r : Reg) (v : Word) : (writeG s r v).resetTick = s.resetTick := by unfold writeG; split <;> rfl
@[simp] theorem writeG_hart_core (s : State) (r : Reg) (v : Word) : (writeG s r v).hart.core = s.hart.core := by unfold writeG; split <;> rfl
@[simp] theorem writeG_hart_slot (s : State) (r : Reg) (v : Word) : (writeG s r v).hart.slot = s.hart.slot := by unfold writeG; split <;> rfl
@[simp] theorem writeG_hart_part (s : State) (r : Reg) (v : Word) : (writeG s r v).hart.part = s.hart.part := by unfold writeG; split <;> rfl
@[simp] theorem writeG_hart_serial (s : State) (r : Reg) (v : Word) : (writeG s r v).hart.serial = s.hart.serial := by unfold writeG; split <;> rfl
@[simp] theorem writeG_hart_index (s : State) (r : Reg) (v : Word) : (writeG s r v).hart.index = s.hart.index := by unfold writeG; split <;> rfl
@[simp] theorem writeG_hart_cls (s : State) (r : Reg) (v : Word) : (writeG s r v).hart.cls = s.hart.cls := by unfold writeG; split <;> rfl
@[simp] theorem writeG_hart_nodetect (s : State) (r : Reg) (v : Word) : (writeG s r v).hart.nodetect = s.hart.nodetect := by unfold writeG; split <;> rfl
@[simp] theorem writeG_hart_replay (s : State) (r : Reg) (v : Word) : (writeG s r v).hart.replay = s.hart.replay := by unfold writeG; split <;> rfl
@[simp] theorem writeG_hart_priv (s : State) (r : Reg) (v : Word) : (writeG s r v).hart.priv = s.hart.priv := by unfold writeG; split <;> rfl
@[simp] theorem writeG_hart_pipe (s : State) (r : Reg) (v : Word) : (writeG s r v).hart.pipe = s.hart.pipe := by unfold writeG; split <;> rfl
@[simp] theorem writeG_hart_bells (s : State) (r : Reg) (v : Word) : (writeG s r v).hart.bells = s.hart.bells := by unfold writeG; split <;> rfl
@[simp] theorem writeG_hart_padOff (s : State) (r : Reg) (v : Word) : (writeG s r v).hart.padOff = s.hart.padOff := by unfold writeG; split <;> rfl
@[simp] theorem writeG_hart_padLen (s : State) (r : Reg) (v : Word) : (writeG s r v).hart.padLen = s.hart.padLen := by unfold writeG; split <;> rfl
@[simp] theorem writeG_hart_run (s : State) (r : Reg) (v : Word) : (writeG s r v).hart.run = s.hart.run := by unfold writeG; split <;> rfl
@[simp] theorem writeG_hart_parked (s : State) (r : Reg) (v : Word) : (writeG s r v).hart.parked = s.hart.parked := by unfold writeG; split <;> rfl
@[simp] theorem writeG_hart_yieldsTo (s : State) (r : Reg) (v : Word) : (writeG s r v).hart.yieldsTo = s.hart.yieldsTo := by unfold writeG; split <;> rfl
@[simp] theorem writeG_hart_unbegun (s : State) (r : Reg) (v : Word) : (writeG s r v).hart.unbegun = s.hart.unbegun := by unfold writeG; split <;> rfl
@[simp] theorem writeG_hart_preempted (s : State) (r : Reg) (v : Word) : (writeG s r v).hart.preempted = s.hart.preempted := by unfold writeG; split <;> rfl
@[simp] theorem writeG_hart_swapped (s : State) (r : Reg) (v : Word) : (writeG s r v).hart.swapped = s.hart.swapped := by unfold writeG; split <;> rfl
@[simp] theorem writeG_hart_spilled (s : State) (r : Reg) (v : Word) : (writeG s r v).hart.spilled = s.hart.spilled := by unfold writeG; split <;> rfl
@[simp] theorem writeG_hart_born (s : State) (r : Reg) (v : Word) : (writeG s r v).hart.born = s.hart.born := by unfold writeG; split <;> rfl
@[simp] theorem writeG_hart_stamp (s : State) (r : Reg) (v : Word) : (writeG s r v).hart.stamp = s.hart.stamp := by unfold writeG; split <;> rfl
@[simp] theorem writeG_hart_aged (s : State) (r : Reg) (v : Word) : (writeG s r v).hart.aged = s.hart.aged := by unfold writeG; split <;> rfl
@[simp] theorem writeG_hart_pc (s : State) (r : Reg) (v : Word) : (writeG s r v).hart.pc = s.hart.pc := by unfold writeG; split <;> rfl
@[simp] theorem writeG_hart_win (s : State) (r : Reg) (v : Word) : (writeG s r v).hart.win = s.hart.win := by unfold writeG; split <;> rfl
@[simp] theorem writeG_hart_masks (s : State) (r : Reg) (v : Word) : (writeG s r v).hart.masks = s.hart.masks := by unfold writeG; split <;> rfl
@[simp] theorem writeG_hart_kd (s : State) (r : Reg) (v : Word) : (writeG s r v).hart.kd = s.hart.kd := by unfold writeG; split <;> rfl
@[simp] theorem writeG_hart_convoy (s : State) (r : Reg) (v : Word) : (writeG s r v).hart.convoy = s.hart.convoy := by unfold writeG; split <;> rfl
@[simp] theorem writeG_hart_resuming (s : State) (r : Reg) (v : Word) : (writeG s r v).hart.resuming = s.hart.resuming := by unfold writeG; split <;> rfl
@[simp] theorem writeG_hart_stands (s : State) (r : Reg) (v : Word) : (writeG s r v).hart.stands = s.hart.stands := by unfold writeG; split <;> rfl
@[simp] theorem writeG_hart_admitted (s : State) (r : Reg) (v : Word) : (writeG s r v).hart.admitted = s.hart.admitted := by unfold writeG; split <;> rfl
@[simp] theorem writeG_hart_sent (s : State) (r : Reg) (v : Word) : (writeG s r v).hart.sent = s.hart.sent := by unfold writeG; split <;> rfl
@[simp] theorem writeG_hart_ctrl (s : State) (r : Reg) (v : Word) : (writeG s r v).hart.ctrl = s.hart.ctrl := by unfold writeG; split <;> rfl
@[simp] theorem writeG_hart_rowBase (s : State) (r : Reg) (v : Word) : (writeG s r v).hart.rowBase = s.hart.rowBase := by unfold writeG; split <;> rfl
@[simp] theorem writeG_hart_height (s : State) (r : Reg) (v : Word) : (writeG s r v).hart.height = s.hart.height := by unfold writeG; split <;> rfl
@[simp] theorem writeG_hart_stope (s : State) (r : Reg) (v : Word) : (writeG s r v).hart.stope = s.hart.stope := by unfold writeG; split <;> rfl
@[simp] theorem writeG_hart_badBits (s : State) (r : Reg) (v : Word) : (writeG s r v).hart.badBits = s.hart.badBits := by unfold writeG; split <;> rfl
@[simp] theorem writeG_hart_chans (s : State) (r : Reg) (v : Word) : (writeG s r v).hart.chans = s.hart.chans := by unfold writeG; split <;> rfl
@[simp] theorem writeG_hart_seam (s : State) (r : Reg) (v : Word) : (writeG s r v).hart.seam = s.hart.seam := by unfold writeG; split <;> rfl
@[simp] theorem writeG_hart_susp (s : State) (r : Reg) (v : Word) : (writeG s r v).hart.susp = s.hart.susp := by unfold writeG; split <;> rfl
@[simp] theorem writeG_hart_recs (s : State) (r : Reg) (v : Word) : (writeG s r v).hart.recs = s.hart.recs := by unfold writeG; split <;> rfl
@[simp] theorem writeG_hart_failPages (s : State) (r : Reg) (v : Word) : (writeG s r v).hart.failPages = s.hart.failPages := by unfold writeG; split <;> rfl
@[simp] theorem writeG_hart_issued (s : State) (r : Reg) (v : Word) : (writeG s r v).hart.issued = s.hart.issued := by unfold writeG; split <;> rfl
@[simp] theorem writeG_hart_sampled (s : State) (r : Reg) (v : Word) : (writeG s r v).hart.sampled = s.hart.sampled := by unfold writeG; split <;> rfl
@[simp] theorem writeG_hart_stripStart (s : State) (r : Reg) (v : Word) : (writeG s r v).hart.stripStart = s.hart.stripStart := by unfold writeG; split <;> rfl
@[simp] theorem writeG_hart_nsusp (s : State) (r : Reg) (v : Word) : (writeG s r v).hart.nsusp = s.hart.nsusp := by unfold writeG; split <;> rfl
@[simp] theorem writeG_hart_nstop (s : State) (r : Reg) (v : Word) : (writeG s r v).hart.nstop = s.hart.nstop := by unfold writeG; split <;> rfl
@[simp] theorem writeG_hart_stripIdle (s : State) (r : Reg) (v : Word) : (writeG s r v).hart.stripIdle = s.hart.stripIdle := by unfold writeG; split <;> rfl
@[simp] theorem writeG_hart_stripWork (s : State) (r : Reg) (v : Word) : (writeG s r v).hart.stripWork = s.hart.stripWork := by unfold writeG; split <;> rfl

/-! ### `writeK` -/

@[simp] theorem writeK_rest (s : State) (k : BitVec 3) (v : Mask) : (writeK s k v).rest = s.rest := by unfold writeK; split <;> rfl
@[simp] theorem writeK_mem (s : State) (k : BitVec 3) (v : Mask) : (writeK s k v).mem = s.mem := by unfold writeK; split <;> rfl
@[simp] theorem writeK_tags (s : State) (k : BitVec 3) (v : Mask) : (writeK s k v).tags = s.tags := by unfold writeK; split <;> rfl
@[simp] theorem writeK_bad (s : State) (k : BitVec 3) (v : Mask) : (writeK s k v).bad = s.bad := by unfold writeK; split <;> rfl
@[simp] theorem writeK_dcache (s : State) (k : BitVec 3) (v : Mask) : (writeK s k v).dcache = s.dcache := by unfold writeK; split <;> rfl
@[simp] theorem writeK_icache (s : State) (k : BitVec 3) (v : Mask) : (writeK s k v).icache = s.icache := by unfold writeK; split <;> rfl
@[simp] theorem writeK_adapter (s : State) (k : BitVec 3) (v : Mask) : (writeK s k v).adapter = s.adapter := by unfold writeK; split <;> rfl
@[simp] theorem writeK_contribs (s : State) (k : BitVec 3) (v : Mask) : (writeK s k v).contribs = s.contribs := by unfold writeK; split <;> rfl
@[simp] theorem writeK_bells (s : State) (k : BitVec 3) (v : Mask) : (writeK s k v).bells = s.bells := by unfold writeK; split <;> rfl
@[simp] theorem writeK_slotSusp (s : State) (k : BitVec 3) (v : Mask) : (writeK s k v).slotSusp = s.slotSusp := by unfold writeK; split <;> rfl
@[simp] theorem writeK_filter (s : State) (k : BitVec 3) (v : Mask) : (writeK s k v).filter = s.filter := by unfold writeK; split <;> rfl
@[simp] theorem writeK_evicted (s : State) (k : BitVec 3) (v : Mask) : (writeK s k v).evicted = s.evicted := by unfold writeK; split <;> rfl
@[simp] theorem writeK_gangOwner (s : State) (k : BitVec 3) (v : Mask) : (writeK s k v).gangOwner = s.gangOwner := by unfold writeK; split <;> rfl
@[simp] theorem writeK_sumpOwner (s : State) (k : BitVec 3) (v : Mask) : (writeK s k v).sumpOwner = s.sumpOwner := by unfold writeK; split <;> rfl
@[simp] theorem writeK_parts (s : State) (k : BitVec 3) (v : Mask) : (writeK s k v).parts = s.parts := by unfold writeK; split <;> rfl
@[simp] theorem writeK_engines (s : State) (k : BitVec 3) (v : Mask) : (writeK s k v).engines = s.engines := by unfold writeK; split <;> rfl
@[simp] theorem writeK_dies (s : State) (k : BitVec 3) (v : Mask) : (writeK s k v).dies = s.dies := by unfold writeK; split <;> rfl
@[simp] theorem writeK_jobs (s : State) (k : BitVec 3) (v : Mask) : (writeK s k v).jobs = s.jobs := by unfold writeK; split <;> rfl
@[simp] theorem writeK_launches (s : State) (k : BitVec 3) (v : Mask) : (writeK s k v).launches = s.launches := by unfold writeK; split <;> rfl
@[simp] theorem writeK_accepted (s : State) (k : BitVec 3) (v : Mask) : (writeK s k v).accepted = s.accepted := by unfold writeK; split <;> rfl
@[simp] theorem writeK_msgs (s : State) (k : BitVec 3) (v : Mask) : (writeK s k v).msgs = s.msgs := by unfold writeK; split <;> rfl
@[simp] theorem writeK_crosscut (s : State) (k : BitVec 3) (v : Mask) : (writeK s k v).crosscut = s.crosscut := by unfold writeK; split <;> rfl
@[simp] theorem writeK_cutting (s : State) (k : BitVec 3) (v : Mask) : (writeK s k v).cutting = s.cutting := by unfold writeK; split <;> rfl
@[simp] theorem writeK_fwaddr (s : State) (k : BitVec 3) (v : Mask) : (writeK s k v).fwaddr = s.fwaddr := by unfold writeK; split <;> rfl
@[simp] theorem writeK_fwlen (s : State) (k : BitVec 3) (v : Mask) : (writeK s k v).fwlen = s.fwlen := by unfold writeK; split <;> rfl
@[simp] theorem writeK_fwState (s : State) (k : BitVec 3) (v : Mask) : (writeK s k v).fwState = s.fwState := by unfold writeK; split <;> rfl
@[simp] theorem writeK_fwReason (s : State) (k : BitVec 3) (v : Mask) : (writeK s k v).fwReason = s.fwReason := by unfold writeK; split <;> rfl
@[simp] theorem writeK_fwHalted (s : State) (k : BitVec 3) (v : Mask) : (writeK s k v).fwHalted = s.fwHalted := by unfold writeK; split <;> rfl
@[simp] theorem writeK_measured (s : State) (k : BitVec 3) (v : Mask) : (writeK s k v).measured = s.measured := by unfold writeK; split <;> rfl
@[simp] theorem writeK_session (s : State) (k : BitVec 3) (v : Mask) : (writeK s k v).session = s.session := by unfold writeK; split <;> rfl
@[simp] theorem writeK_streams (s : State) (k : BitVec 3) (v : Mask) : (writeK s k v).streams = s.streams := by unfold writeK; split <;> rfl
@[simp] theorem writeK_telbase (s : State) (k : BitVec 3) (v : Mask) : (writeK s k v).telbase = s.telbase := by unfold writeK; split <;> rfl
@[simp] theorem writeK_telctl (s : State) (k : BitVec 3) (v : Mask) : (writeK s k v).telctl = s.telctl := by unfold writeK; split <;> rfl
@[simp] theorem writeK_hostMem (s : State) (k : BitVec 3) (v : Mask) : (writeK s k v).hostMem = s.hostMem := by unfold writeK; split <;> rfl
@[simp] theorem writeK_pageMsgs (s : State) (k : BitVec 3) (v : Mask) : (writeK s k v).pageMsgs = s.pageMsgs := by unfold writeK; split <;> rfl
@[simp] theorem writeK_interrupts (s : State) (k : BitVec 3) (v : Mask) : (writeK s k v).interrupts = s.interrupts := by unfold writeK; split <;> rfl
@[simp] theorem writeK_replies (s : State) (k : BitVec 3) (v : Mask) : (writeK s k v).replies = s.replies := by unfold writeK; split <;> rfl
@[simp] theorem writeK_turns (s : State) (k : BitVec 3) (v : Mask) : (writeK s k v).turns = s.turns := by unfold writeK; split <;> rfl
@[simp] theorem writeK_hits (s : State) (k : BitVec 3) (v : Mask) : (writeK s k v).hits = s.hits := by unfold writeK; split <;> rfl
@[simp] theorem writeK_fetchHits (s : State) (k : BitVec 3) (v : Mask) : (writeK s k v).fetchHits = s.fetchHits := by unfold writeK; split <;> rfl
@[simp] theorem writeK_lateFills (s : State) (k : BitVec 3) (v : Mask) : (writeK s k v).lateFills = s.lateFills := by unfold writeK; split <;> rfl
@[simp] theorem writeK_tick (s : State) (k : BitVec 3) (v : Mask) : (writeK s k v).tick = s.tick := by unfold writeK; split <;> rfl
@[simp] theorem writeK_resetTick (s : State) (k : BitVec 3) (v : Mask) : (writeK s k v).resetTick = s.resetTick := by unfold writeK; split <;> rfl
@[simp] theorem writeK_hart_core (s : State) (k : BitVec 3) (v : Mask) : (writeK s k v).hart.core = s.hart.core := by unfold writeK; split <;> rfl
@[simp] theorem writeK_hart_slot (s : State) (k : BitVec 3) (v : Mask) : (writeK s k v).hart.slot = s.hart.slot := by unfold writeK; split <;> rfl
@[simp] theorem writeK_hart_part (s : State) (k : BitVec 3) (v : Mask) : (writeK s k v).hart.part = s.hart.part := by unfold writeK; split <;> rfl
@[simp] theorem writeK_hart_serial (s : State) (k : BitVec 3) (v : Mask) : (writeK s k v).hart.serial = s.hart.serial := by unfold writeK; split <;> rfl
@[simp] theorem writeK_hart_index (s : State) (k : BitVec 3) (v : Mask) : (writeK s k v).hart.index = s.hart.index := by unfold writeK; split <;> rfl
@[simp] theorem writeK_hart_cls (s : State) (k : BitVec 3) (v : Mask) : (writeK s k v).hart.cls = s.hart.cls := by unfold writeK; split <;> rfl
@[simp] theorem writeK_hart_nodetect (s : State) (k : BitVec 3) (v : Mask) : (writeK s k v).hart.nodetect = s.hart.nodetect := by unfold writeK; split <;> rfl
@[simp] theorem writeK_hart_replay (s : State) (k : BitVec 3) (v : Mask) : (writeK s k v).hart.replay = s.hart.replay := by unfold writeK; split <;> rfl
@[simp] theorem writeK_hart_priv (s : State) (k : BitVec 3) (v : Mask) : (writeK s k v).hart.priv = s.hart.priv := by unfold writeK; split <;> rfl
@[simp] theorem writeK_hart_pipe (s : State) (k : BitVec 3) (v : Mask) : (writeK s k v).hart.pipe = s.hart.pipe := by unfold writeK; split <;> rfl
@[simp] theorem writeK_hart_bells (s : State) (k : BitVec 3) (v : Mask) : (writeK s k v).hart.bells = s.hart.bells := by unfold writeK; split <;> rfl
@[simp] theorem writeK_hart_padOff (s : State) (k : BitVec 3) (v : Mask) : (writeK s k v).hart.padOff = s.hart.padOff := by unfold writeK; split <;> rfl
@[simp] theorem writeK_hart_padLen (s : State) (k : BitVec 3) (v : Mask) : (writeK s k v).hart.padLen = s.hart.padLen := by unfold writeK; split <;> rfl
@[simp] theorem writeK_hart_run (s : State) (k : BitVec 3) (v : Mask) : (writeK s k v).hart.run = s.hart.run := by unfold writeK; split <;> rfl
@[simp] theorem writeK_hart_parked (s : State) (k : BitVec 3) (v : Mask) : (writeK s k v).hart.parked = s.hart.parked := by unfold writeK; split <;> rfl
@[simp] theorem writeK_hart_yieldsTo (s : State) (k : BitVec 3) (v : Mask) : (writeK s k v).hart.yieldsTo = s.hart.yieldsTo := by unfold writeK; split <;> rfl
@[simp] theorem writeK_hart_unbegun (s : State) (k : BitVec 3) (v : Mask) : (writeK s k v).hart.unbegun = s.hart.unbegun := by unfold writeK; split <;> rfl
@[simp] theorem writeK_hart_preempted (s : State) (k : BitVec 3) (v : Mask) : (writeK s k v).hart.preempted = s.hart.preempted := by unfold writeK; split <;> rfl
@[simp] theorem writeK_hart_swapped (s : State) (k : BitVec 3) (v : Mask) : (writeK s k v).hart.swapped = s.hart.swapped := by unfold writeK; split <;> rfl
@[simp] theorem writeK_hart_spilled (s : State) (k : BitVec 3) (v : Mask) : (writeK s k v).hart.spilled = s.hart.spilled := by unfold writeK; split <;> rfl
@[simp] theorem writeK_hart_born (s : State) (k : BitVec 3) (v : Mask) : (writeK s k v).hart.born = s.hart.born := by unfold writeK; split <;> rfl
@[simp] theorem writeK_hart_stamp (s : State) (k : BitVec 3) (v : Mask) : (writeK s k v).hart.stamp = s.hart.stamp := by unfold writeK; split <;> rfl
@[simp] theorem writeK_hart_aged (s : State) (k : BitVec 3) (v : Mask) : (writeK s k v).hart.aged = s.hart.aged := by unfold writeK; split <;> rfl
@[simp] theorem writeK_hart_pc (s : State) (k : BitVec 3) (v : Mask) : (writeK s k v).hart.pc = s.hart.pc := by unfold writeK; split <;> rfl
@[simp] theorem writeK_hart_gpr (s : State) (k : BitVec 3) (v : Mask) : (writeK s k v).hart.gpr = s.hart.gpr := by unfold writeK; split <;> rfl
@[simp] theorem writeK_hart_win (s : State) (k : BitVec 3) (v : Mask) : (writeK s k v).hart.win = s.hart.win := by unfold writeK; split <;> rfl
@[simp] theorem writeK_hart_kd (s : State) (k : BitVec 3) (v : Mask) : (writeK s k v).hart.kd = s.hart.kd := by unfold writeK; split <;> rfl
@[simp] theorem writeK_hart_convoy (s : State) (k : BitVec 3) (v : Mask) : (writeK s k v).hart.convoy = s.hart.convoy := by unfold writeK; split <;> rfl
@[simp] theorem writeK_hart_resuming (s : State) (k : BitVec 3) (v : Mask) : (writeK s k v).hart.resuming = s.hart.resuming := by unfold writeK; split <;> rfl
@[simp] theorem writeK_hart_stands (s : State) (k : BitVec 3) (v : Mask) : (writeK s k v).hart.stands = s.hart.stands := by unfold writeK; split <;> rfl
@[simp] theorem writeK_hart_admitted (s : State) (k : BitVec 3) (v : Mask) : (writeK s k v).hart.admitted = s.hart.admitted := by unfold writeK; split <;> rfl
@[simp] theorem writeK_hart_sent (s : State) (k : BitVec 3) (v : Mask) : (writeK s k v).hart.sent = s.hart.sent := by unfold writeK; split <;> rfl
@[simp] theorem writeK_hart_ctrl (s : State) (k : BitVec 3) (v : Mask) : (writeK s k v).hart.ctrl = s.hart.ctrl := by unfold writeK; split <;> rfl
@[simp] theorem writeK_hart_rowBase (s : State) (k : BitVec 3) (v : Mask) : (writeK s k v).hart.rowBase = s.hart.rowBase := by unfold writeK; split <;> rfl
@[simp] theorem writeK_hart_height (s : State) (k : BitVec 3) (v : Mask) : (writeK s k v).hart.height = s.hart.height := by unfold writeK; split <;> rfl
@[simp] theorem writeK_hart_stope (s : State) (k : BitVec 3) (v : Mask) : (writeK s k v).hart.stope = s.hart.stope := by unfold writeK; split <;> rfl
@[simp] theorem writeK_hart_badBits (s : State) (k : BitVec 3) (v : Mask) : (writeK s k v).hart.badBits = s.hart.badBits := by unfold writeK; split <;> rfl
@[simp] theorem writeK_hart_chans (s : State) (k : BitVec 3) (v : Mask) : (writeK s k v).hart.chans = s.hart.chans := by unfold writeK; split <;> rfl
@[simp] theorem writeK_hart_seam (s : State) (k : BitVec 3) (v : Mask) : (writeK s k v).hart.seam = s.hart.seam := by unfold writeK; split <;> rfl
@[simp] theorem writeK_hart_susp (s : State) (k : BitVec 3) (v : Mask) : (writeK s k v).hart.susp = s.hart.susp := by unfold writeK; split <;> rfl
@[simp] theorem writeK_hart_recs (s : State) (k : BitVec 3) (v : Mask) : (writeK s k v).hart.recs = s.hart.recs := by unfold writeK; split <;> rfl
@[simp] theorem writeK_hart_failPages (s : State) (k : BitVec 3) (v : Mask) : (writeK s k v).hart.failPages = s.hart.failPages := by unfold writeK; split <;> rfl
@[simp] theorem writeK_hart_issued (s : State) (k : BitVec 3) (v : Mask) : (writeK s k v).hart.issued = s.hart.issued := by unfold writeK; split <;> rfl
@[simp] theorem writeK_hart_sampled (s : State) (k : BitVec 3) (v : Mask) : (writeK s k v).hart.sampled = s.hart.sampled := by unfold writeK; split <;> rfl
@[simp] theorem writeK_hart_stripStart (s : State) (k : BitVec 3) (v : Mask) : (writeK s k v).hart.stripStart = s.hart.stripStart := by unfold writeK; split <;> rfl
@[simp] theorem writeK_hart_nsusp (s : State) (k : BitVec 3) (v : Mask) : (writeK s k v).hart.nsusp = s.hart.nsusp := by unfold writeK; split <;> rfl
@[simp] theorem writeK_hart_nstop (s : State) (k : BitVec 3) (v : Mask) : (writeK s k v).hart.nstop = s.hart.nstop := by unfold writeK; split <;> rfl
@[simp] theorem writeK_hart_stripIdle (s : State) (k : BitVec 3) (v : Mask) : (writeK s k v).hart.stripIdle = s.hart.stripIdle := by unfold writeK; split <;> rfl
@[simp] theorem writeK_hart_stripWork (s : State) (k : BitVec 3) (v : Mask) : (writeK s k v).hart.stripWork = s.hart.stripWork := by unfold writeK; split <;> rfl

/-! ### `writeW` -/

@[simp] theorem writeW_rest (s : State) (w : Win) (v : Word) : (writeW s w v).rest = s.rest := rfl
@[simp] theorem writeW_mem (s : State) (w : Win) (v : Word) : (writeW s w v).mem = s.mem := rfl
@[simp] theorem writeW_tags (s : State) (w : Win) (v : Word) : (writeW s w v).tags = s.tags := rfl
@[simp] theorem writeW_bad (s : State) (w : Win) (v : Word) : (writeW s w v).bad = s.bad := rfl
@[simp] theorem writeW_dcache (s : State) (w : Win) (v : Word) : (writeW s w v).dcache = s.dcache := rfl
@[simp] theorem writeW_icache (s : State) (w : Win) (v : Word) : (writeW s w v).icache = s.icache := rfl
@[simp] theorem writeW_adapter (s : State) (w : Win) (v : Word) : (writeW s w v).adapter = s.adapter := rfl
@[simp] theorem writeW_contribs (s : State) (w : Win) (v : Word) : (writeW s w v).contribs = s.contribs := rfl
@[simp] theorem writeW_bells (s : State) (w : Win) (v : Word) : (writeW s w v).bells = s.bells := rfl
@[simp] theorem writeW_slotSusp (s : State) (w : Win) (v : Word) : (writeW s w v).slotSusp = s.slotSusp := rfl
@[simp] theorem writeW_filter (s : State) (w : Win) (v : Word) : (writeW s w v).filter = s.filter := rfl
@[simp] theorem writeW_evicted (s : State) (w : Win) (v : Word) : (writeW s w v).evicted = s.evicted := rfl
@[simp] theorem writeW_gangOwner (s : State) (w : Win) (v : Word) : (writeW s w v).gangOwner = s.gangOwner := rfl
@[simp] theorem writeW_sumpOwner (s : State) (w : Win) (v : Word) : (writeW s w v).sumpOwner = s.sumpOwner := rfl
@[simp] theorem writeW_parts (s : State) (w : Win) (v : Word) : (writeW s w v).parts = s.parts := rfl
@[simp] theorem writeW_engines (s : State) (w : Win) (v : Word) : (writeW s w v).engines = s.engines := rfl
@[simp] theorem writeW_dies (s : State) (w : Win) (v : Word) : (writeW s w v).dies = s.dies := rfl
@[simp] theorem writeW_jobs (s : State) (w : Win) (v : Word) : (writeW s w v).jobs = s.jobs := rfl
@[simp] theorem writeW_launches (s : State) (w : Win) (v : Word) : (writeW s w v).launches = s.launches := rfl
@[simp] theorem writeW_accepted (s : State) (w : Win) (v : Word) : (writeW s w v).accepted = s.accepted := rfl
@[simp] theorem writeW_msgs (s : State) (w : Win) (v : Word) : (writeW s w v).msgs = s.msgs := rfl
@[simp] theorem writeW_crosscut (s : State) (w : Win) (v : Word) : (writeW s w v).crosscut = s.crosscut := rfl
@[simp] theorem writeW_cutting (s : State) (w : Win) (v : Word) : (writeW s w v).cutting = s.cutting := rfl
@[simp] theorem writeW_fwaddr (s : State) (w : Win) (v : Word) : (writeW s w v).fwaddr = s.fwaddr := rfl
@[simp] theorem writeW_fwlen (s : State) (w : Win) (v : Word) : (writeW s w v).fwlen = s.fwlen := rfl
@[simp] theorem writeW_fwState (s : State) (w : Win) (v : Word) : (writeW s w v).fwState = s.fwState := rfl
@[simp] theorem writeW_fwReason (s : State) (w : Win) (v : Word) : (writeW s w v).fwReason = s.fwReason := rfl
@[simp] theorem writeW_fwHalted (s : State) (w : Win) (v : Word) : (writeW s w v).fwHalted = s.fwHalted := rfl
@[simp] theorem writeW_measured (s : State) (w : Win) (v : Word) : (writeW s w v).measured = s.measured := rfl
@[simp] theorem writeW_session (s : State) (w : Win) (v : Word) : (writeW s w v).session = s.session := rfl
@[simp] theorem writeW_streams (s : State) (w : Win) (v : Word) : (writeW s w v).streams = s.streams := rfl
@[simp] theorem writeW_telbase (s : State) (w : Win) (v : Word) : (writeW s w v).telbase = s.telbase := rfl
@[simp] theorem writeW_telctl (s : State) (w : Win) (v : Word) : (writeW s w v).telctl = s.telctl := rfl
@[simp] theorem writeW_hostMem (s : State) (w : Win) (v : Word) : (writeW s w v).hostMem = s.hostMem := rfl
@[simp] theorem writeW_pageMsgs (s : State) (w : Win) (v : Word) : (writeW s w v).pageMsgs = s.pageMsgs := rfl
@[simp] theorem writeW_interrupts (s : State) (w : Win) (v : Word) : (writeW s w v).interrupts = s.interrupts := rfl
@[simp] theorem writeW_replies (s : State) (w : Win) (v : Word) : (writeW s w v).replies = s.replies := rfl
@[simp] theorem writeW_turns (s : State) (w : Win) (v : Word) : (writeW s w v).turns = s.turns := rfl
@[simp] theorem writeW_hits (s : State) (w : Win) (v : Word) : (writeW s w v).hits = s.hits := rfl
@[simp] theorem writeW_fetchHits (s : State) (w : Win) (v : Word) : (writeW s w v).fetchHits = s.fetchHits := rfl
@[simp] theorem writeW_lateFills (s : State) (w : Win) (v : Word) : (writeW s w v).lateFills = s.lateFills := rfl
@[simp] theorem writeW_tick (s : State) (w : Win) (v : Word) : (writeW s w v).tick = s.tick := rfl
@[simp] theorem writeW_resetTick (s : State) (w : Win) (v : Word) : (writeW s w v).resetTick = s.resetTick := rfl
@[simp] theorem writeW_hart_core (s : State) (w : Win) (v : Word) : (writeW s w v).hart.core = s.hart.core := rfl
@[simp] theorem writeW_hart_slot (s : State) (w : Win) (v : Word) : (writeW s w v).hart.slot = s.hart.slot := rfl
@[simp] theorem writeW_hart_part (s : State) (w : Win) (v : Word) : (writeW s w v).hart.part = s.hart.part := rfl
@[simp] theorem writeW_hart_serial (s : State) (w : Win) (v : Word) : (writeW s w v).hart.serial = s.hart.serial := rfl
@[simp] theorem writeW_hart_index (s : State) (w : Win) (v : Word) : (writeW s w v).hart.index = s.hart.index := rfl
@[simp] theorem writeW_hart_cls (s : State) (w : Win) (v : Word) : (writeW s w v).hart.cls = s.hart.cls := rfl
@[simp] theorem writeW_hart_nodetect (s : State) (w : Win) (v : Word) : (writeW s w v).hart.nodetect = s.hart.nodetect := rfl
@[simp] theorem writeW_hart_replay (s : State) (w : Win) (v : Word) : (writeW s w v).hart.replay = s.hart.replay := rfl
@[simp] theorem writeW_hart_priv (s : State) (w : Win) (v : Word) : (writeW s w v).hart.priv = s.hart.priv := rfl
@[simp] theorem writeW_hart_pipe (s : State) (w : Win) (v : Word) : (writeW s w v).hart.pipe = s.hart.pipe := rfl
@[simp] theorem writeW_hart_bells (s : State) (w : Win) (v : Word) : (writeW s w v).hart.bells = s.hart.bells := rfl
@[simp] theorem writeW_hart_padOff (s : State) (w : Win) (v : Word) : (writeW s w v).hart.padOff = s.hart.padOff := rfl
@[simp] theorem writeW_hart_padLen (s : State) (w : Win) (v : Word) : (writeW s w v).hart.padLen = s.hart.padLen := rfl
@[simp] theorem writeW_hart_run (s : State) (w : Win) (v : Word) : (writeW s w v).hart.run = s.hart.run := rfl
@[simp] theorem writeW_hart_parked (s : State) (w : Win) (v : Word) : (writeW s w v).hart.parked = s.hart.parked := rfl
@[simp] theorem writeW_hart_yieldsTo (s : State) (w : Win) (v : Word) : (writeW s w v).hart.yieldsTo = s.hart.yieldsTo := rfl
@[simp] theorem writeW_hart_unbegun (s : State) (w : Win) (v : Word) : (writeW s w v).hart.unbegun = s.hart.unbegun := rfl
@[simp] theorem writeW_hart_preempted (s : State) (w : Win) (v : Word) : (writeW s w v).hart.preempted = s.hart.preempted := rfl
@[simp] theorem writeW_hart_swapped (s : State) (w : Win) (v : Word) : (writeW s w v).hart.swapped = s.hart.swapped := rfl
@[simp] theorem writeW_hart_spilled (s : State) (w : Win) (v : Word) : (writeW s w v).hart.spilled = s.hart.spilled := rfl
@[simp] theorem writeW_hart_born (s : State) (w : Win) (v : Word) : (writeW s w v).hart.born = s.hart.born := rfl
@[simp] theorem writeW_hart_stamp (s : State) (w : Win) (v : Word) : (writeW s w v).hart.stamp = s.hart.stamp := rfl
@[simp] theorem writeW_hart_aged (s : State) (w : Win) (v : Word) : (writeW s w v).hart.aged = s.hart.aged := rfl
@[simp] theorem writeW_hart_pc (s : State) (w : Win) (v : Word) : (writeW s w v).hart.pc = s.hart.pc := rfl
@[simp] theorem writeW_hart_gpr (s : State) (w : Win) (v : Word) : (writeW s w v).hart.gpr = s.hart.gpr := rfl
@[simp] theorem writeW_hart_masks (s : State) (w : Win) (v : Word) : (writeW s w v).hart.masks = s.hart.masks := rfl
@[simp] theorem writeW_hart_kd (s : State) (w : Win) (v : Word) : (writeW s w v).hart.kd = s.hart.kd := rfl
@[simp] theorem writeW_hart_convoy (s : State) (w : Win) (v : Word) : (writeW s w v).hart.convoy = s.hart.convoy := rfl
@[simp] theorem writeW_hart_resuming (s : State) (w : Win) (v : Word) : (writeW s w v).hart.resuming = s.hart.resuming := rfl
@[simp] theorem writeW_hart_stands (s : State) (w : Win) (v : Word) : (writeW s w v).hart.stands = s.hart.stands := rfl
@[simp] theorem writeW_hart_admitted (s : State) (w : Win) (v : Word) : (writeW s w v).hart.admitted = s.hart.admitted := rfl
@[simp] theorem writeW_hart_sent (s : State) (w : Win) (v : Word) : (writeW s w v).hart.sent = s.hart.sent := rfl
@[simp] theorem writeW_hart_ctrl (s : State) (w : Win) (v : Word) : (writeW s w v).hart.ctrl = s.hart.ctrl := rfl
@[simp] theorem writeW_hart_rowBase (s : State) (w : Win) (v : Word) : (writeW s w v).hart.rowBase = s.hart.rowBase := rfl
@[simp] theorem writeW_hart_height (s : State) (w : Win) (v : Word) : (writeW s w v).hart.height = s.hart.height := rfl
@[simp] theorem writeW_hart_stope (s : State) (w : Win) (v : Word) : (writeW s w v).hart.stope = s.hart.stope := rfl
@[simp] theorem writeW_hart_badBits (s : State) (w : Win) (v : Word) : (writeW s w v).hart.badBits = s.hart.badBits := rfl
@[simp] theorem writeW_hart_chans (s : State) (w : Win) (v : Word) : (writeW s w v).hart.chans = s.hart.chans := rfl
@[simp] theorem writeW_hart_seam (s : State) (w : Win) (v : Word) : (writeW s w v).hart.seam = s.hart.seam := rfl
@[simp] theorem writeW_hart_susp (s : State) (w : Win) (v : Word) : (writeW s w v).hart.susp = s.hart.susp := rfl
@[simp] theorem writeW_hart_recs (s : State) (w : Win) (v : Word) : (writeW s w v).hart.recs = s.hart.recs := rfl
@[simp] theorem writeW_hart_failPages (s : State) (w : Win) (v : Word) : (writeW s w v).hart.failPages = s.hart.failPages := rfl
@[simp] theorem writeW_hart_issued (s : State) (w : Win) (v : Word) : (writeW s w v).hart.issued = s.hart.issued := rfl
@[simp] theorem writeW_hart_sampled (s : State) (w : Win) (v : Word) : (writeW s w v).hart.sampled = s.hart.sampled := rfl
@[simp] theorem writeW_hart_stripStart (s : State) (w : Win) (v : Word) : (writeW s w v).hart.stripStart = s.hart.stripStart := rfl
@[simp] theorem writeW_hart_nsusp (s : State) (w : Win) (v : Word) : (writeW s w v).hart.nsusp = s.hart.nsusp := rfl
@[simp] theorem writeW_hart_nstop (s : State) (w : Win) (v : Word) : (writeW s w v).hart.nstop = s.hart.nstop := rfl
@[simp] theorem writeW_hart_stripIdle (s : State) (w : Win) (v : Word) : (writeW s w v).hart.stripIdle = s.hart.stripIdle := rfl
@[simp] theorem writeW_hart_stripWork (s : State) (w : Win) (v : Word) : (writeW s w v).hart.stripWork = s.hart.stripWork := rfl

/-! ### `withCtrl` -/

@[simp] theorem withCtrl_rest (s : State) (c : Ctrl) : (withCtrl s c).rest = s.rest := rfl
@[simp] theorem withCtrl_mem (s : State) (c : Ctrl) : (withCtrl s c).mem = s.mem := rfl
@[simp] theorem withCtrl_tags (s : State) (c : Ctrl) : (withCtrl s c).tags = s.tags := rfl
@[simp] theorem withCtrl_bad (s : State) (c : Ctrl) : (withCtrl s c).bad = s.bad := rfl
@[simp] theorem withCtrl_dcache (s : State) (c : Ctrl) : (withCtrl s c).dcache = s.dcache := rfl
@[simp] theorem withCtrl_icache (s : State) (c : Ctrl) : (withCtrl s c).icache = s.icache := rfl
@[simp] theorem withCtrl_adapter (s : State) (c : Ctrl) : (withCtrl s c).adapter = s.adapter := rfl
@[simp] theorem withCtrl_contribs (s : State) (c : Ctrl) : (withCtrl s c).contribs = s.contribs := rfl
@[simp] theorem withCtrl_bells (s : State) (c : Ctrl) : (withCtrl s c).bells = s.bells := rfl
@[simp] theorem withCtrl_slotSusp (s : State) (c : Ctrl) : (withCtrl s c).slotSusp = s.slotSusp := rfl
@[simp] theorem withCtrl_filter (s : State) (c : Ctrl) : (withCtrl s c).filter = s.filter := rfl
@[simp] theorem withCtrl_evicted (s : State) (c : Ctrl) : (withCtrl s c).evicted = s.evicted := rfl
@[simp] theorem withCtrl_gangOwner (s : State) (c : Ctrl) : (withCtrl s c).gangOwner = s.gangOwner := rfl
@[simp] theorem withCtrl_sumpOwner (s : State) (c : Ctrl) : (withCtrl s c).sumpOwner = s.sumpOwner := rfl
@[simp] theorem withCtrl_parts (s : State) (c : Ctrl) : (withCtrl s c).parts = s.parts := rfl
@[simp] theorem withCtrl_engines (s : State) (c : Ctrl) : (withCtrl s c).engines = s.engines := rfl
@[simp] theorem withCtrl_dies (s : State) (c : Ctrl) : (withCtrl s c).dies = s.dies := rfl
@[simp] theorem withCtrl_jobs (s : State) (c : Ctrl) : (withCtrl s c).jobs = s.jobs := rfl
@[simp] theorem withCtrl_launches (s : State) (c : Ctrl) : (withCtrl s c).launches = s.launches := rfl
@[simp] theorem withCtrl_accepted (s : State) (c : Ctrl) : (withCtrl s c).accepted = s.accepted := rfl
@[simp] theorem withCtrl_msgs (s : State) (c : Ctrl) : (withCtrl s c).msgs = s.msgs := rfl
@[simp] theorem withCtrl_crosscut (s : State) (c : Ctrl) : (withCtrl s c).crosscut = s.crosscut := rfl
@[simp] theorem withCtrl_cutting (s : State) (c : Ctrl) : (withCtrl s c).cutting = s.cutting := rfl
@[simp] theorem withCtrl_fwaddr (s : State) (c : Ctrl) : (withCtrl s c).fwaddr = s.fwaddr := rfl
@[simp] theorem withCtrl_fwlen (s : State) (c : Ctrl) : (withCtrl s c).fwlen = s.fwlen := rfl
@[simp] theorem withCtrl_fwState (s : State) (c : Ctrl) : (withCtrl s c).fwState = s.fwState := rfl
@[simp] theorem withCtrl_fwReason (s : State) (c : Ctrl) : (withCtrl s c).fwReason = s.fwReason := rfl
@[simp] theorem withCtrl_fwHalted (s : State) (c : Ctrl) : (withCtrl s c).fwHalted = s.fwHalted := rfl
@[simp] theorem withCtrl_measured (s : State) (c : Ctrl) : (withCtrl s c).measured = s.measured := rfl
@[simp] theorem withCtrl_session (s : State) (c : Ctrl) : (withCtrl s c).session = s.session := rfl
@[simp] theorem withCtrl_streams (s : State) (c : Ctrl) : (withCtrl s c).streams = s.streams := rfl
@[simp] theorem withCtrl_telbase (s : State) (c : Ctrl) : (withCtrl s c).telbase = s.telbase := rfl
@[simp] theorem withCtrl_telctl (s : State) (c : Ctrl) : (withCtrl s c).telctl = s.telctl := rfl
@[simp] theorem withCtrl_hostMem (s : State) (c : Ctrl) : (withCtrl s c).hostMem = s.hostMem := rfl
@[simp] theorem withCtrl_pageMsgs (s : State) (c : Ctrl) : (withCtrl s c).pageMsgs = s.pageMsgs := rfl
@[simp] theorem withCtrl_interrupts (s : State) (c : Ctrl) : (withCtrl s c).interrupts = s.interrupts := rfl
@[simp] theorem withCtrl_replies (s : State) (c : Ctrl) : (withCtrl s c).replies = s.replies := rfl
@[simp] theorem withCtrl_turns (s : State) (c : Ctrl) : (withCtrl s c).turns = s.turns := rfl
@[simp] theorem withCtrl_hits (s : State) (c : Ctrl) : (withCtrl s c).hits = s.hits := rfl
@[simp] theorem withCtrl_fetchHits (s : State) (c : Ctrl) : (withCtrl s c).fetchHits = s.fetchHits := rfl
@[simp] theorem withCtrl_lateFills (s : State) (c : Ctrl) : (withCtrl s c).lateFills = s.lateFills := rfl
@[simp] theorem withCtrl_tick (s : State) (c : Ctrl) : (withCtrl s c).tick = s.tick := rfl
@[simp] theorem withCtrl_resetTick (s : State) (c : Ctrl) : (withCtrl s c).resetTick = s.resetTick := rfl
@[simp] theorem withCtrl_hart_core (s : State) (c : Ctrl) : (withCtrl s c).hart.core = s.hart.core := rfl
@[simp] theorem withCtrl_hart_slot (s : State) (c : Ctrl) : (withCtrl s c).hart.slot = s.hart.slot := rfl
@[simp] theorem withCtrl_hart_part (s : State) (c : Ctrl) : (withCtrl s c).hart.part = s.hart.part := rfl
@[simp] theorem withCtrl_hart_serial (s : State) (c : Ctrl) : (withCtrl s c).hart.serial = s.hart.serial := rfl
@[simp] theorem withCtrl_hart_index (s : State) (c : Ctrl) : (withCtrl s c).hart.index = s.hart.index := rfl
@[simp] theorem withCtrl_hart_cls (s : State) (c : Ctrl) : (withCtrl s c).hart.cls = s.hart.cls := rfl
@[simp] theorem withCtrl_hart_nodetect (s : State) (c : Ctrl) : (withCtrl s c).hart.nodetect = s.hart.nodetect := rfl
@[simp] theorem withCtrl_hart_replay (s : State) (c : Ctrl) : (withCtrl s c).hart.replay = s.hart.replay := rfl
@[simp] theorem withCtrl_hart_priv (s : State) (c : Ctrl) : (withCtrl s c).hart.priv = s.hart.priv := rfl
@[simp] theorem withCtrl_hart_pipe (s : State) (c : Ctrl) : (withCtrl s c).hart.pipe = s.hart.pipe := rfl
@[simp] theorem withCtrl_hart_bells (s : State) (c : Ctrl) : (withCtrl s c).hart.bells = s.hart.bells := rfl
@[simp] theorem withCtrl_hart_padOff (s : State) (c : Ctrl) : (withCtrl s c).hart.padOff = s.hart.padOff := rfl
@[simp] theorem withCtrl_hart_padLen (s : State) (c : Ctrl) : (withCtrl s c).hart.padLen = s.hart.padLen := rfl
@[simp] theorem withCtrl_hart_run (s : State) (c : Ctrl) : (withCtrl s c).hart.run = s.hart.run := rfl
@[simp] theorem withCtrl_hart_parked (s : State) (c : Ctrl) : (withCtrl s c).hart.parked = s.hart.parked := rfl
@[simp] theorem withCtrl_hart_yieldsTo (s : State) (c : Ctrl) : (withCtrl s c).hart.yieldsTo = s.hart.yieldsTo := rfl
@[simp] theorem withCtrl_hart_unbegun (s : State) (c : Ctrl) : (withCtrl s c).hart.unbegun = s.hart.unbegun := rfl
@[simp] theorem withCtrl_hart_preempted (s : State) (c : Ctrl) : (withCtrl s c).hart.preempted = s.hart.preempted := rfl
@[simp] theorem withCtrl_hart_swapped (s : State) (c : Ctrl) : (withCtrl s c).hart.swapped = s.hart.swapped := rfl
@[simp] theorem withCtrl_hart_spilled (s : State) (c : Ctrl) : (withCtrl s c).hart.spilled = s.hart.spilled := rfl
@[simp] theorem withCtrl_hart_born (s : State) (c : Ctrl) : (withCtrl s c).hart.born = s.hart.born := rfl
@[simp] theorem withCtrl_hart_stamp (s : State) (c : Ctrl) : (withCtrl s c).hart.stamp = s.hart.stamp := rfl
@[simp] theorem withCtrl_hart_aged (s : State) (c : Ctrl) : (withCtrl s c).hart.aged = s.hart.aged := rfl
@[simp] theorem withCtrl_hart_pc (s : State) (c : Ctrl) : (withCtrl s c).hart.pc = s.hart.pc := rfl
@[simp] theorem withCtrl_hart_gpr (s : State) (c : Ctrl) : (withCtrl s c).hart.gpr = s.hart.gpr := rfl
@[simp] theorem withCtrl_hart_win (s : State) (c : Ctrl) : (withCtrl s c).hart.win = s.hart.win := rfl
@[simp] theorem withCtrl_hart_masks (s : State) (c : Ctrl) : (withCtrl s c).hart.masks = s.hart.masks := rfl
@[simp] theorem withCtrl_hart_kd (s : State) (c : Ctrl) : (withCtrl s c).hart.kd = s.hart.kd := rfl
@[simp] theorem withCtrl_hart_convoy (s : State) (c : Ctrl) : (withCtrl s c).hart.convoy = s.hart.convoy := rfl
@[simp] theorem withCtrl_hart_resuming (s : State) (c : Ctrl) : (withCtrl s c).hart.resuming = s.hart.resuming := rfl
@[simp] theorem withCtrl_hart_stands (s : State) (c : Ctrl) : (withCtrl s c).hart.stands = s.hart.stands := rfl
@[simp] theorem withCtrl_hart_admitted (s : State) (c : Ctrl) : (withCtrl s c).hart.admitted = s.hart.admitted := rfl
@[simp] theorem withCtrl_hart_sent (s : State) (c : Ctrl) : (withCtrl s c).hart.sent = s.hart.sent := rfl
@[simp] theorem withCtrl_hart_rowBase (s : State) (c : Ctrl) : (withCtrl s c).hart.rowBase = s.hart.rowBase := rfl
@[simp] theorem withCtrl_hart_height (s : State) (c : Ctrl) : (withCtrl s c).hart.height = s.hart.height := rfl
@[simp] theorem withCtrl_hart_stope (s : State) (c : Ctrl) : (withCtrl s c).hart.stope = s.hart.stope := rfl
@[simp] theorem withCtrl_hart_badBits (s : State) (c : Ctrl) : (withCtrl s c).hart.badBits = s.hart.badBits := rfl
@[simp] theorem withCtrl_hart_chans (s : State) (c : Ctrl) : (withCtrl s c).hart.chans = s.hart.chans := rfl
@[simp] theorem withCtrl_hart_seam (s : State) (c : Ctrl) : (withCtrl s c).hart.seam = s.hart.seam := rfl
@[simp] theorem withCtrl_hart_susp (s : State) (c : Ctrl) : (withCtrl s c).hart.susp = s.hart.susp := rfl
@[simp] theorem withCtrl_hart_recs (s : State) (c : Ctrl) : (withCtrl s c).hart.recs = s.hart.recs := rfl
@[simp] theorem withCtrl_hart_failPages (s : State) (c : Ctrl) : (withCtrl s c).hart.failPages = s.hart.failPages := rfl
@[simp] theorem withCtrl_hart_issued (s : State) (c : Ctrl) : (withCtrl s c).hart.issued = s.hart.issued := rfl
@[simp] theorem withCtrl_hart_sampled (s : State) (c : Ctrl) : (withCtrl s c).hart.sampled = s.hart.sampled := rfl
@[simp] theorem withCtrl_hart_stripStart (s : State) (c : Ctrl) : (withCtrl s c).hart.stripStart = s.hart.stripStart := rfl
@[simp] theorem withCtrl_hart_nsusp (s : State) (c : Ctrl) : (withCtrl s c).hart.nsusp = s.hart.nsusp := rfl
@[simp] theorem withCtrl_hart_nstop (s : State) (c : Ctrl) : (withCtrl s c).hart.nstop = s.hart.nstop := rfl
@[simp] theorem withCtrl_hart_stripIdle (s : State) (c : Ctrl) : (withCtrl s c).hart.stripIdle = s.hart.stripIdle := rfl
@[simp] theorem withCtrl_hart_stripWork (s : State) (c : Ctrl) : (withCtrl s c).hart.stripWork = s.hart.stripWork := rfl
@[simp] theorem withCtrl_hart_ctrl (s : State) (c : Ctrl) : (withCtrl s c).hart.ctrl = c := rfl

/-! ### `jumpTo` -/

@[simp] theorem jumpTo_rest (s : State) (a : BitVec 48) : (jumpTo s a).rest = s.rest := rfl
@[simp] theorem jumpTo_mem (s : State) (a : BitVec 48) : (jumpTo s a).mem = s.mem := rfl
@[simp] theorem jumpTo_tags (s : State) (a : BitVec 48) : (jumpTo s a).tags = s.tags := rfl
@[simp] theorem jumpTo_bad (s : State) (a : BitVec 48) : (jumpTo s a).bad = s.bad := rfl
@[simp] theorem jumpTo_dcache (s : State) (a : BitVec 48) : (jumpTo s a).dcache = s.dcache := rfl
@[simp] theorem jumpTo_icache (s : State) (a : BitVec 48) : (jumpTo s a).icache = s.icache := rfl
@[simp] theorem jumpTo_adapter (s : State) (a : BitVec 48) : (jumpTo s a).adapter = s.adapter := rfl
@[simp] theorem jumpTo_contribs (s : State) (a : BitVec 48) : (jumpTo s a).contribs = s.contribs := rfl
@[simp] theorem jumpTo_bells (s : State) (a : BitVec 48) : (jumpTo s a).bells = s.bells := rfl
@[simp] theorem jumpTo_slotSusp (s : State) (a : BitVec 48) : (jumpTo s a).slotSusp = s.slotSusp := rfl
@[simp] theorem jumpTo_filter (s : State) (a : BitVec 48) : (jumpTo s a).filter = s.filter := rfl
@[simp] theorem jumpTo_evicted (s : State) (a : BitVec 48) : (jumpTo s a).evicted = s.evicted := rfl
@[simp] theorem jumpTo_gangOwner (s : State) (a : BitVec 48) : (jumpTo s a).gangOwner = s.gangOwner := rfl
@[simp] theorem jumpTo_sumpOwner (s : State) (a : BitVec 48) : (jumpTo s a).sumpOwner = s.sumpOwner := rfl
@[simp] theorem jumpTo_parts (s : State) (a : BitVec 48) : (jumpTo s a).parts = s.parts := rfl
@[simp] theorem jumpTo_engines (s : State) (a : BitVec 48) : (jumpTo s a).engines = s.engines := rfl
@[simp] theorem jumpTo_dies (s : State) (a : BitVec 48) : (jumpTo s a).dies = s.dies := rfl
@[simp] theorem jumpTo_jobs (s : State) (a : BitVec 48) : (jumpTo s a).jobs = s.jobs := rfl
@[simp] theorem jumpTo_launches (s : State) (a : BitVec 48) : (jumpTo s a).launches = s.launches := rfl
@[simp] theorem jumpTo_accepted (s : State) (a : BitVec 48) : (jumpTo s a).accepted = s.accepted := rfl
@[simp] theorem jumpTo_msgs (s : State) (a : BitVec 48) : (jumpTo s a).msgs = s.msgs := rfl
@[simp] theorem jumpTo_crosscut (s : State) (a : BitVec 48) : (jumpTo s a).crosscut = s.crosscut := rfl
@[simp] theorem jumpTo_cutting (s : State) (a : BitVec 48) : (jumpTo s a).cutting = s.cutting := rfl
@[simp] theorem jumpTo_fwaddr (s : State) (a : BitVec 48) : (jumpTo s a).fwaddr = s.fwaddr := rfl
@[simp] theorem jumpTo_fwlen (s : State) (a : BitVec 48) : (jumpTo s a).fwlen = s.fwlen := rfl
@[simp] theorem jumpTo_fwState (s : State) (a : BitVec 48) : (jumpTo s a).fwState = s.fwState := rfl
@[simp] theorem jumpTo_fwReason (s : State) (a : BitVec 48) : (jumpTo s a).fwReason = s.fwReason := rfl
@[simp] theorem jumpTo_fwHalted (s : State) (a : BitVec 48) : (jumpTo s a).fwHalted = s.fwHalted := rfl
@[simp] theorem jumpTo_measured (s : State) (a : BitVec 48) : (jumpTo s a).measured = s.measured := rfl
@[simp] theorem jumpTo_session (s : State) (a : BitVec 48) : (jumpTo s a).session = s.session := rfl
@[simp] theorem jumpTo_streams (s : State) (a : BitVec 48) : (jumpTo s a).streams = s.streams := rfl
@[simp] theorem jumpTo_telbase (s : State) (a : BitVec 48) : (jumpTo s a).telbase = s.telbase := rfl
@[simp] theorem jumpTo_telctl (s : State) (a : BitVec 48) : (jumpTo s a).telctl = s.telctl := rfl
@[simp] theorem jumpTo_hostMem (s : State) (a : BitVec 48) : (jumpTo s a).hostMem = s.hostMem := rfl
@[simp] theorem jumpTo_pageMsgs (s : State) (a : BitVec 48) : (jumpTo s a).pageMsgs = s.pageMsgs := rfl
@[simp] theorem jumpTo_interrupts (s : State) (a : BitVec 48) : (jumpTo s a).interrupts = s.interrupts := rfl
@[simp] theorem jumpTo_replies (s : State) (a : BitVec 48) : (jumpTo s a).replies = s.replies := rfl
@[simp] theorem jumpTo_turns (s : State) (a : BitVec 48) : (jumpTo s a).turns = s.turns := rfl
@[simp] theorem jumpTo_hits (s : State) (a : BitVec 48) : (jumpTo s a).hits = s.hits := rfl
@[simp] theorem jumpTo_fetchHits (s : State) (a : BitVec 48) : (jumpTo s a).fetchHits = s.fetchHits := rfl
@[simp] theorem jumpTo_lateFills (s : State) (a : BitVec 48) : (jumpTo s a).lateFills = s.lateFills := rfl
@[simp] theorem jumpTo_tick (s : State) (a : BitVec 48) : (jumpTo s a).tick = s.tick := rfl
@[simp] theorem jumpTo_resetTick (s : State) (a : BitVec 48) : (jumpTo s a).resetTick = s.resetTick := rfl
@[simp] theorem jumpTo_hart_core (s : State) (a : BitVec 48) : (jumpTo s a).hart.core = s.hart.core := rfl
@[simp] theorem jumpTo_hart_slot (s : State) (a : BitVec 48) : (jumpTo s a).hart.slot = s.hart.slot := rfl
@[simp] theorem jumpTo_hart_part (s : State) (a : BitVec 48) : (jumpTo s a).hart.part = s.hart.part := rfl
@[simp] theorem jumpTo_hart_serial (s : State) (a : BitVec 48) : (jumpTo s a).hart.serial = s.hart.serial := rfl
@[simp] theorem jumpTo_hart_index (s : State) (a : BitVec 48) : (jumpTo s a).hart.index = s.hart.index := rfl
@[simp] theorem jumpTo_hart_cls (s : State) (a : BitVec 48) : (jumpTo s a).hart.cls = s.hart.cls := rfl
@[simp] theorem jumpTo_hart_nodetect (s : State) (a : BitVec 48) : (jumpTo s a).hart.nodetect = s.hart.nodetect := rfl
@[simp] theorem jumpTo_hart_replay (s : State) (a : BitVec 48) : (jumpTo s a).hart.replay = s.hart.replay := rfl
@[simp] theorem jumpTo_hart_priv (s : State) (a : BitVec 48) : (jumpTo s a).hart.priv = s.hart.priv := rfl
@[simp] theorem jumpTo_hart_pipe (s : State) (a : BitVec 48) : (jumpTo s a).hart.pipe = s.hart.pipe := rfl
@[simp] theorem jumpTo_hart_bells (s : State) (a : BitVec 48) : (jumpTo s a).hart.bells = s.hart.bells := rfl
@[simp] theorem jumpTo_hart_padOff (s : State) (a : BitVec 48) : (jumpTo s a).hart.padOff = s.hart.padOff := rfl
@[simp] theorem jumpTo_hart_padLen (s : State) (a : BitVec 48) : (jumpTo s a).hart.padLen = s.hart.padLen := rfl
@[simp] theorem jumpTo_hart_run (s : State) (a : BitVec 48) : (jumpTo s a).hart.run = s.hart.run := rfl
@[simp] theorem jumpTo_hart_parked (s : State) (a : BitVec 48) : (jumpTo s a).hart.parked = s.hart.parked := rfl
@[simp] theorem jumpTo_hart_yieldsTo (s : State) (a : BitVec 48) : (jumpTo s a).hart.yieldsTo = s.hart.yieldsTo := rfl
@[simp] theorem jumpTo_hart_unbegun (s : State) (a : BitVec 48) : (jumpTo s a).hart.unbegun = s.hart.unbegun := rfl
@[simp] theorem jumpTo_hart_preempted (s : State) (a : BitVec 48) : (jumpTo s a).hart.preempted = s.hart.preempted := rfl
@[simp] theorem jumpTo_hart_swapped (s : State) (a : BitVec 48) : (jumpTo s a).hart.swapped = s.hart.swapped := rfl
@[simp] theorem jumpTo_hart_spilled (s : State) (a : BitVec 48) : (jumpTo s a).hart.spilled = s.hart.spilled := rfl
@[simp] theorem jumpTo_hart_born (s : State) (a : BitVec 48) : (jumpTo s a).hart.born = s.hart.born := rfl
@[simp] theorem jumpTo_hart_stamp (s : State) (a : BitVec 48) : (jumpTo s a).hart.stamp = s.hart.stamp := rfl
@[simp] theorem jumpTo_hart_aged (s : State) (a : BitVec 48) : (jumpTo s a).hart.aged = s.hart.aged := rfl
@[simp] theorem jumpTo_hart_gpr (s : State) (a : BitVec 48) : (jumpTo s a).hart.gpr = s.hart.gpr := rfl
@[simp] theorem jumpTo_hart_win (s : State) (a : BitVec 48) : (jumpTo s a).hart.win = s.hart.win := rfl
@[simp] theorem jumpTo_hart_masks (s : State) (a : BitVec 48) : (jumpTo s a).hart.masks = s.hart.masks := rfl
@[simp] theorem jumpTo_hart_kd (s : State) (a : BitVec 48) : (jumpTo s a).hart.kd = s.hart.kd := rfl
@[simp] theorem jumpTo_hart_convoy (s : State) (a : BitVec 48) : (jumpTo s a).hart.convoy = s.hart.convoy := rfl
@[simp] theorem jumpTo_hart_resuming (s : State) (a : BitVec 48) : (jumpTo s a).hart.resuming = s.hart.resuming := rfl
@[simp] theorem jumpTo_hart_stands (s : State) (a : BitVec 48) : (jumpTo s a).hart.stands = s.hart.stands := rfl
@[simp] theorem jumpTo_hart_admitted (s : State) (a : BitVec 48) : (jumpTo s a).hart.admitted = s.hart.admitted := rfl
@[simp] theorem jumpTo_hart_sent (s : State) (a : BitVec 48) : (jumpTo s a).hart.sent = s.hart.sent := rfl
@[simp] theorem jumpTo_hart_ctrl (s : State) (a : BitVec 48) : (jumpTo s a).hart.ctrl = s.hart.ctrl := rfl
@[simp] theorem jumpTo_hart_rowBase (s : State) (a : BitVec 48) : (jumpTo s a).hart.rowBase = s.hart.rowBase := rfl
@[simp] theorem jumpTo_hart_height (s : State) (a : BitVec 48) : (jumpTo s a).hart.height = s.hart.height := rfl
@[simp] theorem jumpTo_hart_stope (s : State) (a : BitVec 48) : (jumpTo s a).hart.stope = s.hart.stope := rfl
@[simp] theorem jumpTo_hart_badBits (s : State) (a : BitVec 48) : (jumpTo s a).hart.badBits = s.hart.badBits := rfl
@[simp] theorem jumpTo_hart_chans (s : State) (a : BitVec 48) : (jumpTo s a).hart.chans = s.hart.chans := rfl
@[simp] theorem jumpTo_hart_seam (s : State) (a : BitVec 48) : (jumpTo s a).hart.seam = s.hart.seam := rfl
@[simp] theorem jumpTo_hart_susp (s : State) (a : BitVec 48) : (jumpTo s a).hart.susp = s.hart.susp := rfl
@[simp] theorem jumpTo_hart_recs (s : State) (a : BitVec 48) : (jumpTo s a).hart.recs = s.hart.recs := rfl
@[simp] theorem jumpTo_hart_failPages (s : State) (a : BitVec 48) : (jumpTo s a).hart.failPages = s.hart.failPages := rfl
@[simp] theorem jumpTo_hart_issued (s : State) (a : BitVec 48) : (jumpTo s a).hart.issued = s.hart.issued := rfl
@[simp] theorem jumpTo_hart_sampled (s : State) (a : BitVec 48) : (jumpTo s a).hart.sampled = s.hart.sampled := rfl
@[simp] theorem jumpTo_hart_stripStart (s : State) (a : BitVec 48) : (jumpTo s a).hart.stripStart = s.hart.stripStart := rfl
@[simp] theorem jumpTo_hart_nsusp (s : State) (a : BitVec 48) : (jumpTo s a).hart.nsusp = s.hart.nsusp := rfl
@[simp] theorem jumpTo_hart_nstop (s : State) (a : BitVec 48) : (jumpTo s a).hart.nstop = s.hart.nstop := rfl
@[simp] theorem jumpTo_hart_stripIdle (s : State) (a : BitVec 48) : (jumpTo s a).hart.stripIdle = s.hart.stripIdle := rfl
@[simp] theorem jumpTo_hart_stripWork (s : State) (a : BitVec 48) : (jumpTo s a).hart.stripWork = s.hart.stripWork := rfl
@[simp] theorem jumpTo_hart_pc (s : State) (a : BitVec 48) : (jumpTo s a).hart.pc = a := rfl

/-! ### `endConvoy` -/

@[simp] theorem endConvoy_rest (s : State) : (endConvoy s).rest = s.rest := rfl
@[simp] theorem endConvoy_mem (s : State) : (endConvoy s).mem = s.mem := rfl
@[simp] theorem endConvoy_tags (s : State) : (endConvoy s).tags = s.tags := rfl
@[simp] theorem endConvoy_bad (s : State) : (endConvoy s).bad = s.bad := rfl
@[simp] theorem endConvoy_dcache (s : State) : (endConvoy s).dcache = s.dcache := rfl
@[simp] theorem endConvoy_icache (s : State) : (endConvoy s).icache = s.icache := rfl
@[simp] theorem endConvoy_adapter (s : State) : (endConvoy s).adapter = s.adapter := rfl
@[simp] theorem endConvoy_contribs (s : State) : (endConvoy s).contribs = s.contribs := rfl
@[simp] theorem endConvoy_bells (s : State) : (endConvoy s).bells = s.bells := rfl
@[simp] theorem endConvoy_slotSusp (s : State) : (endConvoy s).slotSusp = s.slotSusp := rfl
@[simp] theorem endConvoy_filter (s : State) : (endConvoy s).filter = s.filter := rfl
@[simp] theorem endConvoy_evicted (s : State) : (endConvoy s).evicted = s.evicted := rfl
@[simp] theorem endConvoy_gangOwner (s : State) : (endConvoy s).gangOwner = s.gangOwner := rfl
@[simp] theorem endConvoy_sumpOwner (s : State) : (endConvoy s).sumpOwner = s.sumpOwner := rfl
@[simp] theorem endConvoy_parts (s : State) : (endConvoy s).parts = s.parts := rfl
@[simp] theorem endConvoy_engines (s : State) : (endConvoy s).engines = s.engines := rfl
@[simp] theorem endConvoy_dies (s : State) : (endConvoy s).dies = s.dies := rfl
@[simp] theorem endConvoy_jobs (s : State) : (endConvoy s).jobs = s.jobs := rfl
@[simp] theorem endConvoy_launches (s : State) : (endConvoy s).launches = s.launches := rfl
@[simp] theorem endConvoy_accepted (s : State) : (endConvoy s).accepted = s.accepted := rfl
@[simp] theorem endConvoy_msgs (s : State) : (endConvoy s).msgs = s.msgs := rfl
@[simp] theorem endConvoy_crosscut (s : State) : (endConvoy s).crosscut = s.crosscut := rfl
@[simp] theorem endConvoy_cutting (s : State) : (endConvoy s).cutting = s.cutting := rfl
@[simp] theorem endConvoy_fwaddr (s : State) : (endConvoy s).fwaddr = s.fwaddr := rfl
@[simp] theorem endConvoy_fwlen (s : State) : (endConvoy s).fwlen = s.fwlen := rfl
@[simp] theorem endConvoy_fwState (s : State) : (endConvoy s).fwState = s.fwState := rfl
@[simp] theorem endConvoy_fwReason (s : State) : (endConvoy s).fwReason = s.fwReason := rfl
@[simp] theorem endConvoy_fwHalted (s : State) : (endConvoy s).fwHalted = s.fwHalted := rfl
@[simp] theorem endConvoy_measured (s : State) : (endConvoy s).measured = s.measured := rfl
@[simp] theorem endConvoy_session (s : State) : (endConvoy s).session = s.session := rfl
@[simp] theorem endConvoy_streams (s : State) : (endConvoy s).streams = s.streams := rfl
@[simp] theorem endConvoy_telbase (s : State) : (endConvoy s).telbase = s.telbase := rfl
@[simp] theorem endConvoy_telctl (s : State) : (endConvoy s).telctl = s.telctl := rfl
@[simp] theorem endConvoy_hostMem (s : State) : (endConvoy s).hostMem = s.hostMem := rfl
@[simp] theorem endConvoy_pageMsgs (s : State) : (endConvoy s).pageMsgs = s.pageMsgs := rfl
@[simp] theorem endConvoy_interrupts (s : State) : (endConvoy s).interrupts = s.interrupts := rfl
@[simp] theorem endConvoy_replies (s : State) : (endConvoy s).replies = s.replies := rfl
@[simp] theorem endConvoy_turns (s : State) : (endConvoy s).turns = s.turns := rfl
@[simp] theorem endConvoy_hits (s : State) : (endConvoy s).hits = s.hits := rfl
@[simp] theorem endConvoy_fetchHits (s : State) : (endConvoy s).fetchHits = s.fetchHits := rfl
@[simp] theorem endConvoy_lateFills (s : State) : (endConvoy s).lateFills = s.lateFills := rfl
@[simp] theorem endConvoy_tick (s : State) : (endConvoy s).tick = s.tick := rfl
@[simp] theorem endConvoy_resetTick (s : State) : (endConvoy s).resetTick = s.resetTick := rfl
@[simp] theorem endConvoy_hart_core (s : State) : (endConvoy s).hart.core = s.hart.core := rfl
@[simp] theorem endConvoy_hart_slot (s : State) : (endConvoy s).hart.slot = s.hart.slot := rfl
@[simp] theorem endConvoy_hart_part (s : State) : (endConvoy s).hart.part = s.hart.part := rfl
@[simp] theorem endConvoy_hart_serial (s : State) : (endConvoy s).hart.serial = s.hart.serial := rfl
@[simp] theorem endConvoy_hart_index (s : State) : (endConvoy s).hart.index = s.hart.index := rfl
@[simp] theorem endConvoy_hart_cls (s : State) : (endConvoy s).hart.cls = s.hart.cls := rfl
@[simp] theorem endConvoy_hart_nodetect (s : State) : (endConvoy s).hart.nodetect = s.hart.nodetect := rfl
@[simp] theorem endConvoy_hart_replay (s : State) : (endConvoy s).hart.replay = s.hart.replay := rfl
@[simp] theorem endConvoy_hart_priv (s : State) : (endConvoy s).hart.priv = s.hart.priv := rfl
@[simp] theorem endConvoy_hart_pipe (s : State) : (endConvoy s).hart.pipe = s.hart.pipe := rfl
@[simp] theorem endConvoy_hart_bells (s : State) : (endConvoy s).hart.bells = s.hart.bells := rfl
@[simp] theorem endConvoy_hart_padOff (s : State) : (endConvoy s).hart.padOff = s.hart.padOff := rfl
@[simp] theorem endConvoy_hart_padLen (s : State) : (endConvoy s).hart.padLen = s.hart.padLen := rfl
@[simp] theorem endConvoy_hart_run (s : State) : (endConvoy s).hart.run = s.hart.run := rfl
@[simp] theorem endConvoy_hart_parked (s : State) : (endConvoy s).hart.parked = s.hart.parked := rfl
@[simp] theorem endConvoy_hart_yieldsTo (s : State) : (endConvoy s).hart.yieldsTo = s.hart.yieldsTo := rfl
@[simp] theorem endConvoy_hart_unbegun (s : State) : (endConvoy s).hart.unbegun = s.hart.unbegun := rfl
@[simp] theorem endConvoy_hart_preempted (s : State) : (endConvoy s).hart.preempted = s.hart.preempted := rfl
@[simp] theorem endConvoy_hart_swapped (s : State) : (endConvoy s).hart.swapped = s.hart.swapped := rfl
@[simp] theorem endConvoy_hart_spilled (s : State) : (endConvoy s).hart.spilled = s.hart.spilled := rfl
@[simp] theorem endConvoy_hart_born (s : State) : (endConvoy s).hart.born = s.hart.born := rfl
@[simp] theorem endConvoy_hart_stamp (s : State) : (endConvoy s).hart.stamp = s.hart.stamp := rfl
@[simp] theorem endConvoy_hart_aged (s : State) : (endConvoy s).hart.aged = s.hart.aged := rfl
@[simp] theorem endConvoy_hart_pc (s : State) : (endConvoy s).hart.pc = s.hart.pc := rfl
@[simp] theorem endConvoy_hart_gpr (s : State) : (endConvoy s).hart.gpr = s.hart.gpr := rfl
@[simp] theorem endConvoy_hart_win (s : State) : (endConvoy s).hart.win = s.hart.win := rfl
@[simp] theorem endConvoy_hart_masks (s : State) : (endConvoy s).hart.masks = s.hart.masks := rfl
@[simp] theorem endConvoy_hart_kd (s : State) : (endConvoy s).hart.kd = s.hart.kd := rfl
@[simp] theorem endConvoy_hart_resuming (s : State) : (endConvoy s).hart.resuming = s.hart.resuming := rfl
@[simp] theorem endConvoy_hart_stands (s : State) : (endConvoy s).hart.stands = s.hart.stands := rfl
@[simp] theorem endConvoy_hart_admitted (s : State) : (endConvoy s).hart.admitted = s.hart.admitted := rfl
@[simp] theorem endConvoy_hart_sent (s : State) : (endConvoy s).hart.sent = s.hart.sent := rfl
@[simp] theorem endConvoy_hart_ctrl (s : State) : (endConvoy s).hart.ctrl = s.hart.ctrl := rfl
@[simp] theorem endConvoy_hart_rowBase (s : State) : (endConvoy s).hart.rowBase = s.hart.rowBase := rfl
@[simp] theorem endConvoy_hart_height (s : State) : (endConvoy s).hart.height = s.hart.height := rfl
@[simp] theorem endConvoy_hart_stope (s : State) : (endConvoy s).hart.stope = s.hart.stope := rfl
@[simp] theorem endConvoy_hart_badBits (s : State) : (endConvoy s).hart.badBits = s.hart.badBits := rfl
@[simp] theorem endConvoy_hart_chans (s : State) : (endConvoy s).hart.chans = s.hart.chans := rfl
@[simp] theorem endConvoy_hart_seam (s : State) : (endConvoy s).hart.seam = s.hart.seam := rfl
@[simp] theorem endConvoy_hart_susp (s : State) : (endConvoy s).hart.susp = s.hart.susp := rfl
@[simp] theorem endConvoy_hart_recs (s : State) : (endConvoy s).hart.recs = s.hart.recs := rfl
@[simp] theorem endConvoy_hart_failPages (s : State) : (endConvoy s).hart.failPages = s.hart.failPages := rfl
@[simp] theorem endConvoy_hart_issued (s : State) : (endConvoy s).hart.issued = s.hart.issued := rfl
@[simp] theorem endConvoy_hart_sampled (s : State) : (endConvoy s).hart.sampled = s.hart.sampled := rfl
@[simp] theorem endConvoy_hart_stripStart (s : State) : (endConvoy s).hart.stripStart = s.hart.stripStart := rfl
@[simp] theorem endConvoy_hart_nsusp (s : State) : (endConvoy s).hart.nsusp = s.hart.nsusp := rfl
@[simp] theorem endConvoy_hart_nstop (s : State) : (endConvoy s).hart.nstop = s.hart.nstop := rfl
@[simp] theorem endConvoy_hart_stripIdle (s : State) : (endConvoy s).hart.stripIdle = s.hart.stripIdle := rfl
@[simp] theorem endConvoy_hart_stripWork (s : State) : (endConvoy s).hart.stripWork = s.hart.stripWork := rfl
@[simp] theorem endConvoy_hart_convoy (s : State) : (endConvoy s).hart.convoy = .ended := rfl

/-! ### `advance` -/

@[simp] theorem advance_rest (s : State) : (advance s).rest = s.rest := rfl
@[simp] theorem advance_mem (s : State) : (advance s).mem = s.mem := rfl
@[simp] theorem advance_tags (s : State) : (advance s).tags = s.tags := rfl
@[simp] theorem advance_bad (s : State) : (advance s).bad = s.bad := rfl
@[simp] theorem advance_dcache (s : State) : (advance s).dcache = s.dcache := rfl
@[simp] theorem advance_icache (s : State) : (advance s).icache = s.icache := rfl
@[simp] theorem advance_adapter (s : State) : (advance s).adapter = s.adapter := rfl
@[simp] theorem advance_contribs (s : State) : (advance s).contribs = s.contribs := rfl
@[simp] theorem advance_bells (s : State) : (advance s).bells = s.bells := rfl
@[simp] theorem advance_slotSusp (s : State) : (advance s).slotSusp = s.slotSusp := rfl
@[simp] theorem advance_filter (s : State) : (advance s).filter = s.filter := rfl
@[simp] theorem advance_evicted (s : State) : (advance s).evicted = s.evicted := rfl
@[simp] theorem advance_gangOwner (s : State) : (advance s).gangOwner = s.gangOwner := rfl
@[simp] theorem advance_sumpOwner (s : State) : (advance s).sumpOwner = s.sumpOwner := rfl
@[simp] theorem advance_parts (s : State) : (advance s).parts = s.parts := rfl
@[simp] theorem advance_engines (s : State) : (advance s).engines = s.engines := rfl
@[simp] theorem advance_dies (s : State) : (advance s).dies = s.dies := rfl
@[simp] theorem advance_jobs (s : State) : (advance s).jobs = s.jobs := rfl
@[simp] theorem advance_launches (s : State) : (advance s).launches = s.launches := rfl
@[simp] theorem advance_accepted (s : State) : (advance s).accepted = s.accepted := rfl
@[simp] theorem advance_msgs (s : State) : (advance s).msgs = s.msgs := rfl
@[simp] theorem advance_crosscut (s : State) : (advance s).crosscut = s.crosscut := rfl
@[simp] theorem advance_cutting (s : State) : (advance s).cutting = s.cutting := rfl
@[simp] theorem advance_fwaddr (s : State) : (advance s).fwaddr = s.fwaddr := rfl
@[simp] theorem advance_fwlen (s : State) : (advance s).fwlen = s.fwlen := rfl
@[simp] theorem advance_fwState (s : State) : (advance s).fwState = s.fwState := rfl
@[simp] theorem advance_fwReason (s : State) : (advance s).fwReason = s.fwReason := rfl
@[simp] theorem advance_fwHalted (s : State) : (advance s).fwHalted = s.fwHalted := rfl
@[simp] theorem advance_measured (s : State) : (advance s).measured = s.measured := rfl
@[simp] theorem advance_session (s : State) : (advance s).session = s.session := rfl
@[simp] theorem advance_streams (s : State) : (advance s).streams = s.streams := rfl
@[simp] theorem advance_telbase (s : State) : (advance s).telbase = s.telbase := rfl
@[simp] theorem advance_telctl (s : State) : (advance s).telctl = s.telctl := rfl
@[simp] theorem advance_hostMem (s : State) : (advance s).hostMem = s.hostMem := rfl
@[simp] theorem advance_pageMsgs (s : State) : (advance s).pageMsgs = s.pageMsgs := rfl
@[simp] theorem advance_interrupts (s : State) : (advance s).interrupts = s.interrupts := rfl
@[simp] theorem advance_replies (s : State) : (advance s).replies = s.replies := rfl
@[simp] theorem advance_turns (s : State) : (advance s).turns = s.turns := rfl
@[simp] theorem advance_hits (s : State) : (advance s).hits = s.hits := rfl
@[simp] theorem advance_fetchHits (s : State) : (advance s).fetchHits = s.fetchHits := rfl
@[simp] theorem advance_lateFills (s : State) : (advance s).lateFills = s.lateFills := rfl
@[simp] theorem advance_tick (s : State) : (advance s).tick = s.tick := rfl
@[simp] theorem advance_resetTick (s : State) : (advance s).resetTick = s.resetTick := rfl
@[simp] theorem advance_hart_core (s : State) : (advance s).hart.core = s.hart.core := rfl
@[simp] theorem advance_hart_slot (s : State) : (advance s).hart.slot = s.hart.slot := rfl
@[simp] theorem advance_hart_part (s : State) : (advance s).hart.part = s.hart.part := rfl
@[simp] theorem advance_hart_serial (s : State) : (advance s).hart.serial = s.hart.serial := rfl
@[simp] theorem advance_hart_index (s : State) : (advance s).hart.index = s.hart.index := rfl
@[simp] theorem advance_hart_cls (s : State) : (advance s).hart.cls = s.hart.cls := rfl
@[simp] theorem advance_hart_nodetect (s : State) : (advance s).hart.nodetect = s.hart.nodetect := rfl
@[simp] theorem advance_hart_replay (s : State) : (advance s).hart.replay = s.hart.replay := rfl
@[simp] theorem advance_hart_priv (s : State) : (advance s).hart.priv = s.hart.priv := rfl
@[simp] theorem advance_hart_pipe (s : State) : (advance s).hart.pipe = s.hart.pipe := rfl
@[simp] theorem advance_hart_bells (s : State) : (advance s).hart.bells = s.hart.bells := rfl
@[simp] theorem advance_hart_padOff (s : State) : (advance s).hart.padOff = s.hart.padOff := rfl
@[simp] theorem advance_hart_padLen (s : State) : (advance s).hart.padLen = s.hart.padLen := rfl
@[simp] theorem advance_hart_run (s : State) : (advance s).hart.run = s.hart.run := rfl
@[simp] theorem advance_hart_parked (s : State) : (advance s).hart.parked = s.hart.parked := rfl
@[simp] theorem advance_hart_yieldsTo (s : State) : (advance s).hart.yieldsTo = s.hart.yieldsTo := rfl
@[simp] theorem advance_hart_unbegun (s : State) : (advance s).hart.unbegun = s.hart.unbegun := rfl
@[simp] theorem advance_hart_preempted (s : State) : (advance s).hart.preempted = s.hart.preempted := rfl
@[simp] theorem advance_hart_swapped (s : State) : (advance s).hart.swapped = s.hart.swapped := rfl
@[simp] theorem advance_hart_spilled (s : State) : (advance s).hart.spilled = s.hart.spilled := rfl
@[simp] theorem advance_hart_born (s : State) : (advance s).hart.born = s.hart.born := rfl
@[simp] theorem advance_hart_stamp (s : State) : (advance s).hart.stamp = s.hart.stamp := rfl
@[simp] theorem advance_hart_aged (s : State) : (advance s).hart.aged = s.hart.aged := rfl
@[simp] theorem advance_hart_gpr (s : State) : (advance s).hart.gpr = s.hart.gpr := rfl
@[simp] theorem advance_hart_win (s : State) : (advance s).hart.win = s.hart.win := rfl
@[simp] theorem advance_hart_masks (s : State) : (advance s).hart.masks = s.hart.masks := rfl
@[simp] theorem advance_hart_kd (s : State) : (advance s).hart.kd = s.hart.kd := rfl
@[simp] theorem advance_hart_convoy (s : State) : (advance s).hart.convoy = s.hart.convoy := rfl
@[simp] theorem advance_hart_resuming (s : State) : (advance s).hart.resuming = s.hart.resuming := rfl
@[simp] theorem advance_hart_stands (s : State) : (advance s).hart.stands = s.hart.stands := rfl
@[simp] theorem advance_hart_admitted (s : State) : (advance s).hart.admitted = s.hart.admitted := rfl
@[simp] theorem advance_hart_sent (s : State) : (advance s).hart.sent = s.hart.sent := rfl
@[simp] theorem advance_hart_ctrl (s : State) : (advance s).hart.ctrl = s.hart.ctrl := rfl
@[simp] theorem advance_hart_rowBase (s : State) : (advance s).hart.rowBase = s.hart.rowBase := rfl
@[simp] theorem advance_hart_height (s : State) : (advance s).hart.height = s.hart.height := rfl
@[simp] theorem advance_hart_stope (s : State) : (advance s).hart.stope = s.hart.stope := rfl
@[simp] theorem advance_hart_badBits (s : State) : (advance s).hart.badBits = s.hart.badBits := rfl
@[simp] theorem advance_hart_chans (s : State) : (advance s).hart.chans = s.hart.chans := rfl
@[simp] theorem advance_hart_seam (s : State) : (advance s).hart.seam = s.hart.seam := rfl
@[simp] theorem advance_hart_susp (s : State) : (advance s).hart.susp = s.hart.susp := rfl
@[simp] theorem advance_hart_recs (s : State) : (advance s).hart.recs = s.hart.recs := rfl
@[simp] theorem advance_hart_failPages (s : State) : (advance s).hart.failPages = s.hart.failPages := rfl
@[simp] theorem advance_hart_issued (s : State) : (advance s).hart.issued = s.hart.issued := rfl
@[simp] theorem advance_hart_sampled (s : State) : (advance s).hart.sampled = s.hart.sampled := rfl
@[simp] theorem advance_hart_stripStart (s : State) : (advance s).hart.stripStart = s.hart.stripStart := rfl
@[simp] theorem advance_hart_nsusp (s : State) : (advance s).hart.nsusp = s.hart.nsusp := rfl
@[simp] theorem advance_hart_nstop (s : State) : (advance s).hart.nstop = s.hart.nstop := rfl
@[simp] theorem advance_hart_stripIdle (s : State) : (advance s).hart.stripIdle = s.hart.stripIdle := rfl
@[simp] theorem advance_hart_stripWork (s : State) : (advance s).hart.stripWork = s.hart.stripWork := rfl
@[simp] theorem advance_hart_pc (s : State) : (advance s).hart.pc = s.hart.pc + 4 := rfl

/-! ### `memPut` -/

@[simp] theorem memPut_hart (s : State) (k : Nat) (bs : List Byte) : (memPut s k bs).hart = s.hart := rfl
@[simp] theorem memPut_rest (s : State) (k : Nat) (bs : List Byte) : (memPut s k bs).rest = s.rest := rfl
@[simp] theorem memPut_tags (s : State) (k : Nat) (bs : List Byte) : (memPut s k bs).tags = s.tags := rfl
@[simp] theorem memPut_dcache (s : State) (k : Nat) (bs : List Byte) : (memPut s k bs).dcache = s.dcache := rfl
@[simp] theorem memPut_icache (s : State) (k : Nat) (bs : List Byte) : (memPut s k bs).icache = s.icache := rfl
@[simp] theorem memPut_adapter (s : State) (k : Nat) (bs : List Byte) : (memPut s k bs).adapter = s.adapter := rfl
@[simp] theorem memPut_contribs (s : State) (k : Nat) (bs : List Byte) : (memPut s k bs).contribs = s.contribs := rfl
@[simp] theorem memPut_bells (s : State) (k : Nat) (bs : List Byte) : (memPut s k bs).bells = s.bells := rfl
@[simp] theorem memPut_slotSusp (s : State) (k : Nat) (bs : List Byte) : (memPut s k bs).slotSusp = s.slotSusp := rfl
@[simp] theorem memPut_filter (s : State) (k : Nat) (bs : List Byte) : (memPut s k bs).filter = s.filter := rfl
@[simp] theorem memPut_evicted (s : State) (k : Nat) (bs : List Byte) : (memPut s k bs).evicted = s.evicted := rfl
@[simp] theorem memPut_gangOwner (s : State) (k : Nat) (bs : List Byte) : (memPut s k bs).gangOwner = s.gangOwner := rfl
@[simp] theorem memPut_sumpOwner (s : State) (k : Nat) (bs : List Byte) : (memPut s k bs).sumpOwner = s.sumpOwner := rfl
@[simp] theorem memPut_parts (s : State) (k : Nat) (bs : List Byte) : (memPut s k bs).parts = s.parts := rfl
@[simp] theorem memPut_engines (s : State) (k : Nat) (bs : List Byte) : (memPut s k bs).engines = s.engines := rfl
@[simp] theorem memPut_dies (s : State) (k : Nat) (bs : List Byte) : (memPut s k bs).dies = s.dies := rfl
@[simp] theorem memPut_jobs (s : State) (k : Nat) (bs : List Byte) : (memPut s k bs).jobs = s.jobs := rfl
@[simp] theorem memPut_launches (s : State) (k : Nat) (bs : List Byte) : (memPut s k bs).launches = s.launches := rfl
@[simp] theorem memPut_accepted (s : State) (k : Nat) (bs : List Byte) : (memPut s k bs).accepted = s.accepted := rfl
@[simp] theorem memPut_msgs (s : State) (k : Nat) (bs : List Byte) : (memPut s k bs).msgs = s.msgs := rfl
@[simp] theorem memPut_crosscut (s : State) (k : Nat) (bs : List Byte) : (memPut s k bs).crosscut = s.crosscut := rfl
@[simp] theorem memPut_cutting (s : State) (k : Nat) (bs : List Byte) : (memPut s k bs).cutting = s.cutting := rfl
@[simp] theorem memPut_fwaddr (s : State) (k : Nat) (bs : List Byte) : (memPut s k bs).fwaddr = s.fwaddr := rfl
@[simp] theorem memPut_fwlen (s : State) (k : Nat) (bs : List Byte) : (memPut s k bs).fwlen = s.fwlen := rfl
@[simp] theorem memPut_fwState (s : State) (k : Nat) (bs : List Byte) : (memPut s k bs).fwState = s.fwState := rfl
@[simp] theorem memPut_fwReason (s : State) (k : Nat) (bs : List Byte) : (memPut s k bs).fwReason = s.fwReason := rfl
@[simp] theorem memPut_fwHalted (s : State) (k : Nat) (bs : List Byte) : (memPut s k bs).fwHalted = s.fwHalted := rfl
@[simp] theorem memPut_measured (s : State) (k : Nat) (bs : List Byte) : (memPut s k bs).measured = s.measured := rfl
@[simp] theorem memPut_session (s : State) (k : Nat) (bs : List Byte) : (memPut s k bs).session = s.session := rfl
@[simp] theorem memPut_streams (s : State) (k : Nat) (bs : List Byte) : (memPut s k bs).streams = s.streams := rfl
@[simp] theorem memPut_telbase (s : State) (k : Nat) (bs : List Byte) : (memPut s k bs).telbase = s.telbase := rfl
@[simp] theorem memPut_telctl (s : State) (k : Nat) (bs : List Byte) : (memPut s k bs).telctl = s.telctl := rfl
@[simp] theorem memPut_hostMem (s : State) (k : Nat) (bs : List Byte) : (memPut s k bs).hostMem = s.hostMem := rfl
@[simp] theorem memPut_pageMsgs (s : State) (k : Nat) (bs : List Byte) : (memPut s k bs).pageMsgs = s.pageMsgs := rfl
@[simp] theorem memPut_interrupts (s : State) (k : Nat) (bs : List Byte) : (memPut s k bs).interrupts = s.interrupts := rfl
@[simp] theorem memPut_replies (s : State) (k : Nat) (bs : List Byte) : (memPut s k bs).replies = s.replies := rfl
@[simp] theorem memPut_turns (s : State) (k : Nat) (bs : List Byte) : (memPut s k bs).turns = s.turns := rfl
@[simp] theorem memPut_hits (s : State) (k : Nat) (bs : List Byte) : (memPut s k bs).hits = s.hits := rfl
@[simp] theorem memPut_fetchHits (s : State) (k : Nat) (bs : List Byte) : (memPut s k bs).fetchHits = s.fetchHits := rfl
@[simp] theorem memPut_lateFills (s : State) (k : Nat) (bs : List Byte) : (memPut s k bs).lateFills = s.lateFills := rfl
@[simp] theorem memPut_tick (s : State) (k : Nat) (bs : List Byte) : (memPut s k bs).tick = s.tick := rfl
@[simp] theorem memPut_resetTick (s : State) (k : Nat) (bs : List Byte) : (memPut s k bs).resetTick = s.resetTick := rfl

/-! ### `setPart` -/

@[simp] theorem setPart_hart (s : State) (p : Nat) (v : Part) : (setPart s p v).hart = s.hart := rfl
@[simp] theorem setPart_rest (s : State) (p : Nat) (v : Part) : (setPart s p v).rest = s.rest := rfl
@[simp] theorem setPart_mem (s : State) (p : Nat) (v : Part) : (setPart s p v).mem = s.mem := rfl
@[simp] theorem setPart_tags (s : State) (p : Nat) (v : Part) : (setPart s p v).tags = s.tags := rfl
@[simp] theorem setPart_bad (s : State) (p : Nat) (v : Part) : (setPart s p v).bad = s.bad := rfl
@[simp] theorem setPart_dcache (s : State) (p : Nat) (v : Part) : (setPart s p v).dcache = s.dcache := rfl
@[simp] theorem setPart_icache (s : State) (p : Nat) (v : Part) : (setPart s p v).icache = s.icache := rfl
@[simp] theorem setPart_adapter (s : State) (p : Nat) (v : Part) : (setPart s p v).adapter = s.adapter := rfl
@[simp] theorem setPart_contribs (s : State) (p : Nat) (v : Part) : (setPart s p v).contribs = s.contribs := rfl
@[simp] theorem setPart_bells (s : State) (p : Nat) (v : Part) : (setPart s p v).bells = s.bells := rfl
@[simp] theorem setPart_slotSusp (s : State) (p : Nat) (v : Part) : (setPart s p v).slotSusp = s.slotSusp := rfl
@[simp] theorem setPart_filter (s : State) (p : Nat) (v : Part) : (setPart s p v).filter = s.filter := rfl
@[simp] theorem setPart_evicted (s : State) (p : Nat) (v : Part) : (setPart s p v).evicted = s.evicted := rfl
@[simp] theorem setPart_gangOwner (s : State) (p : Nat) (v : Part) : (setPart s p v).gangOwner = s.gangOwner := rfl
@[simp] theorem setPart_sumpOwner (s : State) (p : Nat) (v : Part) : (setPart s p v).sumpOwner = s.sumpOwner := rfl
@[simp] theorem setPart_engines (s : State) (p : Nat) (v : Part) : (setPart s p v).engines = s.engines := rfl
@[simp] theorem setPart_dies (s : State) (p : Nat) (v : Part) : (setPart s p v).dies = s.dies := rfl
@[simp] theorem setPart_jobs (s : State) (p : Nat) (v : Part) : (setPart s p v).jobs = s.jobs := rfl
@[simp] theorem setPart_launches (s : State) (p : Nat) (v : Part) : (setPart s p v).launches = s.launches := rfl
@[simp] theorem setPart_accepted (s : State) (p : Nat) (v : Part) : (setPart s p v).accepted = s.accepted := rfl
@[simp] theorem setPart_msgs (s : State) (p : Nat) (v : Part) : (setPart s p v).msgs = s.msgs := rfl
@[simp] theorem setPart_crosscut (s : State) (p : Nat) (v : Part) : (setPart s p v).crosscut = s.crosscut := rfl
@[simp] theorem setPart_cutting (s : State) (p : Nat) (v : Part) : (setPart s p v).cutting = s.cutting := rfl
@[simp] theorem setPart_fwaddr (s : State) (p : Nat) (v : Part) : (setPart s p v).fwaddr = s.fwaddr := rfl
@[simp] theorem setPart_fwlen (s : State) (p : Nat) (v : Part) : (setPart s p v).fwlen = s.fwlen := rfl
@[simp] theorem setPart_fwState (s : State) (p : Nat) (v : Part) : (setPart s p v).fwState = s.fwState := rfl
@[simp] theorem setPart_fwReason (s : State) (p : Nat) (v : Part) : (setPart s p v).fwReason = s.fwReason := rfl
@[simp] theorem setPart_fwHalted (s : State) (p : Nat) (v : Part) : (setPart s p v).fwHalted = s.fwHalted := rfl
@[simp] theorem setPart_measured (s : State) (p : Nat) (v : Part) : (setPart s p v).measured = s.measured := rfl
@[simp] theorem setPart_session (s : State) (p : Nat) (v : Part) : (setPart s p v).session = s.session := rfl
@[simp] theorem setPart_streams (s : State) (p : Nat) (v : Part) : (setPart s p v).streams = s.streams := rfl
@[simp] theorem setPart_telbase (s : State) (p : Nat) (v : Part) : (setPart s p v).telbase = s.telbase := rfl
@[simp] theorem setPart_telctl (s : State) (p : Nat) (v : Part) : (setPart s p v).telctl = s.telctl := rfl
@[simp] theorem setPart_hostMem (s : State) (p : Nat) (v : Part) : (setPart s p v).hostMem = s.hostMem := rfl
@[simp] theorem setPart_pageMsgs (s : State) (p : Nat) (v : Part) : (setPart s p v).pageMsgs = s.pageMsgs := rfl
@[simp] theorem setPart_interrupts (s : State) (p : Nat) (v : Part) : (setPart s p v).interrupts = s.interrupts := rfl
@[simp] theorem setPart_replies (s : State) (p : Nat) (v : Part) : (setPart s p v).replies = s.replies := rfl
@[simp] theorem setPart_turns (s : State) (p : Nat) (v : Part) : (setPart s p v).turns = s.turns := rfl
@[simp] theorem setPart_hits (s : State) (p : Nat) (v : Part) : (setPart s p v).hits = s.hits := rfl
@[simp] theorem setPart_fetchHits (s : State) (p : Nat) (v : Part) : (setPart s p v).fetchHits = s.fetchHits := rfl
@[simp] theorem setPart_lateFills (s : State) (p : Nat) (v : Part) : (setPart s p v).lateFills = s.lateFills := rfl
@[simp] theorem setPart_tick (s : State) (p : Nat) (v : Part) : (setPart s p v).tick = s.tick := rfl
@[simp] theorem setPart_resetTick (s : State) (p : Nat) (v : Part) : (setPart s p v).resetTick = s.resetTick := rfl

/-! ### `setDie` -/

@[simp] theorem setDie_hart (s : State) (d : Nat) (v : Die) : (setDie s d v).hart = s.hart := rfl
@[simp] theorem setDie_rest (s : State) (d : Nat) (v : Die) : (setDie s d v).rest = s.rest := rfl
@[simp] theorem setDie_mem (s : State) (d : Nat) (v : Die) : (setDie s d v).mem = s.mem := rfl
@[simp] theorem setDie_tags (s : State) (d : Nat) (v : Die) : (setDie s d v).tags = s.tags := rfl
@[simp] theorem setDie_bad (s : State) (d : Nat) (v : Die) : (setDie s d v).bad = s.bad := rfl
@[simp] theorem setDie_dcache (s : State) (d : Nat) (v : Die) : (setDie s d v).dcache = s.dcache := rfl
@[simp] theorem setDie_icache (s : State) (d : Nat) (v : Die) : (setDie s d v).icache = s.icache := rfl
@[simp] theorem setDie_adapter (s : State) (d : Nat) (v : Die) : (setDie s d v).adapter = s.adapter := rfl
@[simp] theorem setDie_contribs (s : State) (d : Nat) (v : Die) : (setDie s d v).contribs = s.contribs := rfl
@[simp] theorem setDie_bells (s : State) (d : Nat) (v : Die) : (setDie s d v).bells = s.bells := rfl
@[simp] theorem setDie_slotSusp (s : State) (d : Nat) (v : Die) : (setDie s d v).slotSusp = s.slotSusp := rfl
@[simp] theorem setDie_filter (s : State) (d : Nat) (v : Die) : (setDie s d v).filter = s.filter := rfl
@[simp] theorem setDie_evicted (s : State) (d : Nat) (v : Die) : (setDie s d v).evicted = s.evicted := rfl
@[simp] theorem setDie_gangOwner (s : State) (d : Nat) (v : Die) : (setDie s d v).gangOwner = s.gangOwner := rfl
@[simp] theorem setDie_sumpOwner (s : State) (d : Nat) (v : Die) : (setDie s d v).sumpOwner = s.sumpOwner := rfl
@[simp] theorem setDie_parts (s : State) (d : Nat) (v : Die) : (setDie s d v).parts = s.parts := rfl
@[simp] theorem setDie_engines (s : State) (d : Nat) (v : Die) : (setDie s d v).engines = s.engines := rfl
@[simp] theorem setDie_jobs (s : State) (d : Nat) (v : Die) : (setDie s d v).jobs = s.jobs := rfl
@[simp] theorem setDie_launches (s : State) (d : Nat) (v : Die) : (setDie s d v).launches = s.launches := rfl
@[simp] theorem setDie_accepted (s : State) (d : Nat) (v : Die) : (setDie s d v).accepted = s.accepted := rfl
@[simp] theorem setDie_msgs (s : State) (d : Nat) (v : Die) : (setDie s d v).msgs = s.msgs := rfl
@[simp] theorem setDie_crosscut (s : State) (d : Nat) (v : Die) : (setDie s d v).crosscut = s.crosscut := rfl
@[simp] theorem setDie_cutting (s : State) (d : Nat) (v : Die) : (setDie s d v).cutting = s.cutting := rfl
@[simp] theorem setDie_fwaddr (s : State) (d : Nat) (v : Die) : (setDie s d v).fwaddr = s.fwaddr := rfl
@[simp] theorem setDie_fwlen (s : State) (d : Nat) (v : Die) : (setDie s d v).fwlen = s.fwlen := rfl
@[simp] theorem setDie_fwState (s : State) (d : Nat) (v : Die) : (setDie s d v).fwState = s.fwState := rfl
@[simp] theorem setDie_fwReason (s : State) (d : Nat) (v : Die) : (setDie s d v).fwReason = s.fwReason := rfl
@[simp] theorem setDie_fwHalted (s : State) (d : Nat) (v : Die) : (setDie s d v).fwHalted = s.fwHalted := rfl
@[simp] theorem setDie_measured (s : State) (d : Nat) (v : Die) : (setDie s d v).measured = s.measured := rfl
@[simp] theorem setDie_session (s : State) (d : Nat) (v : Die) : (setDie s d v).session = s.session := rfl
@[simp] theorem setDie_streams (s : State) (d : Nat) (v : Die) : (setDie s d v).streams = s.streams := rfl
@[simp] theorem setDie_telbase (s : State) (d : Nat) (v : Die) : (setDie s d v).telbase = s.telbase := rfl
@[simp] theorem setDie_telctl (s : State) (d : Nat) (v : Die) : (setDie s d v).telctl = s.telctl := rfl
@[simp] theorem setDie_hostMem (s : State) (d : Nat) (v : Die) : (setDie s d v).hostMem = s.hostMem := rfl
@[simp] theorem setDie_pageMsgs (s : State) (d : Nat) (v : Die) : (setDie s d v).pageMsgs = s.pageMsgs := rfl
@[simp] theorem setDie_interrupts (s : State) (d : Nat) (v : Die) : (setDie s d v).interrupts = s.interrupts := rfl
@[simp] theorem setDie_replies (s : State) (d : Nat) (v : Die) : (setDie s d v).replies = s.replies := rfl
@[simp] theorem setDie_turns (s : State) (d : Nat) (v : Die) : (setDie s d v).turns = s.turns := rfl
@[simp] theorem setDie_hits (s : State) (d : Nat) (v : Die) : (setDie s d v).hits = s.hits := rfl
@[simp] theorem setDie_fetchHits (s : State) (d : Nat) (v : Die) : (setDie s d v).fetchHits = s.fetchHits := rfl
@[simp] theorem setDie_lateFills (s : State) (d : Nat) (v : Die) : (setDie s d v).lateFills = s.lateFills := rfl
@[simp] theorem setDie_tick (s : State) (d : Nat) (v : Die) : (setDie s d v).tick = s.tick := rfl
@[simp] theorem setDie_resetTick (s : State) (d : Nat) (v : Die) : (setDie s d v).resetTick = s.resetTick := rfl

/-! ### `setEngine` -/

@[simp] theorem setEngine_hart (s : State) (e : Nat) (v : Engine) : (setEngine s e v).hart = s.hart := rfl
@[simp] theorem setEngine_rest (s : State) (e : Nat) (v : Engine) : (setEngine s e v).rest = s.rest := rfl
@[simp] theorem setEngine_mem (s : State) (e : Nat) (v : Engine) : (setEngine s e v).mem = s.mem := rfl
@[simp] theorem setEngine_tags (s : State) (e : Nat) (v : Engine) : (setEngine s e v).tags = s.tags := rfl
@[simp] theorem setEngine_bad (s : State) (e : Nat) (v : Engine) : (setEngine s e v).bad = s.bad := rfl
@[simp] theorem setEngine_dcache (s : State) (e : Nat) (v : Engine) : (setEngine s e v).dcache = s.dcache := rfl
@[simp] theorem setEngine_icache (s : State) (e : Nat) (v : Engine) : (setEngine s e v).icache = s.icache := rfl
@[simp] theorem setEngine_adapter (s : State) (e : Nat) (v : Engine) : (setEngine s e v).adapter = s.adapter := rfl
@[simp] theorem setEngine_contribs (s : State) (e : Nat) (v : Engine) : (setEngine s e v).contribs = s.contribs := rfl
@[simp] theorem setEngine_bells (s : State) (e : Nat) (v : Engine) : (setEngine s e v).bells = s.bells := rfl
@[simp] theorem setEngine_slotSusp (s : State) (e : Nat) (v : Engine) : (setEngine s e v).slotSusp = s.slotSusp := rfl
@[simp] theorem setEngine_filter (s : State) (e : Nat) (v : Engine) : (setEngine s e v).filter = s.filter := rfl
@[simp] theorem setEngine_evicted (s : State) (e : Nat) (v : Engine) : (setEngine s e v).evicted = s.evicted := rfl
@[simp] theorem setEngine_gangOwner (s : State) (e : Nat) (v : Engine) : (setEngine s e v).gangOwner = s.gangOwner := rfl
@[simp] theorem setEngine_sumpOwner (s : State) (e : Nat) (v : Engine) : (setEngine s e v).sumpOwner = s.sumpOwner := rfl
@[simp] theorem setEngine_parts (s : State) (e : Nat) (v : Engine) : (setEngine s e v).parts = s.parts := rfl
@[simp] theorem setEngine_dies (s : State) (e : Nat) (v : Engine) : (setEngine s e v).dies = s.dies := rfl
@[simp] theorem setEngine_jobs (s : State) (e : Nat) (v : Engine) : (setEngine s e v).jobs = s.jobs := rfl
@[simp] theorem setEngine_launches (s : State) (e : Nat) (v : Engine) : (setEngine s e v).launches = s.launches := rfl
@[simp] theorem setEngine_accepted (s : State) (e : Nat) (v : Engine) : (setEngine s e v).accepted = s.accepted := rfl
@[simp] theorem setEngine_msgs (s : State) (e : Nat) (v : Engine) : (setEngine s e v).msgs = s.msgs := rfl
@[simp] theorem setEngine_crosscut (s : State) (e : Nat) (v : Engine) : (setEngine s e v).crosscut = s.crosscut := rfl
@[simp] theorem setEngine_cutting (s : State) (e : Nat) (v : Engine) : (setEngine s e v).cutting = s.cutting := rfl
@[simp] theorem setEngine_fwaddr (s : State) (e : Nat) (v : Engine) : (setEngine s e v).fwaddr = s.fwaddr := rfl
@[simp] theorem setEngine_fwlen (s : State) (e : Nat) (v : Engine) : (setEngine s e v).fwlen = s.fwlen := rfl
@[simp] theorem setEngine_fwState (s : State) (e : Nat) (v : Engine) : (setEngine s e v).fwState = s.fwState := rfl
@[simp] theorem setEngine_fwReason (s : State) (e : Nat) (v : Engine) : (setEngine s e v).fwReason = s.fwReason := rfl
@[simp] theorem setEngine_fwHalted (s : State) (e : Nat) (v : Engine) : (setEngine s e v).fwHalted = s.fwHalted := rfl
@[simp] theorem setEngine_measured (s : State) (e : Nat) (v : Engine) : (setEngine s e v).measured = s.measured := rfl
@[simp] theorem setEngine_session (s : State) (e : Nat) (v : Engine) : (setEngine s e v).session = s.session := rfl
@[simp] theorem setEngine_streams (s : State) (e : Nat) (v : Engine) : (setEngine s e v).streams = s.streams := rfl
@[simp] theorem setEngine_telbase (s : State) (e : Nat) (v : Engine) : (setEngine s e v).telbase = s.telbase := rfl
@[simp] theorem setEngine_telctl (s : State) (e : Nat) (v : Engine) : (setEngine s e v).telctl = s.telctl := rfl
@[simp] theorem setEngine_hostMem (s : State) (e : Nat) (v : Engine) : (setEngine s e v).hostMem = s.hostMem := rfl
@[simp] theorem setEngine_pageMsgs (s : State) (e : Nat) (v : Engine) : (setEngine s e v).pageMsgs = s.pageMsgs := rfl
@[simp] theorem setEngine_interrupts (s : State) (e : Nat) (v : Engine) : (setEngine s e v).interrupts = s.interrupts := rfl
@[simp] theorem setEngine_replies (s : State) (e : Nat) (v : Engine) : (setEngine s e v).replies = s.replies := rfl
@[simp] theorem setEngine_turns (s : State) (e : Nat) (v : Engine) : (setEngine s e v).turns = s.turns := rfl
@[simp] theorem setEngine_hits (s : State) (e : Nat) (v : Engine) : (setEngine s e v).hits = s.hits := rfl
@[simp] theorem setEngine_fetchHits (s : State) (e : Nat) (v : Engine) : (setEngine s e v).fetchHits = s.fetchHits := rfl
@[simp] theorem setEngine_lateFills (s : State) (e : Nat) (v : Engine) : (setEngine s e v).lateFills = s.lateFills := rfl
@[simp] theorem setEngine_tick (s : State) (e : Nat) (v : Engine) : (setEngine s e v).tick = s.tick := rfl
@[simp] theorem setEngine_resetTick (s : State) (e : Nat) (v : Engine) : (setEngine s e v).resetTick = s.resetTick := rfl

/-! ### Reading what has been written -/

/-- g0 reads 0 (R106). -/
@[simp] theorem readG_zero (s : State) : readG s 0 = 0 := rfl

/-- A general register other than g0 reads what was written to it. -/
theorem readG_writeG_self (s : State) (r : Reg) (v : Word) (h : r ≠ 0) : readG (writeG s r v) r = v := by
  simp only [readG, writeG, if_neg h, Vector.getElem_set_self]

/-- Every other general register reads as before. -/
theorem readG_writeG_ne (s : State) (r q : Reg) (v : Word) (h : q ≠ r) : readG (writeG s r v) q = readG s q := by
  unfold writeG
  split
  · rfl
  · have hne : r.toNat ≠ q.toNat := fun e => h (BitVec.eq_of_toNat_eq e.symm)
    simp only [readG, Vector.getElem_set_ne _ _ hne]

/-- A mask other than k0 reads what was written to it (R21). -/
theorem readK_writeK_self (s : State) (k : BitVec 3) (v : Mask) (h : k ≠ 0) : readK (writeK s k v) k = v := by
  simp only [readK, writeK, if_neg h, Vector.getElem_set_self]

/-- Every other mask reads as before. -/
theorem readK_writeK_ne (s : State) (k j : BitVec 3) (v : Mask) (h : j ≠ k) : readK (writeK s k v) j = readK s j := by
  unfold writeK
  split
  · rfl
  · have hne : k.toNat ≠ j.toNat := fun e => h (BitVec.eq_of_toNat_eq e.symm)
    simp only [readK, Vector.getElem_set_ne _ _ hne]

/-- A window-table entry reads what was written to it. -/
theorem readW_writeW_self (s : State) (w : Win) (v : Word) : readW (writeW s w v) w = v := by simp [readW, writeW]

/-- Every other window-table entry reads as before. -/
theorem readW_writeW_ne (s : State) (w x : Win) (v : Word) (h : x ≠ w) : readW (writeW s w v) x = readW s x := by
  have hne : w.toNat ≠ x.toNat := fun e => h (BitVec.eq_of_toNat_eq e.symm)
  simp only [readW, writeW, Vector.getElem_set_ne _ _ hne]

end Sys2Proof.Machine
end

