-- ==== Sys2Proof/Laws/Memory.lean ====
section
/-!
SUPPORT. The laws of memory: every operation on memory keeps its canonical form, a read gives what was last written, and a
write leaves every other byte alone.
-/
namespace Sys2Proof.Machine

open Sys2Proof

/-- Reset's memory is in canonical form. -/
theorem reset_mem_wf : Memory.wf State.reset.mem := rfl

/-- Writing bytes at a home keeps the canonical form. -/
theorem memPut_wf (s : State) (k : Nat) (bs : List Byte) (h : Memory.wf s.mem) : Memory.wf (memPut s k bs).mem :=
  smWrite_wf 0 bs s.mem k h

/-- Writing one nibble keeps the canonical form. -/
theorem nibblePut_wf (s : State) (k : Nat) (b : Byte) (h : Memory.wf s.mem) : Memory.wf (nibblePut s k b).mem :=
  smWrite_wf 0 [b] s.mem k h

/-- Zeroing a block keeps the canonical form. -/
theorem zeroBlock_wf (s : State) (b : Nat) (h : Memory.wf s.mem) : Memory.wf (zeroBlock s b).mem :=
  smDrop_wf 0 _ _ _ h

/-- Copying a range keeps the canonical form. -/
theorem copyRange_wf (src dst n : Nat) (s : State) (h : Memory.wf s.mem) : Memory.wf (copyRange src dst n s).mem :=
  smPut_wf 0 _ _ _ (smDrop_wf 0 _ _ _ h)

/-- Dropping a saved image keeps the canonical form. -/
theorem dropRange_wf (k n : Nat) (s : State) (h : Memory.wf s.mem) : Memory.wf (dropRange k n s).mem :=
  smDrop_wf 0 _ _ _ h

/-- Moving a range keeps the canonical form. -/
theorem moveRange_wf (src dst n : Nat) (s : State) (h : Memory.wf s.mem) : Memory.wf (moveRange src dst n s).mem :=
  copyRange_wf src dst n s h

/-- Saving a pad allotment keeps the canonical form. -/
theorem saveAllot_wf (w : Strand) (s : State) (h : Memory.wf s.mem) : Memory.wf (saveAllot w s).mem :=
  moveRange_wf _ _ _ s h

/-- Bringing a pad allotment back keeps the canonical form. -/
theorem restoreAllot_wf (w : Strand) (s : State) (h : Memory.wf s.mem) : Memory.wf (restoreAllot w s).mem :=
  dropRange_wf _ _ _ (moveRange_wf _ _ _ s h)

/-- A gang's passing to a partition keeps the canonical form. -/
theorem passGang_wf (part g : Nat) (s : State) (h : Memory.wf s.mem) : Memory.wf (passGang part g s).mem := by
  unfold passGang
  split
  · exact h
  · dsimp only
    split
    · exact h
    · exact dropRange_wf _ _ _ h

/-- Copying a block, with its tags or without, keeps the canonical form. -/
theorem copyBlock_wf (src dst : Nat) (tagged : Bool) (s : State) (h : Memory.wf s.mem) :
    Memory.wf (copyBlock src dst tagged s).mem := by
  unfold copyBlock
  split <;> exact smPut_wf 0 _ _ _ (smDrop_wf 0 _ _ _ h)

/-- Writing a map entry keeps the canonical form. -/
theorem putEntry_wf (s : State) (a : Nat) (e : Word) (h : Memory.wf s.mem) : Memory.wf (putEntry s a e).mem :=
  memPut_wf s a _ h

/-- Writing a map entry for an instruction keeps the canonical form. -/
theorem storeEntry_wf (s : State) (a : Nat) (e : Word) (h : Memory.wf s.mem) : Memory.wf (storeEntry s a e).mem :=
  memPut_wf s a _ h

/-- Rewriting the leaves of a sequence that name a block keeps the canonical form. -/
theorem unshareIn_wf (put : State → Nat → Word → State) (hp : ∀ s a e, Memory.wf s.mem → Memory.wf (put s a e).mem)
    (q : Seq) (block : Nat) (wp : Bool) : ∀ (n i : Nat) (s : State), Memory.wf s.mem →
    Memory.wf (unshareIn put q block wp i n s).mem
  | 0, _, _, h => h
  | n + 1, i, s, h => by
    unfold unshareIn
    refine unshareIn_wf put hp q block wp n (i + 1) _ ?_
    split
    · dsimp only
      split
      · exact hp _ _ _ h
      · exact h
    · exact h

/-- A fold of steps that keep the canonical form keeps it. -/
theorem foldl_mem_wf {α : Type} (f : State → α → State) (hf : ∀ s x, Memory.wf s.mem → Memory.wf (f s x).mem) :
    ∀ (l : List α) (s : State), Memory.wf s.mem → Memory.wf (l.foldl f s).mem
  | [], _, h => h
  | x :: l, s, h => foldl_mem_wf f hf l _ (hf s x h)

/-- The passing of gangs to a partition keeps the canonical form. -/
theorem passGangs_wf (part : Nat) (gs : List Nat) (s : State) (h : Memory.wf s.mem) : Memory.wf (passGangs part gs s).mem :=
  foldl_mem_wf _ (fun s g hs => passGang_wf part g s hs) gs s h

/-- Clearing the write protection of the last sharer keeps the canonical form. -/
theorem unshare_wf (put : State → Nat → Word → State) (hp : ∀ s a e, Memory.wf s.mem → Memory.wf (put s a e).mem)
    (eng block : Nat) (s : State) (h : Memory.wf s.mem) : Memory.wf (unshare put eng block s).mem :=
  foldl_mem_wf _ (fun s q hs => by split; exact unshareIn_wf put hp _ _ _ _ _ s hs; exact hs) _ s h

/-- The copy-on-write step keeps the canonical form. -/
theorem cowStep_wf (p va : Nat) (s : State) (h : Memory.wf s.mem) : Memory.wf (cowStep p va s).mem := by
  unfold cowStep
  split
  · exact h
  · dsimp only
    split
    · split
      · exact h
      · split
        · exact h
        · split
          · exact unshare_wf _ putEntry_wf _ _ _ (putEntry_wf _ _ _ (copyBlock_wf _ _ _ s h))
          · exact putEntry_wf _ _ _ (copyBlock_wf _ _ _ s h)
    · exact putEntry_wf s _ _ h

/-- A filtered sparse list keeps the canonical form, counted from any bound that the list keeps. -/
theorem smWfFrom_filter {α : Type} [DecidableEq α] (d : α) (f : Nat × α → Bool) : ∀ (m : List (Nat × α)) (b : Nat),
    smWfFrom d b m = true → smWfFrom d b (m.filter f) = true
  | [], _, _ => rfl
  | (k, v) :: t, b, h => by
    simp only [smWfFrom, Bool.and_eq_true, decide_eq_true_eq] at h
    have ih := smWfFrom_filter d f t (k + 1) h.2
    rw [List.filter_cons]
    split
    · simp only [smWfFrom, Bool.and_eq_true, decide_eq_true_eq]
      exact ⟨h.1, ih⟩
    · exact smWfFrom_mono d _ (by omega) ih

/-- Making room in a cache keeps its canonical form. -/
theorem makeRoom_wf {α : Type} [DecidableEq α] (d : α) (lo n cap pick : Nat) (c : List (Nat × α)) (h : smWf d c = true) :
    smWf d (makeRoom lo n cap pick c) = true := by
  unfold makeRoom
  dsimp only
  split
  · exact h
  · split
    · exact smDrop_wf d _ _ _ h
    · exact h

/-- Writing bytes of a plain store keeps memory's canonical form. -/
theorem storeBytes_wf (k : Nat) (bs : List Byte) (s : State) (h : Memory.wf s.mem) : Memory.wf (storeBytes k bs s).mem :=
  memPut_wf s k bs h

/-- The bytes of a range taken from another state keep the canonical form. -/
theorem takeRange_wf (k n : Nat) (t s : State) (h : Memory.wf s.mem) : Memory.wf (takeRange k n t s).mem :=
  smPut_wf 0 _ _ _ (smDrop_wf 0 _ _ _ h)

/-- Placing the code of an image keeps the canonical form. -/
theorem putCode_wf : ∀ (l : List (Nat × Byte)) (s : State), Memory.wf s.mem → Memory.wf (putCode l s).mem
  | [], _, h => h
  | (k, b) :: t, s, h => by
    unfold putCode
    refine putCode_wf t _ ?_
    split
    · exact memPut_wf s k [b] h
    · exact h

/-- Reading back the bytes just written at a home. -/
theorem memBytes_memPut (s : State) (k : Nat) (bs : List Byte) (h : Memory.wf s.mem) :
    memBytes (memPut s k bs) k bs.length = bs := smRead_smWrite 0 bs s.mem k h

/-- A byte outside the bytes written reads as before. -/
theorem memByte_memPut_of_not_mem (s : State) (k : Nat) (bs : List Byte) (j : Nat) (h : Memory.wf s.mem)
    (hj : j < k ∨ k + bs.length ≤ j) : memByte (memPut s k bs) j = memByte s j :=
  smGet_smWrite_of_not_mem 0 bs s.mem k j h hj

/-- Reading bytes one by one. -/
theorem memBytes_getElem? (s : State) : ∀ (n k i : Nat), i < n → (memBytes s k n)[i]? = some (memByte s (k + i))
  | n + 1, k, 0, _ => rfl
  | n + 1, k, i + 1, h => by
    have := memBytes_getElem? s n (k + 1) i (by omega)
    rw [show k + (i + 1) = k + 1 + i by omega]
    exact this

/-- A byte of those just written. -/
theorem memByte_memPut (s : State) (k : Nat) (bs : List Byte) (i : Nat) (h : Memory.wf s.mem) (hi : i < bs.length) :
    memByte (memPut s k bs) (k + i) = bs[i] := by
  have h1 := memBytes_getElem? (memPut s k bs) bs.length k i hi
  rw [memBytes_memPut s k bs h, List.getElem?_eq_getElem hi] at h1
  exact (Option.some.inj h1).symm

/-- A sparse list with a range dropped reads, outside the range, as before. -/
theorem smGet_smDrop_of_not_mem {α : Type} [DecidableEq α] (d : α) (lo n : Nat) : ∀ (m : List (Nat × α)) (b j : Nat),
    smWfFrom d b m = true → (j < lo ∨ lo + n ≤ j) → smGet d (smDrop lo n m) j = smGet d m j
  | [], _, _, _, _ => rfl
  | (k, v) :: t, b, j, h, hj => by
    simp only [smWfFrom, Bool.and_eq_true, decide_eq_true_eq] at h
    have ih := smGet_smDrop_of_not_mem d lo n t (k + 1) j h.2 hj
    unfold smDrop
    split
    · have hjk : j ≠ k := by omega
      rw [ih]
      simp only [smGet, if_neg hjk]
      split
      · exact smGet_of_lt d t (k + 1) j h.2 (by omega)
      · rfl
    · simp only [smGet, ih]

/-- A byte outside a zeroed block reads as before. -/
theorem memByte_zeroBlock_of_not_mem (s : State) (b j : Nat) (h : Memory.wf s.mem) (hj : j / 2 ^ 16 ≠ b) :
    memByte (zeroBlock s b) j = memByte s j :=
  smGet_smDrop_of_not_mem 0 _ _ s.mem 0 j h (by omega)

/-- A byte outside a dropped image reads as before. -/
theorem memByte_dropRange_of_not_mem (k n : Nat) (s : State) (j : Nat) (h : Memory.wf s.mem) (hj : j < k ∨ k + n ≤ j) :
    memByte (dropRange k n s) j = memByte s j :=
  smGet_smDrop_of_not_mem 0 _ _ s.mem 0 j h hj

/-- A slice keeps the canonical form, counted from its start. -/
theorem smSlice_wfFrom {α : Type} [DecidableEq α] (d : α) (lo n : Nat) : ∀ (m : List (Nat × α)) (b : Nat),
    smWfFrom d b m = true → smWfFrom d (b - lo) (smSlice lo n m) = true
  | [], _, _ => rfl
  | (k, v) :: t, b, h => by
    simp only [smWfFrom, Bool.and_eq_true, decide_eq_true_eq] at h
    have ih := smSlice_wfFrom d lo n t (k + 1) h.2
    unfold smSlice
    split
    · rename_i hk
      simp only [smWfFrom, Bool.and_eq_true, decide_eq_true_eq]
      refine ⟨⟨by omega, h.1.2⟩, ?_⟩
      rwa [show k - lo + 1 = k + 1 - lo by omega]
    · exact smWfFrom_mono d _ (by omega) ih

/-- What a slice reads. -/
theorem smGet_smSlice {α : Type} [DecidableEq α] (d : α) (lo n : Nat) : ∀ (m : List (Nat × α)) (b i : Nat),
    smWfFrom d b m = true → smGet d (smSlice lo n m) i = if i < n then smGet d m (lo + i) else d
  | [], _, _, _ => by simp [smSlice, smGet]
  | (k, v) :: t, b, i, h => by
    have hw := h
    simp only [smWfFrom, Bool.and_eq_true, decide_eq_true_eq] at h
    have ih := smGet_smSlice d lo n t (k + 1) i h.2
    unfold smSlice
    split
    · rename_i hk
      simp only [smGet]
      by_cases h1 : i = k - lo
      · rw [if_pos h1, if_pos (by omega), if_pos (by omega)]
      · rw [if_neg h1]
        by_cases h2 : i < k - lo
        · rw [if_pos h2, if_pos (show i < n by omega), if_neg (by omega), if_pos (by omega)]
        · rw [if_neg h2, ih]
          by_cases hn : i < n
          · rw [if_pos hn, if_pos hn, if_neg (by omega), if_neg (by omega)]
          · rw [if_neg hn, if_neg hn]
    · rename_i hk
      rw [ih]
      split
      · simp only [smGet]
        by_cases h1 : lo + i = k
        · omega
        · rw [if_neg h1]
          split
          · exact smGet_of_lt d t (k + 1) _ h.2 (by omega)
          · rfl
      · rfl

/-- What memory reads after the entries of a list are written: theirs where they are listed, the old values elsewhere. -/
theorem smGet_smPut {α : Type} [DecidableEq α] (d : α) (lo : Nat) : ∀ (e m : List (Nat × α)) (b j : Nat),
    smWfFrom d b e = true → smWf d m = true →
    smGet d (smPut d lo e m) j = if lo ≤ j ∧ smGet d e (j - lo) ≠ d then smGet d e (j - lo) else smGet d m j
  | [], m, _, j, _, _ => by simp [smPut, smGet]
  | (k, v) :: t, m, b, j, he, hm => by
    have hw := he
    simp only [smWfFrom, Bool.and_eq_true, decide_eq_true_eq] at he
    rw [smPut, smGet_smPut d lo t _ (k + 1) j he.2 (smSet_wf d m (lo + k) v hm)]
    by_cases h1 : lo ≤ j ∧ j - lo = k
    · have h0 : smGet d t (j - lo) = d := smGet_of_lt d t (k + 1) _ he.2 (by omega)
      have hc : smGet d ((k, v) :: t) (j - lo) = v := by rw [smGet, if_pos h1.2]
      have hj : j = lo + k := by omega
      have h2 : smGet d (smSet d m (lo + k) v) j = v := by rw [hj]; exact smGet_smSet_self d m 0 (lo + k) v hm
      simp [h0, hc, h2, h1.1, he.1.2]
    · have h2 : smGet d (smSet d m (lo + k) v) j = smGet d m j := smGet_smSet_ne d m 0 _ j v hm (by omega)
      by_cases h3 : lo ≤ j
      · have hc : smGet d ((k, v) :: t) (j - lo) = smGet d t (j - lo) := by
          rw [smGet, if_neg (fun e => h1 ⟨h3, e⟩)]
          split
          · exact (smGet_of_lt d t (k + 1) _ he.2 (by omega)).symm
          · rfl
        simp only [h2, hc]
      · simp [h2, h3]

/-- A dropped range reads as unlisted. -/
theorem smGet_smDrop_mem {α : Type} [DecidableEq α] (d : α) (lo n : Nat) : ∀ (m : List (Nat × α)) (b j : Nat),
    smWfFrom d b m = true → lo ≤ j → j < lo + n → smGet d (smDrop lo n m) j = d
  | [], _, _, _, _, _ => rfl
  | (k, v) :: t, b, j, h, h1, h2 => by
    simp only [smWfFrom, Bool.and_eq_true, decide_eq_true_eq] at h
    have ih := smGet_smDrop_mem d lo n t (k + 1) j h.2 h1 h2
    unfold smDrop
    split
    · exact ih
    · rename_i hk
      have hjk : j ≠ k := by omega
      simp only [smGet, if_neg hjk, ih]
      split <;> rfl

/-- A byte of a dropped image reads as zero. -/
theorem memByte_dropRange_of_mem (k n : Nat) (s : State) (j : Nat) (h : Memory.wf s.mem) (h1 : k ≤ j) (h2 : j < k + n) :
    memByte (dropRange k n s) j = 0 :=
  smGet_smDrop_mem 0 _ _ s.mem 0 j h h1 h2

/-- R219: a gang that passes to a partition from another reads as zero in its four pads, and everything else as before. -/
theorem memByte_passGang (part g : Nat) (s : State) (j : Nat) (h : Memory.wf s.mem) :
    memByte (passGang part g s) j =
      if g < 128 ∧ smGet 0 s.gangOwner g ≠ 0 ∧ smGet 0 s.gangOwner g ≠ part + 1 ∧
        padBase (g * 4) ≤ j ∧ j < padBase (g * 4) + 4 * Config.padBytes then 0 else memByte s j := by
  unfold passGang
  by_cases hg : 128 ≤ g
  · rw [if_pos hg, if_neg (by omega)]
  rw [if_neg hg]
  by_cases ho : smGet 0 s.gangOwner g = 0 ∨ smGet 0 s.gangOwner g = part + 1
  · rw [if_pos ho, if_neg (by omega)]
    rfl
  rw [if_neg ho]
  by_cases hj : padBase (g * 4) ≤ j ∧ j < padBase (g * 4) + 4 * Config.padBytes
  · rw [if_pos (by omega)]
    exact memByte_dropRange_of_mem _ _ _ j h hj.1 hj.2
  · rw [if_neg (by omega)]
    exact memByte_dropRange_of_not_mem _ _ _ j h (by omega)

/-- A range copied: the destination reads as the source did, everything else as before. -/
theorem memByte_copyRange (src dst n : Nat) (s : State) (j : Nat) (h : Memory.wf s.mem) :
    memByte (copyRange src dst n s) j =
      if dst ≤ j ∧ j < dst + n then memByte s (src + (j - dst)) else memByte s j := by
  show smGet 0 (smPut 0 dst (smSlice src n s.mem) (smDrop dst n s.mem)) j = _
  have hs := smSlice_wfFrom 0 src n s.mem 0 h
  rw [smGet_smPut 0 dst _ _ _ j hs (smDrop_wf 0 dst n s.mem h)]
  have hc := smGet_smSlice 0 src n s.mem 0 (j - dst) h
  by_cases h1 : dst ≤ j ∧ j < dst + n
  · rw [if_pos (show j - dst < n by omega)] at hc
    have hd := smGet_smDrop_mem 0 dst n s.mem 0 j h h1.1 h1.2
    rw [if_pos h1]
    simp only [hc, hd, h1.1, true_and]
    split
    · rfl
    · rename_i h2
      exact (Classical.not_not.mp h2).symm
  · rw [if_neg h1]
    have hd := smGet_smDrop_of_not_mem 0 dst n s.mem 0 j h (by omega)
    by_cases h3 : dst ≤ j
    · rw [if_neg (show ¬(j - dst < n) by omega)] at hc
      simp only [hc, hd]
      simp [memByte]
    · simp only [hd, h3, false_and, if_false]
      rfl

end Sys2Proof.Machine
end

