-- ==== Sys2Proof/Laws/Scalar.lean ====
section
/-!
SUPPORT. What the shared endings of scalar words do: `finish`, `finishG` and `branch`.
-/
namespace Sys2Proof.Machine

open Sys2Proof

/-- What a register reads after a write, g0 included (R106). -/
theorem readG_writeG (s : State) (gd r : Reg) (v : Word) :
    readG (writeG s gd v) r = if r = gd ∧ gd ≠ 0 then v else readG s r := by
  by_cases hr : r = gd
  · subst hr
    by_cases h0 : r = 0
    · simp [readG, h0]
    · rw [if_pos ⟨rfl, h0⟩, readG_writeG_self s r v h0]
  · rw [if_neg (fun h => hr h.1), readG_writeG_ne s gd r v hr]

/-- The end of a scalar word leaves no convoy open (R31). -/
theorem endConvoy_ended (s : State) : ConvoyEnded (endConvoy s) := by
  intro f c p a
  simp

/-- `endConvoy` changes the convoy alone. -/
theorem endConvoy_eq (s : State) :
    endConvoy s = { s with hart := { s.hart with convoy := (endConvoy s).hart.convoy } } := rfl

/-- A register write changes the registers alone. -/
theorem writeG_eq (s : State) (gd : Reg) (v : Word) :
    writeG s gd v = { s with hart := { s.hart with gpr := (writeG s gd v).hart.gpr } } := by
  unfold writeG
  split <;> rfl

/-- Everything `finishG` does: the shape of every scalar word with one register result. -/
theorem writesReg_of_finishG {i : Instr} {s : State} {gd : Reg} {v w : Word}
    (h : exec i s = finishG gd v s) (hv : v = w) : WritesReg i s gd w := by
  subst hv
  refine ⟨_, h, ?_, ?_, ?_, ?_⟩
  · intro r
    exact readG_writeG s gd r v
  · simp [advance, jumpTo, endConvoy]
  · exact endConvoy_ended (writeG s gd v)
  · unfold OnlyRegs advance jumpTo
    rw [endConvoy_eq, writeG_eq]

end Sys2Proof.Machine
end

