-- ==== Sys2Proof/Laws/Seam.lean ====
section
/-!
SUPPORT. The laws of adapter fills: whatever fills arrive, they change no memory, translation, bell or other unit; and the guard
width that lane forms capture (R294).
-/
namespace Sys2Proof.Machine

/-- All that fills and the contributions they complete can change: the strands, the gang's adapter cache, and the
contributions that wait (R288). -/
def OnlyFills (s t : State) : Prop :=
  ∃ h r a c, t = { s with hart := h, rest := r, adapter := a, contribs := c }

theorem OnlyFills.refl (s : State) : OnlyFills s s := ⟨s.hart, s.rest, s.adapter, s.contribs, rfl⟩

theorem OnlyFills.trans {s t u : State} (h : OnlyFills s t) (h' : OnlyFills t u) : OnlyFills s u := by
  obtain ⟨_, _, _, _, rfl⟩ := h
  obtain ⟨h, r, a, c, rfl⟩ := h'
  exact ⟨h, r, a, c, rfl⟩

theorem OnlyFills.withContribs (s : State) (l : List Contrib) : OnlyFills s { s with contribs := l } :=
  ⟨s.hart, s.rest, s.adapter, l, rfl⟩

/-- A sequence of such changes is such a change. -/
theorem OnlyFills.foldl {α : Type} {f : State → α → State} (hf : ∀ s x, OnlyFills s (f s x)) (l : List α) (s : State) :
    OnlyFills s (l.foldl f s) := by
  induction l generalizing s with
  | nil => exact .refl s
  | cons x l ih => exact (hf s x).trans (ih _)

theorem OnlyFills.mem {s t : State} (h : OnlyFills s t) : t.mem = s.mem := by obtain ⟨_, _, _, _, rfl⟩ := h; rfl
theorem OnlyFills.tags {s t : State} (h : OnlyFills s t) : t.tags = s.tags := by obtain ⟨_, _, _, _, rfl⟩ := h; rfl
theorem OnlyFills.bad {s t : State} (h : OnlyFills s t) : t.bad = s.bad := by obtain ⟨_, _, _, _, rfl⟩ := h; rfl
theorem OnlyFills.dcache {s t : State} (h : OnlyFills s t) : t.dcache = s.dcache := by obtain ⟨_, _, _, _, rfl⟩ := h; rfl
theorem OnlyFills.bells {s t : State} (h : OnlyFills s t) : t.bells = s.bells := by obtain ⟨_, _, _, _, rfl⟩ := h; rfl
theorem OnlyFills.filter {s t : State} (h : OnlyFills s t) : t.filter = s.filter := by obtain ⟨_, _, _, _, rfl⟩ := h; rfl
theorem OnlyFills.parts {s t : State} (h : OnlyFills s t) : t.parts = s.parts := by obtain ⟨_, _, _, _, rfl⟩ := h; rfl
theorem OnlyFills.engines {s t : State} (h : OnlyFills s t) : t.engines = s.engines := by obtain ⟨_, _, _, _, rfl⟩ := h; rfl
theorem OnlyFills.launches {s t : State} (h : OnlyFills s t) : t.launches = s.launches := by
  obtain ⟨_, _, _, _, rfl⟩ := h; rfl
theorem OnlyFills.msgs {s t : State} (h : OnlyFills s t) : t.msgs = s.msgs := by obtain ⟨_, _, _, _, rfl⟩ := h; rfl
theorem OnlyFills.tick {s t : State} (h : OnlyFills s t) : t.tick = s.tick := by obtain ⟨_, _, _, _, rfl⟩ := h; rfl

theorem fillContrib_only (s : State) (c : Contrib) : OnlyFills s (fillContrib s c).1 := by
  unfold fillContrib
  split
  · split
    · exact ⟨s.hart, s.rest, _, s.contribs, rfl⟩
    · exact .refl s
  · exact .refl s

theorem fillWhole_only (n : Nat) (s : State) (c : Contrib) : OnlyFills s (fillWhole n s c).1 := by
  induction n generalizing s c with
  | zero => exact .refl s
  | succ n ih => exact (fillContrib_only s c).trans (ih _ _)

theorem mapStrands_only (f : Strand → Strand) (s : State) : OnlyFills s (mapStrands f s) :=
  ⟨f s.hart, s.rest.map f, s.adapter, s.contribs, rfl⟩

theorem settleContrib_only (s : State) (c : Contrib) : OnlyFills s (settleContrib s c) := by
  unfold settleContrib
  split
  · exact .withContribs s _
  · exact mapStrands_only _ s

theorem settleContribs_only (s : State) : OnlyFills s (settleContribs s) :=
  (OnlyFills.withContribs s []).trans (.foldl settleContrib_only _ _)

/-- All that the arrival of fills can do (R54, R272). -/
theorem fillAll_only (f : Contrib → Bool) (s : State) : OnlyFills s (fillAll f s) := by
  refine .trans (.trans (.withContribs s []) (.foldl (fun s c => ?_) _ _)) (settleContribs_only _)
  dsimp only
  split
  · exact (fillWhole_only 40 s c).trans (.withContribs _ _)
  · exact .withContribs s _

/-- All that an ADAPTER_FILL can do (R288). -/
theorem fillNth_only (n : Nat) (s : State) : OnlyFills s (fillNth n s) := by
  refine .trans (.trans (.withContribs s []) (.foldl (fun s x => ?_) _ _)) (settleContribs_only _)
  dsimp only
  split
  · exact (fillContrib_only s x.1).trans (.withContribs _ _)
  · exact .withContribs s _

/-! ### The guard that lane forms capture (R294) -/

/-- With no seam member accepted before, a lane form captures SGW as it is. -/
theorem laneGuard_fresh {s : State} (h : seamDone s = false) : laneGuard s = s.hart.seam.gw := by
  unfold laneGuard; split <;> simp [h]

theorem laneBits_fresh {s : State} (h : seamDone s = false) : laneBits s = guardBits s := by
  simp [laneBits, guardBits, laneGuard_fresh h]

theorem laneN_fresh {s : State} (h : seamDone s = false) : laneN s = packN s := by
  simp [laneN, packN, laneBits_fresh h]

/-- No word is passed over before the seam has accepted a member of its convoy (R295). -/
theorem passed_fresh {m : Member} {joins ended : Bool} {classes : BitVec 8} {alone : Bool} {s : State} (h : seamDone s = false) :
    m.passed joins ended classes alone s = false := by simp [Member.passed, h]

end Sys2Proof.Machine
end

