-- ==== Sys2Proof/Laws/Traps.lean ====
section
/-!
SUPPORT. What taking a trap does: into a handler, or to the launch.
-/
namespace Sys2Proof.Machine

open Sys2Proof

/-- The address of an instruction word keeps under the mask of R145. -/
theorem word_aligned (x : BitVec 48) (h : x.toNat % 4 = 0) : x &&& ~~~3 = x := by
  apply BitVec.eq_of_getLsbD_eq
  intro i hi
  rw [BitVec.getLsbD_and]
  by_cases h2 : 2 ≤ i
  · have : (~~~(3 : BitVec 48)).getLsbD i = true := by
      rw [BitVec.getLsbD_not]
      simp only [hi, decide_true, Bool.true_and, Bool.not_eq_true']
      have : (3 : BitVec 48) = BitVec.ofNat 48 3 := rfl
      rw [this, BitVec.getLsbD_ofNat]
      have h3 : Nat.testBit 3 i = false := Nat.testBit_lt_two_pow (Nat.lt_of_lt_of_le (by decide : 3 < 2 ^ 2)
        (Nat.pow_le_pow_right (by decide) h2))
      simp [h3]
    rw [this, Bool.and_true]
  · have hx : x.getLsbD i = false := by
      rw [BitVec.getLsbD, Nat.testBit_eq_decide_div_mod_eq]
      have : i = 0 ∨ i = 1 := by omega
      rcases this with rfl | rfl <;> simp <;> omega
    simp [hx]

/-- A legal strand's next word is aligned too. -/
theorem next_word_aligned (x : BitVec 48) (h : x.toNat % 4 = 0) : (x + 4).toNat % 4 = 0 := by
  rw [BitVec.toNat_add]
  have : (4 : BitVec 48).toNat = 4 := rfl
  omega

/-- With no record of traps and no exhaustion to report, nothing precedes a trap. -/
theorem noteTrap_quiet (t : Trap) (pc : BitVec 48) (start : Nat) (kd : Mask) (s : State) (he : t.exhausted = 0)
    (hr : bitW s.hart.ctrl.recctl 2 = false) : noteTrap t pc start kd s = s := by
  simp [noteTrap, he, hr]

/-- A trap of a strand with a handler: the handler begins. -/
theorem takeTrap_handler (t : Trap) (epc : BitVec 48) (start : Nat) (sa : Bool) (kd : Mask) (s : State)
    (he : t.exhausted = 0) (h : HandlerReady s) (hp : epc.toNat % 4 = 0) :
    takeTrap t epc start sa kd s = enterHandler t epc start sa kd (clearFails s) := by
  obtain ⟨h1, h2, h3⟩ := h
  unfold takeTrap
  simp only [word_aligned epc hp, noteTrap_quiet t epc start kd s he h3]
  have : handlerSet (clearFails s) = true := by
    have a : trapActive (clearFails s) = false := h1
    have b : (clearFails s).hart.ctrl.tvec.extractLsb' 2 46 ≠ 0 := h2
    simp only [handlerSet, a, Bool.not_false, Bool.true_and, bne_iff_ne]
    exact b
  rw [if_pos this]

/-- A trap of a strand without one, or inside it: the launch ends. -/
theorem takeTrap_unhandled (t : Trap) (epc : BitVec 48) (start : Nat) (sa : Bool) (kd : Mask) (s : State)
    (he : t.exhausted = 0) (h : handlerSet s = false) (hr : bitW s.hart.ctrl.recctl 2 = false) (hp : epc.toNat % 4 = 0) :
    takeTrap t epc start sa kd s = faultLaunch t epc (clearFails s) := by
  unfold takeTrap
  simp only [word_aligned epc hp, noteTrap_quiet t epc start kd s he hr]
  have : handlerSet (clearFails s) = false := h
  rw [this, if_neg (by decide)]

/-- The end of a convoy is nothing that a trap sees. -/
theorem handlerReady_endConvoy {s : State} (h : HandlerReady s) : HandlerReady (endConvoy s) := h

/-- Bits of a number that fits. -/
theorem bitsW_ofNat (v lo n : Nat) (h : v < 2 ^ 64) : bitsW (BitVec.ofNat 64 v) lo n = v / 2 ^ lo % 2 ^ n := by
  rw [bitsW, BitVec.toNat_ofNat, Nat.mod_eq_of_lt h, bitsAt]

/-- ECAUSE of a trap, as a number below 2^64. -/
theorem Trap.ecause_lt (t : Trap) : t.key.toNat * 2 ^ 32 + t.aux.toNat * 2 ^ 16 + 2 ^ 8 + t.cause.toNat < 2 ^ 64 := by
  have := t.key.isLt
  have := t.aux.isLt
  have := t.cause.isLt
  omega

/-- EINFO of a trap, as a number below 2^64. -/
theorem Trap.einfo_lt (t : Trap) :
    t.addr.toNat * 2 ^ 16 + t.member.toNat * 2 ^ 13 + t.ev.toNat * 2 ^ 12 + t.elem.toNat < 2 ^ 64 := by
  have := t.addr.isLt
  have := t.member.isLt
  have := t.elem.isLt
  have := t.ev.toNat_le
  omega

/-- ECAUSE.cause of a trap. -/
theorem Trap.ecause_cause (t : Trap) : bitsW t.ecause 0 8 = t.cause.toNat := by
  rw [Trap.ecause, bitsW_ofNat _ _ _ t.ecause_lt]
  have := t.cause.isLt
  omega

/-- ECAUSE.aux of a trap. -/
theorem Trap.ecause_aux (t : Trap) : bitsW t.ecause 16 16 = t.aux.toNat := by
  rw [Trap.ecause, bitsW_ofNat _ _ _ t.ecause_lt]
  have := t.cause.isLt
  have := t.aux.isLt
  omega

/-- ECAUSE.act of a trap. -/
theorem Trap.ecause_act (t : Trap) : bitW t.ecause 8 = true := by
  rw [bitW, BitVec.getLsbD, Nat.testBit_eq_decide_div_mod_eq, Trap.ecause, BitVec.toNat_ofNat,
    Nat.mod_eq_of_lt t.ecause_lt]
  have := t.cause.isLt
  simp
  omega

/-- EINFO.addr of a trap. -/
theorem Trap.einfo_addr (t : Trap) : bitsW t.einfo 16 48 = t.addr.toNat := by
  rw [Trap.einfo, bitsW_ofNat _ _ _ t.einfo_lt]
  have := t.addr.isLt
  have := t.member.isLt
  have := t.elem.isLt
  have := t.ev.toNat_le
  omega

/-- The handler's address (R145). -/
theorem handler_address (w : Word) : (w.setWidth 48 &&& ~~~(3 : BitVec 48)).toNat = bitsW w 2 46 * 4 := by
  have h : (w.setWidth 48 &&& ~~~(3 : BitVec 48)) = (w.extractLsb' 2 46).setWidth 48 <<< 2 := by
    apply BitVec.eq_of_getLsbD_eq
    intro i hi
    have h3 : (3 : BitVec 48).getLsbD i = decide (i < 2) := by
      rcases i with _ | _ | i
      · rfl
      · rfl
      · have : (3 : BitVec 48) = BitVec.ofNat 48 3 := rfl
        rw [this, BitVec.getLsbD_ofNat]
        have : Nat.testBit 3 (i + 2) = false := Nat.testBit_lt_two_pow (Nat.lt_of_lt_of_le (by decide : 3 < 2 ^ 2)
          (Nat.pow_le_pow_right (by decide) (by omega)))
        simp [this]
    rw [BitVec.getLsbD_and, BitVec.getLsbD_not, h3, BitVec.getLsbD_shiftLeft, BitVec.getLsbD_setWidth,
      BitVec.getLsbD_setWidth, BitVec.getLsbD_extractLsb']
    by_cases h2 : i < 2
    · simp [h2]
    · have e : 2 + (i - 2) = i := by omega
      have a : i - 2 < 48 := by omega
      have b : i - 2 < 46 := by omega
      simp [h2, hi, e, a, b]
  rw [h, BitVec.toNat_shiftLeft, BitVec.toNat_setWidth, BitVec.extractLsb'_toNat, bitsW, bitsAt, Nat.shiftRight_eq_div_pow,
    Nat.shiftLeft_eq]
  omega

/-- A trap taken into a handler, in the words of the statements. -/
theorem trapTaken_of_handler (t : Trap) (epc : BitVec 48) (start : Nat) (sa : Bool) (kd : Mask) (s : State)
    (he : t.exhausted = 0) (h : HandlerReady s) (hp : epc.toNat % 4 = 0) :
    TrapTaken s (takeTrap t epc start sa kd (endConvoy s)) t.cause.toNat epc := by
  rw [takeTrap_handler t epc start sa kd _ he (handlerReady_endConvoy h) hp]
  exact ⟨handler_address _, rfl, t.ecause_cause, t.ecause_act, rfl, rfl⟩

/-- A trap of a scalar or system word, in the words of the statements. -/
theorem wordTraps_of_trapAt {i : Instr} {s : State} {t : Trap} (h : exec i s = .next (trapAt t s)) (he : t.exhausted = 0)
    (hr : HandlerReady s) (hl : StrandLegal s.hart) : WordTraps i s t.cause.toNat t.aux t.addr := by
  have e := takeTrap_handler t s.hart.pc 0 false 0 _ he (handlerReady_endConvoy hr) hl.1
  refine ⟨_, h, trapTaken_of_handler t s.hart.pc 0 false 0 s he hr hl.1, ?_, ?_, ?_, ?_⟩ <;> unfold trapAt <;> rw [e]
  · exact t.ecause_aux
  · exact t.einfo_addr
  · rfl
  · rfl

end Sys2Proof.Machine
end

