-- ==== Sys2Proof/Tests/Slice0.lean ====
section
/-!
SUPPORT. Tests: terms that are no instructions, words written out from the manual's encodings, single steps on small states,
and for every statement with hypotheses a state and operands that meet them. A witness gives each clause its own.
-/
set_option Elab.async false
namespace Sys2Proof.Tests

open Sys2Proof Sys2Proof.Machine

/-! ### Ill-formed terms (R68, R77) -/

theorem test_wf_sizes : (Instr.lda 1 2 7 0 0).wf = false ∧ (Instr.stl 1 2 5 0 0).wf = false ∧
    (Instr.lda 1 2 6 0 0).wf = true ∧ (Instr.stl 1 2 6 0 0).wf = true := by decide
theorem test_wf_scopes : (Instr.lda 1 2 4 5 0).wf = false ∧ (Instr.stl 1 2 4 5 0).wf = false ∧
    (Instr.amo 1 2 3 0 0 5 0).wf = false ∧ (Instr.arrive 0 0 0 5).wf = false ∧ (Instr.wait 0 0 0 5 0).wf = false ∧
    (Instr.arrwait 0 0 0 5 0).wf = false ∧ (Instr.fence 0 5).wf = false := by decide
theorem test_wf_operations : (Instr.amo 1 2 3 11 0 0 0).wf = false ∧ (Instr.amo 1 2 3 10 0 0 1).wf = false ∧
    (Instr.amo 1 2 3 10 0 0 0).wf = true ∧ (Instr.vamoX 0 1 2 3 0 7 0).wf = false ∧
    (Instr.sred 0 1 2 0 6).wf = false := by decide
theorem test_wf_controls : (Instr.crr 1 2).wf = false ∧ (Instr.crw 1 2 0x01D).wf = false ∧
    (Instr.crr 1 0x07F).wf = true ∧ (Instr.crw 1 2 0x080).wf = false := by decide
theorem test_wf_exception_field : (Instr.vadd 0 0 1 2 3 0 1).wf = false ∧ (Instr.vadd 0 1 1 2 3 0 1).wf = true ∧
    (Instr.vmul 0 0 1 2 3 0 1).wf = false ∧ (Instr.vsqrt 0 0 1 2 0 1).wf = false ∧ (Instr.vcvt 0 0 1 2 0 1).wf = false ∧
    (Instr.vadds 0 0 1 2 3 0 1).wf = false ∧ (Instr.vld 0 0 1 2 0 1).wf = false ∧ (Instr.vldx 0 0 1 2 3 0 1).wf = false ∧
    (Instr.vqnt 0 0 1 2 3 0 1).wf = false ∧ (Instr.vscalc 0 0 1 2 3 0 1).wf = false := by decide
theorem test_wf_register_pairs : (Instr.vlds 0 0 1 31 0 0).wf = false ∧ (Instr.vsts 0 1 31 0).wf = false ∧
    (Instr.vstduo 0 1 31 0).wf = false ∧ (Instr.vsts 0 1 30 0).wf = true := by decide
theorem test_wf_codes : (Instr.wtype 0 1 15).wf = false ∧ (Instr.wtype 0 1 14).wf = true ∧ (Instr.sguard 0 3).wf = false ∧
    (Instr.smul 0 1 2 1 0 0 1).wf = false ∧ (Instr.smula 0 1 2 1 0 0 1).wf = false ∧ (Instr.drain 0 0).wf = false := by
  decide

/-! ### Words written out (the manual's own examples) -/

theorem test_words_scalar : decodeWord 0x02531C00 = some (.add 5 6 7) ∧ decodeWord 0x08427FFF = some (.addi 4 4 0x7FFF) ∧
    decodeWord 0x1463C003 = some (.srai 6 7 3) ∧ decodeWord 0x16512345 = some (.lih 5 0x12345) := by decide
theorem test_words_scalar_memory : decodeWord 0x1A314010 = some (.ldW 3 2 0x010) ∧
    decodeWord 0x1C6F6FF8 = some (.stD 6 30 0xFF8) ∧ decodeWord 0x1E314208 = some (.lda 3 2 4 1 8) ∧
    decodeWord 0x22531E57 = some (.amo 5 6 7 9 1 3 1) := by decide
theorem test_words_control_flow : decodeWord 0x24532005 = some (.brLt 5 6 5) ∧
    decodeWord 0x260FFFF1 = some (.jal 0 0xFFFF1) ∧ decodeWord 0x280F8000 = some (.jalr 0 31 0) := by decide
theorem test_words_float : decodeWord 0x2C110C80 = some (.fmadd 1 2 3 4) ∧
    decodeWord 0x2E428004 = some (.fcvtI32F32 4 5) := by decide
theorem test_words_controls : decodeWord 0x32500001 = some (.crr 5 1) ∧ decodeWord 0x34030000 = some (.crw 0 6 0) ∧
    decodeWord 0x36700043 = some (.movk 7 0 2 3) ∧ decodeWord 0x3803987F = some (.kmov 7 6 3 31) ∧
    decodeWord 0x3AC58000 = some (.strip 12 11) := by decide
theorem test_words_windows : decodeWord 0x600B8000 = some (.wdef 0 1 14) ∧
    decodeWord 0x62030E03 = some (.vcfg 0 12 7 3) := by decide
theorem test_words_lanes : decodeWord 0x65148320 = some (.vadd 1 0 5 4 3 1 0) ∧
    decodeWord 0x6418CA01 = some (.vsub 0 0 6 6 10 0 0) ∧ decodeWord 0x6A204302 = some (.vfma 0 0 8 2 3 0 0) ∧
    decodeWord 0x6E18A000 = some (.vexp2 0 0 6 5 0 0) ∧ decodeWord 0x700C8522 = some (.vclt 0 3 4 5 1) := by decide
theorem test_words_moves : decodeWord 0x7211202E = some (.vmerge 0 4 9 1 3) ∧
    decodeWord 0x7414A700 = some (.vadds 0 0 5 5 7 0 0) ∧ decodeWord 0x7624 = none ∧
    decodeWord 0x76246000 = some (.vredsum 0 9 3 0) ∧ decodeWord 0x780C4083 = some (.vcompress 0 3 2 4) := by decide
theorem test_words_masks : decodeWord 0x7A0C2280 = some (.kfun 0 3 1 2 8) ∧ decodeWord 0x7A186001 = some (.kpop 0 6 3) ∧
    decodeWord 0x7C0C0600 = some (.kset 0 3 6) ∧ decodeWord 0x74246403 = some (.vextr 0 9 3 4) := by decide
theorem test_words_vector_memory : decodeWord 0x8090060C = some (.vld 0 1 4 6 0 3) ∧
    decodeWord 0x82080602 = some (.vstduo 0 2 6 0) ∧ decodeWord 0x84146600 = some (.vldx 0 0 5 3 6 0 0) ∧
    decodeWord 0x8698E506 = some (.vamoX 0 6 7 5 0 1 2) ∧ decodeWord 0x88006500 = some (.tagset 0 3 5 0) := by decide
theorem test_words_seam : decodeWord 0x90014000 = some (.satt 0 5) ∧ decodeWord 0x921A4000 = some (.sldb 0 3 9) ∧
    decodeWord 0x94125500 = some (.smul 0 2 9 0 2 2 1) ∧ decodeWord 0x96226200 = some (.smula 0 4 9 1 0 1 0) ∧
    decodeWord 0x98326001 = some (.sxtw 0 6 9 1) := by decide
theorem test_words_tensor : decodeWord 0x9A290000 = some (.vpack 0 10 8 0) ∧
    decodeWord 0x9AB0CD2B = some (.vqnt 0 1 12 6 13 1 2) ∧ decodeWord 0x9C394C00 = some (.vscalc 0 0 14 10 12 0 0) := by
  decide
theorem test_words_channels : decodeWord 0xA0464280 = some (.drift 0 1 3 4 5) ∧
    decodeWord 0xA24E1000 = some (.dwp 0 1 7 1) ∧ decodeWord 0xA4188502 = some (.nred 0 6 4 5) := by decide
theorem test_words_sump_claims : decodeWord 0xA61C8500 = some (.sax 0 7 4 5 0) ∧
    decodeWord 0xA6008509 = some (.sred 0 4 5 0 2) ∧ decodeWord 0xA8286380 = some (.seqopen 0 20 6 7) ∧
    decodeWord 0xA80B4001 = some (.claim 0 5 20) := by decide
theorem test_words_bells : decodeWord 0xB0050420 = some (.arrive 0 40 4 1) ∧
    decodeWord 0xB000E04A = some (.arrwait 0 7 0 2 1) ∧ decodeWord 0xB2000060 = some (.fence 0 3) ∧
    decodeWord 0xB2026001 = some (.drain 0 0x013) := by decide
theorem test_words_system : decodeWord 0xC0028000 = some (.trap 5) ∧ decodeWord 0xC0000002 = some .trapret ∧
    decodeWord 0xC2530000 = some (.launch 5 6) ∧ decodeWord 0xC4031C07 = some (.shmap 6 7) ∧
    decodeWord 0xC6029800 = some (.icinv 5 6) := by decide
theorem test_words_no_instruction : decodeWord 0 = none ∧ decodeWord 0xC0000005 = none ∧ decodeWord 0xFFFFFFFF = none := by
  decide

/-! ### The small states of the tests -/

/-- Registers with the listed values, the others zero. -/
def regs {n : Nat} (l : List (Nat × Word)) : Vector Word n := l.foldl (fun v x => v.setIfInBounds x.1 x.2) (Vector.replicate n 0)

/-- A window of one row from its first column on: kind, type, row and width, with the edge mode. -/
def win (kind ty row width edge : Nat) : Word :=
  BitVec.ofNat 64 (kind * 2 ^ 61 + ty * 2 ^ 57 + row * 2 ^ 47 + 2 ^ 27 + width * 2 ^ 17 + edge * 2 ^ 15)

/-- A ready strand of partition 0 on core 0, with a handler, 32 stope rows, VL = 2 and two macros: w1 to w3 are f32
windows, w4 to w6 i32, w7 and w8 n32, w9 and w10 i8, w11 an i4, w12 a w512, w13 and w15 sc8 and w14 a q4 window, each on a row of
its own; g10 to g20 hold f32 bits. -/
def hart0 : Strand := { Strand.vacant with
  serial := 1, run := .ready, pc := 0x1000_0000, height := 32, bells := 8, padLen := 4096
  gpr := regs [(1, 0x1000_2000), (2, 1), (3, 5), (4, 0x8000_0000_0000_0000), (5, 0x1_0000), (6, 0x1000_4000), (7, 32),
    (8, 0x400_0000), (9, 0x8_0000_0000), (10, 0x7F80_0001), (11, 0x7FC0_0000), (12, 0x7F80_0000), (13, 0xFF80_0000),
    (14, 0), (15, 0x8000_0000), (16, 0x3F80_0000), (17, 0xBF80_0000), (18, 0x0080_0000), (19, 0x7F7F_FFFF),
    (20, 0x7FBF_FFFF), (21, 0x1_0000_0008), (30, 0xFFFF_FFFF_FFFF_FFFF)]
  win := regs [(1, win 0 12 0 4 0), (2, win 0 12 1 4 0), (3, win 0 12 2 4 0), (4, win 0 3 3 4 0), (5, win 0 3 4 4 0),
    (6, win 0 3 5 4 0), (7, win 0 6 6 4 0), (8, win 0 6 7 4 0), (9, win 0 1 8 64 0), (10, win 0 1 9 64 0),
    (11, win 0 0 10 256 0), (12, win 0 14 11 4 0), (13, win 0 13 12 64 0), (14, win 0 7 13 256 0),
    (15, win 0 13 14 64 0)]
  ctrl := { Ctrl.entry with vcfg := 0x16_0002, tvec := 0x1000_0800 }
  seam := { macros := 2, grant := 512, gw := 0, bound0 := 0, bound1 := 0, rows := [] } }

/-- Partition 0 with the first 32 GiB mapped onto themselves for every access. -/
def part0 : Part := { Part.reset with shaft := [(0, 0x41C0_0000_0000_0000)] }

/-- The device with that strand. -/
def bed : State := { State.reset with hart := hart0, parts := [(0, part0)] }

/-- The same with another strand in focus. -/
def bedOf (h : Strand) : State := { bed with hart := h }

/-- The strand as one of a deputy. -/
def deputy0 : Strand := { hart0 with core := 0x200 }

/-- A launch of one strand, its strip pool of 8 elements in granules of 4. -/
def launch1 : Launch where
  part := 0
  serial := 1
  job := 0
  phase := 0
  graph := 0
  order := 0
  pkt := [0x1000_0000, 8, 4]
  addr := 0
  home := 0
  placed := true
  gangs := [0]
  waits := []
  members := 1
  ended := 0
  next := 0
  returned := []
  replace := []
  severed := false
  verdict := none
  written := false
  reported := false

/-- The device with that strand and its launch. -/
def bedL : State := { bed with launches := [launch1] }

/-- A copy accepted, not begun. -/
def waitedOp : DriftOp where
  form := .drift
  dst := 0x1000_4000
  src := 0x1000_2000
  arg := 8
  bell := none
  begun := false
  serial := 0
  count := 0
  total := 0
  shape := []
  ended := none
  epc := 0x1000_0000
  member := 0
  pages := 2 ^ 16
  undo := []

/-- A pending contribution of the strand to its row 0, whose directory entry is at 0x1000_2010. -/
def waitedFill : Contrib := { who := whoIs hart0, core := 0, row := 0, elem := 0, sadp := 0x1000_2000, guard := 32, ident := 1
                              chunk := 0, a := 1, lines := [], failed := false }

/-! ### Deciding the premises -/

/-- `StrandLegal`, decided. -/
def strandLegalB (h : Strand) : Bool :=
  decide (h.pc.toNat % 4 = 0) && decide (bitsW h.ctrl.vcfg 0 12 ≤ 2048) && decide (bitsW h.ctrl.vcfg 12 3 ≤ 5) &&
  decide (bitsW h.ctrl.vcfg 17 3 ≤ 4) && h.stands.all (fun x => decide (x.cut.getD 0 ≤ 2048)) && decide (h.seam.gw ≠ 3) &&
  (match h.convoy with | .open first _ _ _ => decide (first.toNat % 4 = 0) | _ => true)

theorem strandLegal_of {h : Strand} (w : strandLegalB h = true) : StrandLegal h := by
  simp only [strandLegalB, Bool.and_eq_true, decide_eq_true_eq] at w
  obtain ⟨⟨⟨⟨⟨⟨a, b⟩, c⟩, d⟩, g⟩, e⟩, f⟩ := w
  refine ⟨a, b, c, d, fun x hx n hn => ?_, e, ?_⟩
  · have := List.all_eq_true.mp g x hx
    simpa [hn] using this
  intro first classes pos alone hc
  rw [hc] at f
  simpa using f

/-- `HandlerReady`, decided. -/
def handlerReadyB (s : State) : Bool :=
  !trapActive s && s.hart.ctrl.tvec.extractLsb' 2 46 != 0 && !bitW s.hart.ctrl.recctl 2

theorem handlerReady_of {s : State} (w : handlerReadyB s = true) : HandlerReady s := by
  simp only [handlerReadyB, Bool.and_eq_true, Bool.not_eq_true', bne_iff_ne] at w
  exact ⟨w.1.1, w.1.2, w.2⟩

/-- `IssuesAs`, decided, for the member that the instruction is; `f` is what stands of the convoy of a first word. -/
def issuesB (i : Instr) (s : State) (f : BitVec 48 → Stand) : Bool :=
  match memberOf i with
  | some m =>
    let j := joinState s m.c
    (issueTrap m j.2.2.2.2.1 j.2.2.2.2.2 j.2.1 j.2.2.2.1 (issueState s j)).isNone &&
      (startOf s == 0 && (kdOf s == 0 && !seamDone s)) && standOf s.hart j.1 == f j.1
  | none => false

theorem issuesAs_of {i : Instr} {s : State} {f : BitVec 48 → Stand} (w : issuesB i s f = true) :
    ∃ m, IssuesAs i m s (f (joinState s m.c).1) := by
  unfold issuesB at w
  split at w
  · rename_i m hm
    simp only [Bool.and_eq_true, Option.isNone_iff_eq_none, Bool.not_eq_true', beq_iff_eq] at w
    exact ⟨m, hm, w.1.1, w.1.2, w.2⟩
  · cases w

theorem issues_of {i : Instr} {s : State} (w : issuesB i s Stand.fresh = true) : ∃ m, Issues i m s := issuesAs_of w

/-- Every stored list of the device is in canonical form. -/
def storesOk (s : State) : Bool :=
  smWf 0 s.mem && smWf 0 s.tags && smWf false s.bad && smWf none s.dcache && smWf [] s.adapter && smWf Bell.zero s.bells &&
  smWf 0 s.slotSusp && smWf 0 s.evicted && smWf Part.reset s.parts && smWf 0 s.hostMem && smWf none s.icache &&
  smWf 0 s.gangOwner && smWf 0 s.sumpOwner && smWf Stream.unkeyed s.streams &&
  (allStrands s).all (fun h => smWf 0 h.stope && (smWf 0 h.badBits && (smWf SeamRow.zero h.seam.rows &&
    h.chans.toList.all (fun c => c.ops.all (fun o => smWf none o.undo))))) &&
  s.engines.toList.all (fun e => smWf 0 e.counts && smWf 0 e.used && smWf Seq.free e.seqs) &&
  s.parts.all (fun p => smWf 0 p.2.shaft && smWf 0 p.2.subs)

theorem smGet_mem {α : Type} (d : α) : ∀ (m : List (Nat × α)) (k : Nat), smGet d m k = d ∨ ∃ x ∈ m, smGet d m k = x.2
  | [], _ => Or.inl rfl
  | (k', v) :: t, k => by
    unfold smGet
    split
    · exact Or.inr ⟨(k', v), by simp, rfl⟩
    · split
      · exact Or.inl rfl
      · rcases smGet_mem d t k with h | ⟨x, hx, he⟩
        · exact Or.inl h
        · exact Or.inr ⟨x, List.mem_cons_of_mem _ hx, he⟩

theorem canonical_of {s : State} (w : storesOk s = true) : Canonical s := by
  simp only [storesOk, Bool.and_eq_true, List.all_eq_true] at w
  obtain ⟨⟨⟨⟨⟨⟨⟨⟨⟨⟨⟨⟨⟨⟨⟨⟨a, b⟩, c⟩, d⟩, e⟩, f⟩, g⟩, h⟩, i⟩, j⟩, k⟩, l⟩, m⟩, q⟩, n⟩, o⟩, p⟩ := w
  refine ⟨a, b, c, d, e, f, g, h, i, j, k, l, m, q, fun x hx => ?_, fun x => ?_, fun x => ?_⟩
  · obtain ⟨n1, n2, n3, n4⟩ := n x hx
    refine ⟨n1, n2, n3, fun ch op ho => ?_⟩
    exact n4 _ (Vector.mem_toList_iff.mpr (Vector.getElem_mem _)) op ho
  · have := o (engineAt s x) (by simp [engineAt])
    exact ⟨this.1.1, this.1.2, this.2⟩
  · rcases smGet_mem Part.reset s.parts x with h | ⟨y, hy, he⟩
    · rw [partOf, h]; decide
    · rw [partOf, he]; exact p y hy

theorem bed_canonical : Canonical bed := canonical_of (by decide)
theorem bed_legal : StrandLegal bed.hart := strandLegal_of (by decide)
theorem bed_ready : HandlerReady bed := handlerReady_of (by decide)

/-! ### Witnesses: traps, jumps and scalar words -/

theorem witness_SoftwareTraps : HandlerReady bed ∧ StrandLegal bed.hart := ⟨bed_ready, bed_legal⟩

/-- A strand whose handler runs. -/
def handling : Strand := { hart0 with ctrl := { hart0.ctrl with ecause := 0x10F } }
/-- A strand without a handler. -/
def noHandler : Strand := { hart0 with ctrl := { hart0.ctrl with tvec := 0 } }

theorem witness_UnhandledTrapEndsLaunch :
    (let s : State := { bedL with hart := handling }
     trapActive s = true ∧ bitW s.hart.ctrl.recctl 2 = false ∧ StrandLegal s.hart ∧ onDeputy s.hart = false ∧
       findLaunch s s.hart.part s.hart.serial = some launch1 ∧ launch1.verdict = none) ∧
    (let s : State := { bedL with hart := noHandler }
     s.hart.ctrl.tvec.extractLsb' 2 46 = 0 ∧ bitW s.hart.ctrl.recctl 2 = false ∧ StrandLegal s.hart ∧
       onDeputy s.hart = false ∧ findLaunch s s.hart.part s.hart.serial = some launch1) ∧
    (let s : State := bedOf { noHandler with core := 0x301 }
     s.hart.ctrl.tvec.extractLsb' 2 46 = 0 ∧ bitW s.hart.ctrl.recctl 2 = false ∧ StrandLegal s.hart ∧
       onDeputy s.hart = true) :=
  ⟨⟨by decide +kernel, by decide +kernel, strandLegal_of (by decide +kernel), by decide +kernel, by decide +kernel, rfl⟩,
   ⟨by decide +kernel, by decide +kernel, strandLegal_of (by decide +kernel), by decide +kernel, by decide +kernel⟩,
   ⟨by decide +kernel, by decide +kernel, strandLegal_of (by decide +kernel), by decide +kernel⟩⟩

theorem witness_TrapReturn : trapActive (bedOf handling) = true ∧ HandlerReady bed ∧ StrandLegal bed.hart :=
  ⟨by decide +kernel, bed_ready, bed_legal⟩

theorem witness_RetireAndYield :
    (onDeputy bedL.hart = false ∧ undrained bedL bedL.hart allQueues = false ∧
      findLaunch bedL bedL.hart.part bedL.hart.serial = some launch1 ∧ launch1.verdict = none) ∧
    (let s : State := { bedL with msgs := [{ who := whoIs hart0, core := 0, addr := 0, kind := .get 1, stage := .sent }] }
     onDeputy s.hart = false ∧ undrained s s.hart allQueues = true) ∧
    (onDeputy (bedOf deputy0).hart = true ∧ HandlerReady (bedOf deputy0) ∧ StrandLegal deputy0) :=
  ⟨by decide +kernel, by decide +kernel, by decide +kernel, handlerReady_of (by decide +kernel), strandLegal_of (by decide +kernel)⟩

/-- The target of `jalr` in the small state: aligned and within 48 bits (through a wrap at 2^64), misaligned, above. -/
theorem witness_Jumps :
    ((ofInt ((readG bed 30).toNat + (1 : BitVec 15).toInt)).toNat % 4 = 0 ∧
      bitsW (ofInt ((readG bed 30).toNat + (1 : BitVec 15).toInt)) 48 16 = 0) ∧
    (ofInt ((readG bed 1).toNat + (2 : BitVec 15).toInt)).toNat % 4 ≠ 0 ∧
    ((ofInt ((readG bed 30).toNat + (0x7FFD : BitVec 15).toInt)).toNat % 4 = 0 ∧
      bitsW (ofInt ((readG bed 30).toNat + (0x7FFD : BitVec 15).toInt)) 48 16 ≠ 0) ∧
    HandlerReady bed ∧ StrandLegal bed.hart :=
  ⟨by decide +kernel, by decide +kernel, by decide +kernel, bed_ready, bed_legal⟩

theorem witness_ScalarLoads :
    (∀ n ∈ [1, 2, 4, 8],
      check bed (scalarReq .read (ofInt ((readG bed 1).toNat + (0x7F8 : BitVec 12).toInt)) n true) =
        .home 0x1000_27F8 true false ∧
      check bed (scalarReq .read (ofInt ((readG bed 1).toNat + (0x800 : BitVec 12).toInt)) n true) =
        .home 0x1000_1800 true false) ∧
    (∀ n ∈ [1, 2, 4, 8], ∃ k, check bed (scalarReq .read (readG bed 14) n true) = .home k false false) :=
  ⟨by decide +kernel, fun n hn => ⟨padBase 0, by revert n; decide +kernel⟩⟩

/-- The page at 0x1_0000_0000 is one of copy-on-write: its leaf at 0x30_0000 maps block 0x100, of `n` mappings; block 0x101
is free. -/
def cowBed (n : Nat) : State := { bed with
  mem := smWrite 0 (smWrite 0 [] 0x10_4000 (dwordBytes [0xA000_0000_0030_0000])) 0x30_0000 (dwordBytes [0x2780_0000_0100_0000])
  parts := [(0, { part0 with shaft := [(0, 0xC000_0000_0010_0000)], quota := regs [(0, 16)] })]
  engines := (Vector.replicate 12 Engine.reset).set 0 { Engine.reset with
    poolB := 0x100_0000, poolN := 4, counts := [(0x100, BitVec.ofNat 16 n)], used := [(0, 1)] } }

theorem witness_ScalarStores : Canonical bed ∧ ∀ n ∈ [1, 2, 4, 8],
    check bed (scalarReq .write (ofInt ((readG bed 1).toNat + (0x7F8 : BitVec 12).toInt)) n true) =
      .home 0x1000_27F8 true false ∧
    check bed (scalarReq .write (ofInt ((readG bed 1).toNat + (0x800 : BitVec 12).toInt)) n true) =
      .home 0x1000_1800 true false ∧ check (cowBed 3) (scalarReq .write 0x1_0000_0000 n true) = .home 0x100_0000 true true :=
  ⟨bed_canonical, by decide +kernel⟩

theorem witness_AcquireLoadReleaseStore : Canonical bed ∧ ((4 : BitVec 3).toNat ≤ 4) ∧ vcfgObs bed = false ∧
    (∀ sz ∈ [(0 : BitVec 3), 1, 2, 3, 4, 5, 6], ∃ n signed, sizeOfCode sz = some (n, signed) ∧
      check bed (scalarReq .read (ofInt ((readG bed 1).toNat + (0x1F8 : BitVec 9).toInt)) n false) =
        .home 0x1000_1FF8 true false ∧
      check bed (scalarReq .write (ofInt ((readG bed 1).toNat + (0x1F8 : BitVec 9).toInt)) n false) =
        .home 0x1000_1FF8 true false) := by
  refine ⟨bed_canonical, by decide +kernel, by decide +kernel, ?_⟩
  intro sz h
  simp only [List.mem_cons, List.not_mem_nil, or_false] at h
  rcases h with rfl | rfl | rfl | rfl | rfl | rfl | rfl <;> exact ⟨_, _, rfl, by decide +kernel, by decide +kernel⟩

theorem witness_ScalarAtomics : Canonical bed ∧ (10 : BitVec 4).toNat ≤ 10 ∧ (4 : BitVec 3).toNat ≤ 4 ∧
    ∀ n ∈ [4, 8], check bed (scalarReq .atomic (readG bed 1) n false) = .home 0x1000_2000 true false :=
  ⟨bed_canonical, by decide +kernel, by decide +kernel, by decide +kernel⟩

/-- The same page as a TAGGED one. -/
def tagBed : State := { bed with parts := [(0, { part0 with shaft := [(0, 0x49C0_0000_0000_0000)] })] }

/-- Another strand, and the live entry of its store of four bytes. -/
def other : Strand := { hart0 with serial := 2, core := 5, slot := 1 }
def otherStore : FilterEntry := { home := homeOf 0x1000_2000, who := whoIs other, write := true, addr := 0x1000_2000, len := 4 }

/-- States where the bytes at 0x1000_2000 lie under another tag than key 1, a watchpoint of both kinds, another strand's store,
and an error; and one whose missing page was resumed with fail. -/
def keyBed : State := { tagBed with hart := { hart0 with gpr := regs [(1, 0x1000_0000_1000_2000)] } }
def watchBed : State := bedOf { hart0 with ctrl := { hart0.ctrl with watch := hart0.ctrl.watch.set 2 0xC000_0000_1000_2000 } }
def conflictBed : State := { bed with rest := [other], filter := [otherStore] }
def badBed : State := { bed with bad := [(0x1000_2001, true)] }
def failBed : State := bedOf { hart0 with failPages := [0x8_0000] }

theorem witness_ScalarAccessStops : HandlerReady bed ∧ StrandLegal bed.hart ∧
    (ofInt ((readG bed 1).toNat + (1 : BitVec 12).toInt)).toNat % 2 ≠ 0 ∧
    ((readG bed 30).toNat % 1 = 0 ∧ bitsW (readG bed 30) 48 12 ≠ 0) ∧
    (∀ kind ∈ [Kind.read, .write, .atomic], (readG bed 8).toNat % 8 = 0 ∧ bitsW (readG bed 8) 48 12 = 0 ∧
      locate bed bed.hart (bitsW (readG bed 8) 0 48) kind = .prot) ∧
    (∀ kind ∈ [Kind.read, .write, .atomic], (readG bed 9).toNat % 8 = 0 ∧ bitsW (readG bed 9) 48 12 = 0 ∧
      locate bed bed.hart (bitsW (readG bed 9) 0 48) kind = .missing false true false ∧
      pageFailed bed (bitsW (readG bed 9) 0 48) = false ∧ bitW bed.hart.ctrl.recctl 3 = false) ∧
    (∀ kind ∈ [Kind.read, .write, .atomic],
      locate failBed failBed.hart (bitsW (readG failBed 9) 0 48) kind = .missing false true false ∧
      pageFailed failBed (bitsW (readG failBed 9) 0 48) = true) ∧
    (∃ signed, sizeOfCode 4 = some (4, signed)) := by
  refine ⟨bed_ready, bed_legal, ?_⟩
  and_intros <;> decide +kernel

/-- The checks of bytes at their home: the granule's tag, the watchpoints, the filter, an error. -/
theorem witness_ScalarAccessStops_home :
    (∀ s ∈ [keyBed, watchBed, conflictBed, badBed, failBed], HandlerReady s ∧ StrandLegal s.hart) ∧
    (∀ kind ∈ [Kind.read, .write, .atomic],
      (bitsW (readG keyBed 1) 48 12 = 0 ∧ locate keyBed keyBed.hart 0x1000_2000 kind = .home 0x1000_2000 true true false ∧
        0x80_0100 * 32 < 0x1000_2000 + 1 ∧ 0x1000_2000 < 0x80_0100 * 32 + 32 ∧
        (smGet 0 keyBed.tags 0x80_0100).toNat % 16 ≠ bitsW (readG keyBed 1) 60 4) ∧
      ∀ s ∈ [watchBed, conflictBed, badBed], readG s 1 = 0x1000_2000 ∧
        locate s s.hart 0x1000_2000 kind = .home 0x1000_2000 false true false) ∧
    (let w := watchBed.hart.ctrl.watch[2]
     bitsW w 62 2 = 3 ∧ 2 ^ bitsW w 58 4 = 1 ∧ bitsW w 0 48 = 0x1000_2000) ∧
    (conflictBed.hart.nodetect = false ∧ vcfgDet conflictBed = true ∧ conflictBed.filter = [] ++ otherStore :: [] ∧
      otherStore.home = homeOf 0x1000_2000 ∧ otherStore.who ≠ whoIs conflictBed.hart ∧
      findWho conflictBed otherStore.who = some other) ∧
    (badBed.filter = [] ∧ smGet false badBed.bad (0x1000_2000 + 1) = true ∧ smGet false badBed.bad (0x1000_2000 + 0) = false) := by
  refine ⟨fun s h => ⟨handlerReady_of (by revert s; decide +kernel), strandLegal_of (by revert s; decide +kernel)⟩, ?_⟩
  and_intros
  all_goals decide +kernel

/-- Operands for each clause on special values, then on conversions. -/
theorem witness_FloatSpecialValuesAndConversions :
    (∀ r ∈ [(10 : Reg), 20], 0x7F80_0000 < bitsW (readG bed r) 0 32 % 2 ^ 31 ∧
      bitsW (readG bed r) 0 32 % 2 ^ 31 < 0x7FC0_0000) ∧
    (0x7FC0_0000 ≤ bitsW (readG bed 11) 0 32 % 2 ^ 31) ∧
    (∀ r ∈ [(12 : Reg), 13], bitsW (readG bed r) 0 32 % 2 ^ 31 = 0x7F80_0000) ∧
    (bitsW (readG bed 12) 0 32 / 2 ^ 31 ≠ bitsW (readG bed 13) 0 32 / 2 ^ 31) ∧
    (∀ r ∈ [(14 : Reg), 15], bitsW (readG bed r) 0 32 % 2 ^ 31 = 0) ∧
    (∀ r ∈ [(16 : Reg), 17, 18, 19], 0x0080_0000 ≤ bitsW (readG bed r) 0 32 % 2 ^ 31 ∧
      bitsW (readG bed r) 0 32 % 2 ^ 31 < 0x7F80_0000) ∧
    bitsW (readG bed 15) 0 32 = 0x8000_0000 ∧ bitsW (readG bed 17) 0 32 / 2 ^ 31 = 1 ∧
    bitsW (readG bed 13) 0 32 / 2 ^ 31 = 1 ∧
    (∃ q, readF f32 false (bitsW (readG bed 11) 0 32) = .nan q) ∧
    (∃ n, readF f32 false (bitsW (readG bed 13) 0 32) = .inf n) ∧
    (∃ z inexact, roundInt { rm := 0, sat := false, ftz := false, k := 0 }
      (readF f32 false (bitsW (readG bed 17) 0 32)) = some (z, inexact)) := by
  and_intros
  all_goals first
    | decide +kernel
    | exact ⟨-1, false, by decide +kernel⟩

theorem witness_RoundingIsExactAndNearest :
    (∀ f ∈ [f32, bf16, hf16, e5m2, e4m3], ∀ b ∈ [0, 1, 2 ^ (f.eb + f.mb)],
      b < 2 ^ (1 + f.eb + f.mb) ∧ (readF f false b).isNan = false) ∧
    (let m : Mode := { rm := 0, sat := false, ftz := false, k := 0 }
     ∀ f ∈ [f32, bf16, hf16, e5m2, e4m3], ∀ x ∈ [Machine.Num.fin false 3 0 false, .fin true 1 (-200) false],
       (roundF f m x).2 &&& flOF = 0 ∧ (∃ n k e, readF f false 1 = .fin n k e false)) := by
  refine ⟨by decide +kernel, ?_⟩
  intro m f hf x hx
  refine ⟨by revert x f; decide, ?_⟩
  simp only [List.mem_cons, List.not_mem_nil, or_false] at hf
  rcases hf with rfl | rfl | rfl | rfl | rfl <;> exact ⟨_, _, _, rfl⟩

/-- A value halfway between two numbers of each format, one below all of them, and one above; two integers' halfway, and an
integer. -/
theorem witness_RoundingIsExactAndNearest_grid :
    (∀ f ∈ [f32, bf16, hf16, e5m2, e4m3], ∀ p ∈ [(2 ^ (f.mb + 1) + 1, (0 : Int), (2 - f.qmin).toNat * 2 ^ f.mb),
        (1, f.qmin - 2, 0), (1, 2 ^ (f.eb - 1) + 3, (2 ^ (f.eb - 1) + 4 - f.mb - f.qmin).toNat * 2 ^ f.mb)],
      let q := min p.2.1 f.qmin - 1
      let x := p.1 * 2 ^ (p.2.1 - q).toNat
      let val (c : Nat) : Nat :=
        (if c < 2 ^ f.mb then c else (2 ^ f.mb + c % 2 ^ f.mb) * 2 ^ (c / 2 ^ f.mb - 1)) * 2 ^ (f.qmin - q).toNat
      val p.2.2 ≤ x ∧ x < val (p.2.2 + 1)) ∧
    (∀ p ∈ [(5, (-1 : Int), 2), (3, 2, 12)],
      let q := min p.2.1 0
      let x := p.1 * 2 ^ (p.2.1 - q).toNat
      p.2.2 * 2 ^ (-q).toNat ≤ x ∧ x < (p.2.2 + 1) * 2 ^ (-q).toNat) := by
  constructor <;> decide +kernel

/-! ### Witnesses: control registers, masks, strips -/

theorem witness_ControlRegisterReads : privileged (bedOf deputy0) = true ∧ HandlerReady bed ∧ StrandLegal bed.hart ∧
    crAssigned (0x002 : BitVec 12).toNat = false ∧ crAssigned (0xFFF : BitVec 12).toNat = false ∧
    privileged bed = false :=
  ⟨by decide +kernel, bed_ready, bed_legal, by decide +kernel, by decide +kernel, by decide +kernel⟩

/-- A write that is made (the largest VL), one of VL = 2049 that is refused, one that needs privilege. -/
theorem witness_ControlRegisterWrites : HandlerReady bed ∧ StrandLegal bed.hart ∧
    (let v : Word := 0x9_4800
     crAssigned 0 = true ∧ bitW v 21 = false ∧ ¬(2048 < bitsW v 0 12 ∨ 5 < bitsW v 12 3 ∨ 4 < bitsW v 17 3)) ∧
    (let v : Word := 0x801
     crAssigned 0 = true ∧ bitW v 21 = false ∧ 2048 < bitsW v 0 12) ∧
    (crAssigned 0x070 = true ∧ 20 < bitsW (0xA800 : Word) 11 5) ∧ (crAssigned 0x078 = true ∧ 17 < bitsW (18 : Word) 0 8) ∧
    (crAssigned 0x040 = true ∧ privileged bed = false ∧ privileged (bedOf deputy0) = true) ∧
    Canonical bed ∧ (crAssigned 0x022 = true ∧ bitW (1 : Word) 0 = true ∧ bed.contribs = []) ∧ crAssigned 0x002 = false := by
  refine ⟨bed_ready, bed_legal, ?_⟩
  and_intros
  all_goals first
    | decide +kernel
    | exact bed_canonical

/-- Writes that wait: of DLEN1 for a copy, and of a flush for a contribution. -/
theorem witness_ControlRegisterWrites_waits :
    (chanAt (bedOf { hart0 with chans := hart0.chans.set 1 { Chan.entry with binds := [1], ops := [waitedOp] } }).hart 0x035).ops ≠ [] ∧
    (∃ c ∈ ({ bed with contribs := [waitedFill] } : State).contribs, c.who = whoIs bed.hart) :=
  ⟨by decide +kernel, waitedFill, by simp, rfl⟩

theorem witness_MaskForms : StrandLegal bed.hart ∧ bed.hart.badBits = [] ∧ SourcesReady bed [] ∧
    ∀ i ∈ [Instr.kfun 0 7 1 2 8, .kset 0 1 7, .kclr 0 1 7, .kpop 0 1 2, .kfirst 0 1 2, .kbit 0 1 2 7],
      ∃ m, Issues i m bed :=
  ⟨bed_legal, rfl, ⟨rfl, by simp⟩, fun i h => issues_of (by revert i; decide +kernel)⟩

/-- The strand is to be parked for one of launch 2, which stands parked on its core and has not begun. -/
def yieldBed : State := { bedOf { hart0 with yieldsTo := some 2 } with
  rest := [{ hart0 with serial := 2, slot := 1, parked := true, unbegun := true }] }

/-- A grant from the fresh elements, one from a returned range, a request of none, a deputy, and a strand being parked
(`witness_Saves` shows the room for its save). -/
theorem witness_StripGrants :
    (onDeputy bedL.hart = false ∧ parkRoom bedL = none ∧ bitW bedL.hart.ctrl.recctl 0 = false ∧
      findLaunch bedL bedL.hart.part bedL.hart.serial = some launch1 ∧ launch1.returned = [] ∧
      (readG bedL 3).toNat ≠ 0 ∧ (readG bedL 14).toNat = 0) ∧
    (let s : State := { bedL with launches := [{ launch1 with returned := [(0, 4), (4, 4)] }] }
     ∃ l, findLaunch s s.hart.part s.hart.serial = some l ∧ l.returned = (0, 4) :: [(4, 4)] ∧ ∀ x ∈ [(4, 4)], 0 ≤ x.1) ∧
    onDeputy (bedOf deputy0).hart = true ∧
    (onDeputy yieldBed.hart = false ∧ bitW yieldBed.hart.ctrl.recctl 0 = false) :=
  ⟨by decide +kernel, ⟨_, rfl, rfl, by decide +kernel⟩, by decide +kernel, by decide +kernel⟩

/-! ### Witnesses: convoys and the plane engine -/

/-- `Issues`, and the member meets no stop and nothing to wait for. -/
def runsB (i : Instr) (s : State) : Bool :=
  issuesB i s Stand.fresh && (match memberOf i with
    | some m =>
      let r := m.run onesMask (memberStart s (joinState s m.c))
      !m.stall (issueState s (joinState s m.c)) && r.trap.isNone && r.block.isNone
    | none => false)

theorem runs_of {i : Instr} {s : State} (w : runsB i s = true) :
    ∃ m, Issues i m s ∧ m.stall (issueState s (joinState s m.c)) = false ∧
      (m.run onesMask (memberStart s (joinState s m.c))).trap = none ∧
      (m.run onesMask (memberStart s (joinState s m.c))).block = none := by
  unfold runsB at w
  rw [Bool.and_eq_true] at w
  obtain ⟨m, hm⟩ := issues_of w.1
  have hw := w.2
  rw [hm.member] at hw
  simp only [Bool.and_eq_true, Bool.not_eq_true', Option.isNone_iff_eq_none] at hw
  exact ⟨m, hm, hw.1.1, hw.1.2, hw.2⟩

/-- Where neither the stope nor memory has an error, no source does. -/
theorem badSource_none {s : State} (hb : s.hart.badBits = []) (hs : s.bad = []) (d : Word) (e : Nat) :
    badSource s d e = none := by
  simp [badSource, hb, hs]

theorem sourcesReady_of {s : State} {srcs : List Win} (hb : s.hart.badBits = [])
    (w : srcs.all (fun w => !streamWaits s (readW s w)) = true) (hs : s.bad = [] := by rfl) : SourcesReady s srcs :=
  ⟨hb, fun x hx => ⟨by simpa using List.all_eq_true.mp w x hx, badSource_none hb hs _⟩⟩

theorem active_two {s : State} {kn : BitVec 3} {e : Nat} (hv : vl s = 2) (h : Active s kn e) : e = 0 ∨ e = 1 := by
  have := h.1; omega

theorem bed_vl : vl bed = 2 := by decide +kernel
theorem bed_sources : ∀ srcs ∈ [[1, 2, 3], [4, 5, 6], [7, 8, 9], [10, 11, 12], [13, 14]], SourcesReady bed srcs :=
  fun srcs h => sourcesReady_of rfl (by revert srcs; decide +kernel)

/-- A member that opens a convoy, one that joins an open one at position 6, a table word, a word that stands alone. -/
theorem witness_ExtensionWordsComplete :
    (∀ i ∈ [Instr.vadd 0 0 1 2 3 0 0, .wget 0 1 4, .fence 0 4, .vcfg 0 2 3 0x3F], ∃ m, Issues i m bed ∧
      m.stall (issueState bed (joinState bed m.c)) = false ∧
      (m.run onesMask (memberStart bed (joinState bed m.c))).trap = none ∧
      (m.run onesMask (memberStart bed (joinState bed m.c))).block = none) ∧
    (let s := bedOf { hart0 with pc := 0x1000_0018, convoy := .open 0x1000_0000 0x7E 6 false }
     ∃ m, Issues (.vadd 1 0 1 2 3 0 0) m s ∧ m.stall (issueState s (joinState s m.c)) = false ∧
       (m.run onesMask (memberStart s (joinState s m.c))).trap = none ∧
       (m.run onesMask (memberStart s (joinState s m.c))).block = none) :=
  ⟨fun i h => runs_of (by revert i; decide +kernel), runs_of (by decide +kernel)⟩

theorem witness_ConvoyRules : (4 : BitVec 3).toNat ≤ 4 ∧ 4 < (5 : BitVec 3).toNat ∧ (0x40 : BitVec 7).getLsbD 6 = true ∧
    ∀ c ∈ [Convoy.ended, .open 0x1000_0000 1 1 false, .open 0x1000_0000 0 0 true],
      HandlerReady (bedOf { hart0 with convoy := c }) ∧ StrandLegal { hart0 with convoy := c } ∧
      (standOf hart0 (joinState (bedOf { hart0 with convoy := c }) 1).1).ahead = 0 ∧
      privileged (bedOf { hart0 with convoy := c }) = false := by
  refine ⟨by decide, by decide, by decide, fun c h => ?_⟩
  exact ⟨handlerReady_of (by revert c; decide +kernel), strandLegal_of (by revert c; decide +kernel),
    by revert c; decide +kernel⟩

theorem witness_WindowTableWords : ∀ i ∈ [Instr.wdef 0 1 1, .wcopy 0 31 1, .worg 0 1 2 3, .wtype 0 1 14, .wget 0 1 4,
    .vcfg 0 2 3 0x3F], ∃ m, Issues i m bed := fun i h => issues_of (by revert i; decide +kernel)

theorem witness_LaneArithmetic : Canonical bed ∧ SourcesReady bed [1, 2, 3] ∧ SourcesReady bed [4, 5, 6] ∧
    ∀ i ∈ [Instr.vadd 0 1 1 2 3 0 1, .vsub 0 0 1 2 3 0 0, .vmin 0 0 1 2 3 0 0, .vmax 0 0 1 2 3 0 0, .vmul 0 0 1 2 3 0 0,
      .vmulh 0 0 4 5 6 0 0, .vfma 0 0 1 2 3 0 0, .vfms 0 0 1 2 3 0 0, .vdiv 0 0 4 5 6 0 0, .vsqrt 0 0 1 2 0 0,
      .vrcp 0 0 1 2 0 0, .vrsq 0 0 1 2 0 0, .vexp2 0 0 1 2 0 0, .vlog2 0 0 1 2 0 0, .vabs 0 0 4 5 0 0, .vneg 0 0 1 2 0 0,
      .vadds 0 0 1 2 3 0 0, .vmuls 0 0 1 2 3 0 0, .vcvt 0 0 4 1 0 0], ∃ m, Issues i m bed :=
  ⟨bed_canonical, bed_sources _ (by simp), bed_sources _ (by simp),
   fun i h => issues_of (by revert i; decide +kernel)⟩

theorem witness_LaneBitOperations : Canonical bed ∧ SourcesReady bed [4, 5, 6] ∧
    ∀ i ∈ [Instr.vand 0 4 5 6 0, .vor 0 4 5 6 0, .vxor 0 4 5 6 0, .vandn 0 4 5 6 0, .vshl 0 4 5 6 0, .vshr 0 4 5 6 0,
      .vsra 0 4 5 6 0, .vrol 0 4 5 6 7], ∃ m, Issues i m bed :=
  ⟨bed_canonical, bed_sources _ (by simp), fun i h => issues_of (by revert i; decide +kernel)⟩

/-- Masks 1 and 2 hold bit 1 alone; the merged value of element 1 is `v`. -/
def mergeBed (v : Nat) : State := bedOf { hart0 with
  masks := #v[0, 2, 2, 0, 0, 0, 0, 0], stope := if v = 0 then [] else [(4, BitVec.ofNat 2048 (v * 2 ^ 32))] }

/-- The same, w5 a STREAM window on channel 0, whose copy has not begun. -/
def unmergedBed : State := bedOf { (mergeBed 0).hart with
  win := hart0.win.set 5 (win 4 3 0 4 0), chans := hart0.chans.set 0 { Chan.entry with ops := [waitedOp] } }

/-- `vmerge 0 w4, w5, k1, s:k2` finds a deferred fault in element 1, the lowest. -/
def MergeTests (s : State) : Prop :=
  HandlerReady s ∧ StrandLegal s.hart ∧ s.hart.ctrl.stidx = 0 ∧ s.hart.kd = 0 ∧ (standOf s.hart s.hart.pc).ahead = 0 ∧
  (∀ d ∈ [(4 : Win), 5], windowReason s.hart.height (vl s) (readW s d) (d == 4) = none) ∧
  sameWidth (tyOf s 4) (tyOf s 5) = true ∧ 1 < vl s ∧ (readK s 1).getLsbD 1 = true ∧ (readK s 2).getLsbD 1 = true ∧
  ∀ q < 1, ¬((readK s 1).getLsbD q = true ∧ (readK s 2).getLsbD q = true)

theorem witness_LaneMovesAndMerge : (Canonical bed ∧ SourcesReady bed [4, 5, 6] ∧
    ∀ i ∈ [Instr.vsel 0 4 5 6 1, .vmov 0 4 5 0, .vmerge 0 4 5 1 2, .viota 0 4 0, .vbcast 0 4 3 0, .vperm 0 4 5 6 0,
      .vslide 0 4 5 2 0], ∃ m, Issues i m bed) ∧
    (∀ v ∈ [0, 5, 9, 12, 15], MergeTests (mergeBed v) ∧ mergeStall 5 1 2 (mergeBed v) = false ∧
      srcBits (mergeBed v) (readW (mergeBed v) 5) 1 % 16 = v) ∧
    -- of a STREAM source on channel 0 nothing is delivered yet
    MergeTests unmergedBed ∧ mergeStall 5 1 2 unmergedBed = true := by
  refine ⟨⟨bed_canonical, bed_sources _ (by simp), fun i h => issues_of (by revert i; decide +kernel)⟩, ?_, ?_, by decide +kernel⟩
  · intro v h
    exact ⟨⟨handlerReady_of (by revert v; decide +kernel), strandLegal_of (by revert v; decide +kernel), rfl, rfl,
      by revert v; decide +kernel⟩, by revert v; decide +kernel⟩
  · exact ⟨handlerReady_of (by decide +kernel), strandLegal_of (by decide +kernel), rfl, rfl, by decide +kernel⟩

theorem witness_LaneCompares : SourcesReady bed [1, 2, 3] ∧
    ∀ i ∈ [Instr.vceq 0 1 1 2 0, .vcne 0 1 1 2 0, .vclt 0 1 1 2 0, .vcle 0 7 1 2 0], ∃ m, Issues i m bed :=
  ⟨bed_sources _ (by simp), fun i h => issues_of (by revert i; decide +kernel)⟩

theorem witness_Reductions : Canonical bed ∧ SourcesReady bed [1, 2, 3] ∧ 0 < vl bed ∧
    ∀ i ∈ [Instr.vredsum 0 1 2 0, .vredmax 0 1 2 0, .vredmin 0 1 2 0, .vscan 0 1 2 0, .vcompress 0 1 2 0, .vextr 0 4 1 2],
      ∃ m, Issues i m bed :=
  ⟨bed_canonical, bed_sources _ (by simp), by decide +kernel, fun i h => issues_of (by revert i; decide +kernel)⟩

/-! ### Witnesses: vector memory -/

/-- The elements' addresses: those of `vld`, of `vlds` with a stride of 1, of `vldx` on zero indices. -/
theorem witness_VectorLoads : Canonical bed ∧ SourcesReady bed [] ∧ SourcesReady bed [4, 5, 6] ∧
    (∀ i ∈ [Instr.vld 0 0 1 1 0 0, .vlds 0 0 9 1 0 0, .vldx 0 0 1 4 1 0 0, .vld 0 1 1 8 0 3], ∃ m, Issues i m bed) ∧
    (∀ e, Active bed 0 e → (check bed (elemReq .read 12 (BitVec.ofNat 64 (0x1000_2000 + e * 4)) e)).Passes) ∧
    (∀ e, Active bed 0 e → (check bed (elemReq .read 1 (BitVec.ofNat 64 (0x1000_2000 + e)) e)).Passes) ∧
    (∀ e, Active bed 0 e → (check bed (elemReq .read 12 0x1000_2000 e)).Passes) ∧
    (∀ e, Active bed 0 e → (check bed (elemReq .read 12 (BitVec.ofNat 64 (0x400_0000 + e * 4)) e)).Traps bed) := by
  refine ⟨bed_canonical, ⟨rfl, by simp⟩, bed_sources _ (by simp), fun i h => issues_of (by revert i; decide +kernel), ?_⟩
  and_intros
  all_goals intro e he
  · rcases active_two bed_vl he with rfl | rfl
    · exact ⟨0x1000_2000, true, false, by decide +kernel⟩
    · exact ⟨0x1000_2004, true, false, by decide +kernel⟩
  · rcases active_two bed_vl he with rfl | rfl
    · exact ⟨0x1000_2000, true, false, by decide +kernel⟩
    · exact ⟨0x1000_2001, true, false, by decide +kernel⟩
  · rcases active_two bed_vl he with rfl | rfl
    · exact ⟨0x1000_2000, true, false, by decide +kernel⟩
    · exact ⟨0x1000_2000, true, false, by decide +kernel⟩
  · rcases active_two bed_vl he with rfl | rfl
    · exact ⟨{ cause := 6, addr := 0x400_0000, ev := true }, by decide +kernel, Or.inl (by decide)⟩
    · exact ⟨{ cause := 6, addr := 0x400_0004, ev := true, elem := 1 }, by decide +kernel, Or.inl (by decide)⟩

/-- The base lies 4 bytes below the end of the mapped range, so that element 1 misses its page. -/
def edgeBed : State := bedOf { hart0 with gpr := regs [(1, 0x7_FFFF_FFFC)] }
def edgeAddr (e : Nat) : Word := BitVec.ofNat 64 (0x7_FFFF_FFFC + e * 4)

/-- `vldb` at its lowest active element, read and deferred; `vldff` whole, and cut before element 1. -/
theorem witness_BroadcastAndFirstFaultLoads : Canonical bed ∧ StrandLegal bed.hart ∧
    (∀ i ∈ [Instr.vldb 0 0 1 1 0 0, .vldb 0 1 1 9 0 3], ∃ m, Issues i m bed) ∧ LowestActive bed 0 0 ∧
    check bed (elemReq .read 12 0x1000_2000 0) = .home 0x1000_2000 true false ∧
    (∃ t, check bed (elemReq .read 12 0x400_0000 0) = .trap t) ∧
    (∃ m, Issues (.vldff 0 0 1 1 0 0) m edgeBed) ∧ (1 ≤ vl edgeBed) ∧ Active edgeBed 0 0 ∧ Active edgeBed 0 1 ∧
    (check edgeBed (elemReq .read 12 (edgeAddr 0) 0)).Passes ∧
    (check edgeBed (elemReq .read 12 (edgeAddr 1) 1)).Stops edgeBed ∧
    ((∃ m, Issues (.vldff 0 1 1 8 0 3) m bed) ∧ Active bed 0 1 ∧
      (check bed (elemReq .read 12 0x400_0004 1)).Stops bed) := by
  have stops : (check bed (elemReq .read 12 0x400_0004 1)).Stops bed := by
    have h : check bed (elemReq .read 12 0x400_0004 1) = .trap { cause := 6, addr := 0x400_0004, ev := true, elem := 1 } := by
      decide +kernel
    rw [h]
    exact ⟨fun ⟨_, _, _, h⟩ => (nomatch h), fun x hx => by cases hx; exact Or.inl (by decide)⟩
  refine ⟨bed_canonical, bed_legal, fun i h => issues_of (by revert i; decide +kernel),
    ⟨⟨by decide +kernel, by decide +kernel⟩, by omega⟩,
    by decide +kernel, ⟨{ cause := 6, addr := 0x400_0000, ev := true }, by decide +kernel⟩,
    issues_of (by decide +kernel), by decide +kernel, ⟨by decide +kernel, by decide +kernel⟩,
    ⟨by decide +kernel, by decide +kernel⟩, ⟨0x7_FFFF_FFFC, true, false, by decide +kernel⟩, ?_,
    issues_of (by decide +kernel), ⟨by decide +kernel, by decide +kernel⟩, stops⟩
  have h : check edgeBed (elemReq .read 12 (edgeAddr 1) 1) =
      .miss { va := 0x8_0000_0000, key := 0, kind := 0, elem := 1, split := false, void := true, host := false } := by
    decide +kernel
  rw [h]
  exact ⟨fun ⟨_, _, _, h⟩ => (nomatch h), fun _ h => (nomatch h)⟩

/-- Element 1 lies past the strand's window of the sump. -/
theorem witness_OrderedLoadStops :
    let s : State := { bedOf { hart0 with gpr := regs [(1, 0x400_FFFC)] } with
      parts := [(0, { part0 with psump0 := 0x1_0000_0000_0000 })] }
    Canonical s ∧ HandlerReady s ∧ StrandLegal s.hart ∧ (∃ m, Issues (.vld 0 0 1 1 0 0) m s) ∧ Active s 0 1 ∧
    (check s (elemReq .read 12 0x401_0000 1) = .trap { cause := 6, addr := 0x401_0000, ev := true, elem := 1 }) ∧
    (check s (elemReq .read 12 0x400_FFFC 0)).Passes :=
  ⟨canonical_of (by decide +kernel), handlerReady_of (by decide +kernel), strandLegal_of (by decide +kernel),
   issues_of (by decide +kernel), ⟨by decide +kernel, by decide +kernel⟩, by decide +kernel,
   ⟨sumpBase 0 + 0xFFFC, false, false, by decide +kernel⟩⟩

/-- Accesses of the small state pass whatever memory holds. -/
theorem bed_stores_pass {n : Nat} {act : Nat → Prop} {req : Nat → Req} {home : Nat → Nat} (lt : ∀ e, act e → e < n)
    (hw : ∀ e < n, entryKind (smGet 0 (partOf bed 0).shaft (vaOf (req e).ptr / 2 ^ 35)) < 2)
    (h : ∀ e < n, check bed (req e) = .home (home e) true false ∨ check bed (req e) = .home (home e) false false) :
    StoresPass bed act req home := by
  intro m _ _ e he
  rcases h e (lt e he) with h' | h'
  · exact ⟨true, (check_grand bed _ m (hw e (lt e he))).trans h'⟩
  · exact ⟨false, (check_grand bed _ m (hw e (lt e he))).trans h'⟩

theorem active_lt {s : State} {kn : BitVec 3} {e : Nat} (hv : vl s = 2) (h : Active s kn e) : e < 2 := by
  have := h.1; omega

theorem witness_VectorStores : Canonical bed ∧ SourcesReady bed [1, 2, 3] ∧ SourcesReady bed [4, 5, 6] ∧
    (∀ i ∈ [Instr.vst 0 1 1 0, .vsts 0 9 1 0, .vstx 0 1 4 1 0, .vstduo 0 1 1 0], ∃ m, Issues i m bed) ∧
    StoresPass bed (Active bed 0) (fun e => elemReq .write 12 (BitVec.ofNat 64 (0x1000_2000 + e * 4)) e)
      (fun e => 0x1000_2000 + e * 4) ∧
    StoresPass bed (Active bed 0) (fun e => elemReq .write 1 (BitVec.ofNat 64 (0x1000_2000 + e)) e)
      (fun e => 0x1000_2000 + e) ∧
    StoresPass bed (Active bed 0) (fun e => elemReq .write 12 0x1000_2000 e) (fun _ => 0x1000_2000) := by
  refine ⟨bed_canonical, bed_sources _ (by simp), bed_sources _ (by simp),
    fun i h => issues_of (by revert i; decide +kernel), ?_, ?_, ?_⟩ <;>
  exact bed_stores_pass (n := 2) (fun _ => active_lt bed_vl) (by decide +kernel) (by decide +kernel)

/-- `vstduo` in two places: a page and the strand's own pad. -/
theorem witness_VectorStores_duo : SourcesReady bed [1] ∧
    StoresPass bed (fun n => Active bed 0 (n / 2))
      (fun n => elemReq .write 12 (BitVec.ofNat 64 ((if n % 2 = 0 then 0x1000_2000 else 0) + n / 2 * 4)) (n / 2))
      (fun n => if n % 2 = 0 then 0x1000_2000 + n / 2 * 4 else padBase 0 + n / 2 * 4) := by
  refine ⟨sourcesReady_of rfl (by decide +kernel), bed_stores_pass (n := 4) (fun e he => ?_) (by decide +kernel)
    (by decide +kernel)⟩
  have := active_lt bed_vl he
  omega

/-- The strand of the small state with 0 and 1 as the elements of w7 (the indices of `vamoX`). -/
def indexBed : State := bedOf { hart0 with stope := [(6, 0x1_0000_0000)] }

theorem witness_VectorAtomics : Canonical bed ∧ SourcesReady bed [4] ∧
    (∃ m, Issues (.vamo 0 5 4 1 0 6 3) m bed) ∧ (∃ m, Issues (.vamoX 0 7 8 1 0 5 0) m indexBed) ∧
    StoresPass bed (Active bed 0) (fun e => elemReq .atomic 3 (BitVec.ofNat 64 (0x1000_2000 + e * 4)) e)
      (fun e => 0x1000_2000 + e * 4) ∧
    (∀ e e', Active bed 0 e → Active bed 0 e' → e ≠ e' →
      0x1000_2000 + e * 4 + 4 ≤ 0x1000_2000 + e' * 4 ∨ 0x1000_2000 + e' * 4 + 4 ≤ 0x1000_2000 + e * 4) ∧
    (∀ e < 2, srcBits indexBed (readW indexBed 7) e = e ∧
      check indexBed (elemReq .atomic 6 (BitVec.ofNat 64 (0x1000_2000 + e * 4)) e) =
        .home (0x1000_2000 + e * 4) true false) := by
  refine ⟨bed_canonical, sourcesReady_of rfl (by decide +kernel), issues_of (by decide +kernel),
    issues_of (by decide +kernel), ?_, fun e e' _ _ _ => by omega, by decide +kernel⟩
  exact bed_stores_pass (n := 2) (fun _ => active_lt bed_vl) (by decide +kernel) (by decide +kernel)

theorem witness_TagAssignment : Canonical tagBed ∧ SourcesReady tagBed [4] ∧ (∃ m, Issues (.tagset 0 4 1 0) m tagBed) ∧
    (∀ e, Active tagBed 0 e → ∃ translated, check tagBed
      { kind := .write, len := 32, align := 32, tagged := false, plain := false, consumes := false, elem := some e
        needTag := true, ptr := BitVec.ofNat 64 (0x1000_2000 + 32 * e) } =
      .home (0x1000_2000 + 32 * e) translated false) ∧
    (∀ e e', Active tagBed 0 e → Active tagBed 0 e' → e ≠ e' → (0x1000_2000 + 32 * e) / 32 ≠ (0x1000_2000 + 32 * e') / 32) := by
  refine ⟨canonical_of (by decide +kernel), sourcesReady_of rfl (by decide +kernel), issues_of (by decide +kernel),
    fun e he => ⟨true, ?_⟩, fun e e' _ _ _ => by omega⟩
  rcases active_two (s := tagBed) (by decide +kernel) he with rfl | rfl <;> decide +kernel

/-! ### Witnesses: the seam, the tensor forms and the sump -/

/-- The strand with joined slots. -/
def joinedBed : State := bedOf { hart0 with seam := { hart0.seam with
  bound0 := 0x8000_0000_0000_0000, bound1 := 0x8000_0000_0000_0000 } }

theorem witness_SeamControl : Canonical bed ∧ StrandLegal bed.hart ∧ seamDone bed = false ∧ SourcesReady bed [12] ∧
    (∀ i ∈ [Instr.satt 0 2, .sdet 0, .sguard 0 2, .szero 0 0, .szero 0 1, .sldb 0 12 14, .sstat 0 4], ∃ m, Issues i m bed) ∧
    (∃ m, Issues (.szero 0 0) m joinedBed) ∧ joinedSlots joinedBed 0 = true ∧ joinedSlots bed 1 ≠ true ∧
    Canonical joinedBed ∧ StrandLegal joinedBed.hart :=
  ⟨bed_canonical, bed_legal, by decide +kernel, sourcesReady_of rfl (by decide +kernel),
   fun i h => issues_of (by revert i; decide +kernel), issues_of (by decide +kernel), by decide +kernel, by decide +kernel,
   canonical_of (by decide +kernel), strandLegal_of (by decide +kernel)⟩

/-- A contribution of the strand to row 0 is pending, and none is. -/
theorem witness_SeamControl_waits : let s : State := { bed with contribs := [waitedFill] }
    Canonical s ∧ StrandLegal s.hart ∧ seamDone s = false ∧ s.hart.badBits = [] ∧ pendingRow (fun _ => true) s = true ∧
    pendingRow (fun r => decide (rowBase s 14 ≤ r) && decide (r < rowBase s 14 + vl s)) s = true ∧
    (∀ i ∈ [Instr.satt 0 2, .sdet 0, .sstat 0 4, .sfin 0 1 14], ∃ m, Issues i m s) ∧
    pendingRow (fun _ => true) bed = false ∧
    pendingRow (fun r => decide (rowBase bed 14 ≤ r) && decide (r < rowBase bed 14 + vl bed)) bed = false :=
  ⟨canonical_of (by decide +kernel), bed_legal, by decide +kernel, rfl, by decide +kernel, by decide +kernel,
   fun i h => issues_of (by revert i; decide +kernel), rfl, by decide +kernel⟩

theorem witness_SeamStatus : Canonical joinedBed ∧ seamDone joinedBed = false ∧ SourcesReady joinedBed [] ∧
    pendingRow (fun _ => true) joinedBed = false ∧ ∃ m, Issues (.sstat 0 4) m joinedBed :=
  ⟨canonical_of (by decide +kernel), by decide +kernel, ⟨rfl, by simp⟩, rfl, issues_of (by decide +kernel)⟩

/-- Adapter identifiers come from an n16 window; the directory begins past the mapped range. -/
def adapterBed (row : BitVec 2048) : State := bedOf { hart0 with
  win := hart0.win.set 16 (win 0 5 15 4 0), stope := if row = 0 then [] else [(15, row)],
  ctrl := { hart0.ctrl with sadp := 0x8_0000_0080 } }

theorem witness_SeamProducts : Canonical bed ∧ StrandLegal bed.hart ∧ seamDone bed = false ∧ governorHolds bed = false ∧
    SourcesReady bed [12] ∧ vl bed ≠ 0 ∧ (∃ m, Issues (.smul 0 12 14 0 0 0 0) m bed) ∧
    (∃ m, Issues (.smul 0 12 14 0 0 0 1) m joinedBed) ∧ NamedRow bed 14 0 ∧ NamedRow bed 14 1 ∧ ¬NamedRow bed 14 2 ∧
    (∃ m, Issues (.smula 0 12 14 1 0 0 0) m (adapterBed 0)) ∧ SourcesReady (adapterBed 0) [12, adapterWin (adapterBed 0)] ∧
    (let s := adapterBed 0xFFFF
     (∃ m, Issues (.smula 0 12 14 0 0 0 0) m s) ∧ srcBits s (readW s (adapterWin s)) 0 = 0xFFFF ∧
       smGet [] s.adapter (adapterKey (gangOf s.hart.core) s.hart.part (0x8_0000_0000 + 16 * 0xFFFF)) = [] ∧
       s.contribs = [] ∧ s.lateFills = [] ∧
       ∀ key, readLine s s.hart.core s.hart.part key ((0x8_0000_0000 + 16 * 0xFFFF) / 128 * 128) = none) :=
  ⟨bed_canonical, bed_legal, by decide +kernel, by decide +kernel, sourcesReady_of rfl (by decide +kernel),
   by decide +kernel, issues_of (by decide +kernel), issues_of (by decide +kernel),
   ⟨by decide +kernel, by decide +kernel⟩, ⟨by decide +kernel, by decide +kernel⟩, fun h => by
     have : ¬(2 < rowBase bed 14 + vl bed) := by decide +kernel
     exact this h.2,
   issues_of (by decide +kernel), sourcesReady_of rfl (by decide +kernel), issues_of (by decide +kernel),
   by decide +kernel, by decide +kernel, rfl, rfl, fun key => by
     have : locate (adapterBed 0xFFFF) { Strand.vacant with core := 0, part := 0 } ((0x8_0000_0000 + 16 * 0xFFFF) / 128 * 128) .read =
       .missing false true false := by decide +kernel
     show readLine (adapterBed 0xFFFF) 0 0 key _ = none
     simp only [readLine, this]
     split <;> rfl⟩

/-- A line of the given dwords. -/
def lineOf (ds : List Word) : List Byte := dwordBytes ds ++ List.replicate (128 - 8 * ds.length) 0

/-- Adapter 1 of rank 1 is in the gang's cache: its entry, 32 rows of U of which the first holds 1, and the row of V, 2; element
0 of w12 is 5. -/
def lineBed : State :=
  let s := adapterBed 1
  { s with
    hart := { s.hart with stope := [(11, 5), (15, 1)], seam := { s.hart.seam with rows := [(0, { SeamRow.zero with b := 3 })] } }
    adapter := (adapterKey 0 0 0x8_0000_0000, lineOf [0, 0, 0x9_0000_0001, 0xA_0000_0000]) ::
      ((List.range 32).map (fun m => (adapterKey 0 0 (0x9_0000_0000 + 128 * m), lineOf [if m = 0 then 0x3F80_0000 else 0]))) ++
      [(adapterKey 0 0 0xA_0000_0000, lineOf [0x4000_0000])] }

theorem witness_SeamProducts_adapter : let s := lineBed
    let line (va : Nat) : List Byte := smGet [] s.adapter (adapterKey (gangOf s.hart.core) s.hart.part va)
    Canonical s ∧ StrandLegal s.hart ∧ seamDone s = false ∧ governorHolds s = false ∧ SourcesReady s [12, adapterWin s] ∧
      (∃ m, Issues (.smula 0 12 14 0 0 0 0) m s) ∧ vl s = 2 ∧ srcBits s (readW s (adapterWin s)) 0 = 1 ∧
      srcBits s (readW s (adapterWin s)) 1 = 0 ∧
      bitsW s.hart.ctrl.sadp 8 40 * 256 = 0x8_0000_0000 ∧ rowBase s 14 = 0 ∧ rowSel s 14 = 0 ∧ 512 / guardBits s = 32 ∧
      s.contribs = [] ∧ line 0x8_0000_0010 ≠ [] ∧
      BitVec.ofNat 64 (leNat (((line 0x8_0000_0010).drop 16).take 8)) = (0x9_0000_0001 : Word) ∧
      BitVec.ofNat 64 (leNat (((line 0x8_0000_0010).drop 24).take 8)) = (0xA_0000_0000 : Word) ∧
      leNat ((line 0xA_0000_0000).take 4) = 0x4000_0000 ∧
      (∀ m < 32, line (0x9_0000_0000 + 128 * m) ≠ [] ∧ leNat ((line (0x9_0000_0000 + 128 * m)).take 4) / 2 ^ 23 % 256 ≠ 255) ∧
      (seamRow s 0).delta = 0 :=
  ⟨canonical_of (by decide +kernel), strandLegal_of (by decide +kernel), by decide +kernel, by decide +kernel,
   sourcesReady_of rfl (by decide +kernel), issues_of (by decide +kernel), by and_intros <;> decide +kernel⟩

theorem witness_SeamResults : Canonical bed ∧ StrandLegal bed.hart ∧ bed.hart.badBits = [] ∧
    ∀ i ∈ [Instr.sxtr 0 4 14 0, .sxtr 0 4 14 1, .sxtw 0 10 14 1, .sfin 0 1 14], ∃ m, Issues i m bed :=
  ⟨bed_canonical, bed_legal, rfl, fun i h => issues_of (by revert i; decide +kernel)⟩

theorem elementsReady_of {s : State} {srcs : Nat → List (Word × Nat)} (hb : s.hart.badBits = [])
    (w : (List.range (vl s)).all (fun e => (srcs e).all (fun x => dKind x.1 != 4)) = true) (hs : s.bad = [] := by rfl) :
    ElementsReady s srcs := by
  refine ⟨hb, fun e he x hx => ⟨badSource_none hb hs _ _, fun hk => ?_⟩⟩
  rw [List.all_eq_true] at w
  have h := w e (List.mem_range.mpr he)
  rw [List.all_eq_true] at h
  simpa [hk] using h x hx

/-- `vpack`, `vunpk` of a q4 code and of a word, `vqnt` with open scales, and `vscalc`. -/
theorem witness_TensorForms : Canonical bed ∧ StrandLegal bed.hart ∧
    (∀ i ∈ [Instr.vpack 0 12 11 0, .vpackr 0 12 11 0, .vunpk 0 9 14 0, .vunpk 0 9 12 0, .vqnt 0 0 14 1 15 0 0,
      .vscalc 0 0 1 4 13 0 0], ∃ m, Issues i m bed) ∧
    ElementsReady bed (packSrcs bed 11) ∧ ElementsReady bed (imageSrcs bed 14) ∧ ElementsReady bed (imageSrcs bed 12) ∧
    ElementsReady bed (scaleSrcs bed 1 4 13) ∧
    ElementsReady bed (fun e => [(readW bed 1, e), (readW bed 15, e / 32)]) ∧ tyOf bed 14 = 7 ∧ tyOf bed 12 = 14 ∧
    (∀ e, Active bed 0 e → srcBits bed (readW bed 15) (e / 32) % 64 ≠ 63) ∧ vl bed ≤ 2048 ∧
    (∀ e, Active bed 0 e → ∀ b, (coord (readW bed 14) e).1 ≠ (coord (readW bed 15) b).1) := by
  refine ⟨bed_canonical, bed_legal, fun i h => issues_of (by revert i; decide +kernel), ?_, ?_, ?_, ?_, ?_, ?_, ?_,
    fun e he => ?w, ?_, fun e he b => ?r⟩
  all_goals try first
    | decide +kernel
    | exact elementsReady_of rfl (by decide +kernel)
  · rcases active_two bed_vl he with rfl | rfl <;> decide +kernel
  · have hk : dKind (readW bed 15) = 0 ∧ dRow0 (readW bed 15) = 14 := by decide +kernel
    have hd : (coord (readW bed 14) e).1 = 13 := by
      rcases active_two bed_vl he with rfl | rfl <;> decide +kernel
    have hb : (coord (readW bed 15) b).1 = 14 + b / dWidth (readW bed 15) := by
      rw [coord, hk.1, hk.2]; rfl
    rw [hd, hb]
    generalize b / dWidth (readW bed 15) = q
    omega

/-- Codes of a zero, an infinity, and a value between two of the grid. -/
theorem witness_TensorForms_codes :
    let m : Mode := { rm := 0, sat := false, ftz := false, k := 0 }
    IsQuantCode 0x1F m (.fin false 0 0 false) (0, 0) ∧ IsQuantCode 0x1F m (.inf true) (8, flSAT ||| flNX) ∧
      IsQuantCode 0x1F m (.fin true 5 (-1) false) (14, flNX) := by
  refine ⟨⟨0, by decide +kernel⟩, rfl, ⟨2, by decide +kernel⟩⟩

/-- The strand's window of the sump is its first 64 KiB; r1 is its start. -/
def sumpBed : State := { bedOf { hart0 with gpr := regs [(1, 0x400_0000), (2, 3)] } with
  parts := [(0, { part0 with psump0 := 0x1_0000_0000_0000 })] }

theorem witness_SumpUpdates : Canonical sumpBed ∧ StrandLegal sumpBed.hart ∧ SourcesReady sumpBed [1, 4] ∧
    (∃ m, Issues (.sax 0 2 1 1 0) m sumpBed) ∧ (∃ m, Issues (.sred 0 4 1 0 5) m sumpBed) ∧ LowestActive sumpBed 0 0 ∧
    check sumpBed (bankReq 0x400_0000 4 4 0) = .home (sumpBase 0) false false ∧
    StoresPass sumpBed (Active sumpBed 0) (fun e => bankReq (BitVec.ofNat 64 (0x400_0000 + e * 4)) 4 4 e)
      (fun e => sumpBase 0 + e * 4) ∧
    (∀ e e', Active sumpBed 0 e → Active sumpBed 0 e' → e ≠ e' → sumpBase 0 + e * 4 + 4 ≤ sumpBase 0 + e' * 4 ∨
      sumpBase 0 + e' * 4 + 4 ≤ sumpBase 0 + e * 4) := by
  refine ⟨canonical_of (by decide +kernel), strandLegal_of (by decide +kernel), sourcesReady_of rfl (by decide +kernel),
    issues_of (by decide +kernel), issues_of (by decide +kernel), ⟨⟨by decide +kernel, by decide +kernel⟩, by omega⟩,
    by decide +kernel, fun m _ _ e he => ⟨false, ?_⟩, fun e e' _ _ _ => by omega⟩
  rw [check_grand]
  · rcases active_two (s := sumpBed) (by decide +kernel) he with rfl | rfl <;> decide +kernel
  · rcases active_two (s := sumpBed) (by decide +kernel) he with rfl | rfl <;> decide +kernel

/-- A queue of depth 2 with one element held, at the start of the sump. -/
def queueBed : State := { sumpBed with
  mem := smWrite 0 [] (sumpBase 0) (dwordBytes [0x1_0000_0000, 1]) }

theorem witness_HardwareQueues : Canonical queueBed ∧ StrandLegal queueBed.hart ∧ LowestActive queueBed 0 0 ∧
    check queueBed (bankReq (elemAddr (readG queueBed 1) 0) 64 64 0) = .home (sumpBase 0) false false ∧
    (∃ q, queueHead queueBed (sumpBase 0) (vaOf (elemAddr (readG queueBed 1) 0)) false = some q ∧ q.depth = 2 ∧ q.held = 1) ∧
    (∃ m, Issues (.sqpush 0 7 1 0) m queueBed) ∧ (∃ m, Issues (.sqpop 0 7 1 0) m queueBed) ∧ SourcesReady queueBed [7] ∧
    (∀ i < 2, check queueBed (bankReq (elemAddr (elemAddr (readG queueBed 1) 0) ((64 + 4 * i : Nat) : Int)) 4 4 0) =
      .home (sumpBase 0 + 64 + 4 * i) false false) :=
  ⟨canonical_of (by decide +kernel), strandLegal_of (by decide +kernel), ⟨⟨by decide +kernel, by decide +kernel⟩, by omega⟩,
   by decide +kernel, ⟨{ pushed := 1, popped := 0, depth := 2 }, by decide +kernel⟩, issues_of (by decide +kernel),
   issues_of (by decide +kernel), sourcesReady_of rfl (by decide +kernel), by decide +kernel⟩

/-! ### Witnesses: claims, channels, bells and messages -/

/-- An engine's slots, none of them live, hold a free one. -/
theorem freeSlot_some {s : State} {eng x : Nat} (hx : x < 4096) (h : (seqAt s eng x).live = false) :
    ∃ slot, freeSlotOf s eng = some slot := by
  have hm : x ∈ (List.range 4096).filter (fun i => !(seqAt s eng i).live) := by
    simp [hx, h]
  have hp := List.length_pos_of_mem hm
  exact ⟨_, List.getElem?_eq_getElem (Nat.mod_lt _ hp)⟩

/-- A sequence of four pages from 0x4000_0000 in slot 5 of engine 0: page 0 holds block 0x100 of a pool of four. -/
def seq5 : Seq :=
  { live := true, gen := 1, part := 0, base := 0x4000_0000, cap := 4, len := 1, wr := true, tagged := true
    tables := [0x30_0000] }

/-- Its engine, and its maps: the shaft entry, the level-1 entry, and the leaves from 0x30_0000 on. -/
def claimBed (quota : Word) : State := { bedOf { hart0 with
    gpr := regs [(1, 0x1005), (2, 3), (3, 0x4010_0000), (4, 4), (5, 0x1006)] } with
  mem := smWrite 0 (smWrite 0 [] 0x10_1000 (dwordBytes [0xA000_0000_0030_0000])) 0x30_0000
    (dwordBytes [0x2B80_0000_0100_0000, 0x0200_0000_0000_0000, 0x0200_0000_0000_0000, 0x0200_0000_0000_0000])
  parts := [(0, { part0 with shaft := [(0, 0xC000_0000_0010_0000)], quota := regs [(0, quota)] })]
  engines := (Vector.replicate 12 Engine.reset).set 0 { Engine.reset with
    poolB := 0x100_0000, poolN := 4, counts := [(0x100, 1)], used := [(0, 1)], seqs := [(5, seq5)] } }

theorem leavesApart_row (n a : Nat) : LeavesApart n (fun i => a + 8 * i) := fun i _ j _ _ => by
  show a + 8 * i + 8 ≤ a + 8 * j ∨ a + 8 * j + 8 ≤ a + 8 * i
  omega

theorem witness_ClaimForms :
    (let s := claimBed 16
     Canonical s ∧ StrandLegal s.hart ∧ HandlerReady s ∧ liveSeq s (readG s 1) = some (0, 5) ∧ liveSeq s (readG s 5) = none ∧
       seqAt s 0 5 = seq5 ∧ seq5.len + 3 ≤ seq5.cap ∧
       (∀ i ∈ [Instr.seqopen 0 6 3 4, .claim 0 6 1, .claimn 0 6 1 2, .seqfork 0 6 1 3, .seqtrim 0 6 1 2, .seqclose 0 6 1,
         .claim 0 6 5], ∃ m, Issues i m s) ∧
       (∀ n ∈ [1, 3], (freeBlocks (engineAt s 0).counts (poolOf (engineAt s 0)).1 (poolOf (engineAt s 0)).2 n).length = n ∧
         n ≤ quotaLeft s 0 0 ∧ (∀ i < n, seq5.leafAt (seq5.len + i) = some (0x30_0008 + 8 * i)) ∧
         LeavesApart n (fun i => 0x30_0008 + 8 * i)) ∧
       (readG s 2).toNat ≤ 8 ∧ controlOk (readG s 4) = true ∧ rangeOk s (readG s 3) 4 = true ∧
       (∃ slot, freeSlotOf s 0 = some slot) ∧
       (∀ i < 4, leafAddr s 0 ((readG s 3).toNat + i * 2 ^ 16) = some (0x30_0080 + 8 * i)) ∧
       LeavesApart 4 (fun i => 0x30_0080 + 8 * i) ∧
       (∀ i < 1, smGet 0 (engineAt s 0).counts (pageBlock s seq5 i) ≠ 0xFFFF)) ∧
    quotaLeft (claimBed 1) 0 0 < 1 ∧ ∃ m, Issues (.claim 0 6 1) m (claimBed 1) := by
  refine ⟨⟨canonical_of (by decide +kernel), strandLegal_of (by decide +kernel), handlerReady_of (by decide +kernel),
    by decide +kernel, by decide +kernel, by decide +kernel, by decide, fun i h => issues_of (by revert i; decide +kernel),
    ?_, by decide +kernel, by decide +kernel, by decide +kernel, freeSlot_some (x := 0) (by decide) (by decide +kernel),
    by decide +kernel, leavesApart_row _ _, by decide +kernel⟩, by decide +kernel, issues_of (by decide +kernel)⟩
  intro n hn
  simp only [List.mem_cons, List.not_mem_nil, or_false] at hn
  rcases hn with rfl | rfl
  · exact ⟨by decide +kernel, by decide +kernel, by decide +kernel, leavesApart_row _ _⟩
  · exact ⟨by decide +kernel, by decide +kernel, by decide +kernel, leavesApart_row _ _⟩

/-- The strand with `n` accepted copies on channel 1. -/
def opsBed (ops : List DriftOp) : State := bedOf { hart0 with chans := hart0.chans.set 1 { Chan.entry with ops := ops } }

/-- The entries of channel 1's queue. -/
def queued (s : State) : Nat :=
  ((chanAt s.hart 1).ops.filter (fun o => !o.begun && o.ended.isNone)).length + (chanAt s.hart 1).binds.length

theorem witness_ChannelWords : queued bed < 4 ∧
    (∀ i ∈ [Instr.drift 0 1 1 6 3, .drift2 0 1 1 6 3, .driftm 0 1 14 6 21, .dstop 0 1, .dbell 0 1 4 2,
      .dbell 0 1 3 2, .dlen 0 1 4, .dwp 0 1 4 1], ∃ m, Issues i m bed) ∧
    bitW (readG bed 4) 63 = true ∧ bitW (readG bed 3) 63 = false ∧
    (let s := opsBed [waitedOp, waitedOp, waitedOp, waitedOp]
     4 ≤ queued s ∧ ∀ i ∈ [Instr.drift 0 1 1 6 3, .dstop 0 1, .dbell 0 1 4 2], ∃ m, Issues i m s) ∧ SourcesReady bed [] ∧
    (∃ m, Issues (.driftx 0 3 3 1 14) m (claimBed 16)) :=
  ⟨by decide +kernel, fun i h => issues_of (by revert i; decide +kernel), by decide +kernel, by decide +kernel,
   ⟨by decide +kernel, fun i h => issues_of (by revert i; decide +kernel)⟩, ⟨rfl, by simp⟩, issues_of (by decide +kernel)⟩

/-- Both phases, a bell armed by 0 and by more than its count, and a queue that is drained and one that is not. -/
theorem witness_SynchronisationWords : (∀ a b d e f, bed.hart.run ≠ .waiting a b d e f) ∧
    (∀ i ∈ [Instr.arrive 0 2 0 1, .wait 0 2 0 1 0, .wait 0 2 0 1 1, .arrwait 0 2 0 1 0, .bellset 0 2 3, .bellset 0 2 0,
      .belltst 0 2 4, .bellrst 0 2, .fence 0 4, .drain 0 0x1FF], ∃ m, Issues i m bed) ∧
    undrained bed bed.hart 0x1FF = false ∧
    (let s := opsBed [waitedOp]
     undrained s s.hart 0x1FF = true ∧ ∃ m, Issues (.drain 0 0x1FF) m s) :=
  ⟨fun _ _ _ _ _ h => (nomatch h), fun i h => issues_of (by revert i; decide +kernel), by decide +kernel,
   ⟨by decide +kernel, issues_of (by decide +kernel)⟩⟩

/-- A message to be sent, one whose answer has come, and one of no element. -/
theorem witness_MessageForms :
    (Canonical bed ∧ StrandLegal bed.hart ∧ SourcesReady bed [] ∧ SourcesReady bed [1, 2, 3] ∧ vl bed ≠ 0 ∧
      (∀ i ∈ [Instr.msgput 0 1 1, .msgget 0 1 1, .nred 0 1 2 1], ∃ m, Issues i m bed)) ∧
    (let x (first : BitVec 48) : Stand :=
       { Stand.fresh first with reply := some (.ok [1, 2, 3, 4, 5, 6, 7, 8]), begun := true, tallied := 1 }
     let s := bedOf { hart0 with stands := [x 0x1000_0000] }
     (∀ i ∈ [Instr.msgput 0 1 1, .msgget 0 1 1, .nred 0 1 2 1], ∃ m, IssuesAs i m s (x (joinState s m.c).1)) ∧
       s.hart.badBits = [] ∧ vl s ≠ 0) ∧
    (let s := bedOf { hart0 with ctrl := { hart0.ctrl with vcfg := 0x16_0000 } }
     (∀ i ∈ [Instr.msgput 0 1 1, .msgget 0 1 1, .nred 0 1 2 1], ∃ m, Issues i m s) ∧ vl s = 0) := by
  refine ⟨⟨bed_canonical, bed_legal, ⟨rfl, by simp⟩, bed_sources _ (by simp), by decide +kernel,
    fun i h => issues_of (by revert i; decide +kernel)⟩,
    ⟨fun i h => issuesAs_of (f := fun first =>
        { Stand.fresh first with reply := some (.ok [1, 2, 3, 4, 5, 6, 7, 8]), begun := true, tallied := 1 })
      (by revert i; decide +kernel), rfl, by decide +kernel⟩,
    ⟨fun i h => issues_of (by revert i; decide +kernel), by decide +kernel⟩⟩

/-! ### Witnesses: launches, caches and deputies -/

/-- A job that has started, with the launch of the strand in it. -/
def job1 : Job where
  id := 0
  part := 0
  die := 0
  desc := [0, 0, 0, 0, 0, 0, 0, 0]
  started := true
  root := 1
  cls := 0
  phases := 1
  written := []
  verdict := none
  reported := false

/-- A legal packet at 0x1000_2000: one strand of gang 0, eight elements in granules of four. -/
def packetBed (gangs : Word) : State := { bedL with
  parts := [(0, { part0 with pgang := 0xFFFF_FF00 })], jobs := [job1], mem := smWrite 0 [] 0x1000_2000 (dwordBytes [0x1000_0000, 8, 4, 0, gangs])
  hart := { hart0 with gpr := regs [(1, 0x1000_2000), (2, 0x2000_0000_0000_0001), (3, 0x2000_0000_0000_0009), (4, 1)] } }

theorem witness_LaunchAndCacheWords :
    (let s := packetBed 1
     (onDeputy s.hart = false ∧ check s (packetReq (readG s 1)) = .home 0x1000_2000 true false ∧
       pktLegal s 0 (dwordsOf 16 (memBytes s 0x1000_2000 128)) = true ∧ liveLaunches s 0 < 65536 ∧
       badHandle 0 (readG s 2) = false ∧ (nodeOf s 0 (readG s 2)).isSome = true ∧ badHandle 0 (readG s 3) = false ∧
       nodeOf s 0 (readG s 3) = none ∧ readG s 4 ≠ 0 ∧ badHandle 0 (readG s 4) = true) ∧
     Canonical s ∧ HandlerReady s ∧ StrandLegal s.hart) ∧
    (let s := packetBed 0
     check s (packetReq (readG s 1)) = .home 0x1000_2000 true false ∧
       pktLegal s 0 (dwordsOf 16 (memBytes s 0x1000_2000 128)) = false ∧ HandlerReady s ∧ StrandLegal s.hart) ∧
    (onDeputy (bedOf deputy0).hart = true ∧ HandlerReady (bedOf deputy0) ∧ StrandLegal deputy0) :=
  ⟨⟨by and_intros <;> decide +kernel, canonical_of (by decide +kernel), handlerReady_of (by decide +kernel),
     strandLegal_of (by decide +kernel)⟩,
   ⟨by decide +kernel, by decide +kernel, handlerReady_of (by decide +kernel), strandLegal_of (by decide +kernel)⟩,
   ⟨by decide +kernel, handlerReady_of (by decide +kernel), strandLegal_of (by decide +kernel)⟩⟩

theorem liveLaunches_replicate (s : State) (n : Nat) : liveLaunches { s with launches := List.replicate n launch1 } 0 = n := by
  simp [liveLaunches, show (launch1.part == 0 && !launch1.written) = true from rfl]

/-- A launch at the limit, and a wait for nothing but the end of the strand's own node. -/
theorem witness_LaunchAndCacheWords_refused :
    (let s : State := { packetBed 1 with launches := List.replicate 65536 launch1 }
     check s (packetReq (readG s 1)) = .home 0x1000_2000 true false ∧
       pktLegal s 0 (dwordsOf 16 (memBytes s 0x1000_2000 128)) = true ∧ 65536 ≤ liveLaunches s 0) ∧
    (let s := packetBed 1
     (∃ n, nodeOf s 0 (readG s 2) = some n ∧ holdsStrand s n = true) ∧ readG s 0 = 0 ∧ HandlerReady s ∧ StrandLegal s.hart) :=
  ⟨⟨by decide +kernel, by decide +kernel, Nat.le_of_eq (liveLaunches_replicate (packetBed 1) 65536).symm⟩,
   ⟨⟨_, rfl, by decide +kernel⟩, rfl, handlerReady_of (by decide +kernel), strandLegal_of (by decide +kernel)⟩⟩

/-- A deputy of die 0 that holds the first fault record: a read that missed page 0x4000_0000 of partition 0. -/
def deputyBed : State := { claimBed 16 with
  hart := { deputy0 with gpr := regs [(1, 0x4010_0000), (2, 0x2180_0000_0200_0000), (3, 0x09FF_E000), (5, 0x4100_0000_0000_0000),
    (6, 0x8000_0000_0000_0000), (7, 0x1_0008_0000_0000), (8, 0x8_0000_0000)] }
  dies := #v[{ Die.reset with frTail := 2, frHead := 1, held := #v[some 0, none] }, Die.reset]
  mem := smPut 0 0 (smWrite 0 [] (sumpBase 0 + Config.frqOffset) (dwordBytes [0x4000_0000, 0, 0, 1])) (claimBed 16).mem
  parts := [(0, { (partOf (claimBed 16) 0) with
    shaft := [(0, 0xC000_0000_0010_0000), (1, 0x8000_0000_0000_0000)] })] }

theorem witness_DeputyForms :
    (onDeputy bed.hart = false ∧ HandlerReady bed ∧ StrandLegal bed.hart) ∧
    (let s := deputyBed
     onDeputy s.hart = true ∧ Canonical s ∧ (dieAt s 0).frHead ≠ (dieAt s 0).frTail ∧
       -- `pgmap` and `pgunmap` of a page
       (badPlace (readG s 1) 0 = false ∧ mapTarget s 0 0x4010_0000 (entryKind (readG s 2)) = some 0x30_0080 ∧
         bitW (tableEntry s 0x30_0080) 57 = false ∧ bitW (readG s 2) 57 = false ∧ walkedOk (readG s 2) = true) ∧
       (∃ a1, levelOne s 0 0x4010_0000 = some a1 ∧ leafAddr s 0 0x4010_0000 = some 0x30_0080 ∧
         bitW (tableEntry s 0x30_0080) 57 = false) ∧
       -- `kill`, `pgreq`, `tlbinv` and the two forms of `shmap`
       bitsW (readG s 14) 5 59 = 0 ∧ (heldSlot s (readG s 3) = some 0 ∧
         (let r := dwordsOf 4 (memBytes s (frqKey 0 0) 32)
          bitW (r.getD 3 0) 0 = true ∧ bitsW (r.getD 0 0) 52 4 ≤ 2 ∧ bitsW (r.getD 1 0) 11 5 = 0) ∧
         (partOf s 0).priFailed = false ∧ (freeIndex (partOf s 0)).isSome = true) ∧
       (bitsW (readG s 8) 58 6 ≤ 3 ∧ bitsW (readG s 8) 48 5 = 0) ∧
       (badPlace (readG s 8) 32 = false ∧ bitsW (readG s 8) 48 5 = 0 ∧ shaftOk (readG s 6) = true ∧
         entryKind (smGet 0 (partOf s 0).shaft 1) = 2) ∧
       (badPlace (readG s 7) 32 = false ∧ bitsW (readG s 7) 48 5 ≠ 0 ∧
         entryKind (smGet 0 (partOf s 0).shaft (bitsW (readG s 7) 0 48 / 2 ^ 35)) = 2 ∧ subOk (readG s 5) = true)) ∧
    (let s := bedOf deputy0
     (dieAt s 0).frHead = (dieAt s 0).frTail) :=
  ⟨⟨by decide +kernel, bed_ready, bed_legal⟩,
   ⟨by decide +kernel, canonical_of (by decide +kernel), by decide +kernel, by decide +kernel,
    ⟨0x10_1000, by decide +kernel⟩, by and_intros <;> decide +kernel⟩, by decide +kernel⟩

/-! ### Witnesses: steps of the other agents -/

theorem focusOn_self {f : Strand → Bool} {s : State} (h : f s.hart = true) : focusOn f s = some s := by
  rw [focusOn, if_pos h]

theorem witness_CoreEvents : Canonical bed ∧
    -- an element of a load and of a store, and a trap
    (malformed (readW bed 1) true = false ∧ dType (readW bed 1) ≤ 14 ∧ bed.hart.badBits = [] ∧
      check bed (elemReq .read (dType (readW bed 1)) 0x1000_2000 0) = .home 0x1000_2000 true false ∧
      check bed (elemReq .write (dType (readW bed 1)) 0x1000_2000 0) = .home 0x1000_2000 true false) ∧
    (HandlerReady bed ∧ StrandLegal bed.hart) ∧
    -- waits that are over, by phase and by count
    (let s := bedOf { hart0 with run := .waiting 0 2 true false 1 }
     focusOn (fun h => inSlot 0 0 h && waitOver s h) s = some s) ∧
    (let s := bedOf { hart0 with run := .cwaiting 0x2000_0000_0000_0009 1 }
     focusOn (fun h => inSlot 0 0 h && cwaitOver s h) s = some s) ∧
    (∀ run ∈ [Run.draining 0x1FF, .retiring], let s := bedOf { hart0 with run := run }
     focusOn (fun h => inSlot 0 0 h && drainOver s h) s = some s) ∧
    511 < bed.hart.seam.grant ∧
    (let s : State := { bed with dies := #v[{ Die.reset with govQ := [(0, 0, 0)] }, Die.reset] }
     (dieAt s 0).govQ = [(0, 0, 0)]) ∧
    (let x := waitedFill
     let s : State := { bed with contribs := [x] }
     x.needs s = .line 0 0x1000_2000 ∧ readLine s 0 0 0 0x1000_2000 = some (List.replicate 128 0)) ∧
    (∀ fresh ∈ [true, false],
     let r : FaultRec := { words := [1, 2, 3, 4], fresh := fresh, who := if fresh then some (whoIs hart0) else none, chan := none }
     let s : State := { bed with dies := #v[{ Die.reset with waiting := [r] }, Die.reset] }
     (dieAt s 0).waiting = [r] ∧ frqRoom (dieAt s 0) = true) ∧
    -- copy-on-write of a page that no other maps, and of one that two others do
    (∀ n ∈ [1, 3], let s := cowBed n
     Canonical s ∧ onDeputy s.hart = false ∧
       cowSite s 0 0x1_0000_0000 = some { eng := 0, block := 0x100, leafAt := 0x30_0000, leaf := 0x2780_0000_0100_0000, part := 0 } ∧
       smGet 0 (engineAt s 0).counts 0x100 = BitVec.ofNat 16 n ∧ freeBlock (engineAt s 0) = some 0x101 ∧ quotaLeft s 0 0 ≠ 0) ∧
    -- a sample that is due and one that is not
    (let s := bedOf { hart0 with issued := 16, ctrl := { hart0.ctrl with recctl := 0x102, recbase := 0x1000_3000 } }
     fetchWord s s.hart.pc = .ok 0 ∧ sampleDue s.hart = true ∧ recordPlace s = .home 0x1000_3000 false true false) ∧
    (fetchWord bed bed.hart.pc = .ok 0 ∧ sampleDue bed.hart = false) := by
  refine ⟨bed_canonical, by decide +kernel, ⟨bed_ready, bed_legal⟩,
    focusOn_self (by decide +kernel), focusOn_self (by decide +kernel),
    fun run hr => focusOn_self (by revert run; decide +kernel), by decide +kernel, by decide +kernel, by decide +kernel,
    by decide +kernel, fun n hn => ⟨canonical_of (by revert n; decide +kernel), by revert n; decide +kernel⟩, ?_, ?_⟩
  · exact ⟨rfl, by decide +kernel, by decide +kernel⟩
  · exact ⟨rfl, by decide +kernel⟩


/-- Of the block's two mappings the other is page 0 of a sequence, whose leaf is at 0x30_0008. -/
def sharer : Seq :=
  { live := true, gen := 1, part := 0, base := 0x1_0001_0000, cap := 1, len := 1, wr := true, tagged := false
    tables := [0x30_0000] }
def shareBed : State :=
  let s := cowBed 2
  { s with
    mem := smWrite 0 s.mem 0x30_0008 (dwordBytes [0x2780_0000_0100_0000])
    engines := (Vector.replicate 12 Engine.reset).set 0 { engineAt s 0 with seqs := [(5, sharer)] } }

theorem witness_CoreEvents_shared : let s := shareBed
    Canonical s ∧ onDeputy s.hart = false ∧
      cowSite s 0 0x1_0000_0000 = some { eng := 0, block := 0x100, leafAt := 0x30_0000, leaf := 0x2780_0000_0100_0000, part := 0 } ∧
      smGet 0 (engineAt s 0).counts 0x100 = 2 ∧ freeBlock (engineAt s 0) = some 0x101 ∧ quotaLeft s 0 0 ≠ 0 ∧
      (seqAt s 0 5 = sharer ∧ sharer.leafAt 0 = some 0x30_0008) ∧
      (∀ x i l, (seqAt s 0 x).live = true → i < (seqAt s 0 x).len → (seqAt s 0 x).leafAt i = some l →
        l % 8 = 0 ∧ l / 2 ^ 16 ≠ 0x101) := by
  refine ⟨canonical_of (by decide +kernel), ?_⟩
  iterate 6 refine ⟨by decide +kernel, ?_⟩
  intro x i l hl hi ha
  have hm := smGet_mem Seq.free (engineAt shareBed 0).seqs x
  have hs : seqAt shareBed 0 x = sharer := by
    rcases hm with h | ⟨y, hy, h⟩
    · have : seqAt shareBed 0 x = Seq.free := h
      rw [this] at hl
      cases hl
    · have : (engineAt shareBed 0).seqs = [(5, sharer)] := by decide +kernel
      rw [this, List.mem_singleton] at hy
      rw [hy] at h
      exact h
  rw [hs] at hi ha
  have : i = 0 := by
    have : sharer.len = 1 := rfl
    omega
  subst this
  have : some 0x30_0008 = some l := ha
  cases this
  decide

/-- A strand that keeps strip, trap and suspension records at the given base, with an open strip. -/
def recBed (base : Word) : State := { bedL with
  hart := { hart0 with stripWork := #v[1, 0, 2, 0], nsusp := 2, ctrl := { hart0.ctrl with
    recctl := 0x80D, recbase := base, rechead := 3, stripLen := 4, stripBase := 8 } } }

/-- A place for the record and none; a strip closed by `strip` and by `retire`, a trap, and a page that is missing. -/
theorem witness_RecordsWritten :
    (let s := recBed 0x1000_3000
     let c := s.hart.ctrl
     Canonical s ∧ StrandLegal s.hart ∧ onDeputy s.hart = false ∧
       bitsW c.recbase 6 42 * 64 + 64 * (c.rechead.toNat % 2 ^ bitsW c.recctl 11 5) = 0x1000_3040 ∧
       locate s s.hart 0x1000_3040 .write = .home 0x1000_3040 false true false ∧
       bitW c.recctl 0 = true ∧ c.stripLen ≠ 0 ∧ parkRoom s = none ∧ undrained s s.hart allQueues = false ∧
       bitW c.recctl 2 = true ∧ trapActive s = false ∧ c.tvec.extractLsb' 2 46 ≠ 0 ∧ bitW c.recctl 3 = true ∧
       (let ea := ofInt ((readG s 9).toNat + (0 : BitVec 12).toInt)
        ea.toNat % 8 = 0 ∧ bitsW ea 48 12 = 0 ∧ pageFailed s (bitsW ea 0 48) = false ∧
          locate s s.hart (bitsW ea 0 48) .read = .missing false true false) ∧
       (∀ i < 256, frqKey 0 i + 32 ≤ 0x1000_3040 ∨ 0x1000_3040 + 64 ≤ frqKey 0 i)) ∧
    (let s := recBed 0x400_0000
     locate s s.hart 0x400_0040 .write = .prot ∧ bitW s.hart.ctrl.recctl 2 = true ∧ trapActive s = false ∧
       s.hart.ctrl.tvec.extractLsb' 2 46 ≠ 0) :=
  ⟨⟨canonical_of (by decide +kernel), strandLegal_of (by decide +kernel), by and_intros <;> decide +kernel⟩, by decide +kernel⟩

/-- The strand's small state with messages; the strand waits for the first. -/
def msgBed (ms : List Msg) : State := { bedOf { hart0 with run := .messaging 0x1000_0000 } with
  msgs := ms, parts := [(0, { part0 with pgang := 0xFFFF_FF00, ppeer := 5 })] }

/-- The peer address of a place of this device, whatever its number: `low` is bits 51:0. -/
def padAddr (low : Nat) : Word := BitVec.ofNat 64 (Config.deviceId.toNat * 2 ^ 52 + low)

/-- A message of the strand. -/
def msgOf (a : Word) (kind : MsgKind) (stage : MsgStage) : Msg :=
  { who := whoIs hart0, core := 0, addr := a, kind := kind, stage := stage }

theorem padAddr_toNat {low : Nat} (h : low < 2 ^ 52) : (padAddr low).toNat = Config.deviceId.toNat * 2 ^ 52 + low := by
  have := Config.deviceId.isLt
  rw [padAddr, BitVec.toNat_ofNat, Nat.mod_eq_of_lt (by omega)]

theorem padAddr_device {low : Nat} (h : low < 2 ^ 52) : bitsW (padAddr low) 52 12 = Config.deviceId.toNat := by
  have := Config.deviceId.isLt
  rw [bitsW, padAddr_toNat h]
  simp only [bitsAt]
  omega

theorem padAddr_bits {low lo n : Nat} (h : low < 2 ^ 52) (hn : lo + n ≤ 52) :
    bitsW (padAddr low) lo n = low / 2 ^ lo % 2 ^ n := by
  rw [bitsW, padAddr_toNat h]
  simp only [bitsAt]
  obtain ⟨k, hk⟩ := Nat.exists_eq_add_of_le hn
  have e : Config.deviceId.toNat * 2 ^ 52 = 2 ^ lo * (2 ^ n * (2 ^ k * Config.deviceId.toNat)) := by
    rw [hk, Nat.pow_add, Nat.pow_add]; ac_rfl
  rw [e, Nat.mul_add_div (Nat.two_pow_pos lo), Nat.mul_add_mod]

theorem msg_home {low : Nat} (h : low < 2 ^ 52) (kind : MsgKind) (stage : MsgStage) :
    msgAbroad (msgOf (padAddr low) kind stage) = false := by
  have : bitsW (msgOf (padAddr low) kind stage).addr 52 12 = Config.deviceId.toNat := padAddr_device h
  simp only [msgAbroad, this, BitVec.ofNat_toNat, BitVec.setWidth_eq, bne_self_eq_false]

theorem msg_first {low : Nat} (h : low < 2 ^ 52) (kind : MsgKind) (ht : (msgOf (padAddr low) kind .sent).toPad = true) :
    nthMsg (msgBed [msgOf (padAddr low) kind .sent]) (fun m => m.stage == .sent && m.toPad && !msgAbroad m) 0 =
      some (msgOf (padAddr low) kind .sent, 0) := by
  have hs : ((msgOf (padAddr low) kind .sent).stage == .sent) = true := by simp [msgOf]
  show (([(msgOf (padAddr low) kind .sent, 0)] : List (Msg × Nat)).filter _)[0]? = _
  rw [List.filter_cons_of_pos (by simp only [hs, ht, msg_home h]; rfl)]
  rfl

theorem msg_reach {ms : List Msg} {low : Nat} (h : low < 2 ^ 52) (hp : low / 2 ^ 47 % 2 ^ 5 = 0) :
    peerReach (msgBed ms) (padAddr low) 5 (some 0) =
      (physGang 0xFFFF_FF00 (low / 2 ^ 46 % 2) (low / 2 ^ 40 % 2 ^ 6)).map (fun g => g * 4 + low / 2 ^ 38 % 2 ^ 2) := by
  have h1 : bitsW (padAddr low) 47 5 = 0 := by rw [padAddr_bits h (by decide), hp]
  have h2 : (partOf (msgBed ms) 0).ppeer.setWidth 16 = (5 : BitVec 16) := by
    show (partOf (msgBed []) 0).ppeer.setWidth 16 = (5 : BitVec 16)
    decide +kernel
  have h3 : (partOf (msgBed ms) 0).pgang = 0xFFFF_FF00 := by
    show (partOf (msgBed []) 0).pgang = 0xFFFF_FF00
    decide +kernel
  have h4 : (msgBed ms).crosscut = true := rfl
  rw [peerReach, peerCore, h1, h2, h3, h4, padAddr_bits h (by decide), padAddr_bits h (by decide),
    padAddr_bits h (by decide)]
  cases physGang 0xFFFF_FF00 (low / 2 ^ 46 % 2 ^ 1) (low / 2 ^ 40 % 2 ^ 6) <;> rfl

/-- A copy begun, delivering and ended; messages refused, read and written; answers; and a round of one contribution. -/
theorem witness_ChannelAndMessageEvents : Canonical bed ∧
    (let s := opsBed [waitedOp]
     (chanAt s.hart 1).ops = waitedOp :: [] ∧ inSlot 0 0 s.hart = true ∧ waitedOp.begun = false ∧ waitedOp.ended = none ∧ waitedOp.form = .drift) ∧
    (let op := { waitedOp with begun := true, total := 8, count := 3 }
     let s := opsBed [op]
     (chanAt s.hart 1).ops = op :: [] ∧ op.undo = [] ∧ op.count + 1 < 2 ^ 40 ∧
       (driftBytes s .read [ptrAdd op.src 3]).toOption = some [0x1000_2003] ∧
       (driftBytes s .write [ptrAdd op.dst 3]).toOption = some [0x1000_4003] ∧
       driftPlace s (ptrAdd op.dst 3) .write = .home 0x1000_4003 false true false ∧ s.contribs = []) ∧
    (let op := { waitedOp with begun := true, ended := some 0, count := 8 }
     let s := opsBed [op]
     (chanAt s.hart 1).ops = op :: [] ∧ (chanAt s.hart 1).serial = op.serial ∧ recordWaits 1 s = false) ∧
    (let op := { waitedOp with begun := true, ended := some 0, bell := some (0, 2) }
     let s := opsBed [op]
     (chanAt s.hart 1).ops = op :: [] ∧ op.bell ≠ none ∧ recordWaits 1 s = false) ∧
    -- view gang 1 is no gang of the partition; view gang 0 is physical gang 0
    ((∃ m, nthMsg (msgBed [m]) (fun m => m.stage == .sent && m.toPad && !msgAbroad m) 0 = some (m, 0) ∧
        m.addr = padAddr 0x100_0000_0000 ∧ m.kind = .get 4) ∧
      peerReach (msgBed []) (padAddr 0x100_0000_0000) 5 (some 0) = none) ∧
    ((∀ kind ∈ [MsgKind.get 4, .put [7] false], ∃ m, m.addr = padAddr 0x3F_F800_0000 ∧ m.kind = kind ∧
        nthMsg (msgBed [m]) (fun m => m.stage == .sent && m.toPad && !msgAbroad m) 0 = some (m, 0) ∧
        peerReach (msgBed [m]) m.addr 5 (some 0) = some 0 ∧ bitsW m.addr 27 11 = 0x7FF) ∧
      (0 + [(7 : Byte)].length ≤ Config.padBytes)) ∧
    (∀ stage ∈ [MsgStage.applied [1], .refused, .failed 0], let m := msgOf 0 (.get 1) stage
     nthMsg (msgBed [m]) Msg.toPad 0 = some (m, 0)) ∧
    (let m := msgOf 0 (.get 1) (.applied [1])
     nthMsg (msgBed [m]) (fun m => match m.stage, m.kind with | .applied _, .get _ => true | _, _ => false) 0 = some (m, 0)) ∧
    (let m := msgOf 0x0003_0001_0000_0009 (.nred [5]) .sent
     roundOf (msgBed [m]) 3 9 = (m, [5]) :: [] ∧ ([[5]] ++ ([] : List (List (BitVec 32)))).length = bitsW m.addr 32 16 ∧
       [[0]].length = [(5 : BitVec 32)].length ∧ isOrder 1 [0] = true) := by
  refine ⟨bed_canonical, by decide +kernel, ⟨by decide +kernel, rfl, by decide, by decide +kernel⟩, by decide +kernel, by decide +kernel,
    ⟨⟨msgOf (padAddr 0x100_0000_0000) (.get 4) .sent, msg_first (by decide) _ rfl, rfl, rfl⟩, ?_⟩,
    ⟨fun kind hk => ⟨msgOf (padAddr 0x3F_F800_0000) kind .sent, rfl, rfl, ?_, ?_, ?_⟩, by decide⟩,
    by decide +kernel, by decide +kernel, by decide +kernel⟩
  · rw [msg_reach (by decide) (by decide)]; decide +kernel
  · refine msg_first (by decide) kind ?_
    simp only [List.mem_cons, List.not_mem_nil, or_false] at hk
    rcases hk with rfl | rfl <;> rfl
  · show peerReach (msgBed [_]) (padAddr 0x3F_F800_0000) 5 (some 0) = _
    rw [msg_reach (by decide) (by decide)]; decide +kernel
  · exact (padAddr_bits (low := 0x3F_F800_0000) (lo := 27) (n := 11) (by decide) (by decide)).trans (by decide)

/-- A `drift2` whose descriptor is at 0x1000_6000: four rows of two words from a source of three rows, transposed (the example
of R343). -/
def shapedOp : DriftOp := { waitedOp with form := .drift2, arg := 0x1000_6000 }
def shape43 : List Word := [0x8000_0000_0004_0002, 4, 12, 0x0003_0000_0002]
def shapeBed (d : List Word) (op : DriftOp) : State := { opsBed [op] with mem := smWrite 0 [] 0x1000_6000 (dwordBytes d) }

/-- The bytes that its read finds; with 0 columns it is malformed. -/
theorem witness_shapes :
    (driftBytes (shapeBed shape43 shapedOp) .read
        ((List.range 32).map (fun (i : Nat) => ptrAdd shapedOp.arg i))).toOption = some ((List.range 32).map (0x1000_6000 + ·)) ∧
    memBytes (shapeBed shape43 shapedOp) 0x1000_6000 32 = dwordBytes shape43 ∧
    memBytes (shapeBed (0x8000_0000_0004_0000 :: shape43.drop 1) shapedOp) 0x1000_6000 8 = dwordBytes [0x8000_0000_0004_0000] :=
  ⟨by decide +kernel, by decide +kernel, by decide +kernel⟩

theorem top_bits (d : Nat) (h : d < 4096) : bitsW (BitVec.ofNat 64 (d * 2 ^ 52)) 52 12 = d := by
  simp only [bitsW, bitsAt, BitVec.toNat_ofNat]
  omega

/-- A message to another device, whatever the number of this one. -/
theorem msg_abroad (kind : MsgKind) (stage : MsgStage) :
    msgAbroad (msgOf (BitVec.ofNat 64 ((~~~Config.deviceId).toNat * 2 ^ 52)) kind stage) = true := by
  rw [msgAbroad, bne_iff_ne, msgOf, top_bits _ (~~~Config.deviceId).isLt, BitVec.ofNat_toNat, BitVec.setWidth_eq]
  intro h
  have := congrArg (·.getLsbD 0) h
  simp at this

theorem msg_any (a : Word) (kind : MsgKind) (stage : MsgStage) (h : (msgOf a kind stage).toPad = true) :
    nthMsg (msgBed [msgOf a kind stage]) Msg.toPad 0 = some (msgOf a kind stage, 0) := by
  show (([(msgOf a kind stage, 0)] : List (Msg × Nat)).filter (fun x => x.1.toPad))[0]? = _
  rw [List.filter_cons_of_pos (by exact h)]
  rfl

theorem witness_ChannelAndMessageEvents_forms :
    -- a descriptor without a mapping; the other forms as they begin
    ((driftBytes (opsBed [{ shapedOp with arg := 0x8_0000_0000 }]) .read
        ((List.range 32).map (fun (i : Nat) => ptrAdd 0x8_0000_0000 i))).toOption = none ∧
     ∀ form ∈ [DriftForm.driftm, .driftx, .drift2], let op := { waitedOp with form := form }
       (chanAt (opsBed [op]).hart 1).ops = op :: [] ∧ inSlot 0 0 (opsBed [op]).hart = true) ∧
    -- element 5 of the example comes from 20 bytes on, and goes there; a source and a target without a mapping
    (let op := { shapedOp with begun := true, total := 32, shape := shape43, count := 20 }
     ptrAdd op.src 20 = 0x1000_2014 ∧
       (driftBytes (opsBed [op]) .read ((List.range 4).map (fun (i : Nat) => ptrAdd op.src (20 + (i : Int))))).toOption =
         some ((List.range 4).map (0x1000_2014 + ·)) ∧
       (driftBytes (opsBed [op]) .write ((List.range 4).map (fun (i : Nat) => ptrAdd op.dst (20 + (i : Int))))).toOption =
         some ((List.range 4).map (0x1000_4014 + ·))) ∧
    (∀ kind ∈ [Kind.read, .write], driftPlace (opsBed [waitedOp]) 0x8_0000_0000 kind = .missing false true false) ∧
    -- a copy of a sequence, within its page and past its length
    (let s := claimBed 16
     liveSeq s 0x1005 = some (0, 5) ∧ liveSeq s 0x1006 = none ∧ (seqAt s 0 5).len = 1 ∧ pageBlock s (seqAt s 0 5) 0 = 0x100 ∧
       badByte s 0x100_0000 1 = none) ∧
    -- a pad that another partition had, and a bell
    (let s : State := { msgBed [] with gangOwner := [(0, 2)], launches := [{ launch1 with pkt := [0x1000_0000, 8, 4, 0x80_0000] }] }
     (partOf s 0).swapOut = false ∧ gangOf 0 < 128 ∧ smGet 0 s.gangOwner (gangOf 0) = 2 ∧
       destKey s 0 0 0x40 = padBase 0 + 0x40 ∧ (bellHolder s 0 0).isSome = true) ∧
    -- a message abroad, and a round of differing lengths
    (∃ m, nthMsg (msgBed [m]) Msg.toPad 0 = some (m, 0) ∧ m.stage = .sent ∧ msgAbroad m = true ∧ m.kind = .get 4) ∧
    (let m := msgOf 0x0003_0002_0000_0009 (.nred [5]) .sent
     roundOf (msgBed [m]) 3 9 = (m, [5]) :: [] ∧ ([[5]] ++ [[1, 2]] : List (List (BitVec 32))).length = bitsW m.addr 32 16) :=
  ⟨by decide +kernel, by decide +kernel, by decide +kernel, by decide +kernel, by decide +kernel,
   ⟨_, msg_any _ (.get 4) .sent rfl, rfl, msg_abroad _ _, rfl⟩, by decide +kernel⟩

/-- A running device of one job: partition 0 owns physical gang 0 and a status ring of eight records. -/
def jobPart : Part := { part0 with pgang := 0xFFFF_FF00, pring := 0x1007 }
def jobBed (h : Strand) (ls : List Launch) (js : List Job) : State :=
  { bedOf h with parts := [(0, jobPart)], fwState := 2, launches := ls, jobs := js, accepted := 2 }

/-- A launch of two strands of gang 0, not placed, in the class given by bits 13:12 of its third word. -/
def launch2 (attrs : Word) : Launch := { launch1 with
  serial := 2, order := 1, placed := false, gangs := [], members := 0, pkt := [0x1000_0000, 8, attrs, 0, 1] }

/-- Two strands on cores 1 and 2. -/
def plan2 : List Sys2Proof.Place :=
  [{ core := 1, slot := 0, padOff := 0, parked := false }, { core := 2, slot := 0, padOff := 0, parked := false }]

theorem witness_HeadframeEvents_jobs : Canonical (jobBed hart0 [] []) ∧
    (jobAccepts (jobBed hart0 [] []) 0 = true ∧ jobAccepts bed 0 = false) ∧
    (∀ d ∈ [0, 1], let j := { job1 with started := false, desc := [BitVec.ofNat 64 d, 0, 0, 0, 0, 0, 0, 0] }
     let s := jobBed hart0 [] [j]
     s.jobs.find? (fun j => j.part == 0 && !j.started && j.verdict.isNone) = some j ∧ (partOf s 0).swapOut = false ∧
       findJob s j.id = some j ∧ (descOk j.desc = false ↔ d = 1)) :=
  ⟨canonical_of (by decide +kernel), by decide +kernel, by decide +kernel⟩

/-- A job without images whose root packet is legal. -/
theorem witness_HeadframeEvents_root :
    let j := { job1 with started := false, desc := [0x1000_2000, 0, 0, 0, 0, 0, 0, 0] }
    let s : State := { jobBed hart0 [] [j] with mem := smWrite 0 [] 0x1000_2000 (dwordBytes [0x1000_0000, 8, 4, 0, 1]) }
    descOk j.desc = true ∧ ∃ bs, imageBytes s 0 j.die 0x1000_2000 128 = some bs ∧ rootOk s 0 (dwordsOf 16 bs) = true :=
  ⟨by decide +kernel, ⟨dwordBytes [0x1000_0000, 8, 4, 0, 1] ++ List.replicate 88 0, by decide +kernel⟩⟩

/-- A launch that fails on a strict wait, one that is placed, and one with a strand to replace. -/
theorem witness_HeadframeEvents_launches :
    (let l := { launch2 4 with waits := [(true, none)] }
     let s := jobBed hart0 [launch1, l] [job1]
     findLaunch s 0 2 = some l ∧ l.verdict = none ∧ l.placed = false ∧ strictFails s l = true) ∧
    (let l := launch2 4
     let s := jobBed hart0 [launch1, l] [job1]
     findLaunch s 0 2 = some l ∧ l.verdict = none ∧ awaitsPlace s l = true ∧ isNext s l = true ∧
       planOk s l plan2 = true ∧ plan2 ≠ []) ∧
    (let l := { launch1 with replace := [1], pkt := [0x1000_0000, 8, 4, 0, 1] }
     let s := jobBed hart0 [l] [job1]
     findLaunch s 0 1 = some l ∧ l.verdict = none ∧ l.replace.contains 1 = true ∧
       replaceOk s l { core := 1, slot := 0, padOff := 0, parked := false } = true ∧ (partOf s 0).swapOut = false) := by
  decide +kernel

/-- The status of a launch and that of its graph, and a job's record. -/
theorem witness_HeadframeEvents_statuses :
    (let l := { launch1 with verdict := some { status := 1, info := 0, place := 0, aux := 0 } }
     let s := jobBed hart0 [l] [job1]
     badHandle 0 (launchHandle 0 1) = false ∧ (∃ nd, nodeOf s 0 (launchHandle 0 1) = some nd ∧ nodeStatus s nd = 0 ∧ nd.level = 1) ∧
       findLaunch s 0 1 = some l ∧ workDone s l = true) ∧
    (let l := { launch1 with verdict := some { status := 1, info := 0, place := 0, aux := 0 }, written := true }
     let s := jobBed hart0 [l] [job1]
     let node : Word := 0x4000_0000_0000_0001
     badHandle 0 node = false ∧ (∃ nd, nodeOf s 0 node = some nd ∧ nodeStatus s nd = 0 ∧ nd.level ≠ 1 ∧
       (∀ m ∈ membersOf s nd, nodeStatus s m ≠ 0) ∧ findJob s nd.job = some job1 ∧ ∀ x ∈ job1.written, x.2.2.2 ≠ 0)) ∧
    (let j := { job1 with verdict := some { status := 1, info := 0, place := 0, aux := 0 } }
     let s := jobBed hart0 [] [j]
     ringFull (partOf s 0) = false ∧ insecureFn s 0 = false ∧ reportsReady s 0 = [.job 0] ∧ findJob s 0 = some j ∧
       (jobRecord s j).length = 4) := by
  refine ⟨⟨by decide +kernel, ⟨{ level := 1, part := 0, job := 0, phase := 0, graph := 0, serial := 1 }, by decide +kernel⟩,
    by decide +kernel⟩, ⟨by decide +kernel, ⟨{ level := 2, part := 0, job := 0, phase := 0, graph := 0, serial := 0 },
      by decide +kernel⟩⟩, by decide +kernel⟩

theorem room_of {s : State} {die n : Nat} (hu : shadowUsed s die = 0) (hn : n ≤ Config.shadowBytes) :
    saveRoom s die n = some 0 := by
  simp only [saveRoom, hu, Nat.sub_zero, Nat.sub_eq_zero_of_le hn, Nat.zero_le, if_true]

theorem no_room_of {s : State} {die n : Nat} (hu : shadowUsed s die = Config.shadowBytes)
    (hs : bitsW (dieAt s die).spillN 0 32 = 0) (hn : 0 < n) : saveRoom s die n = none := by
  simp only [saveRoom, hu, hs, Nat.sub_self, Nat.sub_zero, Nat.zero_mul, Nat.zero_sub, Nat.le_zero,
    Nat.ne_of_gt hn, if_false]

theorem saveSize_hart {h : Strand} (hh : h.height = 32) (hp : h.padLen = 4096) :
    0 < saveSize h ∧ saveSize h ≤ Config.shadowBytes := by
  have := Config.stateBytes.isLt
  unfold saveSize Config.shadowBytes
  omega

theorem swapSize_pos {s : State} {p die : Nat} (h : 0 < ((partCores s p).filter (fun c => dieOf c == die)).length) :
    0 < swapSize s p die := Nat.add_pos_left (Nat.mul_pos h (by decide)) _

/-- The shadow store of die 0 is full, and there is no spill area. -/
def fullPart : Part := { jobPart with swapBytes := #v[Config.shadowBytes, 0] }

/-- Room for a save and none: at a `strip` of a strand being parked, a pre-emption, and a swap. -/
theorem witness_Saves :
    parkRoom yieldBed = some 0 ∧
    (let s := jobBed { hart0 with cls := 1 } [launch1, launch2 0x40_0000_0000_0004] [job1]
     saveRoom s (dieOf s.hart.core) (saveSize s.hart) = some 0) ∧
    (let s := { jobBed { hart0 with cls := 1 } [launch1, launch2 0x40_0000_0000_0004] [job1] with parts := [(0, fullPart)] }
     focusOn (fun h => inSlot 0 0 h && toPreempt s h && !owesElement s h) s = some s ∧
       saveRoom s (dieOf s.hart.core) (saveSize s.hart) = none) ∧
    (let s := bedOf Strand.vacant
     ([0, 1].all (fun d => (saveRoom s d (swapSize s 0 d)).isSome) && !partOwes s 0) = true) ∧
    (let s := { jobBed hart0 [launch1] [job1] with parts := [(0, { fullPart with swapReq := true })] }
     (partOf s 0).swapOut = false ∧ (partOf s 0).swapReq = true ∧
       [0, 1].all (fun d => (saveRoom s d (swapSize s 0 d)).isSome) = false) ∧
    (let s : State := { bedOf { hart0 with stands := [{ Stand.fresh 0x1000_0000 with owed := true }] } with
       mem := smWrite 0 [] 0x1000_0000 (leBytes 4 0x64148320) }
     partOwes s 0 = true ∧ owesElement s s.hart = true) := by
  have hs := saveSize_hart (h := yieldBed.hart) rfl rfl
  have hm : yieldedOn yieldBed 0 2 0 < parkedOn yieldBed 0 2 0 := by decide +kernel
  have hc := saveSize_hart (h := { hart0 with cls := 1 }) rfl rfl
  have hp : parkRoom yieldBed = saveRoom yieldBed (dieOf yieldBed.hart.core) (saveSize yieldBed.hart) := by
    rw [parkRoom, show yieldBed.hart.yieldsTo = some 2 from rfl]
    exact if_pos hm
  refine ⟨hp.trans ?_, ?_, ⟨focusOn_self (by decide +kernel), ?_⟩, by decide +kernel, ?_⟩
  · exact room_of (by decide +kernel) hs.2
  · exact room_of (by decide +kernel) hc.2
  · exact no_room_of (by decide +kernel) (by decide +kernel) hc.1
  refine ⟨⟨by decide +kernel, by decide +kernel, ?_⟩, by decide +kernel⟩
  rw [List.all_cons, no_room_of (by decide +kernel) (by decide +kernel) (swapSize_pos (by decide +kernel))]
  rfl

/-- A strand made without its resources, one of class 1 that a launch of class 0 needs, one that was pre-empted; partitions
swapped out or not. -/
theorem witness_HeadframeEvents_strands :
    (let s := jobBed { hart0 with parked := true, unbegun := true } [launch1] [job1]
     focusOn (fun h => inSlot 0 0 h && mayResume s h 256) s = some s) ∧
    (let s := jobBed { hart0 with cls := 1 } [launch1, launch2 0x40_0000_0000_0004] [job1]
     focusOn (fun h => inSlot 0 0 h && toPreempt s h && !owesElement s h) s = some s) ∧
    (let s := jobBed { hart0 with preempted := true } [launch1] [job1]
     focusOn (fun h => inSlot 0 0 h && canReturn s h && h.padOff == 0) s = some s) ∧
    (let s := jobBed hart0 [launch1] [job1]
     (partOf s 0).swapOut = false ∧ (partOf { s with parts := [(0, { jobPart with swapReq := true })] } 0).swapReq = true ∧
       (let t := { s with parts := [(0, { jobPart with swapOut := true })] }
        (partOf t 0).swapOut = true ∧ coresClear t 0 = true)) ∧
    (let s := { jobBed { hart0 with part := 1 } [] [job1] with parts := [(0, { jobPart with swapOut := true })] }
     (partOf s 0).swapOut = true ∧ coresClear s 0 = false) :=
  ⟨focusOn_self (by decide +kernel), focusOn_self (by decide +kernel), focusOn_self (by decide +kernel), by decide +kernel, by decide +kernel⟩

/-- A job of die 0 with one image of four bytes from 0x1000_3000 on: for the pads of its gangs (`w` = 2), or for the sump of its
own die (`w` = 4) or of the other (`w` = 6), 0x100 bytes on. -/
def imageJob (w : Nat) : Job := { job1 with
  started := false
  desc := (((List.replicate 8 0).set 0 0x1000_2000).set w 0x1000_3000).set (w + 1) (if w = 2 then 4 else 0x0000_0100_0000_0004) }

/-- The device with such a job, and windows of 64 KiB in both sumps. -/
def imageBed (w window : Nat) : State := { jobBed hart0 [] [imageJob w] with
  mem := smWrite 0 (smWrite 0 [] 0x1000_2000 (dwordBytes [0x1000_0000, 8, 4, 0, 1])) 0x1000_3000 [1, 2, 3, 4]
  parts := [(0, { jobPart with psump0 := BitVec.ofNat 64 (window * 2 ^ 32), psump1 := BitVec.ofNat 64 (window * 2 ^ 32) })] }

/-- Jobs with each image: one that is copied, and one whose image lies outside the window or whose source has no mapping. -/
theorem witness_HeadframeEvents_images :
    (∀ w ∈ [2, 4, 6], let j := imageJob w
     let s := imageBed w 0x1_0000
     s.jobs.find? (fun j => j.part == 0 && !j.started && j.verdict.isNone) = some j ∧ (partOf s 0).swapOut = false ∧
       descOk j.desc = true ∧ imageBytes s 0 j.die 0x1000_3000 4 = some [1, 2, 3, 4] ∧
       (imageBytes s 0 j.die 0x1000_2000 128).map (fun bs => rootOk s 0 (dwordsOf 16 bs)) = some true ∧ s.crosscut = true) ∧
    (∀ w ∈ [4, 6], let d (i lo n : Nat) : Nat := bitsW ((imageJob w).desc.getD i 0) lo n
     d 3 0 20 = 0 ∧ d (w + 1) 0 27 = 4 ∧ d (11 - w) 0 27 = 0 ∧ d (w + 1) 32 27 = 0x100 ∧
       [0, 1].all (fun die => inWindow (partOf (imageBed w 0x1_0000) 0) die 0x100 &&
         inWindow (partOf (imageBed w 0x1_0000) 0) die 0x103 && !inWindow (partOf (imageBed w 0) 0) die 0x100) = true) ∧
    imageBytes (imageBed 2 0) 0 0 0x8_0000_0000 4 = none := by decide +kernel

/-- The record of a launch that a trap has ended. -/
theorem witness_HeadframeEvents_record :
    let l := { launch1 with verdict := some { status := 4, info := 5, place := 0, aux := 0 }, written := true }
    let s := jobBed hart0 [l] [job1]
    ringFull (partOf s 0) = false ∧ insecureFn s 0 = false ∧ reportsReady s 0 = [.launch 1] ∧ findLaunch s 0 1 = some l := by
  decide +kernel

/-- R369: the strand has been parked for the one of launch 2: that one may resume, and the first not before it. -/
theorem test_move_keeps_its_room :
    let s : State := { yieldBed with hart := { hart0 with parked := true, yieldsTo := some 2 } }
    mayResume s s.hart 0 = false ∧ s.rest.all (fun x => mayResume s x 0) = true := by decide +kernel

/-- A strand that has begun, parked, with its pad saved. -/
theorem witness_HeadframeEvents_begun :
    let s := jobBed { hart0 with parked := true } [launch1] [job1]
    focusOn (fun h => inSlot 0 0 h && mayResume s h 0) s = some s ∧ s.hart.unbegun = false ∧ s.hart.core < 1024 ∧
      0 < s.hart.padLen :=
  ⟨focusOn_self (by decide +kernel), by decide +kernel⟩

/-- An outstanding page request of the partition's generation, a request of an older one, a write that a partition may not
make, and a state for each other premise. -/
theorem witness_HostEvents : Canonical bed ∧
    (∀ gen ∈ [0, 1], let r : PageReq := { idx := 3, die := 0, record := [1, 2, 3, 1], gen := BitVec.ofNat 11 gen }
     let s : State := { bed with parts := [(0, { part0 with pgreqs := [r] })] }
     reqOf s 0 3 = some r ∧ (r.gen = (partOf s 0).gen ↔ gen = 0)) ∧
    (bed.fwState ≠ 2 ∧ insecureFn bed 32 = false ∧ insecureFn { bed with fwState := 2, streams := [(0, .insecure)] } 0 = true ∧
      (let s : State := { bed with fwState := 2, session := 3, measured := some ([1], 1) }
       s.fwState = 2 ∧ insecureFn s 0 = false ∧ s.session = 3 ∧ s.measured = some ([1], 1) ∧ s.fwHalted.getLsbD 1 = false ∧
       (10 : BitVec 4).getLsbD 1 = true ∧ (10 : BitVec 4).getLsbD 3 = true)) ∧
    (2 ^ 42 - 1 + [(1 : Byte)].length ≤ 2 ^ 42) ∧
    virtWritable bed 0 ((List.range 1).map (fun i => barVa bed 0 (0 + i))) = false ∧
    ((∀ q ∈ (engineAt bed 0).seqs, q.2.live = false) ∧
      poolOk 0 ((0x100_0000 : Word) &&& 0x3FF_FFFF_0000) (engineAt { bed with
        engines := (Vector.replicate 12 Engine.reset).set 0 { Engine.reset with poolN := 4 } } 0).poolN = true) ∧
    (bed.fwState = 0 ∧ (let s : State := { bed with fwState := 1 }
      s.fwState = 1 ∧ imageReason s ≠ 0)) ∧
    (16 ≤ bitsW (16 : Word) 0 10 ∧ bitsW (512 : Word) 0 10 ≤ 512) ∧
    (bitW (1 : Word) 0 = true ∧ bitW bed.telctl 0 = false ∧ bitW ({ bed with telctl := 1 } : State).telctl 0 = true) ∧
    findLaunch bedL 0 launch1.serial = some launch1 ∧ cellKey 0 0x1000_2000 = some 0x1000_2000 := by
  refine ⟨bed_canonical, ?_⟩
  and_intros <;> decide +kernel

/-- An image is accepted where the device finds nothing amiss in it; what it finds in one is free (log 16). -/
theorem witness_AcceptedImage : let s : State := { bed with fwState := 1, fwlen := 8 }
    Config.imageFormed (stagedImage s) = true → Config.imageSigned 0 (stagedImage s) = true →
    Config.imageSigned 1 (stagedImage s) = true → Config.minVersion ≤ Config.imageVersion (stagedImage s) →
    s.fwState = 1 ∧ imageReason s = 0 := by
  intro s h1 h2 h3 h4
  refine ⟨rfl, ?_⟩
  have h5 : s.fwlen.toNat = 8 ∧ populated s.fwaddr.toNat = true ∧ ¬sumpBase 0 ≤ s.fwaddr.toNat ∧
    populated (s.fwaddr.toNat + 7) = true := by decide +kernel
  have h6 : ¬Config.imageVersion (stagedImage s) < Config.minVersion := Nat.not_lt.mpr h4
  unfold imageReason
  simp [h1, h2, h3, h5, h6]

/-! ### Witnesses: encoding, steps and invariants -/

theorem witness_EncodingRoundTrip : (Instr.amo 31 31 31 10 3 4 0).wf = true ∧
    (∃ w, encodeWord (.amo 31 31 31 10 3 4 0) = some w) ∧ decodeWord 0x08427FFF = some (.addi 4 4 0x7FFF) :=
  ⟨by decide, ⟨_, rfl⟩, by decide⟩

/-- The small state with the given words at its pc, as it stands when the step fetches. -/
def fetchBed (ws : List Nat) : State :=
  issuing (beginStep { bed with mem := smWrite 0 [] 0x1000_0000 (ws.flatMap (leBytes 4)) })

theorem fetch_ok {s : State} {pc : BitVec 48} {w : Nat} (h : (fetchWord s pc).toOption = some w) : fetchWord s pc = .ok w := by
  cases hf : fetchWord s pc with
  | ok v => rw [hf] at h; exact congrArg _ (Option.some.inj h)
  | error c => rw [hf] at h; cases h

theorem fetch_error {s : State} {pc : BitVec 48} (h : (fetchWord s pc).toOption = none) : ∃ c, fetchWord s pc = .error c := by
  cases hf : fetchWord s pc with
  | ok v => rw [hf] at h; cases h
  | error c => exact ⟨c, rfl⟩

/-- A member of the words that the small state fetches. -/
def memOf (i : Instr) : Member := (memberOf i).getD (memFence 0 0)

/-- The strand comes first, or its core has the turn; a word that is no instruction, a scalar word, one that waits for a copy,
a convoy of one word, one of two, one of a copy that waits for a full queue, a word that stands alone, and a fetch that misses
its page. -/
theorem witness_StepRunsInstruction :
    (let b : State := { beginStep bed with turns := [] }
     bed.turns = [] ∧ dueWork b = none ∧ (issuingCores b).head? = some 0 ∧ (choices b 0).head? = some b.hart) ∧
    (scalarWaits (.crr 5 0x035) (opsBed [waitedOp]) = true ∧ memberOf (.crr 5 0x035) = none) ∧
    (fetchWord (fetchBed []) 0x1000_0000 = .ok 0 ∧ decodeWord 0 = none) ∧
    (fetchWord (fetchBed [0x02531C00]) 0x1000_0000 = .ok 0x02531C00 ∧ decodeWord 0x02531C00 = some (.add 5 6 7) ∧
      memberOf (.add 5 6 7) = none) ∧
    (∀ ws ∈ [[0x64148320], [0x64148320, 0x65148320]], fetchWord (fetchBed ws) 0x1000_0000 = .ok 0x64148320 ∧
      decodeWord 0x64148320 = some (.vadd 0 0 5 4 3 1 0) ∧ (memberOf (.vadd 0 0 5 4 3 1 0)).isSome = true ∧
      (let g := gathered (memOf (.vadd 0 0 5 4 3 1 0)) (usedFetch (fetchBed ws))
       g.2.1.length + 1 = ws.length ∧ g.2.2 = .clear ∧ (issueWords (memOf (.vadd 0 0 5 4 3 1 0)) g.2.1 true g.1).waits = false)) ∧
    (issueWords (memOf (.drift 0 1 3 4 5)) [] true (opsBed (List.replicate 4 waitedOp))).waits = true ∧
    (fetchWord (fetchBed [0xB2000060]) 0x1000_0000 = .ok 0xB2000060 ∧ decodeWord 0xB2000060 = some (.fence 0 3) ∧
      (memberOf (.fence 0 3)).isSome = true) ∧
    (let s := bedOf { hart0 with pc := 0x8_0000_0000 }
     (choices s 0).head? = some s.hart ∧ ∃ c, fetchWord s s.hart.pc = .error c) :=
  ⟨⟨rfl, by decide +kernel, by decide +kernel, by decide +kernel⟩, ⟨by decide +kernel, rfl⟩, ⟨fetch_ok (by decide +kernel), by decide⟩,
   ⟨fetch_ok (by decide +kernel), by decide, rfl⟩,
   fun ws h => ⟨fetch_ok (by revert ws; decide +kernel), by decide, by decide, by revert ws; decide +kernel⟩, by decide +kernel,
   ⟨fetch_ok (by decide +kernel), by decide, by decide⟩, ⟨by decide +kernel, fetch_error (by decide +kernel)⟩⟩

/-- A store that changes the directory entry of a pending fill of its strand, as its core has the turn. -/
def fillBed : State := { bed with
  mem := smWrite 0 [] 0x1000_0000 (leBytes 4 0x1C30_E010), contribs := [waitedFill], turns := [.core 0] }

/-- The fill comes first; and a reserved word of major 0x48, passed over where the seam has accepted its member. -/
theorem witness_StepRunsInstruction_fills :
    (let b : State := { beginStep fillBed with turns := [] }
     fillBed.turns = .core 0 :: [] ∧ (choices b 0).head? = some b.hart ∧
       (match issueWord b with | some (.next t) => fillsChange b t | _ => false) = true) ∧
    (decodeWord 0x9000_0007 = none ∧ (wordMember true 0x9000_0007).isSome = true ∧ wordMember false 0x9000_0007 = none) :=
  ⟨⟨rfl, by decide +kernel, by decide +kernel⟩, by decide, by decide, rfl⟩

theorem witness_StepKeepsCanonical : Canonical State.reset ∧ ∃ t, step State.reset = .next t :=
  ⟨canonical_of (by decide +kernel), ⟨_, rfl⟩⟩

theorem witness_StepKeepsLegal : AllLegal State.reset ∧ ∃ t, step State.reset = .next t :=
  ⟨⟨fun h hh => by
      simp only [allStrands, State.reset, List.mem_cons, List.not_mem_nil, or_false] at hh
      rw [hh]
      exact strandLegal_of (by decide +kernel), fun l hl => by cases hl⟩, ⟨_, rfl⟩⟩

/-! ### Single steps (values by hand from the manual's operations) -/

/-- The state after an instruction. -/
def after (i : Instr) (s : State) : State :=
  match exec i s with
  | .next t => t
  | _ => s

/-- What an instruction of the small state leaves in g9. -/
def g9 (i : Instr) : Word := readG (after i bed) 9

theorem test_add_wraps : g9 (.add 9 30 2) = 0 ∧ g9 (.addi 9 14 0x7FFF) = 0xFFFF_FFFF_FFFF_FFFF := by decide +kernel
theorem test_sub_borrows : g9 (.sub 9 14 2) = 0xFFFF_FFFF_FFFF_FFFF := by decide +kernel
theorem test_addw_extends : g9 (.addw 9 15 14) = 0xFFFF_FFFF_8000_0000 ∧ g9 (.addw 9 15 15) = 0 := by decide +kernel
theorem test_subw_extends : g9 (.subw 9 14 2) = 0xFFFF_FFFF_FFFF_FFFF := by decide +kernel
theorem test_andn : g9 (.andn 9 30 2) = 0xFFFF_FFFF_FFFF_FFFE := by decide +kernel
theorem test_shift_counts_wrap : g9 (.sll 9 2 7) = 0x1_0000_0000 ∧ g9 (.sll 9 2 30) = 0x8000_0000_0000_0000 := by decide +kernel
theorem test_sra_of_negative : g9 (.sra 9 4 30) = 0xFFFF_FFFF_FFFF_FFFF ∧ g9 (.srl 9 4 30) = 1 := by decide +kernel
theorem test_rol : g9 (.rol 9 4 2) = 1 := by decide +kernel
theorem test_slt_signs : g9 (.slt 9 4 14) = 1 ∧ g9 (.sltn 9 4 14) = 0 := by decide +kernel
theorem test_min_signs : g9 (.min 9 30 2) = 0xFFFF_FFFF_FFFF_FFFF ∧ g9 (.minn 9 30 2) = 1 := by decide +kernel
theorem test_mul_high : g9 (.mulh 9 30 30) = 0 ∧ g9 (.mulhn 9 30 30) = 0xFFFF_FFFF_FFFF_FFFE := by decide +kernel
theorem test_div_corners : g9 (.div 9 4 30) = 0x8000_0000_0000_0000 ∧ g9 (.div 9 3 14) = 0xFFFF_FFFF_FFFF_FFFF := by
  decide +kernel
theorem test_rem_corners : g9 (.rem 9 4 30) = 0 ∧ g9 (.rem 9 3 14) = 5 := by decide +kernel
theorem test_counts : g9 (.clz 9 2) = 63 ∧ g9 (.ctz 9 4) = 63 ∧ g9 (.popc 9 30) = 64 ∧ g9 (.clz 9 14) = 64 := by
  decide +kernel
theorem test_bswap : g9 (.bswap 9 2) = 0x0100_0000_0000_0000 := by decide +kernel
theorem test_lih_extends : g9 (.lih 9 0x80000) = 0xFFFF_FFFF_8000_0000 := by decide +kernel
theorem test_g0_discards : readG (after (.addi 0 2 1) bed) 0 = 0 := by decide +kernel
theorem test_branch : (after (.brEq 2 2 0xFFF) bed).hart.pc = 0x0FFF_FFFC ∧ (after (.brNe 2 2 4) bed).hart.pc = 0x1000_0004 := by
  decide +kernel
theorem test_jalr_reads_before_link : (after (.jalr 1 1 4) bed).hart.pc = 0x1000_2004 ∧
    readG (after (.jalr 1 1 4) bed) 1 = 0x1000_0004 := by decide +kernel
theorem test_fadd_zero : g9 (.fadd 9 16 17) = 0 ∧ (after (.fadd 9 16 17) bed).hart.ctrl.vstat = 0 := by decide +kernel
theorem test_fdiv_by_zero : g9 (.fdiv 9 17 14) = 0xFF80_0000 ∧ (after (.fdiv 9 17 14) bed).hart.ctrl.vstat = flDZ.setWidth 64 := by
  decide +kernel
theorem test_fsqrt_of_negative : g9 (.fsqrt 9 17) = 0x7FC0_0000 ∧ (after (.fsqrt 9 17) bed).hart.ctrl.vstat = flNV.setWidth 64 := by
  decide +kernel
theorem test_fcvt : g9 (.fcvtI32F32 9 17) = 0xFFFF_FFFF_FFFF_FFFF ∧ g9 (.fcvtF32I32 9 30) = 0xBF80_0000 := by decide +kernel
theorem test_fclass : g9 (.fclass 9 15) = 8 ∧ g9 (.fclass 9 12) = 128 := by decide +kernel
theorem test_store_little_endian : memBytes (after (.stW 19 1 0) bed) 0x1000_2000 5 = [0xFF, 0xFF, 0x7F, 0x7F, 0] := by
  decide +kernel
theorem test_load_extends : readG (after (.ldB 9 1 0) (after (.stB 30 1 0) bed)) 9 = 0xFFFF_FFFF_FFFF_FFFF ∧
    readG (after (.ldBn 9 1 0) (after (.stB 30 1 0) bed)) 9 = 0xFF := by decide +kernel
theorem test_store_misaligned_traps : bitsW (after (.stW 2 1 2) bed).hart.ctrl.ecause 0 8 = 5 ∧
    (after (.stW 2 1 2) bed).hart.pc = 0x1000_0800 ∧ (after (.stW 2 1 2) bed).mem = [] := by decide +kernel
theorem test_amo_returns_old : readG (after (.amo 9 1 3 1 0 0 0) (after (.stW 30 1 0) bed)) 9 = 0xFFFF_FFFF_FFFF_FFFF ∧
    memBytes (after (.amo 9 1 3 1 0 0 0) (after (.stW 30 1 0) bed)) 0x1000_2000 4 = [4, 0, 0, 0] := by decide +kernel
theorem test_trap : bitsW (after (.trap 6) bed).hart.ctrl.ecause 0 9 = 0x10F ∧
    (after (.trap 6) bed).hart.ctrl.epc = 0x1000_0004 ∧ bitsW (after (.trap 6) bed).hart.ctrl.einfo 16 48 = 0x1000_4000 := by
  decide +kernel
theorem test_trapret_without_handler : bitsW (after .trapret bed).hart.ctrl.ecause 0 8 = 13 := by decide +kernel
theorem test_crw_returns_prior : readG (after (.crw 9 2 0x000) bed) 9 = 0x16_0002 ∧
    (after (.crw 9 2 0x000) bed).hart.ctrl.vcfg = 1 := by decide +kernel
theorem test_crr_unassigned : bitsW (after (.crr 9 0x7FF) bed).hart.ctrl.ecause 0 8 = 1 := by decide +kernel
theorem test_movk_of_k0 : g9 (.movk 9 14 0 31) = 0xFFFF_FFFF_FFFF_FFFF ∧ g9 (.movk 9 14 1 31) = 0 := by decide +kernel
theorem test_strip : readG (after (.strip 9 3) bedL) 9 = 4 ∧ vl (after (.strip 9 3) bedL) = 4 := by decide +kernel
theorem test_retire : (after .retire bedL).launches.map (·.verdict.isSome) = [true] := by decide +kernel

/-- Rows 0 and 1 hold 1.0, 2.0 and 0.5, NaN as f32; row 3 holds 5, -1 as i32. -/
def laneBed : State := bedOf { hart0 with stope := [(0, 0x4000_0000_3F80_0000), (1, 0x7FC0_0000_3F00_0000), (3, 0xFFFF_FFFF_0000_0005)] }

/-- The first two elements of a window of 32-bit elements. -/
def pair (i : Instr) (w : Win) : List Nat := (List.range 2).map (fun e => srcBits (after i laneBed) (readW laneBed w) e)

theorem test_vadd : pair (.vadd 0 0 3 1 2 0 0) 3 = [0x3FC0_0000, 0x7FC0_0000] := by decide +kernel
theorem test_vmul_keeps_sources : pair (.vmul 0 0 3 1 2 0 0) 1 = [0x3F80_0000, 0x4000_0000] := by decide +kernel
theorem test_vdiv_by_zero : pair (.vdiv 0 0 5 4 6 0 0) 5 = [0xFFFF_FFFF, 0xFFFF_FFFF] ∧
    (after (.vdiv 0 0 5 4 6 0 0) laneBed).hart.ctrl.flix[1] = 0x8000_0000_0000_0000 := by decide +kernel
theorem test_vneg_of_integers : pair (.vneg 0 0 5 4 0 0) 5 = [0xFFFF_FFFB, 1] := by decide +kernel
theorem test_viota : pair (.viota 0 4 0) 4 = [0, 1] := by decide +kernel
theorem test_vperm : pair (.vslide 0 3 1 2 0) 3 = [0x4000_0000, 0] := by decide +kernel
theorem test_vclt_of_nan : readK (after (.vclt 0 1 2 1 0) laneBed) 1 = 1 ∧
    (after (.vclt 0 1 2 1 0) laneBed).hart.ctrl.vstat = flNV.setWidth 64 := by decide +kernel
theorem test_vredsum : pair (.vredsum 0 5 4 0) 5 = [4, 0] := by decide +kernel
theorem test_vscan : pair (.vscan 0 5 4 0) 5 = [5, 4] := by decide +kernel
theorem test_kfun_below_vl : readK (after (.kfun 0 1 0 0 0xF) bed) 1 = 3 := by decide +kernel
theorem test_vextr_extends : readG (after (.vextr 0 9 4 2) laneBed) 9 = 0xFFFF_FFFF_FFFF_FFFF := by decide +kernel
theorem test_vst_then_vld : memBytes (after (.vst 0 4 1 0) laneBed) 0x1000_2000 8 = [5, 0, 0, 0, 0xFF, 0xFF, 0xFF, 0xFF] := by
  decide +kernel
theorem test_vcfg : vl (after (.vcfg 0 3 9 1) bed) = 5 ∧ readG (after (.vcfg 0 3 9 1) bed) 9 = 0x16_0002 := by decide +kernel

/-- Row 0 of the seam holds B = 2^16 + 3; element 0 of w12 is 5. -/
def seamBed : State := bedOf { hart0 with
  stope := [(11, 5)], seam := { hart0.seam with rows := [(0, { SeamRow.zero with b := 0x1_0003 })] } }

theorem test_smul : (seamRow (after (.smul 0 12 14 0 0 0 0) seamBed) 0).s0 = 0x5_000F ∧
    (after (.smul 0 12 14 0 0 0 0) seamBed).hart.seam.bound0 = 32 * 64 := by decide +kernel
theorem test_sxtr : srcBits (after (.sxtr 0 4 2 0) { seamBed with hart := { seamBed.hart with
    seam := { seamBed.hart.seam with rows := [(1, { SeamRow.zero with s0 := 0xFFFF })] } } }) (readW bed 4) 0 = 0xFFFF_FFFF := by
  decide +kernel
theorem test_satt : (after (.satt 0 2) bed).hart.seam.grant = 512 ∧ (after (.satt 0 3) bed).hart.seam.grant = 1024 := by
  decide +kernel
theorem test_sax : memNat (after (.sax 0 2 4 1 0) { sumpBed with hart := { sumpBed.hart with
    stope := laneBed.hart.stope } }) (sumpBase 0) 8 = 0xFFFF_FFFD_0000_000F := by decide +kernel
theorem test_sqpush_full : vl (after (.sqpush 0 7 1 0) queueBed) = 1 ∧
    memNat (after (.sqpush 0 7 1 0) queueBed) (sumpBase 0) 8 = 0x2_0000_0000 := by decide +kernel
theorem test_claim : readG (after (.claim 0 9 1) (claimBed 16)) 9 = 0x1000_0000_4001_0000 ∧
    tableEntry (after (.claim 0 9 1) (claimBed 16)) 0x30_0008 = 0x2B80_0000_0101_0000 := by decide +kernel
theorem test_arrive_counts : (bellAt (after (.arrive 0 2 0 0) bed) 0 1 0 2).count = 1 := by decide +kernel
theorem test_bellset_keeps_count : readG (after (.belltst 0 2 9) (after (.bellset 0 2 3) (after (.arrive 0 2 0 0) bed))) 9 =
    0x0005_0001 := by decide +kernel
theorem test_drift_joins : ((chanAt (after (.drift 0 1 1 6 3) bed).hart 1).ops.map (·.arg)) = [5] := by decide +kernel
theorem test_launch_handle : readG (after (.launch 9 1) (packetBed 1)) 9 = 0x2000_0000_0000_0001 := by decide +kernel
theorem test_cread_of_no_node : readG (after (.cread 9 3) (packetBed 1)) 9 = 0xE000_0000_0000_0000 := by decide +kernel
theorem test_frqpop : readG (after (.frqpop 9) deputyBed) 9 = 0x09FF_E020 := by decide +kernel
theorem test_deputy_only : bitsW (after (.kill 14) bed).hart.ctrl.ecause 0 8 = 13 := by decide +kernel
theorem test_drift_delivers : memByte (after (.driftDeliver 0 0 1) { opsBed [{ waitedOp with begun := true, total := 8 }] with
    mem := [(0x1000_2000, 0x5A)] }) 0x1000_4000 = 0x5A := by decide +kernel
theorem test_job_deferred : (after (.jobPortWrite 0 0 [0, 0, 0, 0, 0, 0, 0, 0]) bed).replies = [.deferred] := by decide +kernel
theorem test_bar_read_hole : (after (.hostBarRead 32 2 0x1F_FFFF_FFFF 1) bed).replies.length = 1 := by decide +kernel
theorem test_firmware_go : (after .firmwareGo bed).fwState = 1 := by decide +kernel
theorem test_scalar_ends_convoy : bed.hart.convoy = .none ∧ (after (.add 9 2 3) bed).hart.convoy = .ended := by decide +kernel
theorem test_wait_ends_unasked : (match step (bedOf { hart0 with run := .waiting 0 2 true false 1 }) with
    | .next t => t.hart.run
    | _ => .vacant) = .ready := by decide +kernel
theorem test_attestation_waits : (after (.spdmRequest .challenge) { bed with fwState := 2, fwHalted := 10 }).replies = [] := by
  decide +kernel
/-- g1 and g2 point to pages without a mapping. -/
def unmappedBed : State := bedOf { hart0 with gpr := regs [(1, 0x10_0000_0000), (2, 0x11_0000_0000)] }

/-- R247: elements of a store that wait for a load's are translated too. -/
theorem test_chained_store_faults : (match runWords [memVld 0 0 1 1 0 0, memVst 1 1 2 0] unmappedBed with
    | .next t => t.hart.recs.map (·.page)
    | _ => []) = [0x10_0000, 0x11_0000] := by decide +kernel

/-- R294: the `vpack` of a convoy that stops after its `sguard.g32` packs with g = 16 as it issues again. -/
theorem test_older_guard : (match runWords [memVpack 0 12 9 0, memSguard 1 1, memVst 1 1 2 0]
      { unmappedBed with hart := { unmappedBed.hart with ctrl := { hart0.ctrl with vcfg := 0x16_0001 } } } with
    | .next t => (t.hart.run, guardBits t, laneBits t)
    | _ => (.vacant, 0, 0)) = (.suspended, 32, 16) := by decide +kernel

/-- R31, R295: after a convoy that has ended no word is passed over, and a second word at the SEAM position is privileged. -/
theorem test_not_passed :
    let h := { hart0 with ctrl := { hart0.ctrl with stidx := 0x800 } }
    wordMember (passesSeam (bedOf { h with convoy := .ended }) 1) 0x91FF_FFFF = none ∧
      (let s := bedOf { h with core := 0x200, convoy := .open 0x1000_0000 0x80 1 false }
       (issueTrap (memSdet 1) true false 0x80 false s).map (·.cause) = some 13) := by decide +kernel

/-- R364: the statuses above a launch whose own is written come due. -/
theorem test_graph_status_due :
    let l := { launch1 with verdict := some { status := 1, info := 0, place := 0, aux := 0 }, written := true }
    let s := jobBed Strand.vacant [l] [job1]
    (dueWork s).map (fun t => nodeStatus t (nodeAbove l 2)) = some 1 := by decide +kernel

/-- R272, R371: the macros of a strand pre-empted on a swapped-out partition's core are not free. -/
theorem test_macros_hold_swap :
    let s := { jobBed { hart0 with swapped := true } [] [job1] with parts := [(0, { jobPart with swapOut := true })] }
    let x (m : Nat) : Strand := { hart0 with part := 1, preempted := true, seam := { hart0.seam with macros := m } }
    coresClear { s with rest := [x 62] } 0 = true ∧ coresClear { s with rest := [x 63] } 0 = false := by decide +kernel

/-- The first example of FIPS 180-4: the digest of "abc". -/
theorem test_sha384 : leNat (sha384 [0x61, 0x62, 0x63]).reverse =
    0xcb00753f45a35e8bb5a03d699ac65007272c32ab0eded1631a8b605a43ff5bed8086072ba1e7cc2358baeca134c825a7 := by decide +kernel

end Sys2Proof.Tests
end

section
/-!
PROOFS. O4: `trap` and `break` as traps of the strand itself (R142–R146, R156, R157).
-/
namespace Sys2Proof.Proofs

open Sys2Proof Sys2Proof.Machine

/-! ### What the two words do -/

/-- R156: `trap` is a trap with its cause and detail from g[ga], saved at the next word. -/
theorem exec_trap (ga : Reg) (s : State) :
    exec (.trap ga) s = .next (takeTrap (userTrap (readG s ga)) (s.hart.pc + 4) 0 false 0 (endConvoy s)) := rfl

/-- R157: `break` is a trap without detail at its own address. -/
theorem exec_brk (s : State) :
    exec .brk s = .next (takeTrap { cause := 14 } s.hart.pc 0 false 0 (endConvoy s)) := rfl

/-! ### What a handler finds -/

/-- R142–R144, R150: the registers that a scalar or system word's trap leaves for the handler, beside those of `TrapTaken`. -/
structure TrapSaved (t : State) (x : Trap) : Prop where
  ecause : t.hart.ctrl.ecause = x.ecause
  einfo : t.hart.ctrl.einfo = x.einfo
  stidx : t.hart.ctrl.stidx = 0
  kd : t.hart.kd = 0

/-- A trap with an empty stop state, taken into the handler, saves its cause and detail. -/
theorem takeTrap_saved (x : Trap) (epc : BitVec 48) (s : State) (he : x.exhausted = 0) (h : HandlerReady s)
    (hp : epc.toNat % 4 = 0) : TrapSaved (takeTrap x epc 0 false 0 (endConvoy s)) x := by
  rw [takeTrap_handler x epc 0 false 0 _ he (handlerReady_endConvoy h) hp]
  exact ⟨rfl, rfl, rfl, rfl⟩

/-! ### The detail that `trap` takes from its register -/

/-- R156: ECAUSE.aux of `trap` is the top 16 bits of its operand. -/
theorem userTrap_aux (v : Word) : bitsW (userTrap v).ecause 16 16 = bitsW v 48 16 := by
  rw [Trap.ecause_aux, userTrap, BitVec.extractLsb'_toNat, bitsW, bitsAt, Nat.shiftRight_eq_div_pow]

/-- R156: EINFO of `trap` holds the low 48 bits of its operand in `addr`, and names no element and no member. -/
theorem userTrap_einfo (v : Word) : (userTrap v).einfo = BitVec.ofNat 64 (bitsW v 0 48 * 2 ^ 16) := by
  simp [userTrap, Trap.einfo, bitsW, bitsAt]

/-- Settles O4: each word is a trap taken into the handler, whose saved detail is computed from the trap's fields. -/
theorem softwareTraps : Obligations.SoftwareTraps := by
  unfold Obligations.SoftwareTraps
  refine ⟨fun ga s hr hl => ⟨?_, ?_⟩, by decide, by decide⟩
  · have hp : (s.hart.pc + 4).toNat % 4 = 0 := next_word_aligned _ hl.1
    obtain ⟨hcause, hinfo, hstidx, hkd⟩ := takeTrap_saved (userTrap (readG s ga)) _ s rfl hr hp
    refine ⟨_, exec_trap ga s, trapTaken_of_handler _ _ 0 false 0 s rfl hr hp, ?_, ?_, hstidx, hkd⟩
    · rw [hcause, userTrap_aux]
    · rw [hinfo, userTrap_einfo]
  · obtain ⟨hcause, hinfo, hstidx, hkd⟩ := takeTrap_saved { cause := 14 } s.hart.pc s rfl hr hl.1
    exact ⟨_, exec_brk s, trapTaken_of_handler _ _ 0 false 0 s rfl hr hl.1, hcause.trans (by decide),
      hinfo.trans (by decide), hstidx, hkd⟩

end Sys2Proof.Proofs
end

section
/-!
PROOFS. Convoys of one member: what a member that is admitted, stops nowhere and waits for nothing leaves of its word
(R31–R35, R150, R193).
-/
namespace Sys2Proof.Proofs

open Sys2Proof Sys2Proof.Machine

/-! ### The state that a member finds -/

/-- The issue of a word has changed the strand's convoy and its event counters alone (R33, R405). -/
def Issued (s t : State) : Prop :=
  ∃ convoy pmc, t = { s with hart := { s.hart with convoy := convoy, ctrl := { s.hart.ctrl with pmc := pmc } } }

theorem Issued.refl (s : State) : Issued s s := ⟨_, _, rfl⟩

theorem Issued.trans {s t u : State} (h : Issued s t) (h' : Issued t u) : Issued s u := by
  obtain ⟨_, _, rfl⟩ := h
  obtain ⟨_, _, rfl⟩ := h'
  exact ⟨_, _, rfl⟩

theorem atIssue_issued (first : BitVec 48) (joins ended : Bool) (s : State) : Issued s (atIssue first joins ended s) := by
  unfold atIssue
  split
  · exact Issued.refl s
  · split <;> exact ⟨_, _, rfl⟩

theorem atPosition_issued (pos : Nat) (s : State) : Issued s (atPosition pos s) := by
  unfold atPosition
  split
  · exact ⟨_, _, rfl⟩
  · exact Issued.refl s

theorem memberStart_issued (s : State) (j : Join) : Issued s (memberStart s j) :=
  (atIssue_issued ..).trans (atPosition_issued ..)

@[simp] theorem convoyFirst_atPosition (pos : Nat) (s : State) : convoyFirst (atPosition pos s) = convoyFirst s := by
  cases hc : s.hart.convoy <;> simp [atPosition, convoyFirst, hc]

/-- R31, R33: the member's convoy begins where `joinState` says. -/
theorem convoyFirst_memberStart (s : State) (c : BitVec 1) :
    (convoyFirst (memberStart s (joinState s c))).getD s.hart.pc = (joinState s c).1 := by
  rw [memberStart, convoyFirst_atPosition]
  unfold issueState joinState
  split
  · simp [atIssue, convoyFirst, *]
  · simp [atIssue, convoyFirst, *]
  · unfold atIssue
    split
    · contradiction
    · split <;> rfl

/-- A member of a convoy of which nothing stands finds its seam work still to do (R295). -/
theorem seamDone_memberStart {i : Instr} {m : Member} {s : State} (h : Issues i m s) :
    seamDone (memberStart s (joinState s m.c)) = false := by
  have hfirst := convoyFirst_memberStart s m.c
  have hstand : (standOf s.hart (joinState s m.c).1).seam = false := by rw [h.stand]; rfl
  have hstart : seamDone s = false := h.fresh.2.2
  obtain ⟨convoy, pmc, ht⟩ := memberStart_issued s (joinState s m.c)
  have hdone : seamDone (memberStart s (joinState s m.c)) = seamDoneAt (joinState s m.c).1 s := by
    rw [← hfirst, ht]
    rfl
  rw [hdone]
  unfold seamDone seamDoneAt at *
  split
  · exact hstand
  · next hact => rwa [if_neg hact] at hstart

/-! ### The pass of one member -/

/-- With no element stopped, a member runs over all the elements it is given. -/
theorem runMember_of_unstopped (p : Pass) (act : Mask) (m : Member) (h : p.stopped = 0) :
    p.runMember act m = m.run act (atPosition p.pos p.st) := by
  simp [Pass.runMember, Pass.unready, h]

/-- One admitted member that waits for nothing and answers is all of its pass, which counts no word. -/
theorem runPass_sole {act : Mask} {m : Member} {joins ended : Bool} {p : Pass} (hstopped : p.stopped = 0)
    (hadmitted : issueTrap m joins ended p.classes p.alone p.st = none) (hawaits : m.awaits = [])
    (hstall : m.stall p.st = false) (hearly : (m.run act (atPosition p.pos p.st)).early = none)
    (hblock : (m.run act (atPosition p.pos p.st)).block = none) :
    runPass act 0 none [m] joins ended p = p.take m (m.run act (atPosition p.pos p.st)) := by
  simp [runPass, Tally.count, hawaits, hadmitted, hstall, runMember_of_unstopped p act m hstopped, hearly, hblock]

/-- The pass of a word's member alone. -/
def solePass (s : State) (m : Member) : Pass :=
  let j := joinState s m.c
  (passFrom (issueState s j) j.2.1 j.2.2.1 j.2.2.2.1).take m (m.run (actOf s) (memberStart s j))

theorem issueWords_sole {i : Instr} {m : Member} {s : State} (h : Issues i m s) (hawaits : m.awaits = [])
    (hstall : m.stall (issueState s (joinState s m.c)) = false)
    (hearly : (m.run (actOf s) (memberStart s (joinState s m.c))).early = none)
    (hblock : (m.run (actOf s) (memberStart s (joinState s m.c))).block = none) :
    (issueWords m [] false s).pass = solePass s m := by
  have hahead : (standOf s.hart (joinState s m.c).1).ahead = 0 := by rw [h.stand]; rfl
  have hpass := runPass_sole (p := passFrom (issueState s (joinState s m.c)) (joinState s m.c).2.1 (joinState s m.c).2.2.1
    (joinState s m.c).2.2.2.1) rfl h.admitted hawaits hstall hearly hblock
  simp only [issueWords, Bool.false_eq_true, if_false, hahead]
  exact hpass

/-- What a member whose one effect is a register result answers (R193). -/
def regResult (s : State) (gd : Reg) (v : Word) (accepted : Bool) : MRes :=
  { st := s, gw := some (gd, v), seamAccepted := accepted }

/-- R150, R193: a word whose member has a register result alone completes with it. -/
theorem runWords_regResult {i : Instr} {m : Member} {s : State} {gd : Reg} {v : Word} {b : Bool}
    (h : Issues i m s) (hawaits : m.awaits = []) (hstall : m.stall (issueState s (joinState s m.c)) = false)
    (hrun : m.run (actOf s) (memberStart s (joinState s m.c)) = regResult (memberStart s (joinState s m.c)) gd v b) :
    runWords [m] s = .next
      (let p := solePass s m
       let t := completeConvoy (joinState s m.c).1 p
       { t with hart := { t.hart with
          convoy := .open (joinState s m.c).1 p.classes p.pos p.alone, pc := s.hart.pc + 4 } }) := by
  have hpass : (issueWords m [] false s).pass = solePass s m :=
    issueWords_sole h hawaits hstall (by rw [hrun]; rfl) (by rw [hrun]; rfl)
  have hlow : (solePass s m).low = none := by simp [solePass, hrun]; rfl
  have hblock : (solePass s m).block = none := by simp [solePass, hrun]; rfl
  have hissue : (solePass s m).issue = none := rfl
  have hcount : (solePass s m).count = 1 := rfl
  have hfirst : (issueWords m [] false s).first = (joinState s m.c).1 := rfl
  simp [runWords, runConvoy, passStop, Issue.before, hpass, hlow, hblock, hissue, hcount, hfirst, Tail.bars, wordsOn]

/-! ### A word with one register result -/

/-- The convoy that begins at `first` has completed with `v` in `gd`: its stop state has cleared, but not within a handler
(R150, R153), and nothing has changed but registers, convoy, stop state and counts. -/
structure RegDone (first : BitVec 48) (s : State) (gd : Reg) (v : Word) (t : State) : Prop where
  stands : t.hart.stands = if trapActive s then (dropStand first s.hart).stands else []
  stidx : t.hart.ctrl.stidx = if trapActive s then s.hart.ctrl.stidx else 0
  kd : t.hart.kd = if trapActive s then s.hart.kd else 0
  reg : ∀ r, readG t r = if r = gd ∧ gd ≠ 0 then v else readG s r
  frame : ∃ gpr convoy kd stands admitted sent stidx pmc, t = { s with hart := { s.hart with
    gpr := gpr, convoy := convoy, kd := kd, stands := stands, admitted := admitted, sent := sent
    ctrl := { s.hart.ctrl with stidx := stidx, pmc := pmc } } }

/-- What `completeConvoy` makes of a pass with one register result, where no `vldff` has left a cut (R228). -/
theorem completeConvoy_regResult {first : BitVec 48} {s t : State} {p : Pass} {m : Member} {gd : Reg} {v : Word} {b : Bool}
    (ht : Issued s t) (hgws : p.gws = []) (hadv : p.adv = []) (hvl : p.newVl = none) (hacq : p.acquires = false)
    (hcut : (standOf s.hart first).cut = none) :
    RegDone first s gd v (completeConvoy first (p.take m (regResult t gd v b))) := by
  have hstate : (p.take m (regResult t gd v b)).adv.foldl advanceStream
      (applyRegs (p.take m (regResult t gd v b)).gws (p.take m (regResult t gd v b)).st) = writeG t gd v := by
    simp [Pass.take, regResult, hgws, hadv, applyRegs]
  have hleft : (p.take m (regResult t gd v b)).vlLeft (standOf (writeG t gd v).hart first) = none := by
    have hstand : standOf (writeG t gd v).hart first = standOf s.hart first := by
      obtain ⟨_, _, rfl⟩ := ht
      simp [standOf]
    simp [Pass.vlLeft, Pass.take, regResult, hvl, hstand, hcut]
  have hkeeps : (p.take m (regResult t gd v b)).acquires = false := by simp [Pass.take, regResult, hacq]
  have hact : trapActive (writeG t gd v) = trapActive s := by
    obtain ⟨_, _, rfl⟩ := ht
    simp [trapActive]
  have hreg (r : Reg) : readG (writeG t gd v) r = if r = gd ∧ gd ≠ 0 then v else readG s r := by
    obtain ⟨_, _, rfl⟩ := ht
    exact readG_writeG ..
  unfold completeConvoy
  simp only [hstate, hleft, hkeeps, Bool.false_eq_true, if_false]
  change RegDone first s gd v (if trapActive (writeG t gd v) = true then _ else _)
  rw [hact]
  rw [writeG_eq] at hreg ⊢
  obtain ⟨_, _, rfl⟩ := ht
  split
  · next h => exact ⟨(if_pos h).symm, (if_pos h).symm, (if_pos h).symm, hreg, ⟨_, _, _, _, _, _, _, _, rfl⟩⟩
  · next h => exact ⟨(if_neg h).symm, (if_neg h).symm, (if_neg h).symm, hreg, ⟨_, _, _, _, _, _, _, _, rfl⟩⟩

theorem completeConvoy_sole {i : Instr} {m : Member} {s : State} {gd : Reg} {v : Word} {b : Bool} (h : Issues i m s)
    (hrun : m.run (actOf s) (memberStart s (joinState s m.c)) = regResult (memberStart s (joinState s m.c)) gd v b) :
    RegDone (joinState s m.c).1 s gd v (completeConvoy (joinState s m.c).1 (solePass s m)) := by
  have hcut : (standOf s.hart (joinState s m.c).1).cut = none := by rw [h.stand]; rfl
  dsimp only [solePass]
  rw [hrun]
  exact completeConvoy_regResult (memberStart_issued s _) rfl rfl rfl rfl hcut

/-- A word whose member has a register result alone writes it, and changes nothing else but stop state and counts. -/
theorem convoyWritesReg_of_regResult {i : Instr} {m : Member} {s : State} {srcs : List Win} {gd : Reg} {v : Word} {b : Bool}
    (hexec : exec i s = runWords [m] s) (hmember : memberOf i = some m) (hawaits : m.awaits = [])
    (hstall : m.stall (issueState s (joinState s m.c)) = false)
    (hrun : Issues i m s →
      m.run (actOf s) (memberStart s (joinState s m.c)) = regResult (memberStart s (joinState s m.c)) gd v b) :
    ConvoyWritesReg i s srcs gd v := by
  intro m' h _
  obtain rfl : m' = m := Option.some.inj (h.member.symm.trans hmember)
  refine ⟨_, hexec.trans (runWords_regResult h hawaits hstall (hrun h)), ?_⟩
  obtain ⟨hstands, hstidx, hkd, hreg, hframe⟩ := completeConvoy_sole h (hrun h)
  dsimp only
  generalize completeConvoy (joinState s m'.c).1 (solePass s m') = t at *
  obtain ⟨_, _, _, _, _, _, _, _, rfl⟩ := hframe
  exact ⟨⟨rfl, ⟨_, _, _, _, rfl, hstands⟩, hstidx, hkd⟩, hreg, ⟨fun _ => rfl, fun _ => rfl⟩, rfl⟩

end Sys2Proof.Proofs
end

section
/-!
PROOFS. O38: the status word that `sstat` writes (R296, R297).
-/
namespace Sys2Proof.Proofs

open Sys2Proof Sys2Proof.Machine

/-! ### The held rows of a sparse list -/

/-- No key of a sparse list is below its bound. -/
theorem key_ge_of_mem {α : Type} [DecidableEq α] (d : α) : ∀ (l : List (Nat × α)) (lo : Nat), smWfFrom d lo l = true →
    ∀ x ∈ l, lo ≤ x.1
  | [], _, _, _, hx => by simp at hx
  | (k, v) :: t, lo, h, x, hx => by
    simp only [smWfFrom, Bool.and_eq_true, decide_eq_true_eq] at h
    rcases List.mem_cons.mp hx with rfl | hx
    · exact h.1.1
    · have := key_ge_of_mem d t (k + 1) h.2 x hx
      omega

/-- A key of a sparse list reads its value. -/
theorem smGet_of_mem {α : Type} [DecidableEq α] (d : α) : ∀ (l : List (Nat × α)) (lo : Nat), smWfFrom d lo l = true →
    ∀ x ∈ l, smGet d l x.1 = x.2
  | [], _, _, _, hx => by simp at hx
  | (k, v) :: t, lo, h, x, hx => by
    simp only [smWfFrom, Bool.and_eq_true, decide_eq_true_eq] at h
    rcases List.mem_cons.mp hx with rfl | hx
    · simp [smGet]
    · have hlt : k < x.1 := key_ge_of_mem d t (k + 1) h.2 x hx
      rw [smGet, if_neg (by omega), if_neg (by omega)]
      exact smGet_of_mem d t (k + 1) h.2 x hx

/-- A key that does not read the default is listed with its value. -/
theorem mem_of_smGet_ne {α : Type} (d : α) : ∀ (l : List (Nat × α)) (k : Nat), smGet d l k ≠ d → (k, smGet d l k) ∈ l
  | [], _, h => absurd rfl h
  | (k', v) :: t, k, h => by
    unfold smGet at h ⊢
    split
    · next hk => simp [hk]
    · next hne =>
      rw [if_neg hne] at h
      split
      · next hlt => exact absurd (if_pos hlt) h
      · next hge =>
        rw [if_neg hge] at h
        exact List.mem_cons_of_mem _ (mem_of_smGet_ne d t k h)

/-- Some listed key below `n` has a property that the default lacks exactly if some key below `n` reads a value with it. -/
theorem any_below_iff {α : Type} [DecidableEq α] {d : α} {l : List (Nat × α)} (h : smWf d l = true) (p : α → Bool)
    (hp : p d = false) (n : Nat) :
    (l.filter (fun x => decide (x.1 < n))).any (fun x => p x.2) = true ↔ ∃ k < n, p (smGet d l k) = true := by
  simp only [List.any_eq_true, List.mem_filter, decide_eq_true_eq]
  constructor
  · rintro ⟨x, ⟨hx, hlt⟩, hpx⟩
    exact ⟨x.1, hlt, by rwa [smGet_of_mem d l 0 h x hx]⟩
  · rintro ⟨k, hlt, hpk⟩
    have hne : smGet d l k ≠ d := fun he => by simp [he, hp] at hpk
    exact ⟨_, ⟨mem_of_smGet_ne d l k hne, hlt⟩, hpk⟩

/-! ### The fields of the word -/

/-- R297: the status word as a number, by its fields. -/
def statusNat (nan nonzero joined : Bool) (gw : BitVec 2) (grant : Nat) : Nat :=
  nan.toNat * 2 ^ 20 + nonzero.toNat * 2 ^ 19 + joined.toNat * 2 ^ 18 + gw.toNat * 2 ^ 16 + grant % 2 ^ 16

/-- Some held row satisfies `p`. -/
def anyHeld (p : SeamRow → Bool) (s : State) : Bool :=
  (s.hart.seam.rows.filter (fun r => decide (r.1 < s.hart.seam.grant))).any (fun r => p r.2)

theorem anyHeld_iff {s : State} (h : Canonical s) {p : SeamRow → Bool} (hp : p SeamRow.zero = false) :
    anyHeld p s = true ↔ ∃ r < s.hart.seam.grant, p (seamRow s r) = true := by
  obtain ⟨_, _, hrows, _⟩ := h.strands s.hart List.mem_cons_self
  exact any_below_iff hrows p hp s.hart.seam.grant

/-- The row's delta is a NaN. -/
def deltaNan (r : SeamRow) : Bool := (readF f32 false r.delta.toNat).isNan

/-- The row's delta is not +0. -/
def deltaNonzero (r : SeamRow) : Bool := r.delta != 0

theorem seamStatus_eq (s : State) : seamStatus s = BitVec.ofNat 64
    (statusNat (anyHeld deltaNan s) (anyHeld deltaNonzero s) (joinedSlots s 0) s.hart.seam.gw s.hart.seam.grant) := by
  have bit (b : Bool) (n : Nat) : (if b = true then 2 ^ n else 0) = b.toNat * 2 ^ n := by cases b <;> simp
  unfold seamStatus statusNat
  simp only [bit]
  rfl

/-- The status word does not reach bit 21. -/
theorem statusNat_lt (nan nonzero joined : Bool) (gw : BitVec 2) (grant : Nat) :
    statusNat nan nonzero joined gw grant < 2 ^ 21 := by
  have := nan.toNat_le
  have := nonzero.toNat_le
  have := joined.toNat_le
  have := gw.isLt
  unfold statusNat
  omega

/-- A bit of a number that fits. -/
theorem bitW_ofNat {v i : Nat} {b : Bool} (hv : v < 2 ^ 64) (h : v / 2 ^ i % 2 = b.toNat) : bitW (BitVec.ofNat 64 v) i = b := by
  rw [bitW, BitVec.getLsbD, BitVec.toNat_ofNat, Nat.mod_eq_of_lt hv, Nat.testBit_eq_decide_div_mod_eq, h]
  cases b <;> rfl

/-- R297: the fields of the status word. -/
theorem statusNat_fields (nan nonzero joined : Bool) (gw : BitVec 2) (grant : Nat) :
    let v : Word := BitVec.ofNat 64 (statusNat nan nonzero joined gw grant)
    bitsW v 0 16 = grant % 2 ^ 16 ∧ bitsW v 16 2 = gw.toNat ∧ bitW v 18 = joined ∧ bitW v 19 = nonzero ∧ bitW v 20 = nan ∧
      bitsW v 21 43 = 0 := by
  have hfits : statusNat nan nonzero joined gw grant < 2 ^ 64 :=
    Nat.lt_trans (statusNat_lt nan nonzero joined gw grant) (by decide)
  have hbits := statusNat_lt nan nonzero joined gw grant
  have := nan.toNat_le
  have := nonzero.toNat_le
  have := joined.toNat_le
  have := gw.isLt
  simp only [bitsW_ofNat _ _ _ hfits]
  refine ⟨?_, ?_, bitW_ofNat hfits ?_, bitW_ofNat hfits ?_, bitW_ofNat hfits ?_, ?_⟩
  all_goals unfold statusNat at *; omega

/-! ### What `sstat` writes -/

/-- R296: with no contribution pending, the member of `sstat` has the status word as its one result. -/
theorem memSstat_run {c : BitVec 1} {ga : Reg} {s : State} (hpending : pendingRow (fun _ => true) s = false)
    (h : Issues (.sstat c ga) (memSstat c ga) s) :
    let t := memberStart s (joinState s (memSstat c ga).c)
    (memSstat c ga).run (actOf s) t = regResult t ga (seamStatus s) true := by
  intro t
  have hdone : seamDone t = false := seamDone_memberStart h
  obtain ⟨_, _, ht⟩ : Issued s t := memberStart_issued s _
  have hpending' : pendingRow (fun _ => true) t = false := by rw [ht]; exact hpending
  have hstatus : seamStatus t = seamStatus s := by rw [ht]; rfl
  change (if seamDone t = true then passSeam t else afterContribs (fun _ => true) _ t) = _
  rw [hdone, if_neg Bool.false_ne_true, afterContribs, hpending', if_neg Bool.false_ne_true, hstatus]
  rfl

/-- Settles O38: the word that `sstat` writes is the status word, whose bits are the fields of `statusNat`. -/
protected theorem seamStatus : Obligations.SeamStatus := by
  unfold Obligations.SeamStatus
  intro c ga s hcanonical _ hpending
  refine ⟨seamStatus s, convoyWritesReg_of_regResult rfl rfl rfl rfl (memSstat_run hpending), ?_⟩
  rw [seamStatus_eq]
  obtain ⟨hgrant, hgw, hjoined, hnonzero, hnan, hrest⟩ := statusNat_fields (anyHeld deltaNan s) (anyHeld deltaNonzero s)
    (joinedSlots s 0) s.hart.seam.gw s.hart.seam.grant
  refine ⟨hgrant, hgw, hjoined, ?_, ?_, hrest⟩
  · rw [hnonzero, anyHeld_iff hcanonical (by decide)]
    simp [deltaNonzero]
  · rw [hnan, anyHeld_iff hcanonical (by decide)]
    rfl

end Sys2Proof.Proofs
end
